-- ==== Sys2Proof/Word.lean ====
section
/-! DEFINITION. The two bit-vector widths of RBC: every register and address is 32 bits (spec R6, R22),
the addressable unit of MEM is the byte (spec R46). -/

namespace Sys2Proof

/-- A 32-bit register value, operand or command word (R6, R7: unsigned, bit 0 least significant). -/
abbrev Word := BitVec 32

/-- One byte of MEM (R60). -/
abbrev Byte := BitVec 8

end Sys2Proof
end

