-- ==== Sys2Proof/Syntax.lean ====
section
/-! DEFINITION. The commands of RBC as syntax: one constructor per row of spec/opcode_table.json. -/

namespace Sys2Proof

/-- The role a BIND gives a port (R39, R91: 0 PRODUCER, 1 CONSUMER). -/
inductive Role where
  | producer
  | consumer
deriving DecidableEq, Repr

/-- A command of RBC (R92). Every other operand comes from LARG0 to LARG3 (R100). -/
inductive Instr where
  /-- NOP (R110). -/
  | nop
  /-- BIND (R111): KIND, PROTO, ROLE and INIT of format B. KIND 11 to 15 is a legal encoding (R98). -/
  | bind (kind : BitVec 4) (proto : BitVec 2) (role : Role) (init : Bool)
  /-- SIZE (R120): KIND of format K. -/
  | size (kind : BitVec 4)
  /-- EMPTY (R161). -/
  | empty
  /-- FULL (R162). -/
  | full
  /-- CAPACITY (R163). -/
  | capacity
  /-- AVAIL.READ (R164). -/
  | availRead
  /-- AVAIL.WRITE (R165). -/
  | availWrite
  /-- PUSH (R140). -/
  | push
  /-- POP (R145). -/
  | pop
  /-- WSPAN.ACQ (R150). -/
  | wspanAcq
  /-- WSPAN.COMMIT (R155): DFLT of format C. -/
  | wspanCommit (dflt : Bool)
  /-- AENQ (R171). -/
  | aenq
  /-- ADEQ (R172). -/
  | adeq
  /-- PENQ (R181): PIDX of format P. -/
  | penq (pidx : BitVec 8)
  /-- PDEQ (R182). -/
  | pdeq
  /-- DEINT (R192). -/
  | deint
  /-- INTER (R193). -/
  | inter
deriving DecidableEq, Repr

end Sys2Proof
end

