-- ==== Sys2Proof/WellFormed.lean ====
section
/-! DEFINITION. Which commands have a legal encoding (spec R98). -/

namespace Sys2Proof

/-- The one check the field types leave open: PROTO = 3 of format B is reserved (R91, R98). A KIND of 11
to 15 is a legal encoding (R98); every value of ROLE, INIT, DFLT and PIDX is legal. -/
def Instr.wellFormed (i : Instr) : Bool :=
  match i with
  | .bind _ proto _ _ => proto != 3#2
  | .nop => true
  | .size _ => true
  | .empty => true
  | .full => true
  | .capacity => true
  | .availRead => true
  | .availWrite => true
  | .push => true
  | .pop => true
  | .wspanAcq => true
  | .wspanCommit _ => true
  | .aenq => true
  | .adeq => true
  | .penq _ => true
  | .pdeq => true
  | .deint => true
  | .inter => true

end Sys2Proof
end

