-- ==== Sys2Proof/Decode.lean ====
section
/-! DEFINITION. Decoding and encoding of command words (spec R90 to R98, spec/opcode_table.json). -/

namespace Sys2Proof

/-- Why a command word is no command; each ends with ILLEGAL_CMD (R96, R97, R98). -/
inductive DecodeError where
  /-- The opcode is one R97 reserves. -/
  | reservedOpcode (opc : BitVec 8)
  /-- A bit its format marks "must be 0" is 1 (R96). -/
  | reservedBits (w : Word)
  /-- PROTO = 3 in format B (R98). -/
  | reservedProto (w : Word)
deriving DecidableEq, Repr

/-- A row of the opcode map (R92). -/
inductive Op where
  | nop | bind | size | empty | full | capacity | availRead | availWrite
  | push | pop | wspanAcq | wspanCommit | aenq | adeq | penq | pdeq | deint | inter
deriving DecidableEq, Repr

/-- The rows in the order of the table (R92). -/
def Op.all : List Op :=
  [.nop, .bind, .size, .empty, .full, .capacity, .availRead, .availWrite,
   .push, .pop, .wspanAcq, .wspanCommit, .aenq, .adeq, .penq, .pdeq, .deint, .inter]

/-- OPC, bits 31:24 of the word (R91, R92). -/
def Op.opc : Op → BitVec 8
  | .nop => 0x00#8
  | .bind => 0x01#8
  | .size => 0x02#8
  | .empty => 0x03#8
  | .full => 0x04#8
  | .capacity => 0x05#8
  | .availRead => 0x06#8
  | .availWrite => 0x07#8
  | .push => 0x10#8
  | .pop => 0x11#8
  | .wspanAcq => 0x12#8
  | .wspanCommit => 0x13#8
  | .aenq => 0x20#8
  | .adeq => 0x21#8
  | .penq => 0x30#8
  | .pdeq => 0x31#8
  | .deint => 0x40#8
  | .inter => 0x41#8

/-- The bits of the word that the row fixes: the opcode and the bits its format marks "must be 0" (R91, R95). -/
def Op.mask : Op → Word
  | .bind => 0xFF00FFFF#32
  | .size => 0xFF0FFFFF#32
  | .wspanCommit => 0xFFFEFFFF#32
  | .penq => 0xFFFFFF00#32
  | .nop | .empty | .full | .capacity | .availRead | .availWrite | .push | .pop | .wspanAcq
  | .aenq | .adeq | .pdeq | .deint | .inter => 0xFFFFFFFF#32

/-- The value of the fixed bits: OPC in bits 31:24 and zeros (R91, R95). -/
def Op.pattern (o : Op) : Word := o.opc ++ 0#24

/-- OPC of a word (R91). -/
def fieldOpc (w : Word) : BitVec 8 := w.extractLsb' 24 8

/-- KIND of formats B and K, bits 23:20 (R91). -/
def fieldKind (w : Word) : BitVec 4 := w.extractLsb' 20 4

/-- PROTO of format B, bits 19:18 (R91). -/
def fieldProto (w : Word) : BitVec 2 := w.extractLsb' 18 2

/-- ROLE of format B, bit 17 (R91). -/
def fieldRole (w : Word) : Role := if w.getLsbD 17 then .consumer else .producer

/-- INIT of format B and DFLT of format C, bit 16 (R91). -/
def fieldBit16 (w : Word) : Bool := w.getLsbD 16

/-- PIDX of format P, bits 7:0 (R91). -/
def fieldPidx (w : Word) : BitVec 8 := w.extractLsb' 0 8

/-- The command a word of the row stands for: its fields as they stand (R99). -/
def Op.build (o : Op) (w : Word) : Instr :=
  match o with
  | .nop => .nop
  | .bind => .bind (fieldKind w) (fieldProto w) (fieldRole w) (fieldBit16 w)
  | .size => .size (fieldKind w)
  | .empty => .empty
  | .full => .full
  | .capacity => .capacity
  | .availRead => .availRead
  | .availWrite => .availWrite
  | .push => .push
  | .pop => .pop
  | .wspanAcq => .wspanAcq
  | .wspanCommit => .wspanCommit (fieldBit16 w)
  | .aenq => .aenq
  | .adeq => .adeq
  | .penq => .penq (fieldPidx w)
  | .pdeq => .pdeq
  | .deint => .deint
  | .inter => .inter

/-- A word selects a row when `(w & mask) = match` (R95). -/
def Op.selects (o : Op) (w : Word) : Bool := w &&& o.mask == o.pattern

/-- The row a word selects, none where it selects no row (R95). -/
def selectRow (w : Word) : Option Op := Op.all.find? (fun o => o.selects w)

/-- Decoding a command word (R95 to R98). HAS_XPOSE does not enter here: DEINT and INTER without the engine
end with ILLEGAL_CMD in their own checks (R191). -/
def decode (w : Word) : Except DecodeError Instr :=
  match selectRow w with
  | some o =>
    let i := o.build w
    if i.wellFormed then .ok i else .error (.reservedProto w)
  | none =>
    if Op.all.any (fun o => o.opc == fieldOpc w) then .error (.reservedBits w)
    else .error (.reservedOpcode (fieldOpc w))

/-- The row a command belongs to (R92). -/
def Instr.op (i : Instr) : Op :=
  match i with
  | .nop => .nop
  | .bind _ _ _ _ => .bind
  | .size _ => .size
  | .empty => .empty
  | .full => .full
  | .capacity => .capacity
  | .availRead => .availRead
  | .availWrite => .availWrite
  | .push => .push
  | .pop => .pop
  | .wspanAcq => .wspanAcq
  | .wspanCommit _ => .wspanCommit
  | .aenq => .aenq
  | .adeq => .adeq
  | .penq _ => .penq
  | .pdeq => .pdeq
  | .deint => .deint
  | .inter => .inter

/-- The bit that ROLE encodes (R91: 0 PRODUCER, 1 CONSUMER). -/
def Role.bit (r : Role) : BitVec 1 :=
  match r with
  | .producer => 0#1
  | .consumer => 1#1

/-- Bits 23:0 of a command's word, by its format (R91). -/
def Instr.low24 (i : Instr) : BitVec 24 :=
  match i with
  | .bind kind proto role init => kind ++ proto ++ role.bit ++ BitVec.ofBool init ++ 0#16
  | .size kind => kind ++ 0#20
  | .wspanCommit dflt => 0#7 ++ BitVec.ofBool dflt ++ 0#16
  | .penq pidx => 0#16 ++ pidx
  | .nop | .empty | .full | .capacity | .availRead | .availWrite | .push | .pop | .wspanAcq
  | .aenq | .adeq | .pdeq | .deint | .inter => 0#24

/-- The command word of a command: OPC in bits 31:24, then its format's fields (R91, R92). -/
def encode (i : Instr) : Word := i.op.opc ++ i.low24

/-- The command the decoder reads from the table's bits: a command is one 32-bit word (R90), so bits
above `nbits` are 0 and bits above 31 do not exist. -/
def decodeTableWord (nbits w : Nat) : Option Instr :=
  match decode (BitVec.ofNat 32 (w % 2 ^ nbits)) with
  | .ok i => some i
  | .error _ => none

end Sys2Proof
end

