-- ==== Sys2Proof/Config.lean ====
section
/-! DEFINITION. What an implementation of RBC fixes (spec R6), the constants of the architecture, and the
free values of the model. -/

namespace Sys2Proof

/-- The configuration of one RBC (R6): the parameters a model takes as arguments. It is not state (R20):
`Machine.State` carries it in a field that no step changes (log 2). -/
structure Config where
  /-- NPORTS, the number of command ports, 2 to 16 (R6, R23). -/
  nports : Nat
  /-- HAS_XPOSE, the transpose engine is present (R6, R190). -/
  hasXpose : Bool
  /-- MEM_SIZE in bytes, 1 to 2^32, OPEN in the spec (R6, R24). -/
  memSize : Nat
  /-- REG_BASE, the host address of the register block, OPEN in the spec (R6, R22). -/
  regBase : Nat
  /-- IRQ_ROUTE, OPEN in the spec (R6, R207): entry `p` is the host interrupt input that IRQ[p] drives. -/
  irqRoute : List Nat
deriving DecidableEq, Repr

/-- The ranges R6 gives the parameters (and REG_BASE aligned to a word, 92_eei_decisions.md). -/
def Config.ok (c : Config) : Bool :=
  decide (2 ≤ c.nports) && decide (c.nports ≤ 16) && decide (1 ≤ c.memSize) &&
    decide (c.memSize ≤ 2 ^ 32) && decide (c.regBase % 4 = 0)

/-- The configuration of `Machine.State.reset`: the spec's defaults for NPORTS and HAS_XPOSE (R6), and
DESIGN CHOICE values for the OPEN parameters, MEM_SIZE as in 95_test_vectors.md (log 2). -/
def Config.standard : Config where
  nports := 2
  hasXpose := true
  memSize := 0x10000
  regBase := 0
  irqRoute := []

/-- A FREE VALUE: the byte a racing read returns, or that stands where two unordered writes or an overlap
leave "any value" (R77, R141, R146, R196). Applied to `Machine.State.free`, so every draw is its own.
No body: nothing can be proved about it (log 5). -/
opaque Config.freeByte : Nat → Byte

/-- Bytes before the first slot (R6, R47). -/
def Config.headerSize : Nat := 8

/-- BLOCK_FRAMES, frames in a transpose block (R6, R190). -/
def Config.blockFrames : Nat := 128

/-- Bytes in a parameter record (R6, R180). -/
def Config.recordSize : Nat := 5

/-- MAX_SLOTS, the largest physical slot count (R6, R112). -/
def Config.maxSlots : Nat := 2 ^ 31

/-- The value of the ID register, "RBC1" (R22). -/
def Config.idValue : Word := 0x52424331#32

end Sys2Proof
end

