-- ==== Sys2Proof/Machine/State.lean ====
section
/-! DEFINITION. The state of RBC as plain data (spec R20, R41), the model's own fields beside it, the reasons a
step can stop, and the machine right after reset (R230, R231). -/

namespace Sys2Proof.Machine

/-- The error codes of R201 that `raise` can record. -/
inductive ErrCode where
  | illegalCmd
  | notBound
  | role
  | proto
  | align
  | bus
  | typeMismatch
  | sizeMismatch
  | sizeOverflow
  | indexRange
  | grantPending
  | noGrant
  | commitRange
  | partialRecord
deriving DecidableEq, Repr

/-- The engine position of a port (R41, R93): idle, or the micro-step of the current command that runs next. -/
inductive EnginePos where
  /-- No command runs. -/
  | idle
  /-- The decode step: every check before the first memory event (R93). -/
  | decode
  /-- BIND with INIT: the store of 0 to write_index (R113). -/
  | initWr
  /-- BIND with INIT: the store of 0 to read_index (R113). -/
  | initRd
  /-- LoadIndices: the atomic load of read_index (R131). -/
  | loadRd
  /-- LoadIndices: the atomic load of write_index, and the checks on both (R131). -/
  | loadWr
  /-- DEINT and INTER: the read of channel-pointer table entry `c`, and its checks (R191). -/
  | tableRead (c : Nat)
  /-- The read event of CopyElem number `k` (R9, R68). -/
  | copyRead (k : Nat)
  /-- The write event of CopyElem number `k` (R9, R68). -/
  | copyWrite (k : Nat)
  /-- PENQ: the write of record byte `k` (R181). -/
  | recordWrite (k : Nat)
  /-- PDEQ: the read of record byte `k` (R182). -/
  | recordRead (k : Nat)
  /-- The publishing AtomicStore32 (R140, R145, R155, R181, R182). -/
  | publish
  /-- The finish step (R94). -/
  | finish
  /-- A check failed: the `raise` step is next (R203, log 9). -/
  | raising (e : ErrCode) (info : Word)
deriving DecidableEq, Repr

/-- The registers and the hidden state of one port (R27, R41). -/
structure Port where
  /-- CMD (R29). -/
  cmd : Word
  /-- STATUS (R30): BUSY, DONE, ERR, OVR, BOUND, GRANT in bits 0 to 5. -/
  status : Word
  /-- CTRL (R32): DONE_IE, ERR_IE in bits 0 and 1. -/
  ctrl : Word
  /-- ERR_CAUSE (R33). -/
  errCause : Word
  /-- ERR_INFO (R34). -/
  errInfo : Word
  /-- ARG0 (R35). -/
  arg0 : Word
  /-- ARG1 (R35). -/
  arg1 : Word
  /-- ARG2 (R35). -/
  arg2 : Word
  /-- ARG3 (R35). -/
  arg3 : Word
  /-- RES0 (R36). -/
  res0 : Word
  /-- RES1 (R36). -/
  res1 : Word
  /-- RES2 (R36). -/
  res2 : Word
  /-- SEG_BASE (R37). -/
  segBase : Word
  /-- SLOTS (R38). -/
  slots : Word
  /-- BINDCFG (R39): KIND, ESIZE, PROTO, ROLE. -/
  bindcfg : Word
  /-- SPAN0_ADDR (R40). -/
  span0Addr : Word
  /-- SPAN0_LEN (R40). -/
  span0Len : Word
  /-- SPAN1_ADDR (R40). -/
  span1Addr : Word
  /-- SPAN1_LEN (R40). -/
  span1Len : Word
  /-- LCMD (R41). -/
  lcmd : Word
  /-- LARG0 (R41). -/
  larg0 : Word
  /-- LARG1 (R41). -/
  larg1 : Word
  /-- LARG2 (R41). -/
  larg2 : Word
  /-- LARG3 (R41). -/
  larg3 : Word
  /-- LRD (R41): the read_index the current command loaded. -/
  lrd : Word
  /-- LWR (R41): the write_index the current command loaded. -/
  lwr : Word
  /-- GRANT_WR (R41). -/
  grantWr : Word
  /-- GRANT_N (R41). -/
  grantN : Word
  /-- The engine position (R41). -/
  pos : EnginePos
  /-- The bytes a CopyElem read and has not written yet (R9). -/
  elem : List Byte
  /-- The transpose engine's copy P[] of the channel pointers read so far (R191). -/
  table : List Word
  /-- The record bytes r[] PDEQ has read so far (R182). -/
  record : List Byte
deriving DecidableEq, Repr

/-- A port right after reset (R27, R230, R231). -/
def Port.reset : Port where
  cmd := 0
  status := 0
  ctrl := 0
  errCause := 0
  errInfo := 0
  arg0 := 0
  arg1 := 0
  arg2 := 0
  arg3 := 0
  res0 := 0
  res1 := 0
  res2 := 0
  segBase := 0
  slots := 0
  bindcfg := 0
  span0Addr := 0
  span0Len := 0
  span1Addr := 0
  span1Len := 0
  lcmd := 0
  larg0 := 0
  larg1 := 0
  larg2 := 0
  larg3 := 0
  lrd := 0
  lwr := 0
  grantWr := 0
  grantN := 0
  pos := .idle
  elem := []
  table := []
  record := []

/-- MEM (R60) as its listed bytes: addresses strictly rising, no byte equal to what an unlisted address
reads as (`Memory.wf`; an unlisted address reads as `Memory.blank`, log 3). -/
abbrev Memory := List Host.Cell

/-- The kinds of memory event (R68). -/
inductive EventKind where
  /-- A data read event (R67): of a CopyElem, of a record byte (R182), or of the host. -/
  | read
  /-- A read of a channel-pointer table entry (R191). -/
  | table
  /-- A data write event (R67). -/
  | write
  /-- An AtomicLoad32 of an index word (R66). -/
  | load
  /-- An AtomicStore32 that publishes an index (R66). -/
  | store
  /-- An AtomicStore32 of a BIND with INIT (R113). -/
  | init
deriving DecidableEq, Repr

/-- A clock: for each agent, how many of its memory events are ordered before a point (R74). -/
abbrev Clock := List Nat

/-- One memory event (R68). Agent 0 is the host, agent `p + 1` is port `p`. -/
structure MemEvent where
  /-- Who made it. -/
  agent : Nat
  /-- That agent's own number for it, from 1. -/
  time : Nat
  kind : EventKind
  /-- The bytes it touched are [addr, addr+len). -/
  addr : Nat
  len : Nat
  /-- The events ordered before it (R74). -/
  seen : Clock
deriving DecidableEq, Repr

/-- What an agent knows of a port's being idle (R218). -/
inductive Known where
  /-- Nothing, or no longer. -/
  | no
  /-- The host has read STATUS of the port with BUSY = 0, and the port has accepted no command since. -/
  | idle
  /-- As `idle`, but for one BIND that the port has accepted since. -/
  | rebinding
deriving DecidableEq, Repr

/-- A byte of a read that a later write races with (R77). -/
structure LateRead where
  /-- Which read: the number of memory events that come before it. -/
  event : Nat
  /-- The byte. -/
  byte : Nat
deriving DecidableEq, Repr

/-- The ordering record (R73 to R80), the MODEL's own field: the events so far, and which of them are ordered
before (happens-before) each agent's next step (log 4). -/
structure Order where
  /-- Per agent, the events ordered before its next step. -/
  clocks : List Clock
  /-- Per port, the events ordered before the finish step of its last finished command (R74 edge 4). -/
  finished : List Clock
  /-- Per index word, the events ordered before the AtomicStore32 whose value it holds (R74 edge 2). -/
  released : List (Nat × Clock)
  /-- The memory events so far, newest first. -/
  trace : List MemEvent
  /-- Per agent and port: what the agent knows of the port's being idle. A command knows what the host knew when it
  wrote CMD (R218). -/
  known : List (List Known)
  /-- The reads of the current step that a later write races with (R77): such a read returns any value (log 6). -/
  foreseen : List LateRead
  /-- The reads of the planned run that a later write races with, as the last step found them (R77, log 6). -/
  plan : List LateRead
deriving DecidableEq, Repr

/-- The next move of the machine: an access of the host, a step of a port, or reset. The list of moves in
`State.agenda` says which agent moves next (R217, log 1). -/
inductive Move where
  /-- The host reads `width` bytes of the register space at `addr` (R28). -/
  | regRead (addr width : Nat)
  /-- The host writes `v` to `width` bytes of the register space at `addr` (R28). -/
  | regWrite (addr width : Nat) (v : Word)
  /-- The host reads `n` bytes of MEM at `addr` (R62). -/
  | memRead (addr n : Nat)
  /-- The host writes the bytes `bs` to MEM at `addr` (R62). -/
  | memWrite (addr : Nat) (bs : List Byte)
  /-- Port `p` takes its next micro-step (R93); an idle port takes none. -/
  | portStep (p : Nat)
  /-- Port `p` takes its micro-steps one after another until its command has ended. -/
  | run (p : Nat)
  /-- The host writes `w` to CMD of port `p`, the port runs the command with no other step in between, and the
  host sees it end: `set CMD`, then `wait` (R102). -/
  | command (p : Nat) (w : Word)
  /-- The host polls STATUS of port `p` until it returns BUSY = 0 (R102 `wait`). -/
  | wait (p : Nat)
  /-- RST (R230). -/
  | rst
deriving DecidableEq, Repr

/-- Why a step stops with a fault. No command's meaning stops so: each fault is met by a move of the host or
by an interleaving outside the host contract. -/
inductive Fault where
  /-- Raised by a host access to a MEM byte at or above MEM_SIZE, which does not exist (R60), and by a port
  event there, which no run reaches (R70). SAFE: the model stops. -/
  | outsideMem (addr : Nat)
  /-- Raised by a host register access outside the register block (R46). SAFE. -/
  | noRegister (addr : Nat)
deriving DecidableEq, Repr

/-- Why a step is refused: the instruction has no meaning yet, or the move breaks a duty of the host for
which R245 says "the model refuses it" (log 10). -/
inductive Refusal where
  /-- Raised only by an arm of `exec` whose instruction has no meaning yet. SAFE. -/
  | notModelled (mnemonic : String)
  /-- Raised by a register access that is not an aligned 32-bit access (R28). SAFE. -/
  | registerAccess (addr width : Nat)
  /-- Raised by the finish step of a BIND that gives a segment a second port of one role, or changes a port's role
  without the order R218 asks for, and by a ring command's step on a port while two ports hold one role on its segment
  (R218). SAFE. -/
  | pairing (p : Nat)
  /-- Raised by a BIND with INIT on a segment that another port is using: beside its ring command or its open grant,
  or not ordered after its accesses to the index words (R113, R218, R236). SAFE. -/
  | initInUse (p : Nat)
  /-- Raised by a data write to an index word of a bound segment by an agent that does not own that word (R85, R218,
  R245). SAFE. -/
  | indexOwnership (addr : Nat)
  /-- Raised by an index load whose word was initialised by an INIT store that is not ordered before the command, or by
  a data write, of one who does not own the word, that is not ordered before the load (R235). SAFE. -/
  | indexInit (addr : Nat)
deriving DecidableEq, Repr

/-- The state of RBC (R20) and the model's own fields. -/
structure State where
  /-- The configuration, constant (R6, R20). -/
  cfg : Config
  /-- The ports 0 to NPORTS − 1 (R26). -/
  ports : List Port
  /-- MEM (R46, R60). -/
  mem : Memory
  /-- The MODEL's own: the port whose micro-step or command is being executed (log 1). -/
  cur : Nat
  /-- The MODEL's own: the moves to come (log 1). -/
  agenda : List Move
  /-- The MODEL's own: the value the last host register read returned (R28). -/
  regData : Word
  /-- The MODEL's own: the bytes the last host MEM read returned (R62). -/
  memData : List Byte
  /-- The MODEL's own: the ordering record (R73 to R80, log 4). -/
  order : Order
  /-- The MODEL's own: how many free values have been drawn (R77, log 5). -/
  free : Nat
deriving DecidableEq, Repr

/-- No memory event has happened: every agent's clock is zero. -/
def Order.start (nports : Nat) : Order where
  clocks := List.replicate (nports + 1) (List.replicate (nports + 1) 0)
  finished := List.replicate nports (List.replicate (nports + 1) 0)
  released := []
  trace := []
  known := List.replicate (nports + 1) (List.replicate nports .no)
  foreseen := []
  plan := []

/-- The machine of a configuration at power-on, which is the reset state (R230, R231), with every byte of MEM
at `Memory.blank` (R232, log 3) and no move planned: RBC starts no command by itself (R234). -/
def State.powerOn (cfg : Config) : State where
  cfg := cfg
  ports := List.replicate cfg.nports Port.reset
  mem := []
  cur := 0
  agenda := []
  regData := 0
  memData := []
  order := Order.start cfg.nports
  free := 0

/-- The machine right after reset, in the standard configuration (R230, R231, log 2). -/
def State.reset : State := State.powerOn Config.standard

end Sys2Proof.Machine
end

