-- ==== Sys2Proof/Machine/Flags.lean ====
section
/-! DEFINITION. STATUS and CTRL bits (spec R30 to R32) and the interrupt lines (R25, R207). -/

namespace Sys2Proof.Machine

/-- The fields of STATUS (R30). -/
inductive Flag where
  | busy
  | done
  | err
  | ovr
  | bound
  | grant
deriving DecidableEq, Repr

/-- The bit of STATUS that holds a field (R30). -/
def Flag.bit (f : Flag) : Nat :=
  match f with
  | .busy => 0
  | .done => 1
  | .err => 2
  | .ovr => 3
  | .bound => 4
  | .grant => 5

/-- The word with only the field's bit set. -/
def Flag.mask (f : Flag) : Word := 1#32 <<< f.bit

/-- A field of STATUS (R30). -/
def Port.flag (p : Port) (f : Flag) : Bool := p.status.getLsbD f.bit

/-- STATUS with one field set or cleared, every other bit as it was (R30). -/
def Port.setFlag (p : Port) (f : Flag) (v : Bool) : Port :=
  { p with status := if v then p.status ||| f.mask else p.status &&& ~~~f.mask }

/-- The bits of STATUS that a host write of 1 clears: DONE, ERR and OVR (R30, R31). -/
def statusW1C : Word := 0xE#32

/-- The bits of CTRL a host write sets: DONE_IE and ERR_IE (R32). -/
def ctrlMask : Word := 0x3#32

/-- A host write of `v` to STATUS (R31): clears each of DONE, ERR and OVR whose bit is 1 in `v`. -/
def Port.writeStatus (p : Port) (v : Word) : Port :=
  { p with status := p.status &&& ~~~(v &&& statusW1C) }

/-- A host write of `v` to CTRL (R32): bits 31:2 ignore the write and read 0. -/
def Port.writeCtrl (p : Port) (v : Word) : Port := { p with ctrl := v &&& ctrlMask }

/-- CTRL.DONE_IE (R32). -/
def Port.doneIe (p : Port) : Bool := p.ctrl.getLsbD 0

/-- CTRL.ERR_IE (R32). -/
def Port.errIe (p : Port) : Bool := p.ctrl.getLsbD 1

/-- The port's interrupt line (R207). -/
def Port.irq (p : Port) : Bool := (p.flag .done && p.doneIe) || ((p.flag .err || p.flag .ovr) && p.errIe)

/-- The port runs a command (R30). -/
def Port.busy (p : Port) : Bool := p.flag .busy

/-- The port is bound to a segment (R30). -/
def Port.bound (p : Port) : Bool := p.flag .bound

/-- A grant is open on the port (R30). -/
def Port.grant (p : Port) : Bool := p.flag .grant

end Sys2Proof.Machine
end

