-- ==== Sys2Proof/Machine/Memory.lean ====
section
/-! DEFINITION. MEM: reading and writing bytes and little-endian words, in one canonical form (spec R60, R61). -/

namespace Sys2Proof.Machine

/-- What an unlisted byte of MEM reads as: the initial array of the model (R232 leaves the power-on contents
unspecified and lets a model start MEM "from a given initial array"). DESIGN CHOICE (log 3). -/
def Memory.blank : Byte := 0

/-- MEM[a] (R60). -/
def Memory.read (m : Memory) (a : Nat) : Byte :=
  match m with
  | [] => Memory.blank
  | c :: rest => if c.1 = a then c.2 else Memory.read rest a

/-- MEM without an entry for `a`. -/
def Memory.erase (m : Memory) (a : Nat) : Memory := m.filter (fun c => c.1 != a)

/-- MEM with the entry `(a, v)` put before the first greater address. -/
def Memory.insert (m : Memory) (a : Nat) (v : Byte) : Memory :=
  match m with
  | [] => [(a, v)]
  | c :: rest => if a < c.1 then (a, v) :: c :: rest else c :: Memory.insert rest a v

/-- MEM[a] <- v. Writing what an unlisted byte reads as removes the entry, so equal memories are equal lists. -/
def Memory.write (m : Memory) (a : Nat) (v : Byte) : Memory :=
  if v = Memory.blank then m.erase a else (m.erase a).insert a v

/-- The bytes MEM[a .. a+n−1] (R9 MemReadBytes). -/
def Memory.readBytes (m : Memory) (a n : Nat) : List Byte := (List.range n).map (fun j => m.read (a + j))

/-- MEM[a+k] <- bs[k] for each k (R9 MemWriteBytes). -/
def Memory.writeBytes (m : Memory) (a : Nat) (bs : List Byte) : Memory :=
  match bs with
  | [] => m
  | b :: rest => Memory.writeBytes (m.write a b) (a + 1) rest

/-- Addresses strictly rising from `lo` on, and no byte equal to what an unlisted byte reads as. -/
def Memory.wfFrom (m : Memory) (lo : Nat) : Bool :=
  match m with
  | [] => true
  | c :: rest => decide (lo ≤ c.1) && c.2 != Memory.blank && Memory.wfFrom rest (c.1 + 1)

/-- The canonical form of MEM. -/
def Memory.wf (m : Memory) : Bool := m.wfFrom 0

/-- The little-endian word of four bytes (R9, R61): byte k is bits 8k+7 to 8k. -/
def leWord (bs : List Byte) : Word :=
  bs.getD 3 0 ++ bs.getD 2 0 ++ bs.getD 1 0 ++ bs.getD 0 0

/-- The four bytes of a word, least significant first (R9, R61). -/
def leBytes (v : Word) : List Byte :=
  [v.extractLsb' 0 8, v.extractLsb' 8 8, v.extractLsb' 16 8, v.extractLsb' 24 8]

/-- The little-endian word at `a` (R9 MemRead of 4 bytes). -/
def Memory.readWord (m : Memory) (a : Nat) : Word := leWord (m.readBytes a 4)

end Sys2Proof.Machine
end

