-- ==== Sys2Proof/Machine/Operands.lean ====
section
/-! DEFINITION. Operands of the commands: element kinds (spec R42), binding fields (R39), the names S, E, B,
SLOT(i) of R10, ranges (R70), ring index arithmetic (R130, R132) and parameter records (R180). -/

namespace Sys2Proof.Machine

/-- ESIZE(KIND) (R42): none for the reserved kinds 11 to 15. -/
def elemSize (kind : BitVec 4) : Option Nat :=
  match kind.toNat with
  | 0 => some 1
  | 1 => some 1
  | 2 => some 1
  | 3 => some 2
  | 4 => some 2
  | 5 => some 4
  | 6 => some 4
  | 7 => some 4
  | 8 => some 8
  | 9 => some 8
  | 10 => some 8
  | _ => none

/-- The kind code of U8 (R42), the one PARAM needs (R180). -/
def kindU8 : BitVec 4 := 1#4

/-- The kind code of F32 (R42), the one AUDIO needs (R170). -/
def kindF32 : BitVec 4 := 7#4

/-- PROTO codes (R39). -/
def protoRaw : BitVec 2 := 0#2

/-- PROTO codes (R39). -/
def protoAudio : BitVec 2 := 1#2

/-- PROTO codes (R39). -/
def protoParam : BitVec 2 := 2#2

/-- BINDCFG as a successful BIND writes it (R39, R111): ROLE, PROTO, ESIZE, KIND. -/
def bindcfgWord (kind : BitVec 4) (esize : Nat) (proto : BitVec 2) (role : Role) : Word :=
  0#21 ++ role.bit ++ proto ++ BitVec.ofNat 4 esize ++ kind

/-- BINDCFG.KIND (R39). -/
def Port.kind (p : Port) : BitVec 4 := p.bindcfg.extractLsb' 0 4

/-- E, the element size in bytes, BINDCFG.ESIZE (R10, R39). -/
def Port.esize (p : Port) : Nat := (p.bindcfg.extractLsb' 4 4).toNat

/-- BINDCFG.PROTO (R39). -/
def Port.proto (p : Port) : BitVec 2 := p.bindcfg.extractLsb' 8 2

/-- BINDCFG.ROLE (R39). -/
def Port.role (p : Port) : Role := if p.bindcfg.getLsbD 10 then .consumer else .producer

/-- ROLE as ERR_INFO shows it (R202). -/
def Port.roleWord (p : Port) : Word := if p.bindcfg.getLsbD 10 then 1 else 0

/-- B, the segment base address (R10). -/
def Port.base (p : Port) : Nat := p.segBase.toNat

/-- S, the physical slot count (R10). -/
def Port.nslots (p : Port) : Nat := p.slots.toNat

/-- WI, the address of write_index (R10, R47). -/
def Port.wiAddr (p : Port) : Nat := p.base

/-- RI, the address of read_index (R10, R47). -/
def Port.riAddr (p : Port) : Nat := p.base + 4

/-- SLOT(i) for elements of `e` bytes (R10, R47). -/
def slotAddr (base e i : Nat) : Nat := base + Config.headerSize + i * e

/-- The bytes of a segment of `slots` slots of `e` bytes (R47). -/
def segBytes (slots e : Nat) : Nat := Config.headerSize + slots * e

/-- The bytes of the bound segment (R47). -/
def Port.segLen (p : Port) : Nat := segBytes p.nslots p.esize

/-- a + n ≤ MEM_SIZE, computed exactly: the test of BIND, DEINT and INTER, for an empty range too, as R111, R191 and
R194 write it (log 18). -/
def fitsMem (cfg : Config) (a n : Nat) : Bool := decide (a + n ≤ cfg.memSize)

/-- The range [a, a+n) is in range (R70): it lies in MEM, computed exactly, or it is empty. The test of PUSH, POP,
AENQ and ADEQ (R134), where R70 stands alone (log 18). -/
def inMem (cfg : Config) (a n : Nat) : Bool := decide (n = 0) || fitsMem cfg a n

/-- Two byte ranges have a byte in common. -/
def rangesMeet (a n b m : Nat) : Bool :=
  decide (0 < n) && decide (0 < m) && decide (a < b + m) && decide (b < a + n)

/-- Byte `m` lies in [a, a+n). -/
def inRange (a n m : Nat) : Bool := decide (a ≤ m) && decide (m < a + n)

/-- AvailRead(rd, wr) (R130). -/
def availRead (slots rd wr : Nat) : Nat := (wr + slots - rd) % slots

/-- AvailWrite(rd, wr) (R130). -/
def availWrite (slots rd wr : Nat) : Nat := slots - 1 - availRead slots rd wr

/-- IsEmpty(rd, wr) (R130). -/
def isEmpty (rd wr : Nat) : Bool := decide (wr = rd)

/-- IsFull(rd, wr) (R130). -/
def isFull (slots rd wr : Nat) : Bool := decide ((wr + 1) % slots = rd)

/-- Advance(i, n) (R130). -/
def advance (slots i n : Nat) : Nat := (i + n) % slots

/-- `first` of Split(i, n): the elements up to the physical end (R132). -/
def splitFirst (slots i n : Nat) : Nat := min (slots - i) n

/-- `second` of Split(i, n): the wrapped remainder (R132). -/
def splitSecond (slots i n : Nat) : Nat := n - splitFirst slots i n

/-- The slot of element `k` of a transfer of `n` elements from index `i`: the first part, then the second
part from slot 0 (R132, R140). -/
def splitSlot (slots i n k : Nat) : Nat :=
  if k < splitFirst slots i n then i + k else k - splitFirst slots i n

/-- AvailRead of the loaded indices. -/
def Port.readable (p : Port) : Nat := availRead p.nslots p.lrd.toNat p.lwr.toNat

/-- AvailWrite of the loaded indices. -/
def Port.writable (p : Port) : Nat := availWrite p.nslots p.lrd.toNat p.lwr.toNat

/-- IsEmpty of the loaded indices. -/
def Port.emptyNow (p : Port) : Bool := isEmpty p.lrd.toNat p.lwr.toNat

/-- IsFull of the loaded indices. -/
def Port.fullNow (p : Port) : Bool := isFull p.nslots p.lrd.toNat p.lwr.toNat

/-- A query's answer as RES0 shows it: 1 for true, 0 for false (R160). -/
def boolWord (b : Bool) : Word := if b then 1 else 0

/-- The five bytes of a parameter record: the index, then the value most significant byte first (R63, R180). -/
def recordBytes (pidx : BitVec 8) (v : Word) : List Byte :=
  [pidx, v.extractLsb' 24 8, v.extractLsb' 16 8, v.extractLsb' 8 8, v.extractLsb' 0 8]

/-- RES1 of a PDEQ: the index byte, zero-extended (R99, R182). -/
def recordIndex (r : List Byte) : Word := (r.getD 0 0).setWidth 32

/-- RES2 of a PDEQ: the value, record byte 1 in bits 31:24 (R63, R182). -/
def recordValue (r : List Byte) : Word := r.getD 1 0 ++ r.getD 2 0 ++ r.getD 3 0 ++ r.getD 4 0

end Sys2Proof.Machine
end

