-- ==== Sys2Proof/Machine/Order.lean ====
section
/-! DEFINITION. The ordering record: memory events, happens-before and races (spec R68, R73 to R80). -/

namespace Sys2Proof.Machine

/-- The host, as an agent of the record (R20). -/
def hostAgent : Nat := 0

/-- Port `p`, as an agent of the record (R20). -/
def portAgent (p : Nat) : Nat := p + 1

/-- The events that write bytes: the data write of R67 and the two kinds of AtomicStore32. -/
def EventKind.isWrite (k : EventKind) : Bool :=
  match k with
  | .write => true
  | .store => true
  | .init => true
  | .read => false
  | .table => false
  | .load => false

/-- The events that read bytes: the data reads and AtomicLoad32 (R68). -/
def EventKind.isRead (k : EventKind) : Bool := !k.isWrite

/-- The event touched byte `m`. -/
def MemEvent.touches (e : MemEvent) (m : Nat) : Bool := decide (e.addr ≤ m) && decide (m < e.addr + e.len)

/-- Everything ordered before either of two points. -/
def Clock.join (c d : Clock) : Clock :=
  match c, d with
  | [], d => d
  | x :: xs, [] => x :: xs
  | x :: xs, y :: ys => max x y :: Clock.join xs ys

/-- The clock of agent `a`: what is ordered before its next step. -/
def Order.clock (o : Order) (a : Nat) : Clock := o.clocks.getD a []

/-- How many events of agent `b` are ordered before the next step of agent `a`. -/
def Order.time (o : Order) (a b : Nat) : Nat := (o.clock a).getD b 0

/-- The event is ordered before the next step of agent `a` (R74): it is the agent's own (edge 1), or the agent's
clock covers it (edges 2 to 4). -/
def Order.covers (o : Order) (a : Nat) (e : MemEvent) : Bool :=
  e.agent == a || decide (e.time ≤ o.time a e.agent)

/-- What agent `a` knows of port `p`'s being idle (R218). -/
def Order.knows (o : Order) (a p : Nat) : Known := (o.known.getD a []).getD p .no

/-- What is known of a port's being idle once it accepts a command, a BIND where `bind` holds (R218). -/
def Known.accepted (k : Known) (bind : Bool) : Known := if bind && k == .idle then .rebinding else .no

/-- Port `p` was brought idle before the command of port `h` rebinds it (R218): when the host wrote CMD of `h` it had
read STATUS of `p` with BUSY = 0 and `p` had accepted no command since; or `p` had accepted, or has accepted since, its
own rebinding alone, and the host had read both before the first of the two. -/
def Order.broughtIdle (o : Order) (h p : Nat) : Bool :=
  match o.knows (portAgent h) p with
  | .idle => true
  | .rebinding => o.knows (portAgent p) h != .no
  | .no => false

/-- Agent `a` learns that everything in clock `c` is ordered before its next step (an edge of R74). -/
def Order.learn (o : Order) (a : Nat) (c : Clock) : Order :=
  { o with clocks := o.clocks.set a (Clock.join (o.clock a) c) }

/-- Agent `a` makes a memory event (R68). -/
def Order.record (o : Order) (a : Nat) (kind : EventKind) (addr len : Nat) : Order :=
  { o with
    clocks := o.clocks.set a ((o.clock a).set a (o.time a a + 1))
    trace := { agent := a, time := o.time a a + 1, kind := kind, addr := addr, len := len, seen := o.clock a } ::
      o.trace }

/-- The clock of the AtomicStore32 whose value the index word at `addr` holds, if a store wrote it. -/
def Order.release (o : Order) (addr : Nat) : Clock := (o.released.lookup addr).getD []

/-- An AtomicStore32 to `addr` carries what is ordered before it to whoever loads its value (R74 edge 2). -/
def Order.publish (o : Order) (a addr : Nat) : Order :=
  { o with released := (addr, o.clock a) :: o.released.filter (fun r => r.1 != addr) }

/-- An AtomicLoad32 of `addr` learns what the store it reads from carried (R74 edge 2). -/
def Order.acquire (o : Order) (a addr : Nat) : Order := o.learn a (o.release addr)

/-- A data write to bytes [addr, addr+len) leaves no AtomicStore32's value in an index word it touches. -/
def Order.overwrite (o : Order) (addr len : Nat) : Order :=
  { o with released := o.released.filter (fun r => !(decide (addr < r.1 + 4) && decide (r.1 < addr + len))) }

/-- The command of port `p` ends (its finish or `raise` step): what a later read of BUSY = 0 learns (R74 edge 4). -/
def Order.finish (o : Order) (p : Nat) : Order :=
  { o with finished := o.finished.set p (o.clock (portAgent p)) }

/-- The host's accepted CMD write, of a BIND where `bind` holds, is ordered before every step of the command (R74 edge 3,
R79). The command knows what the host knew; for all others port `p` has now accepted a command (R218). -/
def Order.accept (o : Order) (p : Nat) (bind : Bool) : Order :=
  { o.learn (portAgent p) (o.clock hostAgent) with
    known := (o.known.map (fun k => k.set p ((k.getD p .no).accepted bind))).set (portAgent p)
      (o.known.getD hostAgent []) }

/-- The host read STATUS of port `p` with BUSY = 0: the finished command is ordered before the host's next
access (R74 edge 4, R80), and the host knows the port idle (R218). -/
def Order.seen (o : Order) (p : Nat) : Order :=
  { o.learn hostAgent (o.finished.getD p []) with
    known := o.known.set hostAgent ((o.known.getD hostAgent []).set p .idle) }

/-- Some write to byte `m` is not ordered before the next step of agent `a`: a read of `m` by `a` races, and a
data write by `a` is unordered with that write (R77). -/
def Order.racy (o : Order) (a m : Nat) : Bool :=
  o.trace.any (fun e => e.kind.isWrite && e.touches m && !o.covers a e)

/-- Some DATA write to byte `m` is not ordered before the next step of agent `a`: an AtomicStore32 by `a` is
unordered with that write (R77). Two AtomicStore32 are always ordered (R73). -/
def Order.dataRacy (o : Order) (a m : Nat) : Bool :=
  o.trace.any (fun e => e.kind == .write && e.touches m && !o.covers a e)

/-- The next memory event, a read of byte `m`, is foreseen to race with a later write (R77). -/
def Order.foresees (o : Order) (m : Nat) : Bool := o.foreseen.contains { event := o.trace.length, byte := m }

/-- A data read of byte `m` by agent `a`, as the next memory event, returns any value: it races with an earlier write, or
with a later one (R77). -/
def Order.readOpen (o : Order) (a m : Nat) : Bool := o.racy a m || o.foresees m

/-- Byte `m` of an AtomicLoad32 by agent `a`, as the next memory event, has any value: it races with an earlier data
write, or with a later one (R77). -/
def Order.loadOpen (o : Order) (a m : Nat) : Bool := o.dataRacy a m || o.foresees m

/-- Some read of byte `m` in the current step is foreseen to race with a later write (R77). -/
def Order.lateAt (o : Order) (m : Nat) : Bool := o.foreseen.any (fun r => r.byte == m)

/-- Some access of agent `a` to byte `m` in the current step may race: with an earlier write, or as a read with a later
one (R77). -/
def Order.mayRace (o : Order) (a m : Nat) : Bool := o.racy a m || o.lateAt m

/-- An AtomicLoad32 of agent `a` returns the word that stands at `addr`: no byte of it is open, with what the store that
wrote it carried counted as ordered before the load (R74 edge 2). -/
def Order.loadClean (o : Order) (a addr : Nat) : Bool :=
  (List.range 4).all (fun j => !(o.acquire a addr).loadOpen a (addr + j))

/-- What is ordered before an AtomicLoad32 of agent `a`: edge 2 of R74 holds for a load that returns the store's value,
so a load in a race learns nothing. -/
def Order.beforeLoad (o : Order) (a addr : Nat) : Order := if o.loadClean a addr then o.acquire a addr else o

/-- The order after an AtomicLoad32 of agent `a` (R66, R74 edges 1 and 2). -/
def Order.loaded (o : Order) (a addr : Nat) : Order :=
  if o.loadClean a addr then (o.record a .load addr 4).acquire a addr else o.record a .load addr 4

/-- The index word at `addr`, as agent `a` loads it next, was put there by an INIT store that is not ordered before
the load's command, or by a data write that is not ordered before the load, of an agent that does not own the word
(R235). What its owner overwrote by an overlap is a race (R245, `Order.loadOpen`). -/
def Order.unsettledInit (o : Order) (a addr : Nat) (owns : Nat → Bool) : Bool :=
  o.trace.any (fun e => decide (e.addr < addr + 4) && decide (addr < e.addr + e.len) &&
    ((e.kind == .init && !o.covers a e) ||
     (e.kind == .write && !(o.beforeLoad a addr).covers a e && !owns e.agent)))

/-- Another agent's access to an index word of the segment at `base` is not ordered before the next step of agent
`a` (R113, R77). -/
def Order.unsettledUse (o : Order) (a base : Nat) : Bool :=
  o.trace.any (fun e => (e.kind == .load || e.kind == .store) && (e.addr == base || e.addr == base + 4) &&
    !o.covers a e)

end Sys2Proof.Machine
end

