-- ==== Sys2Proof/Machine/Ops.lean ====
section
/-! DEFINITION. The operations every command's meaning is written with: port registers, memory events (spec R9,
R68), the decode step, LoadIndices (R131), the finish step (R94), `raise` (R203), and running a port to the end
of its command. `raise` is RBC's one way of taking an exception; RBC has no trap entry (R210) and no return
(R211). -/

namespace Sys2Proof.Machine

/-- ERR_CAUSE of an error (R201). -/
def ErrCode.word (e : ErrCode) : Word :=
  match e with
  | .illegalCmd => 1
  | .notBound => 2
  | .role => 3
  | .proto => 4
  | .align => 5
  | .bus => 6
  | .typeMismatch => 7
  | .sizeMismatch => 8
  | .sizeOverflow => 9
  | .indexRange => 10
  | .grantPending => 11
  | .noGrant => 12
  | .commitRange => 13
  | .partialRecord => 14

/-! ## Ports -/

/-- The registers of port `p` (R26). -/
def State.port (s : State) (p : Nat) : Port := s.ports.getD p Port.reset

/-- The state with port `p` replaced. -/
def State.setPort (s : State) (p : Nat) (q : Port) : State := { s with ports := s.ports.set p q }

/-- The executing port (R9: `x[NAME]`). -/
def State.here (s : State) : Port := s.port s.cur

/-- The state with the executing port replaced (R9: `x[NAME] <- v`). -/
def State.setHere (s : State) (q : Port) : State := s.setPort s.cur q

/-- The executing port as an agent of the ordering record. -/
def State.agent (s : State) : Nat := portAgent s.cur

/-- The other ports. -/
def State.others (s : State) : List Port := s.ports.eraseIdx s.cur

/-- The executing port exists. -/
def State.here? (s : State) : Bool := decide (s.cur < s.ports.length)

/-- The engine of the executing port moves on to the micro-step `pos` (R41). -/
def State.goto (s : State) (pos : EnginePos) : State := s.setHere { s.here with pos := pos }

/-! ## Overlaps the host owes not to make (R71) -/

/-- The bytes [a, a+n) meet some segment bound at this moment (R71, log 8). -/
def State.meetsBound (s : State) (a n : Nat) : Bool :=
  s.ports.any (fun q => q.bound && rangesMeet a n q.base q.segLen)

/-- Byte `m` lies in some bound segment (R47). -/
def State.inSegment (s : State) (m : Nat) : Bool := s.ports.any (fun q => q.bound && inRange q.base q.segLen m)

/-- The bytes [a, a+n) meet the executing port's segment (R141, R146). -/
def State.meetsOwn (s : State) (a n : Nat) : Bool := rangesMeet a n s.here.base s.here.segLen

/-- Byte `m` lies in a segment that is bound to one of the ports and is not the segment of base `b` with `slots` slots
of `e` bytes (R71, R47): a byte of that segment so marked holds any value after a write (U8, log 7). -/
def foreignIn (ports : List Port) (b slots e m : Nat) : Bool :=
  ports.any (fun q => q.bound && inRange q.base q.segLen m &&
    !(q.base == b && q.nslots == slots && q.esize == e))

/-- Byte `m` lies in another port's segment and not in that one alone (`foreignIn`). -/
def State.foreignTo (s : State) (b slots e m : Nat) : Bool := foreignIn s.others b slots e m

/-- Byte `m` lies in the overlap of the executing port's segment with another one (R71, log 7). -/
def State.foreign (s : State) (m : Nat) : Bool := s.foreignTo s.here.base s.here.nslots s.here.esize m

/-! ## Memory events (R9, R68) -/

/-- `n` bytes read at `addr`: a free value where `isOpen` says that the read returns any value, MEM's byte
elsewhere. -/
def State.drawnBytes (s : State) (addr n : Nat) (isOpen : Nat → Bool) : List Byte :=
  (List.range n).map (fun j =>
    if isOpen (addr + j) then Config.freeByte (s.free + j) else s.mem.read (addr + j))

/-- The bytes a data read event of agent `a` returns (R67): any value where some write to the byte, earlier or later,
is not ordered with the read (R77). -/
def State.seenBytes (s : State) (a addr n : Nat) : List Byte := s.drawnBytes addr n (s.order.readOpen a)

/-- The word an AtomicLoad32 of agent `a` returns (R66): any value in a byte that some data write, earlier or later, is
not ordered with (R77), where edge 2 of R74 holds for a load that no race leaves open. -/
def State.loadedWord (s : State) (a addr : Nat) : Word :=
  leWord (s.drawnBytes addr 4 ((s.order.beforeLoad a addr).loadOpen a))

/-- The state after a data read event of agent `a` (R68). -/
def State.readEvent (s : State) (a : Nat) (kind : EventKind) (addr n : Nat) : State :=
  { s with order := s.order.record a kind addr n, free := s.free + n }

/-- The bytes that stand in MEM after a write of `bs` at `addr`: a free value where `isOpen` says that the byte is
left to any value. -/
def State.landedBytes (s : State) (addr : Nat) (isOpen : Nat → Bool) (bs : List Byte) : List Byte :=
  bs.mapIdx (fun j b => if isOpen (addr + j) then Config.freeByte (s.free + j) else b)

/-- A data write event of agent `a` (R9 MemWriteBytes, R68): any value where an earlier write is not ordered before
it (R77) and where `isOpen` says so (R71, R141, R146, R196). -/
def State.writeEvent (s : State) (a addr : Nat) (isOpen : Nat → Bool) (bs : List Byte) : State :=
  { s with
    mem := s.mem.writeBytes addr (s.landedBytes addr (fun m => isOpen m || s.order.racy a m) bs)
    order := (s.order.record a .write addr bs.length).overwrite addr bs.length
    free := s.free + bs.length }

/-- The state after an AtomicLoad32 of the index word at `addr` by agent `a` (R66, R74 edge 2). -/
def State.loadEvent (s : State) (a addr : Nat) : State :=
  { s with order := s.order.loaded a addr, free := s.free + 4 }

/-- AtomicStore32(addr, v) by agent `a` (R66): one event of 4 bytes. Any value where an earlier data write is not
ordered before it (R77) and where `isOpen` says so (R71). DESIGN CHOICE: a load of a word with such a byte, itself in no
race, counts as one that returns this store's value, so edge 2 of R74 holds for it (log 4). -/
def State.storeEvent (s : State) (a addr : Nat) (kind : EventKind) (isOpen : Nat → Bool) (v : Word) : State :=
  { s with
    mem := s.mem.writeBytes addr (s.landedBytes addr (fun m => isOpen m || s.order.dataRacy a m) (leBytes v))
    order := (s.order.record a kind addr 4).publish a addr
    free := s.free + 4 }

/-! ## The micro-steps all commands share -/

/-- The first check of a list that fails, with its error and ERR_INFO (R205). -/
def firstError (checks : List (Bool × ErrCode × Word)) : Option (ErrCode × Word) :=
  match checks with
  | [] => none
  | c :: rest => if c.1 then some c.2 else firstError rest

/-- The decode step (R93): a failed check leads to `raise`, otherwise to the command's next micro-step. -/
def State.decodeStep (s : State) (failed : Option (ErrCode × Word)) (next : EnginePos) : State :=
  match failed with
  | some (e, info) => s.goto (.raising e info)
  | none => s.goto next

/-- The command of the executing port has ended: its engine holds nothing any more (R94, R190) and what it did
is ordered before a later read of BUSY = 0 (R74 edge 4). -/
def State.ended (s : State) (q : Port) : State :=
  { s.setHere ({ q with pos := .idle, elem := [], table := [], record := [] }) with
    order := s.order.finish s.cur }

/-- STATUS at the end of a command: DONE <- 1, BUSY <- 0 (R94, R203). -/
def Port.ending (q : Port) : Port := (q.setFlag .done true).setFlag .busy false

/-- The finish step (R94): the registers the command's rule names are those of `q`, then DONE <- 1, BUSY <- 0,
idle. -/
def State.finishStep (s : State) (q : Port) : State := s.ended q.ending

/-- `raise E(info)` on a port's registers (R203): RES1, RES2, the binding, span and grant registers stay. -/
def Port.raised (q : Port) (e : ErrCode) (info : Word) : Port :=
  (({ q with errCause := e.word, errInfo := info, res0 := 0 }).setFlag .err true).ending

/-- `raise E(info)`, one atomic step of the port (R203). -/
def State.raise (s : State) (e : ErrCode) (info : Word) : State := s.ended (s.here.raised e info)

/-- LoadIndices, first event (R131): LRD <- AtomicLoad32(RI). -/
def State.loadRdStep (s : State) : State :=
  (s.loadEvent s.agent s.here.riAddr).setHere
    { s.here with lrd := s.loadedWord s.agent s.here.riAddr, pos := .loadWr }

/-- LoadIndices' checks on the loaded indices (R131): read_index first (R205). -/
def Port.indexError (q : Port) : Option (ErrCode × Word) :=
  firstError [(decide (q.nslots ≤ q.lrd.toNat), .indexRange, q.lrd),
    (decide (q.nslots ≤ q.lwr.toNat), .indexRange, q.lwr)]

/-- LoadIndices, second event (R131): LWR <- AtomicLoad32(WI), then the checks; `next` is the micro-step after
valid indices. -/
def State.loadWrStep (s : State) (next : Port → EnginePos) : State :=
  let q := { s.here with lwr := s.loadedWord s.agent s.here.wiAddr }
  let s' := s.loadEvent s.agent s.here.wiAddr
  match q.indexError with
  | some (e, info) => s'.setHere { q with pos := .raising e info }
  | none => s'.setHere { q with pos := next q }

/-- The read event of a CopyElem (R9): `n` bytes at `addr` into the engine. -/
def State.copyReadStep (s : State) (addr n : Nat) (next : EnginePos) : State :=
  (s.readEvent s.agent .read addr n).setHere
    { s.here with elem := s.seenBytes s.agent addr n, pos := next }

/-- The write event of a CopyElem (R9): the engine's bytes to `addr`. -/
def State.copyWriteStep (s : State) (addr : Nat) (isOpen : Nat → Bool) (next : EnginePos) : State :=
  (s.writeEvent s.agent addr isOpen s.here.elem).goto next

/-- The publishing AtomicStore32 of an index (R66): `v` to the index word at `addr`, then the finish step. -/
def State.publishStep (s : State) (addr v : Nat) : State :=
  (s.storeEvent s.agent addr .store s.foreign (BitVec.ofNat 32 v)).goto .finish

/-! ## Running a port -/

/-- The micro-steps of the executing port one after another, at most `fuel` of them, until its command has
ended. -/
def runPort (micro : State → State) (fuel : Nat) (s : State) : State :=
  match fuel with
  | 0 => s
  | k + 1 => if s.here.pos = .idle then s else runPort micro k (micro s)

/-- A command that is no command (R96, R97, R98): ILLEGAL_CMD with the word. -/
def microIllegal (s : State) : State :=
  match s.here.pos with
  | .decode => s.decodeStep (some (.illegalCmd, s.here.lcmd)) .finish
  | .raising e info => s.raise e info
  | .idle | .initWr | .initRd | .loadRd | .loadWr | .tableRead _ | .copyRead _ | .copyWrite _
  | .recordWrite _ | .recordRead _ | .publish | .finish => s

/-! ## Reset -/

/-- RST (R230 to R233): every port's registers and hidden state at their reset values; MEM, the configuration and
the host's moves stay. The positions of the engines are idle, so a command in flight stops between two of its steps
(R233). What was done before RST is ordered before all that follows, so the ordering record starts anew (log 17). -/
def State.rst (s : State) : State :=
  { s with ports := s.ports.map (fun _ => Port.reset), order := Order.start s.ports.length }

end Sys2Proof.Machine
end

