-- ==== Sys2Proof/Machine/RingTransfer.lean ====
section
/-! DEFINITION. The transfer commands PUSH, POP, WSPAN.ACQ and WSPAN.COMMIT (spec R134 to R157). -/

namespace Sys2Proof.Machine

/-! ## The common checks (R134), each as one entry of a command's list -/

/-- Check 2 of R134: STATUS.BOUND = 0. -/
def needBound (q : Port) : Bool × ErrCode × Word := (!q.bound, .notBound, 0)

/-- Check 3 of R134: the port's ROLE is not the one the command needs. -/
def needRole (q : Port) (r : Role) : Bool × ErrCode × Word := (q.role != r, .role, q.roleWord)

/-- Check 4 of R134: BINDCFG.PROTO is not the one the command needs. -/
def needProto (q : Port) (pr : BitVec 2) : Bool × ErrCode × Word :=
  (q.proto != pr, .proto, q.proto.setWidth 32)

/-- Check 5 of R134 of a producer transfer: a grant is open. -/
def needNoGrant (q : Port) : Bool × ErrCode × Word := (q.grant, .grantPending, 0)

/-- Check 5 of R134 of WSPAN.COMMIT: no grant is open. -/
def needGrant (q : Port) : Bool × ErrCode × Word := (!q.grant, .noGrant, 0)

/-- Check 6 of R134: LARG0 is not a multiple of E. -/
def needAligned (q : Port) (e : Nat) : Bool × ErrCode × Word := (q.larg0.toNat % e != 0, .align, q.larg0)

/-- The address of element `off` of the host buffer (R100). -/
def bufferAddr (q : Port) (e off : Nat) : Nat := q.larg0.toNat + off * e

/-- The bytes of the whole requested transfer (R134). -/
def bufferLen (q : Port) (e : Nat) : Nat := q.larg1.toNat * e

/-- Check 7 of R134: the buffer range of the whole requested length is not in MEM. -/
def needBuffer (cfg : Config) (q : Port) (e off : Nat) : Bool × ErrCode × Word :=
  (!inMem cfg (bufferAddr q e off) (bufferLen q e), .bus, q.larg0)

/-! ## PUSH (R140, R141) -/

/-- n of a PUSH: min(AvailWrite, len) (R140). -/
def pushCount (q : Port) : Nat := min q.writable q.larg1.toNat

/-- What follows valid indices in a PUSH (R140): nothing on a full ring; otherwise n copies, then the publish. -/
def pushNext (q : Port) : EnginePos :=
  if q.fullNow then .finish else if pushCount q = 0 then .publish else .copyRead 0

/-- The slot of element `k` of a PUSH (R132, R140). -/
def pushSlot (q : Port) (e k : Nat) : Nat :=
  slotAddr q.base e (splitSlot q.nslots q.lwr.toNat (pushCount q) k)

/-- Slot byte `m` of a PUSH is left to any value: the source overlaps the segment (R141), or the byte lies in the
overlap with another segment (R71, log 7, log 8). -/
def pushOpen (e off : Nat) (s : State) (m : Nat) : Bool :=
  s.foreign m || s.meetsOwn (bufferAddr s.here e off) (bufferLen s.here e)

/-- One micro-step of a PUSH of elements of `e` bytes from offset `off` (R140). -/
def microPushBody (failed : Option (ErrCode × Word)) (e off : Nat) (s : State) : State :=
  match s.here.pos with
  | .decode => s.decodeStep failed .loadRd
  | .loadRd => s.loadRdStep
  | .loadWr => s.loadWrStep pushNext
  | .copyRead k => s.copyReadStep (bufferAddr s.here e (off + k)) e (.copyWrite k)
  | .copyWrite k =>
    s.copyWriteStep (pushSlot s.here e k) (pushOpen e off s)
      (if k + 1 < pushCount s.here then .copyRead (k + 1) else .publish)
  | .publish =>
    s.publishStep s.here.wiAddr (advance s.here.nslots s.here.lwr.toNat (pushCount s.here))
  | .finish => s.finishStep { s.here with res0 := BitVec.ofNat 32 (pushCount s.here) }
  | .raising err info => s.raise err info
  | .idle | .initWr | .initRd | .tableRead _ | .recordWrite _ | .recordRead _ => s

/-- The checks of PUSH (R134: 2, 3, 5, 6, 7). -/
def checkPush (cfg : Config) (q : Port) : Option (ErrCode × Word) :=
  firstError [needBound q, needRole q .producer, needNoGrant q, needAligned q q.esize,
    needBuffer cfg q q.esize q.larg2.toNat]

/-- One micro-step of PUSH (R140). -/
def microPush (s : State) : State := microPushBody (checkPush s.cfg s.here) s.here.esize s.here.larg2.toNat s

/-- The steps a transfer takes at most: 5 + 2n with n ≤ min(len, S − 1) (R251). -/
def transferSteps (q : Port) : Nat := 5 + 2 * min q.larg1.toNat (q.nslots - 1)

/-- PUSH (R140), from its decode step to its end. -/
def execPush (s : State) : Host.Outcome State Fault Refusal :=
  .next (runPort microPush (transferSteps s.here) s)

/-! ## POP (R145, R146) -/

/-- n of a POP: min(AvailRead, len) (R145). -/
def popCount (q : Port) : Nat := min q.readable q.larg1.toNat

/-- What follows valid indices in a POP (R145): nothing on an empty ring; otherwise n copies, then the publish. -/
def popNext (q : Port) : EnginePos :=
  if q.emptyNow then .finish else if popCount q = 0 then .publish else .copyRead 0

/-- The slot of element `k` of a POP (R132, R145). -/
def popSlot (q : Port) (e k : Nat) : Nat :=
  slotAddr q.base e (splitSlot q.nslots q.lrd.toNat (popCount q) k)

/-- Destination byte `m` of a POP is left to any value: the destination overlaps the segment (R146), or the byte
lies in another bound segment (R71, log 8). -/
def popOpen (e off : Nat) (s : State) (m : Nat) : Bool :=
  s.inSegment m || s.meetsOwn (bufferAddr s.here e off) (bufferLen s.here e)

/-- One micro-step of a POP of elements of `e` bytes to offset `off` (R145). -/
def microPopBody (failed : Option (ErrCode × Word)) (e off : Nat) (s : State) : State :=
  match s.here.pos with
  | .decode => s.decodeStep failed .loadRd
  | .loadRd => s.loadRdStep
  | .loadWr => s.loadWrStep popNext
  | .copyRead k => s.copyReadStep (popSlot s.here e k) e (.copyWrite k)
  | .copyWrite k =>
    s.copyWriteStep (bufferAddr s.here e (off + k)) (popOpen e off s)
      (if k + 1 < popCount s.here then .copyRead (k + 1) else .publish)
  | .publish =>
    s.publishStep s.here.riAddr (advance s.here.nslots s.here.lrd.toNat (popCount s.here))
  | .finish => s.finishStep { s.here with res0 := BitVec.ofNat 32 (popCount s.here) }
  | .raising err info => s.raise err info
  | .idle | .initWr | .initRd | .tableRead _ | .recordWrite _ | .recordRead _ => s

/-- The checks of POP (R134: 2, 3, 6, 7). -/
def checkPop (cfg : Config) (q : Port) : Option (ErrCode × Word) :=
  firstError [needBound q, needRole q .consumer, needAligned q q.esize,
    needBuffer cfg q q.esize q.larg2.toNat]

/-- One micro-step of POP (R145). -/
def microPop (s : State) : State := microPopBody (checkPop s.cfg s.here) s.here.esize s.here.larg2.toNat s

/-- POP (R145), from its decode step to its end. -/
def execPop (s : State) : Host.Outcome State Fault Refusal :=
  .next (runPort microPop (transferSteps s.here) s)

/-! ## WSPAN.ACQ (R150, R151) -/

/-- The checks of WSPAN.ACQ (R134: 2, 3, 5). -/
def checkWspanAcq (q : Port) : Option (ErrCode × Word) :=
  firstError [needBound q, needRole q .producer, needNoGrant q]

/-- n of a WSPAN.ACQ: min(AvailWrite, amount) (R150). -/
def acqCount (q : Port) : Nat := min q.writable q.larg0.toNat

/-- The registers a successful WSPAN.ACQ writes in its finish step (R150). -/
def acqResult (q : Port) : Port :=
  let n := acqCount q
  let wr := q.lwr.toNat
  ({ q with
      span0Addr := BitVec.ofNat 32 (slotAddr q.base q.esize wr)
      span0Len := BitVec.ofNat 32 (splitFirst q.nslots wr n)
      span1Addr := BitVec.ofNat 32 (slotAddr q.base q.esize 0)
      span1Len := BitVec.ofNat 32 (splitSecond q.nslots wr n)
      grantWr := q.lwr
      grantN := BitVec.ofNat 32 n
      res0 := BitVec.ofNat 32 n }).setFlag .grant true

/-- One micro-step of WSPAN.ACQ (R150). -/
def microWspanAcq (s : State) : State :=
  match s.here.pos with
  | .decode => s.decodeStep (checkWspanAcq s.here) .loadRd
  | .loadRd => s.loadRdStep
  | .loadWr => s.loadWrStep (fun _ => .finish)
  | .finish => s.finishStep (acqResult s.here)
  | .raising e info => s.raise e info
  | .idle | .initWr | .initRd | .tableRead _ | .copyRead _ | .copyWrite _
  | .recordWrite _ | .recordRead _ | .publish => s

/-- WSPAN.ACQ (R150), from its decode step to its end: at most 4 steps (R251). -/
def execWspanAcq (s : State) : Host.Outcome State Fault Refusal := .next (runPort microWspanAcq 4 s)

/-! ## WSPAN.COMMIT (R155) -/

/-- c of a WSPAN.COMMIT: the whole grant, or LARG0 (R155). -/
def commitCount (dflt : Bool) (q : Port) : Word := if dflt then q.grantN else q.larg0

/-- The checks of WSPAN.COMMIT (R134: 2, 3, 5) and COMMIT_RANGE (R155). -/
def checkWspanCommit (dflt : Bool) (q : Port) : Option (ErrCode × Word) :=
  firstError [needBound q, needRole q .producer, needGrant q,
    (decide (q.grantN.toNat < (commitCount dflt q).toNat), .commitRange, commitCount dflt q)]

/-- One micro-step of WSPAN.COMMIT (R155). -/
def microWspanCommit (dflt : Bool) (s : State) : State :=
  match s.here.pos with
  | .decode => s.decodeStep (checkWspanCommit dflt s.here) .publish
  | .publish =>
    s.publishStep s.here.wiAddr
      (advance s.here.nslots s.here.grantWr.toNat (commitCount dflt s.here).toNat)
  | .finish =>
    s.finishStep (({ s.here with res0 := commitCount dflt s.here }).setFlag .grant false)
  | .raising e info => s.raise e info
  | .idle | .initWr | .initRd | .loadRd | .loadWr | .tableRead _ | .copyRead _ | .copyWrite _
  | .recordWrite _ | .recordRead _ => s

/-- WSPAN.COMMIT (R155), from its decode step to its end: at most 3 steps (R251). -/
def execWspanCommit (dflt : Bool) (s : State) : Host.Outcome State Fault Refusal :=
  .next (runPort (microWspanCommit dflt) 3 s)

end Sys2Proof.Machine
end

