-- ==== Sys2Proof/Machine/Audio.lean ====
section
/-! DEFINITION. The audio sample protocol, AENQ and ADEQ (spec R170 to R174): the bodies of PUSH and POP with
off = 0 and E = 4 on a port bound AUDIO. -/

namespace Sys2Proof.Machine

/-- The bytes of a sample (R170). -/
def sampleSize : Nat := 4

/-- The checks of AENQ (R171; R134: 2, 3, 4, 5, 6, 7 with off = 0). -/
def checkAenq (cfg : Config) (q : Port) : Option (ErrCode × Word) :=
  firstError [needBound q, needRole q .producer, needProto q protoAudio, needNoGrant q,
    needAligned q sampleSize, needBuffer cfg q sampleSize 0]

/-- One micro-step of AENQ (R171). -/
def microAenq (s : State) : State := microPushBody (checkAenq s.cfg s.here) sampleSize 0 s

/-- AENQ (R171), from its decode step to its end. -/
def execAenq (s : State) : Host.Outcome State Fault Refusal :=
  .next (runPort microAenq (transferSteps s.here) s)

/-- The checks of ADEQ (R172; R134: 2, 3, 4, 6, 7 with off = 0). -/
def checkAdeq (cfg : Config) (q : Port) : Option (ErrCode × Word) :=
  firstError [needBound q, needRole q .consumer, needProto q protoAudio,
    needAligned q sampleSize, needBuffer cfg q sampleSize 0]

/-- One micro-step of ADEQ (R172). -/
def microAdeq (s : State) : State := microPopBody (checkAdeq s.cfg s.here) sampleSize 0 s

/-- ADEQ (R172), from its decode step to its end. -/
def execAdeq (s : State) : Host.Outcome State Fault Refusal :=
  .next (runPort microAdeq (transferSteps s.here) s)

end Sys2Proof.Machine
end

