-- ==== Sys2Proof/Machine/Control.lean ====
section
/-! DEFINITION. The control commands NOP, BIND and SIZE (spec R110 to R121): each as its micro-steps (R93) and as
the whole command. -/

namespace Sys2Proof.Machine

/-! ## NOP (R110) -/

/-- One micro-step of NOP (R110). -/
def microNop (s : State) : State :=
  match s.here.pos with
  | .decode => s.decodeStep none .finish
  | .finish => s.finishStep s.here
  | .raising e info => s.raise e info
  | .idle | .initWr | .initRd | .loadRd | .loadWr | .tableRead _ | .copyRead _ | .copyWrite _
  | .recordWrite _ | .recordRead _ | .publish => s

/-- NOP (R110), from its decode step to its end: at most 2 steps (R251). -/
def execNop (s : State) : Host.Outcome State Fault Refusal := .next (runPort microNop 2 s)

/-! ## BIND (R111 to R115) -/

/-- S = (N − 8) / E, the slots of a segment of N bytes (R111). -/
def bindSlots (bytes e : Nat) : Nat := (bytes - Config.headerSize) / e

/-- E of BIND and SIZE; the reserved kinds never get that far (R111, R120). -/
def kindSize (kind : BitVec 4) : Nat := (elemSize kind).getD 1

/-- KIND is reserved, 11 to 15 (R42). -/
def kindReserved (kind : BitVec 4) : Bool := (elemSize kind).isNone

/-- The checks of BIND in the order of R111. -/
def checkBind (kind : BitVec 4) (proto : BitVec 2) (cfg : Config) (q : Port) : Option (ErrCode × Word) :=
  let b := q.larg0.toNat
  let n := q.larg1.toNat
  let e := kindSize kind
  firstError
    [(proto == 3#2, .illegalCmd, q.lcmd),
     (q.grant, .grantPending, 0),
     (kindReserved kind, .typeMismatch, kind.setWidth 32),
     (b % 8 != 0, .align, q.larg0),
     (!fitsMem cfg b n, .bus, q.larg0),
     (decide (n < Config.headerSize + e) || (n - Config.headerSize) % e != 0, .typeMismatch, q.larg1),
     (decide (Config.maxSlots < bindSlots n e), .sizeOverflow, q.larg1),
     (proto == protoAudio && kind != kindF32, .typeMismatch, kind.setWidth 32),
     (proto == protoParam && kind != kindU8, .typeMismatch, kind.setWidth 32)]

/-- The registers a successful BIND writes in its finish step (R111): SEG_BASE, SLOTS, BINDCFG, BOUND, RES0. -/
def bindResult (kind : BitVec 4) (proto : BitVec 2) (role : Role) (q : Port) : Port :=
  let e := kindSize kind
  let slots := bindSlots q.larg1.toNat e
  ({ q with
      segBase := q.larg0
      slots := BitVec.ofNat 32 slots
      bindcfg := bindcfgWord kind e proto role
      res0 := BitVec.ofNat 32 (slots - 1) }).setFlag .bound true

/-- Byte `m` of the new segment lies in a segment bound to another port that is not the same segment (R71, log 7). -/
def bindForeign (kind : BitVec 4) (s : State) (m : Nat) : Bool :=
  s.foreignTo s.here.larg0.toNat (bindSlots s.here.larg1.toNat (kindSize kind)) (kindSize kind) m

/-- One micro-step of BIND (R111, R113). -/
def microBind (kind : BitVec 4) (proto : BitVec 2) (role : Role) (init : Bool) (s : State) : State :=
  match s.here.pos with
  | .decode => s.decodeStep (checkBind kind proto s.cfg s.here) (if init then .initWr else .finish)
  | .initWr =>
    (s.storeEvent s.agent s.here.larg0.toNat .init (bindForeign kind s) 0).goto .initRd
  | .initRd =>
    (s.storeEvent s.agent (s.here.larg0.toNat + 4) .init (bindForeign kind s) 0).goto .finish
  | .finish => s.finishStep (bindResult kind proto role s.here)
  | .raising e info => s.raise e info
  | .idle | .loadRd | .loadWr | .tableRead _ | .copyRead _ | .copyWrite _
  | .recordWrite _ | .recordRead _ | .publish => s

/-- The steps a BIND takes at most: 4, and 2 with INIT = 0 (R251). -/
def bindSteps (init : Bool) : Nat := if init then 4 else 2

/-- BIND (R111), from its decode step to its end. -/
def execBind (kind : BitVec 4) (proto : BitVec 2) (role : Role) (init : Bool) (s : State) :
    Host.Outcome State Fault Refusal :=
  .next (runPort (microBind kind proto role init) (bindSteps init) s)

/-! ## SIZE (R120, R121) -/

/-- The byte size of a segment of `cap` elements of `e` bytes (R120). -/
def sizeBytes (cap e : Nat) : Nat := Config.headerSize + (cap + 1) * e

/-- The checks of SIZE in the order of R120. -/
def checkSize (kind : BitVec 4) (q : Port) : Option (ErrCode × Word) :=
  let cap := q.larg0.toNat
  firstError
    [(kindReserved kind, .typeMismatch, kind.setWidth 32),
     (decide (Config.maxSlots < cap + 1), .sizeOverflow, q.larg0),
     (decide (2 ^ 32 - 1 < sizeBytes cap (kindSize kind)), .sizeOverflow, q.larg0)]

/-- One micro-step of SIZE (R120). -/
def microSize (kind : BitVec 4) (s : State) : State :=
  match s.here.pos with
  | .decode => s.decodeStep (checkSize kind s.here) .finish
  | .finish =>
    s.finishStep { s.here with res0 := BitVec.ofNat 32 (sizeBytes s.here.larg0.toNat (kindSize kind)) }
  | .raising e info => s.raise e info
  | .idle | .initWr | .initRd | .loadRd | .loadWr | .tableRead _ | .copyRead _ | .copyWrite _
  | .recordWrite _ | .recordRead _ | .publish => s

/-- SIZE (R120), from its decode step to its end: at most 2 steps (R251). -/
def execSize (kind : BitVec 4) (s : State) : Host.Outcome State Fault Refusal :=
  .next (runPort (microSize kind) 2 s)

end Sys2Proof.Machine
end

