-- ==== Sys2Proof/Machine/Param.lean ====
section
/-! DEFINITION. The parameter-change protocol, PENQ and PDEQ (spec R180 to R184): five-byte records. -/

namespace Sys2Proof.Machine

/-- The slot address of record byte `k` of a record that starts at index `i` (R132, R180). -/
def recordSlot (q : Port) (i k : Nat) : Nat :=
  slotAddr q.base q.esize (splitSlot q.nslots i Config.recordSize k)

/-- The checks of PENQ (R181; R134: 2, 3, 4, 5). -/
def checkPenq (q : Port) : Option (ErrCode × Word) :=
  firstError [needBound q, needRole q .producer, needProto q protoParam, needNoGrant q]

/-- Fewer than 5 bytes of write space (R181). -/
def penqFull (q : Port) : Bool := decide (q.writable < Config.recordSize)

/-- One micro-step of PENQ (R181). -/
def microPenq (pidx : BitVec 8) (s : State) : State :=
  match s.here.pos with
  | .decode => s.decodeStep (checkPenq s.here) .loadRd
  | .loadRd => s.loadRdStep
  | .loadWr => s.loadWrStep (fun q => if penqFull q then .finish else .recordWrite 0)
  | .recordWrite k =>
    (s.writeEvent s.agent (recordSlot s.here s.here.lwr.toNat k) s.foreign
      [(recordBytes pidx s.here.larg0).getD k 0]).goto
        (if k + 1 < Config.recordSize then .recordWrite (k + 1) else .publish)
  | .publish =>
    s.publishStep s.here.wiAddr (advance s.here.nslots s.here.lwr.toNat Config.recordSize)
  | .finish => s.finishStep { s.here with res0 := boolWord (!penqFull s.here) }
  | .raising e info => s.raise e info
  | .idle | .initWr | .initRd | .tableRead _ | .copyRead _ | .copyWrite _ | .recordRead _ => s

/-- PENQ (R181), from its decode step to its end: at most 10 steps (R251). -/
def execPenq (pidx : BitVec 8) (s : State) : Host.Outcome State Fault Refusal :=
  .next (runPort (microPenq pidx) 10 s)

/-- The checks of PDEQ (R182; R134: 2, 3, 4). -/
def checkPdeq (q : Port) : Option (ErrCode × Word) :=
  firstError [needBound q, needRole q .consumer, needProto q protoParam]

/-- What follows valid indices in a PDEQ (R182): nothing on an empty ring, PARTIAL_RECORD on 1 to 4 bytes,
otherwise the five reads. -/
def pdeqNext (q : Port) : EnginePos :=
  if q.emptyNow then .finish
  else if q.readable < Config.recordSize then .raising .partialRecord (BitVec.ofNat 32 q.readable)
  else .recordRead 0

/-- The registers a PDEQ writes in its finish step (R182): RES1 and RES2 only where it took a record. -/
def pdeqResult (q : Port) : Port :=
  if q.emptyNow then { q with res0 := 0 }
  else { q with res0 := 1, res1 := recordIndex q.record, res2 := recordValue q.record }

/-- One micro-step of PDEQ (R182). -/
def microPdeq (s : State) : State :=
  match s.here.pos with
  | .decode => s.decodeStep (checkPdeq s.here) .loadRd
  | .loadRd => s.loadRdStep
  | .loadWr => s.loadWrStep pdeqNext
  | .recordRead k =>
    (s.readEvent s.agent .read (recordSlot s.here s.here.lrd.toNat k) 1).setHere
      { s.here with
        record := s.here.record ++ s.seenBytes s.agent (recordSlot s.here s.here.lrd.toNat k) 1
        pos := if k + 1 < Config.recordSize then .recordRead (k + 1) else .publish }
  | .publish =>
    s.publishStep s.here.riAddr (advance s.here.nslots s.here.lrd.toNat Config.recordSize)
  | .finish => s.finishStep (pdeqResult s.here)
  | .raising e info => s.raise e info
  | .idle | .initWr | .initRd | .tableRead _ | .copyRead _ | .copyWrite _ | .recordWrite _ => s

/-- PDEQ (R182), from its decode step to its end: at most 10 steps (R251). -/
def execPdeq (s : State) : Host.Outcome State Fault Refusal := .next (runPort microPdeq 10 s)

end Sys2Proof.Machine
end

