-- ==== Sys2Proof/Machine/RingQuery.lean ====
section
/-! DEFINITION. The ring queries EMPTY, FULL, CAPACITY, AVAIL.READ and AVAIL.WRITE (spec R160 to R167). -/

namespace Sys2Proof.Machine

/-- The checks common to every query (R160); reserved bits are the decoder's (R96). -/
def checkQuery (q : Port) : Option (ErrCode × Word) := firstError [(!q.bound, .notBound, 0)]

/-- One micro-step of a query that loads the indices and answers with a function of them (R160). -/
def microIndexQuery (answer : Port → Word) (s : State) : State :=
  match s.here.pos with
  | .decode => s.decodeStep (checkQuery s.here) .loadRd
  | .loadRd => s.loadRdStep
  | .loadWr => s.loadWrStep (fun _ => .finish)
  | .finish => s.finishStep { s.here with res0 := answer s.here }
  | .raising e info => s.raise e info
  | .idle | .initWr | .initRd | .tableRead _ | .copyRead _ | .copyWrite _
  | .recordWrite _ | .recordRead _ | .publish => s

/-- One micro-step of EMPTY (R161). -/
def microEmpty (s : State) : State := microIndexQuery (fun q => boolWord q.emptyNow) s

/-- EMPTY (R161), from its decode step to its end: at most 4 steps (R251). -/
def execEmpty (s : State) : Host.Outcome State Fault Refusal := .next (runPort microEmpty 4 s)

/-- One micro-step of FULL (R162). -/
def microFull (s : State) : State := microIndexQuery (fun q => boolWord q.fullNow) s

/-- FULL (R162), from its decode step to its end: at most 4 steps (R251). -/
def execFull (s : State) : Host.Outcome State Fault Refusal := .next (runPort microFull 4 s)

/-- One micro-step of CAPACITY (R163): it loads no index. -/
def microCapacity (s : State) : State :=
  match s.here.pos with
  | .decode => s.decodeStep (checkQuery s.here) .finish
  | .finish => s.finishStep { s.here with res0 := s.here.slots - 1 }
  | .raising e info => s.raise e info
  | .idle | .initWr | .initRd | .loadRd | .loadWr | .tableRead _ | .copyRead _ | .copyWrite _
  | .recordWrite _ | .recordRead _ | .publish => s

/-- CAPACITY (R163), from its decode step to its end: at most 2 steps (R251). -/
def execCapacity (s : State) : Host.Outcome State Fault Refusal := .next (runPort microCapacity 2 s)

/-- One micro-step of AVAIL.READ (R164). -/
def microAvailRead (s : State) : State := microIndexQuery (fun q => BitVec.ofNat 32 q.readable) s

/-- AVAIL.READ (R164), from its decode step to its end: at most 4 steps (R251). -/
def execAvailRead (s : State) : Host.Outcome State Fault Refusal := .next (runPort microAvailRead 4 s)

/-- One micro-step of AVAIL.WRITE (R165). -/
def microAvailWrite (s : State) : State := microIndexQuery (fun q => BitVec.ofNat 32 q.writable) s

/-- AVAIL.WRITE (R165), from its decode step to its end: at most 4 steps (R251). -/
def execAvailWrite (s : State) : Host.Outcome State Fault Refusal := .next (runPort microAvailWrite 4 s)

end Sys2Proof.Machine
end

