-- ==== Sys2Proof/Machine/Transpose.lean ====
section
/-! DEFINITION. The transpose engine, DEINT and INTER (spec R190 to R196). -/

namespace Sys2Proof.Machine

/-- K = LARG3, the channel count (R191). -/
def Port.channels (q : Port) : Nat := q.larg3.toNat

/-- The bytes of the interleaved buffer, 4L (R191). -/
def ibLen (q : Port) : Nat := 4 * q.larg1.toNat

/-- The bytes of the channel-pointer table, 4K (R191). -/
def tbLen (q : Port) : Nat := 4 * q.channels

/-- The bytes of a planar buffer: 128 samples of 4 bytes (R191). -/
def planarLen : Nat := 4 * Config.blockFrames

/-- The checks of DEINT and INTER before the table is read, in the order of R191. -/
def checkXpose (cfg : Config) (q : Port) : Option (ErrCode × Word) :=
  firstError
    [(!cfg.hasXpose, .illegalCmd, q.lcmd),
     (q.larg1.toNat != q.channels * Config.blockFrames, .sizeMismatch, q.larg1),
     (q.larg0.toNat % 4 != 0, .align, q.larg0),
     (!fitsMem cfg q.larg0.toNat (ibLen q), .bus, q.larg0),
     (q.larg2.toNat % 4 != 0, .align, q.larg2),
     (!fitsMem cfg q.larg2.toNat (tbLen q), .bus, q.larg2)]

/-- The checks on a channel pointer (R191). -/
def checkPointer (cfg : Config) (ptr : Word) : Option (ErrCode × Word) :=
  firstError [(ptr.toNat % 4 != 0, .align, ptr), (!fitsMem cfg ptr.toNat planarLen, .bus, ptr)]

/-- The micro-step after the checks: the table reads, or the end where K = 0 (R194). -/
def xposeStart (q : Port) : EnginePos := if q.channels = 0 then .finish else .tableRead 0

/-- The address of table entry `c` (R191). -/
def tableAddr (q : Port) (c : Nat) : Nat := q.larg2.toNat + 4 * c

/-- The read of table entry `c` and its checks (R191); after the last entry the copies begin. -/
def xposeTableStep (s : State) (c : Nat) : State :=
  let q := s.here
  let ptr := leWord (s.seenBytes s.agent (tableAddr q c) 4)
  let pos : EnginePos :=
    match checkPointer s.cfg ptr with
    | some (e, info) => .raising e info
    | none => if c + 1 < q.channels then .tableRead (c + 1) else .copyRead 0
  (s.readEvent s.agent .table (tableAddr q c) 4).setHere { q with table := q.table ++ [ptr], pos := pos }

/-- P[c], the base of channel `c`'s planar buffer, as the engine holds it (R191). -/
def Port.pointer (q : Port) (c : Nat) : Nat := (q.table.getD c 0).toNat

/-- The address of sample `j` of channel `c` in the interleaved buffer (R191). -/
def interleavedAddr (q : Port) (j c : Nat) : Nat := q.larg0.toNat + 4 * (j * q.channels + c)

/-- The address of sample `j` of channel `c`'s planar buffer (R191). -/
def planarAddr (q : Port) (j c : Nat) : Nat := q.pointer c + 4 * j

/-- After copy `k` of 128·K: the next copy, or the finish step (R192, R193). -/
def xposeAfter (q : Port) (k : Nat) : EnginePos :=
  if k + 1 < Config.blockFrames * q.channels then .copyRead (k + 1) else .finish

/-- Channel `c`'s planar buffer, a destination of DEINT, is left to any value: it overlaps the source, the
table, a bound segment or another destination (R196). DESIGN CHOICE: judged at each write event (log 8). -/
def deintOpen (s : State) (c : Nat) : Bool :=
  let q := s.here
  rangesMeet (q.pointer c) planarLen q.larg0.toNat (ibLen q) ||
  rangesMeet (q.pointer c) planarLen q.larg2.toNat (tbLen q) ||
  s.meetsBound (q.pointer c) planarLen ||
  (q.table.eraseIdx c).any (fun p => rangesMeet (q.pointer c) planarLen p.toNat planarLen)

/-- One micro-step of DEINT (R192): channel-major, copy `k` is channel k / 128, frame k mod 128. -/
def microDeint (s : State) : State :=
  match s.here.pos with
  | .decode => s.decodeStep (checkXpose s.cfg s.here) (xposeStart s.here)
  | .tableRead c => xposeTableStep s c
  | .copyRead k =>
    s.copyReadStep (interleavedAddr s.here (k % Config.blockFrames) (k / Config.blockFrames)) 4 (.copyWrite k)
  | .copyWrite k =>
    s.copyWriteStep (planarAddr s.here (k % Config.blockFrames) (k / Config.blockFrames))
      (fun _ => deintOpen s (k / Config.blockFrames)) (xposeAfter s.here k)
  | .finish => s.finishStep { s.here with res0 := s.here.larg1 }
  | .raising e info => s.raise e info
  | .idle | .initWr | .initRd | .loadRd | .loadWr | .recordWrite _ | .recordRead _ | .publish => s

/-- The steps a transpose takes at most: 2 + K + 256·K (R251). -/
def xposeSteps (q : Port) : Nat := 2 + q.channels + 256 * q.channels

/-- DEINT (R192), from its decode step to its end. -/
def execDeint (s : State) : Host.Outcome State Fault Refusal :=
  .next (runPort microDeint (xposeSteps s.here) s)

/-- The interleaved buffer, the destination of INTER, is left to any value: it overlaps a source, the table or a
bound segment (R196). DESIGN CHOICE: judged at each write event (log 8). -/
def interOpen (s : State) : Bool :=
  let q := s.here
  rangesMeet q.larg0.toNat (ibLen q) q.larg2.toNat (tbLen q) ||
  s.meetsBound q.larg0.toNat (ibLen q) ||
  q.table.any (fun p => rangesMeet q.larg0.toNat (ibLen q) p.toNat planarLen)

/-- One micro-step of INTER (R193): frame-major, copy `k` is frame k / K, channel k mod K. -/
def microInter (s : State) : State :=
  match s.here.pos with
  | .decode => s.decodeStep (checkXpose s.cfg s.here) (xposeStart s.here)
  | .tableRead c => xposeTableStep s c
  | .copyRead k =>
    s.copyReadStep (planarAddr s.here (k / s.here.channels) (k % s.here.channels)) 4 (.copyWrite k)
  | .copyWrite k =>
    s.copyWriteStep (interleavedAddr s.here (k / s.here.channels) (k % s.here.channels))
      (fun _ => interOpen s) (xposeAfter s.here k)
  | .finish => s.finishStep { s.here with res0 := s.here.larg1 }
  | .raising e info => s.raise e info
  | .idle | .initWr | .initRd | .loadRd | .loadWr | .recordWrite _ | .recordRead _ | .publish => s

/-- INTER (R193), from its decode step to its end. -/
def execInter (s : State) : Host.Outcome State Fault Refusal :=
  .next (runPort microInter (xposeSteps s.here) s)

end Sys2Proof.Machine
end

