-- ==== Sys2Proof/Machine/Dispatch.lean ====
section
/-! DEFINITION. What each command does: the executing port runs it from its engine position to its end. -/

namespace Sys2Proof.Machine

/-- The executing port runs command `i` from its engine position to its end, no other agent's step in between. -/
def exec (i : Instr) (s : State) : Host.Outcome State Fault Refusal :=
  match i with
  | .nop => Sys2Proof.Machine.execNop s
  | .bind kind proto role init => Sys2Proof.Machine.execBind kind proto role init s
  | .size kind => Sys2Proof.Machine.execSize kind s
  | .empty => Sys2Proof.Machine.execEmpty s
  | .full => Sys2Proof.Machine.execFull s
  | .capacity => Sys2Proof.Machine.execCapacity s
  | .availRead => Sys2Proof.Machine.execAvailRead s
  | .availWrite => Sys2Proof.Machine.execAvailWrite s
  | .push => Sys2Proof.Machine.execPush s
  | .pop => Sys2Proof.Machine.execPop s
  | .wspanAcq => Sys2Proof.Machine.execWspanAcq s
  | .wspanCommit dflt => Sys2Proof.Machine.execWspanCommit dflt s
  | .aenq => Sys2Proof.Machine.execAenq s
  | .adeq => Sys2Proof.Machine.execAdeq s
  | .penq pidx => Sys2Proof.Machine.execPenq pidx s
  | .pdeq => Sys2Proof.Machine.execPdeq s
  | .deint => Sys2Proof.Machine.execDeint s
  | .inter => Sys2Proof.Machine.execInter s

end Sys2Proof.Machine
end

