-- ==== Sys2Proof/Machine/Engine.lean ====
section
/-! DEFINITION. A port's engine, one micro-step at a time (spec R93), with its bound on steps (R251). -/

namespace Sys2Proof.Machine

/-- One micro-step of command `i` on the executing port (R93). -/
def micro (i : Instr) (s : State) : State :=
  match i with
  | .nop => microNop s
  | .bind kind proto role init => microBind kind proto role init s
  | .size kind => microSize kind s
  | .empty => microEmpty s
  | .full => microFull s
  | .capacity => microCapacity s
  | .availRead => microAvailRead s
  | .availWrite => microAvailWrite s
  | .push => microPush s
  | .pop => microPop s
  | .wspanAcq => microWspanAcq s
  | .wspanCommit dflt => microWspanCommit dflt s
  | .aenq => microAenq s
  | .adeq => microAdeq s
  | .penq pidx => microPenq pidx s
  | .pdeq => microPdeq s
  | .deint => microDeint s
  | .inter => microInter s

/-- The steps a command takes at most, on the operands latched in `q` (R251). -/
def stepBound (i : Instr) (q : Port) : Nat :=
  match i with
  | .nop => 2
  | .bind _ _ _ init => bindSteps init
  | .size _ => 2
  | .empty => 4
  | .full => 4
  | .capacity => 2
  | .availRead => 4
  | .availWrite => 4
  | .push => transferSteps q
  | .pop => transferSteps q
  | .wspanAcq => 4
  | .wspanCommit _ => 3
  | .aenq => transferSteps q
  | .adeq => transferSteps q
  | .penq _ => 10
  | .pdeq => 10
  | .deint => xposeSteps q
  | .inter => xposeSteps q

/-- The checks of command `i` before its first memory event, in the order of its rule (R93, R205): the first that
fails, with its ERR_INFO. -/
def check (i : Instr) (cfg : Config) (q : Port) : Option (ErrCode × Word) :=
  match i with
  | .nop => none
  | .bind kind proto _ _ => checkBind kind proto cfg q
  | .size kind => checkSize kind q
  | .empty => checkQuery q
  | .full => checkQuery q
  | .capacity => checkQuery q
  | .availRead => checkQuery q
  | .availWrite => checkQuery q
  | .push => checkPush cfg q
  | .pop => checkPop cfg q
  | .wspanAcq => checkWspanAcq q
  | .wspanCommit dflt => checkWspanCommit dflt q
  | .aenq => checkAenq cfg q
  | .adeq => checkAdeq cfg q
  | .penq _ => checkPenq q
  | .pdeq => checkPdeq q
  | .deint => checkXpose cfg q
  | .inter => checkXpose cfg q

/-- The command in flight on a port, if LCMD is one (R93, R95). -/
def Port.command? (q : Port) : Option Instr :=
  match decode q.lcmd with
  | .ok i => some i
  | .error _ => none

/-- The next micro-step of the executing port (R93): of its command, or of the error an illegal word ends with
(R96 to R98). An idle port takes none. -/
def portMicro (s : State) : State :=
  match s.here.command? with
  | some i => micro i s
  | none => microIllegal s

/-- The steps the port's command takes at most, an illegal word its decode and `raise` steps (R251). -/
def Port.bound? (q : Port) : Nat :=
  match q.command? with
  | some i => stepBound i q
  | none => 2

/-- The executing port runs its command to its end: the meaning of the command, or ILLEGAL_CMD. -/
def execHere (s : State) : Host.Outcome State Fault Refusal :=
  match s.here.command? with
  | some i => exec i s
  | none => .next (runPort microIllegal 2 s)

end Sys2Proof.Machine
end

