-- ==== Sys2Proof/Machine/Registers.lean ====
section
/-! DEFINITION. The register block as the host sees it (spec R22 to R36, R93, R207). -/

namespace Sys2Proof.Machine

/-- IRQ[p] (R207). -/
def State.irq (s : State) (p : Nat) : Bool := (s.port p).irq

/-- The host's interrupt input `j`: some line routed to it is up (R207, IRQ_ROUTE). A port with no entry in
IRQ_ROUTE drives input 0. -/
def State.hostIrq (s : State) (j : Nat) : Bool :=
  (List.range s.ports.length).any (fun p => (s.cfg.irqRoute.getD p 0 == j) && s.irq p)

/-- CFG (R23): NPORTS in bits 4:0, HAS_XPOSE in bit 8. -/
def cfgWord (c : Config) : Word := 0#23 ++ BitVec.ofBool c.hasXpose ++ 0#3 ++ BitVec.ofNat 5 c.nports

/-- MEMSZ_M1 (R24). -/
def memSizeWord (c : Config) : Word := BitVec.ofNat 32 (c.memSize - 1)

/-- IRQ_STATUS from port `p` on: bit p is IRQ[p] (R25). -/
def irqBits (ports : List Port) (p : Nat) : Word :=
  match ports with
  | [] => 0
  | q :: rest => (if q.irq then 1#32 <<< p else 0) ||| irqBits rest (p + 1)

/-- IRQ_STATUS (R25): bits at and above NPORTS read 0. -/
def State.irqStatus (s : State) : Word := irqBits s.ports 0

/-- A port register by its offset from the port's base (R27); a reserved offset reads 0 (R28). -/
def Port.readReg (q : Port) (off : Nat) : Word :=
  match off with
  | 0x00 => q.cmd
  | 0x04 => q.status
  | 0x08 => q.ctrl
  | 0x0C => q.errCause
  | 0x10 => q.errInfo
  | 0x14 => q.arg0
  | 0x18 => q.arg1
  | 0x1C => q.arg2
  | 0x20 => q.arg3
  | 0x24 => q.res0
  | 0x28 => q.res1
  | 0x2C => q.res2
  | 0x30 => q.segBase
  | 0x34 => q.slots
  | 0x38 => q.bindcfg
  | 0x3C => q.span0Addr
  | 0x40 => q.span0Len
  | 0x44 => q.span1Addr
  | 0x48 => q.span1Len
  | _ => 0

/-- Where the port registers begin (R26). -/
def portSpace : Nat := 0x100

/-- The bytes of one port's registers (R26). -/
def portStride : Nat := 0x80

/-- The bytes of the register block (R46). -/
def regSpace : Nat := 0x1000

/-- The offset from REG_BASE of port `p`'s registers (R26). -/
def portOffset (p : Nat) : Nat := portSpace + portStride * p

/-- The port whose registers hold the offset from REG_BASE (R26); it may be at or above NPORTS. -/
def offPort (off : Nat) : Nat := (off - portSpace) / portStride

/-- The offset from that port's base (R26). -/
def offReg (off : Nat) : Nat := (off - portSpace) % portStride

/-- The register at an offset from REG_BASE (R22, R26); a reserved offset reads 0 (R28). -/
def State.readReg (s : State) (off : Nat) : Word :=
  if off < portSpace then
    match off with
    | 0x000 => Config.idValue
    | 0x004 => cfgWord s.cfg
    | 0x008 => memSizeWord s.cfg
    | 0x00C => s.irqStatus
    | _ => 0
  else if offPort off < s.ports.length then (s.port (offPort off)).readReg (offReg off)
  else 0

/-- A port's registers after it accepts the command word `w` (R93). -/
def Port.accepted (q : Port) (w : Word) : Port :=
  ((({ q with
      cmd := w, lcmd := w
      larg0 := q.arg0, larg1 := q.arg1, larg2 := q.arg2, larg3 := q.arg3
      errCause := 0, errInfo := 0
      pos := .decode }).setFlag .done false).setFlag .err false).setFlag .busy true

/-- The word is a BIND command (R111). -/
def bindWord (w : Word) : Bool :=
  match decode w with
  | .ok (.bind _ _ _ _) => true
  | _ => false

/-- The host writes `w` to CMD of port `p` (R93): a busy port drops it and sets OVR (R221), an idle port accepts
it. -/
def State.writeCmd (s : State) (p : Nat) (w : Word) : State :=
  if (s.port p).busy then s.setPort p ((s.port p).setFlag .ovr true)
  else { s.setPort p ((s.port p).accepted w) with order := s.order.accept p (bindWord w) }

/-- A host write of `v` to a port register other than CMD (R27): STATUS (R31), CTRL (R32), ARG0 to ARG3 (R35);
a write to a read-only or reserved offset is ignored (R28). -/
def Port.writeReg (q : Port) (off : Nat) (v : Word) : Port :=
  match off with
  | 0x04 => q.writeStatus v
  | 0x08 => q.writeCtrl v
  | 0x14 => { q with arg0 := v }
  | 0x18 => { q with arg1 := v }
  | 0x1C => { q with arg2 := v }
  | 0x20 => { q with arg3 := v }
  | _ => q

/-- A host write of `v` to the register at an offset from REG_BASE (R22, R26 to R28). -/
def State.writeReg (s : State) (off : Nat) (v : Word) : State :=
  if off < portSpace then s
  else if offPort off < s.ports.length then
    if offReg off = 0x00 then s.writeCmd (offPort off) v
    else s.setPort (offPort off) ((s.port (offPort off)).writeReg (offReg off) v)
  else s

/-- The host reads STATUS of port `p`: BUSY = 0 orders the finished command before the host's next access (R74
edge 4, R80). -/
def State.seeStatus (s : State) (p : Nat) : State :=
  if (s.port p).busy then s else { s with order := s.order.seen p }

/-- What a host register read leaves behind: nothing in RBC (R28), the returned value, and the order a read of
STATUS gives (R80). -/
def State.afterRead (s : State) (off : Nat) : State :=
  let t := if portSpace ≤ off ∧ offPort off < s.ports.length ∧ offReg off = 0x04 then s.seeStatus (offPort off) else s
  { t with regData := s.readReg off }

end Sys2Proof.Machine
end

