-- ==== Sys2Proof/Machine/Contract.lean ====
section
/-! DEFINITION. The host contract (spec R245): the moves and interleavings the model refuses, and the faults of
accesses to what does not exist. Nothing here is part of a command's meaning. -/

namespace Sys2Proof.Machine

/-- Why a move stops. -/
inductive Stop where
  /-- A fault. -/
  | fault (f : Fault)
  /-- A refusal. -/
  | refused (r : Refusal)
deriving DecidableEq, Repr

/-- The outcome a stop gives. -/
def Stop.outcome (t : Stop) : Host.Outcome State Fault Refusal :=
  match t with
  | .fault f => .fault f
  | .refused r => .refused r

/-- The command works on the port's bound segment: a ring command (R160, R134). -/
def ringCommand (i : Instr) : Bool :=
  match i with
  | .empty => true
  | .full => true
  | .capacity => true
  | .availRead => true
  | .availWrite => true
  | .push => true
  | .pop => true
  | .wspanAcq => true
  | .wspanCommit _ => true
  | .aenq => true
  | .adeq => true
  | .penq _ => true
  | .pdeq => true
  | .nop => false
  | .bind _ _ _ _ => false
  | .size _ => false
  | .deint => false
  | .inter => false

/-- The command is a BIND with INIT (R113). -/
def initCommand (i : Instr) : Bool :=
  match i with
  | .bind _ _ _ init => init
  | .nop | .size _ | .empty | .full | .capacity | .availRead | .availWrite | .push | .pop | .wspanAcq
  | .wspanCommit _ | .aenq | .adeq | .penq _ | .pdeq | .deint | .inter => false

/-- A ring command is in flight on the port. -/
def Port.inRing (q : Port) : Bool :=
  q.pos != .idle && (match q.command? with
    | some i => ringCommand i
    | none => false)

/-- A BIND with INIT is in flight on the port, its checks passed (R113). -/
def Port.inInit (q : Port) : Bool :=
  (q.pos == .initWr || q.pos == .initRd || q.pos == .finish) && (match q.command? with
    | some i => initCommand i
    | none => false)

/-- The port is bound to the segment at base `b`; one segment is one base (log 10). -/
def Port.at (q : Port) (b : Nat) : Bool := q.bound && q.base == b

/-- Two of the ports are bound to the segment at base `b` in one role (R218). -/
def doubled (b : Nat) (ports : List Port) : Bool :=
  match ports with
  | [] => false
  | q :: rest => (q.at b && rest.any (fun r => r.at b && r.role == q.role)) || doubled b rest

/-- The executing port runs a ring command on a segment where two ports hold one role, be it its own or the other one
(R218): a change of roles that stopped half way (log 10). -/
def badPairing (s : State) : Bool := s.here.inRing && s.here.bound && doubled s.here.base s.ports

/-- The executing port and port `p` were both brought idle, and the host has read so, before it rebinds the first of them
(R218). -/
def bothIdle (s : State) (p : Nat) : Bool :=
  s.order.knows s.agent s.cur == .idle && s.order.broughtIdle s.cur p

/-- A BIND of the executing port to `role` on the segment at `b` breaks R218 with respect to port `p`. A port that
changes its role on its own segment needs both ports brought idle; any other BIND must find no port of that role
there. -/
def breaksPairing (s : State) (b : Nat) (role : Role) (p : Nat) : Bool :=
  (s.port p).at b &&
    (if s.here.at b && s.here.role != role then !bothIdle s p else (s.port p).role == role)

/-- The executing port is about to finish a BIND that breaks R218 (U1, U2, log 10): with respect to some other port, or
on a segment where two other ports already hold one role. -/
def badBind (s : State) : Bool :=
  s.here.pos == .finish && (match s.here.command? with
    | some (.bind _ _ role _) =>
      doubled s.here.larg0.toNat s.others ||
      (List.range s.ports.length).any (fun p => p != s.cur && breaksPairing s s.here.larg0.toNat role p)
    | _ => false)

/-- A BIND with INIT on a segment that another port is using (R113, R218, R236, U20): beside its ring command or its
open grant, or not ordered after its accesses to the index words (log 10). -/
def badInit (s : State) : Bool :=
  (s.here.inInit && s.others.any (fun r => r.bound && r.base == s.here.larg0.toNat && (r.inRing || r.grant))) ||
  ((s.here.pos == .initWr || s.here.pos == .initRd) && s.order.unsettledUse s.agent s.here.larg0.toNat) ||
  (s.here.inRing && s.here.bound && s.others.any (fun r => r.inInit && r.larg0.toNat == s.here.base))

/-- Agent `a` is a port bound to the segment at `base` in the role `r`: the owner of that role's index word (R85). -/
def ownsIndex (s : State) (a base : Nat) (r : Role) : Bool :=
  (List.range s.ports.length).any (fun p =>
    portAgent p == a && (s.port p).bound && (s.port p).base == base && (s.port p).role == r)

/-- Agent `a` is a port that owns the index word at `x`: its producer or its consumer (R85). -/
def ownsWord (s : State) (x a : Nat) : Bool :=
  (List.range s.ports.length).any (fun p => portAgent p == a && (s.port p).bound &&
    (((s.port p).role == .producer && (s.port p).wiAddr == x) ||
     ((s.port p).role == .consumer && (s.port p).riAddr == x)))

/-- The bytes [x, x+n) touch an index word of a bound segment that agent `a` does not own (R85, R218, U3,
log 10). -/
def touchesIndex (s : State) (a x n : Nat) : Bool :=
  s.ports.any (fun q => q.bound &&
    ((rangesMeet x n q.wiAddr 4 && !ownsIndex s a q.base .producer) ||
     (rangesMeet x n q.riAddr 4 && !ownsIndex s a q.base .consumer)))

/-- The memory event a step made: the one its record has on top (R68: at most one a step). -/
def newEvent (s s' : State) : Option MemEvent :=
  match s'.order.trace with
  | [] => none
  | e :: rest => if rest.length = s.order.trace.length then some e else none

/-- Whether a memory event that agent `e.agent` makes in `s` must stop the step: outside MEM (R70), an index word
written by one who does not own it (R85), an index word loaded before its initialisation is ordered (R235). -/
def eventStop (s : State) (e : MemEvent) : Option Stop :=
  if !inMem s.cfg e.addr e.len then some (.fault (.outsideMem e.addr))
  else if e.kind == .write && touchesIndex s e.agent e.addr e.len then some (.refused (.indexOwnership e.addr))
  else if e.kind == .load && s.order.unsettledInit e.agent e.addr (ownsWord s e.addr) then some (.refused (.indexInit e.addr))
  else none

/-- Whether the step of the executing port from `s` to `s'` must stop (R245). -/
def portStop (s s' : State) : Option Stop :=
  if badPairing s || badBind s then some (.refused (.pairing s.cur))
  else if badInit s then some (.refused (.initInUse s.cur))
  else
    match newEvent s s' with
    | some e => eventStop s e
    | none => none

/-- The first stop that running the executing port for at most `fuel` micro-steps would meet. -/
def runStop (fuel : Nat) (s : State) : Option Stop :=
  match fuel with
  | 0 => none
  | k + 1 =>
    if s.here.pos = .idle then none
    else
      match portStop s (portMicro s) with
      | some t => some t
      | none => runStop k (portMicro s)

/-- The port runs a WSPAN.COMMIT: its spans are no longer the host's (R243). -/
def Port.committing (q : Port) : Bool :=
  q.pos != .idle && (match q.command? with
    | some (.wspanCommit _) => true
    | _ => false)

/-- A byte of a granted span (R151): the host may write it, until it has written the COMMIT word (R243). DESIGN CHOICE: a
span byte that lies in another, different bound segment too is none, since R71 forbids that overlap: what the host
writes there leaves any value, as a PUSH of that byte does (log 7). -/
def inSpan (s : State) (m : Nat) : Bool :=
  s.ports.any (fun q => q.bound && q.grant && !q.committing && !foreignIn s.ports q.base q.nslots q.esize m &&
    (inRange q.span0Addr.toNat (q.span0Len.toNat * q.esize) m ||
     inRange q.span1Addr.toNat (q.span1Len.toNat * q.esize) m))

/-- A byte the host must not write: a slot outside the granted spans (R85, R243, R245), or in the overlap of a span with
another segment (R71). What it writes there leaves any value (U11, log 7, log 8). -/
def hostOpen (s : State) (m : Nat) : Bool := s.inSegment m && !inSpan s m

end Sys2Proof.Machine
end

