-- ==== Sys2Proof/Machine/Moves.lean ====
section
/-! DEFINITION. What each move of the agenda does: the host's accesses (spec R28, R62, R93), a port's micro-steps
(R93) and RST (R230). -/

namespace Sys2Proof.Machine

/-- The executing port takes one micro-step, inside the contract (R93, R245). -/
def guardedMicro (s : State) : Host.Outcome State Fault Refusal :=
  match portStop s (portMicro s) with
  | some t => t.outcome
  | none => .next (portMicro s)

/-- Port `p` takes its next micro-step; an idle port takes none, and at or above NPORTS there is no agent to take one
(R20). -/
def movePortStep (s : State) (p : Nat) : Host.Outcome State Fault Refusal :=
  if p < s.ports.length then guardedMicro { s with cur := p } else .next s

/-- The executing port runs its command to its end, inside the contract: the command's meaning. -/
def runHere (s : State) : Host.Outcome State Fault Refusal :=
  match runStop s.here.bound? s with
  | some t => t.outcome
  | none => execHere s

/-- Port `p` runs its command to its end; at or above NPORTS there is no agent to run (R20). -/
def moveRun (s : State) (p : Nat) : Host.Outcome State Fault Refusal :=
  if p < s.ports.length then runHere { s with cur := p } else .next s

/-- The host sees port `p` idle: it reads STATUS with BUSY = 0 (R80, R102 `wait`). -/
def State.seenIdle (s : State) (p : Nat) : State :=
  { s with order := s.order.seen p, regData := (s.port p).status }

/-- The host reads the offset where STATUS of a port at or above NPORTS would be: reserved (R26), it reads 0 (R28) and so
BUSY = 0. Beyond the register block there is no register (R46). -/
def moveAbsentStatus (s : State) (p : Nat) : Host.Outcome State Fault Refusal :=
  if portOffset p < regSpace then .next (s.afterRead (portOffset p + 0x04))
  else .fault (.noRegister (s.cfg.regBase + portOffset p))

/-- The machine as a command starts on port `p`: the host has written `w` to CMD and the port accepted it (R93). -/
def State.issued (s : State) (p : Nat) (w : Word) : State := { s.writeCmd p w with cur := p }

/-- The host writes `w` to CMD of port `p`, the port runs the command, and the host sees it end. A busy port drops
the word (R221), and a reserved offset ignores it (R28). -/
def moveCommand (s : State) (p : Nat) (w : Word) : Host.Outcome State Fault Refusal :=
  if p < s.ports.length then
    if (s.port p).busy then .next (s.writeCmd p w)
    else
      match runHere (s.issued p w) with
      | .next t => .next (t.seenIdle p)
      | .fault f => .fault f
      | .refused r => .refused r
  else moveAbsentStatus (s.writeReg (portOffset p) w) p

/-- The host polls STATUS of port `p` (R102 `wait`): a busy port takes its next micro-step and the poll goes on,
an idle one ends it. -/
def moveWait (s : State) (p : Nat) : Host.Outcome State Fault Refusal :=
  if p < s.ports.length then
    if (s.port p).busy then guardedMicro { s with cur := p, agenda := .wait p :: s.agenda }
    else .next (s.seenIdle p)
  else moveAbsentStatus s p

/-- A host address lies in the register block (R46). -/
def inRegSpace (cfg : Config) (addr : Nat) : Bool :=
  decide (cfg.regBase ≤ addr) && decide (addr < cfg.regBase + regSpace)

/-- An aligned 32-bit access (R28). -/
def properAccess (addr width : Nat) : Bool := decide (width = 4) && decide (addr % 4 = 0)

/-- The host reads a register (R28). -/
def moveRegRead (s : State) (addr width : Nat) : Host.Outcome State Fault Refusal :=
  if !inRegSpace s.cfg addr then .fault (.noRegister addr)
  else if !properAccess addr width then .refused (.registerAccess addr width)
  else .next (s.afterRead (addr - s.cfg.regBase))

/-- The host writes a register (R28). -/
def moveRegWrite (s : State) (addr width : Nat) (v : Word) : Host.Outcome State Fault Refusal :=
  if !inRegSpace s.cfg addr then .fault (.noRegister addr)
  else if !properAccess addr width then .refused (.registerAccess addr width)
  else .next (s.writeReg (addr - s.cfg.regBase) v)

/-- The host reads MEM (R62): one data read event of the host. -/
def moveMemRead (s : State) (addr n : Nat) : Host.Outcome State Fault Refusal :=
  if inMem s.cfg addr n then
    .next { s.readEvent hostAgent .read addr n with memData := s.seenBytes hostAgent addr n }
  else .fault (.outsideMem addr)

/-- The host writes MEM (R62, R151): one data write event of the host, inside the contract. -/
def moveMemWrite (s : State) (addr : Nat) (bs : List Byte) : Host.Outcome State Fault Refusal :=
  let s' := s.writeEvent hostAgent addr (hostOpen s) bs
  match newEvent s s' with
  | some e =>
    match eventStop s e with
    | some t => t.outcome
    | none => .next s'
  | none => .next s'

/-- What a move does. -/
def move (s : State) (m : Move) : Host.Outcome State Fault Refusal :=
  match m with
  | .regRead addr width => moveRegRead s addr width
  | .regWrite addr width v => moveRegWrite s addr width v
  | .memRead addr n => moveMemRead s addr n
  | .memWrite addr bs => moveMemWrite s addr bs
  | .portStep p => movePortStep s p
  | .run p => moveRun s p
  | .command p w => moveCommand s p w
  | .wait p => moveWait s p
  | .rst => .next s.rst

/-- The lowest busy port from `p` on. -/
def firstBusy (ports : List Port) (p : Nat) : Option Nat :=
  match ports with
  | [] => none
  | q :: rest => if q.busy then some p else firstBusy rest (p + 1)

/-- No move is planned: a busy port goes on (R250: a port that is busy eventually takes its next step), the lowest
first; with every port idle nothing happens (R234, R246). -/
def idleMove (s : State) : Host.Outcome State Fault Refusal :=
  match firstBusy s.ports 0 with
  | some p => movePortStep s p
  | none => .next s

/-- The next move of the agenda, on a machine that has foreseen what its reads race with later (R217, log 1). -/
def act (s : State) : Host.Outcome State Fault Refusal :=
  match s.agenda with
  | [] => idleMove s
  | m :: rest => move { s with agenda := rest } m

end Sys2Proof.Machine
end

