-- ==== Sys2Proof/Machine/Races.lean ====
section
/-! DEFINITION. Late races (spec R77): a write that is not ordered with an EARLIER read of the same byte. That read
returns any value, so before each step the model runs the moves that are still to come and finds the reads that a later
write races with (log 6). -/

namespace Sys2Proof.Machine

/-- Event `e` is ordered before event `w` (R74), `w` being the later of the two. -/
def MemEvent.before (e w : MemEvent) : Bool := e.agent == w.agent || decide (e.time ≤ w.seen.getD e.agent 0)

/-- The read `e` and the later write `w` race (R77). Index accesses are totally ordered (R73), so an AtomicLoad32 races
with data writes alone. -/
def MemEvent.racesWith (e w : MemEvent) : Bool :=
  e.kind.isRead && w.kind.isWrite && (e.kind != .load || w.kind == .write) && !e.before w

/-- The bytes in which the read `e` and the later event `w` race (R77). -/
def lateBytes (e w : MemEvent) : List Nat :=
  if e.racesWith w then ((List.range e.len).map (fun j => e.addr + j)).filter w.touches else []

/-- The memory events between two states of one run, newest first. -/
def newEvents (s t : State) : List MemEvent := t.order.trace.take (t.order.trace.length - s.order.trace.length)

/-- A move's outcome as the last state it leads to, and whether the run goes on from there. -/
def lastOf (s : State) (o : Host.Outcome State Fault Refusal) : State × Bool :=
  match o with
  | .next t => (t, true)
  | .fault _ => (s, false)
  | .refused _ => (s, false)

/-- The executing port takes its micro-steps, at most `fuel` of them, until its command has ended or the host contract
stops it (R93, R245). -/
def runFar (fuel : Nat) (s : State) : State × Bool :=
  match fuel with
  | 0 => (s, true)
  | k + 1 =>
    if s.here.pos = .idle then (s, true)
    else
      match portStop s (portMicro s) with
      | some _ => (s, false)
      | none => runFar k (portMicro s)

/-- Port `p` takes the micro-steps that are left of its command. -/
def finishPort (s : State) (p : Nat) : State × Bool :=
  let u : State := { s with cur := p }
  runFar u.here.bound? u

/-- A `wait` with all the steps it waits for (R102). -/
def wholeWait (s : State) (p : Nat) : State × Bool :=
  if p < s.ports.length ∧ (s.port p).busy = true then
    match finishPort s p with
    | (t, true) => (t.seenIdle p, true)
    | (t, false) => (t, false)
  else lastOf s (moveWait s p)

/-- A move of the agenda as a whole. -/
def wholeMove (s : State) (m : Move) : State × Bool :=
  match m with
  | .wait p => wholeWait s p
  | .regRead _ _ | .regWrite _ _ _ | .memRead _ _ | .memWrite _ _ | .portStep _ | .run _ | .command _ _ | .rst =>
    lastOf s (move s m)

/-- The run once the agenda is empty: the busy ports, at most `k` of them, run to their ends, the lowest first
(`idleMove`). -/
def drain (k : Nat) (s : State) : State :=
  match k with
  | 0 => s
  | j + 1 =>
    match firstBusy s.ports 0 with
    | none => s
    | some p =>
      match finishPort s p with
      | (t, true) => drain j t
      | (t, false) => t

/-- The run of the moves `ms`, then of the ports still busy: its last state. It ends where a move or a step stops, and
before RST, since what comes after RST is ordered after all that came before it (log 17). -/
def runPlan (ms : List Move) (s : State) : State :=
  match ms with
  | [] => drain s.ports.length s
  | m :: rest =>
    if m = .rst then s
    else
      match wholeMove { s with agenda := rest } m with
      | (t, true) => runPlan rest t
      | (t, false) => t

/-- The machine with the reads `l` as those that a later write races with. -/
def State.foreseeing (s : State) (l : List LateRead) : State := { s with order := { s.order with foreseen := l } }

/-- The end of the planned run, the reads `l` returning any value. -/
def planEnd (s : State) (l : List LateRead) : State := runPlan s.agenda (s.foreseeing l)

/-- The late reads that the write `w` makes among the events `es` before it, newest first, with `base` events before
them all. -/
def lateBy (base : Nat) (w : MemEvent) (es : List MemEvent) : List LateRead :=
  match es with
  | [] => []
  | e :: rest => (lateBytes e w).map (fun m => { event := base + rest.length, byte := m }) ++ lateBy base w rest

/-- The late reads among the events `es`, newest first, with `base` events before them all (R77). -/
def lateIn (base : Nat) (es : List MemEvent) : List LateRead :=
  match es with
  | [] => []
  | w :: rest => if w.kind.isWrite then lateBy base w rest ++ lateIn base rest else lateIn base rest

/-- The events are all of one agent, and so in no race with each other (R74 edge 1). -/
def oneAgent (es : List MemEvent) : Bool :=
  match es with
  | [] => true
  | e :: rest => rest.all (fun f => f.agent == e.agent)

/-- The late reads of the planned run, in the bytes of MEM, if the reads `l` return any value (R77). -/
def lateReads (s : State) (l : List LateRead) : List LateRead :=
  match newEvents s (planEnd s l) with
  | es =>
    if oneAgent es then []
    else (lateIn s.order.trace.length es).filter (fun r => decide (r.byte < s.cfg.memSize))

/-- Every late read that `late` finds when the reads `l` return any value is one of `l`. -/
def closed (late : List LateRead → List LateRead) (l : List LateRead) : Bool :=
  (late l).all (fun r => l.contains r)

/-- The late reads from `l` on: a value that a race leaves open may bring about another race, so the run is looked at
again, at most `k` times, until nothing new is found. -/
def settle (k : Nat) (late : List LateRead → List LateRead) (l : List LateRead) : List LateRead :=
  match k with
  | 0 => l
  | j + 1 =>
    match late l with
    | found =>
      match found.filter (fun r => !l.contains r) with
      | [] => l
      | r :: more => settle j late (l ++ r :: more)

/-- `l` without the reads that turn out to race with nothing, at most `k` times over, while it stays closed. -/
def tighten (k : Nat) (late : List LateRead → List LateRead) (l : List LateRead) : List LateRead :=
  match k with
  | 0 => l
  | j + 1 =>
    match late l with
    | found =>
      match l.filter (fun r => found.contains r) with
      | l' => if l'.length = l.length then l else if closed late l' then tighten j late l' else l

/-- The most memory events that the planned run can make (R251): no move makes 2^42. -/
def planBound (s : State) : Nat := (s.agenda.length + s.ports.length) * 2 ^ 42

/-- The late reads from the ones in `l` on. The run that a step finds them for is the run that comes: where the next step
finds `l` closed, it keeps it. -/
def search (s : State) (l : List LateRead) : List LateRead :=
  if closed (lateReads s) l then l
  else
    match settle (planBound s * s.cfg.memSize + 1) (lateReads s) l with
    | c => tighten c.length (lateReads s) c

/-- `l` without the reads that the planned run does not come to. -/
def inPlan (s : State) (l : List LateRead) : List LateRead :=
  match l with
  | [] => []
  | r :: more =>
    match (planEnd s (r :: more)).order.trace.length with
    | n =>
      match (r :: more).filter (fun r => decide (s.order.trace.length ≤ r.event) && decide (r.event < n)) with
      | l' => if closed (lateReads s) l' then l' else r :: more

/-- The late reads of the planned run (R77, log 6). -/
def planned (s : State) : List LateRead := inPlan s (search s s.order.plan)

/-- Those of the late reads `l` that are events of the next step. -/
def inStep (s : State) (l : List LateRead) : List LateRead :=
  match l with
  | [] => []
  | r :: more =>
    match act (s.foreseeing (r :: more)) with
    | .next t => (r :: more).filter (fun r => decide (r.event < t.order.trace.length))
    | .fault _ => r :: more
    | .refused _ => r :: more

/-- The late reads of the next step (R77, log 6). -/
def foresee (s : State) : List LateRead := inStep s (planned s)

/-- The machine that has looked ahead at its plan. -/
def State.lookAhead (s : State) : State :=
  match planned s with
  | l => { s with order := { s.order with foreseen := inStep s l, plan := l } }

end Sys2Proof.Machine
end

