-- ==== Sys2Proof/Machine/Step.lean ====
section
/-! DEFINITION. One step of the machine: the next move of the agenda. -/

namespace Sys2Proof.Machine

/-- One step: the next move of the agenda, its reads of what a later write races with returning any value (R217, R77,
log 1, log 6). -/
def step (s : State) : Host.Outcome State Fault Refusal := act s.lookAhead

/-- The command word of the table's bits put where the next step takes its command from: the host's next move is
to write it to CMD of the executing port and see it end (log 11). -/
def State.withFetchWord (s : State) (nbits w : Nat) : State :=
  { s with agenda := .command s.cur (BitVec.ofNat 32 (w % 2 ^ nbits)) :: s.agenda }

end Sys2Proof.Machine
end

