-- ==== Sys2Proof/Safety.lean ====
section
/-! DEFINITION. The terms the statements use: when a port starts a command, what "nothing else changes" means, when
memory is free of races and overlaps, and the invariant of the machine. -/

namespace Sys2Proof.Machine

/-! ## Starting and ending a command -/

/-- The executing port exists and its next micro-step is the decode step of a command (R93). -/
abbrev Ready (s : State) : Prop := s.cur < s.ports.length ∧ s.here.pos = .decode

/-- A port ready to start whose engine holds nothing of an earlier command, as the end of a command and reset leave
it (R94, R190, R231; `engineInside`). -/
abbrev Fresh (s : State) : Prop := Ready s ∧ s.here.table = [] ∧ s.here.record = []

/-- STATUS as the finish step leaves it: DONE set, BUSY cleared, every other bit as it was (R30, R94). -/
def doneStatus (w : Word) : Word := (w ||| 0x2#32) &&& ~~~0x1#32

/-- STATUS as `raise` leaves it: ERR and DONE set, BUSY cleared, every other bit as it was (R30, R203). -/
def errorStatus (w : Word) : Word := (w ||| 0x6#32) &&& ~~~0x1#32

/-- A port whose command has ended: idle, with nothing held in its engine (R94, R190). -/
def Port.atRest (q : Port) : Port := { q with pos := .idle, elem := [], table := [], record := [] }

/-- A port after the finish step of a command that has written the registers of `q` (R94). -/
def Port.finished (q : Port) : Port := ({ q with status := doneStatus q.status }).atRest

/-- A port after `raise E(info)` (R203): `code` is the error's code of R201. -/
def Port.failed (q : Port) (code info : Word) : Port :=
  ({ q with errCause := code, errInfo := info, res0 := 0, status := errorStatus q.status }).atRest

/-- Nothing but the executing port, MEM, the ordering record and the free-value counter may differ: every other
port keeps every register (R217). -/
def Elsewhere (s t : State) : Prop :=
  t.cfg = s.cfg ∧ t.cur = s.cur ∧ t.agenda = s.agenda ∧ t.regData = s.regData ∧ t.memData = s.memData ∧
  t.ports.length = s.ports.length ∧ ∀ p, p ≠ s.cur → t.port p = s.port p

/-- `exec i s` answers a next state in which the executing port is `q` and `post` holds. -/
def Answers (i : Instr) (s : State) (q : Port) (post : State → Prop) : Prop :=
  ∃ t, exec i s = .next t ∧ t.here = q ∧ Elsewhere s t ∧ post t

/-- MEM and the record of memory events are as before: no memory event happened. -/
def NoEvent (s t : State) : Prop := t.mem = s.mem ∧ t.order.trace = s.order.trace

/-- MEM is as before, and `n` memory events happened. -/
def OnlyReads (n : Nat) (s t : State) : Prop :=
  t.mem = s.mem ∧ t.order.trace.length = s.order.trace.length + n

/-- `exec i s` ends with the error whose code of R201 is `code` before any memory event (R203, R204). -/
def Fails (i : Instr) (s : State) (code info : Word) : Prop :=
  Answers i s (s.here.failed code info) (NoEvent s)

/-- Command `i` is at work on port `p` in the next step: the port's engine stands in it, or the next move is the
host's issue of it, to be run to its end (R93). -/
def AtWork (s : State) (p : Nat) (i : Instr) : Prop :=
  ((s.port p).pos ≠ .idle ∧ (s.port p).command? = some i) ∨
  ∃ w, s.agenda.head? = some (.command p w) ∧ decode w = .ok i

/-! ## The index words and the ring -/

/-- read_index as MEM holds it (R47). -/
def State.rdIndex (s : State) : Word := s.mem.readWord (s.here.base + 4)

/-- write_index as MEM holds it (R47). -/
def State.wrIndex (s : State) : Word := s.mem.readWord s.here.base

/-- A pair of indices a ring command accepts: both below S (R48, R131). -/
abbrev ValidIndices (s : State) : Prop :=
  s.rdIndex.toNat < s.here.nslots ∧ s.wrIndex.toNat < s.here.nslots

/-- The executing port after LoadIndices (R131). -/
def State.loaded (s : State) : Port := { s.here with lrd := s.rdIndex, lwr := s.wrIndex }

/-- Elements readable, by the formula of R130. -/
def State.canRead (s : State) : Nat :=
  (s.wrIndex.toNat + s.here.nslots - s.rdIndex.toNat) % s.here.nslots

/-- Elements writable, by the formula of R130. -/
def State.canWrite (s : State) : Nat := s.here.nslots - 1 - s.canRead

/-- The address of the slot that is `k` places after index `i` in ring order: the slots i, i+1, … taken mod S
(R47, R130). -/
def State.ringSlot (s : State) (e i k : Nat) : Nat := slotAddr s.here.base e ((i + k) % s.here.nslots)

/-- Byte `a` is one of the four of the index word at `w`, or one of the slots of the `n` elements of `e` bytes from
index `i` on. -/
def inStores (s : State) (w e i n a : Nat) : Prop :=
  (w ≤ a ∧ a < w + 4) ∨ ∃ k, k < n ∧ s.ringSlot e i k ≤ a ∧ a < s.ringSlot e i k + e

/-! ## Freedom from races and overlaps -/

/-- In the ordering record `o`, no access of agent `a` to a byte of [x, x+n) in its next step races with an earlier
write, and no read of it with a later one (R77). -/
abbrev Quiet (o : Order) (a x n : Nat) : Prop := ∀ j, j < n → o.mayRace a (x + j) = false

/-- The ordering record after the load of read_index by the executing port (R131, R74 edge 2), where no race leaves it
open. -/
def State.orderRd (s : State) : Order :=
  (s.order.record s.agent .load (s.here.base + 4) 4).acquire s.agent (s.here.base + 4)

/-- The ordering record after LoadIndices of the executing port (R131): where no race leaves its loads open, it
has learned what the stores of both index words carried (R74 edge 2). -/
def State.orderLoaded (s : State) : Order :=
  (s.orderRd.record s.agent .load s.here.base 4).acquire s.agent s.here.base

/-- The loads of both index words return what MEM holds: no data write to them, earlier or later, races (R77, R131). -/
abbrev IndicesQuiet (s : State) : Prop :=
  (∀ j, j < 4 →
    (s.order.acquire s.agent (s.here.base + 4)).loadOpen s.agent (s.here.base + 4 + j) = false) ∧
  ∀ j, j < 4 → (s.orderRd.acquire s.agent s.here.base).loadOpen s.agent (s.here.base + j) = false

/-- LoadIndices goes through (R131): the indices are valid, and their loads are free of races. -/
abbrev IndicesLoad (s : State) : Prop := ValidIndices s ∧ IndicesQuiet s

/-- The slots of the bound segment are free of races (R77). -/
abbrev SlotsQuiet (s : State) : Prop :=
  Quiet s.orderLoaded s.agent (s.here.base + 8) (s.here.nslots * s.here.esize)

/-- No byte of the executing port's segment lies in another, different bound segment (R71). -/
abbrev SegmentApart (s : State) : Prop := ∀ j, j < s.here.segLen → s.foreign (s.here.base + j) = false

/-- Under the ordering record `o`, an AtomicStore32 of the executing port leaves its value in the index word at `w`:
no byte of it lies in the overlap with another segment (R71), and no data write to it is unordered (R77). -/
abbrev IndexSettled (s : State) (o : Order) (w : Nat) : Prop :=
  ∀ j, j < 4 → s.foreign (w + j) = false ∧ o.dataRacy s.agent (w + j) = false

/-- The host buffer of a transfer of LARG1 elements of `e` bytes from offset `off` (R100) is in range: it is empty, or
it lies in MEM, computed exactly (R70, R134). -/
abbrev BufferInMem (s : State) (e off : Nat) : Prop :=
  s.here.larg1.toNat = 0 ∨ s.here.larg0.toNat + (off + s.here.larg1.toNat) * e ≤ s.cfg.memSize

/-- The host buffer of a transfer of LARG1 elements of `e` bytes from offset `off` (R100) does not overlap the port's
own segment (R141, R146). -/
abbrev BufferApart (s : State) (e off : Nat) : Prop :=
  s.meetsOwn (s.here.larg0.toNat + off * e) (s.here.larg1.toNat * e) = false

/-- The host buffer of a transfer of LARG1 elements of `e` bytes from offset `off` (R100) is free of races (R77,
R242). -/
abbrev BufferQuiet (s : State) (e off : Nat) : Prop :=
  Quiet s.orderLoaded s.agent (s.here.larg0.toNat + off * e) (s.here.larg1.toNat * e)

/-! ## What the transfers and the transposes do to MEM -/

/-- MEM after a producer transfer of `n` elements of `e` bytes from offset `off` of the host buffer (R140). Only the
`n` slots from write_index on and write_index itself differ. write_index is `n` further, where no overlap and no data
write leaves it to any value (R71, R77). With a buffer that does not overlap the segment (R141), each slot byte holds
the buffer's byte, where the slot byte lies in no other segment and no access to either byte races (R71, R77). -/
def PushedInto (s : State) (e off n : Nat) (t : State) : Prop :=
  (∀ a, ¬ inStores s s.here.base e s.wrIndex.toNat n a → t.mem.read a = s.mem.read a) ∧
  (IndexSettled s s.orderLoaded s.here.base →
    t.mem.readWord s.here.base = BitVec.ofNat 32 ((s.wrIndex.toNat + n) % s.here.nslots)) ∧
  (BufferApart s e off → ∀ k j, k < n → j < e →
    let dst := s.ringSlot e s.wrIndex.toNat k + j
    let src := s.here.larg0.toNat + (off + k) * e + j
    s.foreign dst = false → s.orderLoaded.racy s.agent dst = false → s.orderLoaded.mayRace s.agent src = false →
    t.mem.read dst = s.mem.read src)

/-- MEM after a consumer transfer of `n` elements of `e` bytes to offset `off` of the host buffer (R145). Only the
`n` elements of the buffer and read_index differ. read_index is `n` further, where no overlap and no data write leaves
it to any value (R71, R77). With a buffer that does not overlap the segment (R146), each buffer byte holds the slot's
byte, where the buffer byte lies in no bound segment and no access to either byte races (R71, R77). -/
def PoppedFrom (s : State) (e off n : Nat) (t : State) : Prop :=
  (∀ a, ¬ (s.here.base + 4 ≤ a ∧ a < s.here.base + 8) →
    ¬ (s.here.larg0.toNat + off * e ≤ a ∧ a < s.here.larg0.toNat + (off + n) * e) →
    t.mem.read a = s.mem.read a) ∧
  (IndexSettled s s.orderLoaded (s.here.base + 4) →
    t.mem.readWord (s.here.base + 4) = BitVec.ofNat 32 ((s.rdIndex.toNat + n) % s.here.nslots)) ∧
  (BufferApart s e off → ∀ k j, k < n → j < e →
    let dst := s.here.larg0.toNat + (off + k) * e + j
    let src := s.ringSlot e s.rdIndex.toNat k + j
    s.inSegment dst = false → s.orderLoaded.racy s.agent dst = false → s.orderLoaded.mayRace s.agent src = false →
    t.mem.read dst = s.mem.read src)

/-- P[c], the channel pointer as MEM holds it (R191). -/
def State.chan (s : State) (c : Nat) : Word := s.mem.readWord (s.here.larg2.toNat + 4 * c)

/-- The operands of DEINT and INTER pass the checks of R191 that come before the table reads. -/
abbrev XposeOperands (s : State) : Prop :=
  s.cfg.hasXpose = true ∧ s.here.larg1.toNat = s.here.larg3.toNat * 128 ∧
  s.here.larg0.toNat % 4 = 0 ∧ s.here.larg0.toNat + 4 * s.here.larg1.toNat ≤ s.cfg.memSize ∧
  s.here.larg2.toNat % 4 = 0 ∧ s.here.larg2.toNat + 4 * s.here.larg3.toNat ≤ s.cfg.memSize

/-- Channel pointer `c` passes its checks of R191. -/
abbrev PointerOk (s : State) (c : Nat) : Prop :=
  (s.chan c).toNat % 4 = 0 ∧ (s.chan c).toNat + 512 ≤ s.cfg.memSize

/-- The operands of DEINT and INTER pass every check of R191. -/
abbrev XposeOk (s : State) : Prop :=
  XposeOperands s ∧ ∀ c, c < s.here.larg3.toNat → PointerOk s c

/-- No write to the channel-pointer table races with the command (R77, R242). -/
abbrev TableQuiet (s : State) : Prop :=
  Quiet s.order s.agent s.here.larg2.toNat (4 * s.here.larg3.toNat)

/-- The buffers of a DEINT keep R196's duty but for channels that overlap each other, and are free of races (R77,
R242): each channel buffer lies off the interleaved buffer, the table and every bound segment. -/
abbrev DeintFree (s : State) : Prop :=
  Quiet s.order s.agent s.here.larg0.toNat (4 * s.here.larg1.toNat) ∧
  ∀ c, c < s.here.larg3.toNat →
    s.meetsBound (s.chan c).toNat 512 = false ∧
    rangesMeet (s.chan c).toNat 512 s.here.larg0.toNat (4 * s.here.larg1.toNat) = false ∧
    rangesMeet (s.chan c).toNat 512 s.here.larg2.toNat (4 * s.here.larg3.toNat) = false ∧
    Quiet s.order s.agent (s.chan c).toNat 512

/-- The interleaved buffer of an INTER and its table do not overlap (R196). -/
abbrev TableApart (s : State) : Prop :=
  rangesMeet s.here.larg0.toNat (4 * s.here.larg1.toNat) s.here.larg2.toNat (4 * s.here.larg3.toNat) = false

/-- The buffers of an INTER keep R196's duty and are free of races (R77, R242): the interleaved buffer lies off the
table, every channel buffer and every bound segment. -/
abbrev InterFree (s : State) : Prop :=
  s.meetsBound s.here.larg0.toNat (4 * s.here.larg1.toNat) = false ∧ TableApart s ∧
  Quiet s.order s.agent s.here.larg0.toNat (4 * s.here.larg1.toNat) ∧
  ∀ c, c < s.here.larg3.toNat →
    rangesMeet s.here.larg0.toNat (4 * s.here.larg1.toNat) (s.chan c).toNat 512 = false ∧
    Quiet s.order s.agent (s.chan c).toNat 512

/-- No two channel buffers overlap (R196: for DEINT they are destinations). -/
abbrev ChannelsApart (s : State) : Prop :=
  ∀ c, c < s.here.larg3.toNat → ∀ d, d < s.here.larg3.toNat → c ≠ d →
    rangesMeet (s.chan c).toNat 512 (s.chan d).toNat 512 = false

/-! ## The invariant of the machine -/

/-- The registers of a bound port are a binding that a BIND accepted (R111, R39, R112). -/
def segmentOk (cfg : Config) (q : Port) : Bool :=
  decide (q.base % 8 = 0) && decide (1 ≤ q.nslots) && decide (q.nslots ≤ 2 ^ 31) &&
  (elemSize q.kind == some q.esize) && decide (q.base + q.segLen ≤ cfg.memSize) &&
  (q.proto != 3#2) && (q.proto != protoAudio || q.kind == kindF32) &&
  (q.proto != protoParam || q.kind == kindU8) && (q.bindcfg >>> 11 == 0#32)

/-- An unbound port's binding registers read 0 (R39, R230). -/
def unboundOk (q : Port) : Bool := q.segBase == 0 && q.slots == 0 && q.bindcfg == 0

/-- An open grant (R150): a producer's, from a valid index, of at most S − 1 elements. -/
def grantOk (q : Port) : Bool :=
  !q.grant || (q.bound && q.role == .producer && decide (q.grantWr.toNat < q.nslots) &&
    decide (q.grantN.toNat < q.nslots))

/-- The command loads the indices (R131). -/
def loadsIndices (i : Instr) : Bool :=
  match i with
  | .empty => true
  | .full => true
  | .availRead => true
  | .availWrite => true
  | .push => true
  | .pop => true
  | .wspanAcq => true
  | .aenq => true
  | .adeq => true
  | .penq _ => true
  | .pdeq => true
  | .capacity => false
  | .wspanCommit _ => false
  | .nop => false
  | .bind _ _ _ _ => false
  | .size _ => false
  | .deint => false
  | .inter => false

/-- The engine position lies after LoadIndices and its checks (R131). -/
def EnginePos.afterLoads (pos : EnginePos) : Bool :=
  match pos with
  | .copyRead _ => true
  | .copyWrite _ => true
  | .recordWrite _ => true
  | .recordRead _ => true
  | .publish => true
  | .finish => true
  | .idle => false
  | .decode => false
  | .initWr => false
  | .initRd => false
  | .loadRd => false
  | .loadWr => false
  | .tableRead _ => false
  | .raising _ _ => false

/-- A command past its decode step has passed its checks (R93, R205), and past LoadIndices it holds valid indices
(R131). -/
def engineOk (cfg : Config) (q : Port) : Bool :=
  q.pos == .idle || q.pos == .decode || (match q.pos with
    | .raising _ _ => true
    | _ => false) ||
  (match q.command? with
    | some i => (check i cfg q).isNone &&
        (!(loadsIndices i && q.pos.afterLoads) ||
          (decide (q.lrd.toNat < q.nslots) && decide (q.lwr.toNat < q.nslots)))
    | none => false)

/-- The copies a command makes (R140, R145, R192, R193). -/
def copyCount (i : Instr) (q : Port) : Nat :=
  match i with
  | .push => pushCount q
  | .aenq => pushCount q
  | .pop => popCount q
  | .adeq => popCount q
  | .deint => Config.blockFrames * q.channels
  | .inter => Config.blockFrames * q.channels
  | .nop | .bind _ _ _ _ | .size _ | .empty | .full | .capacity | .availRead | .availWrite | .wspanAcq
  | .wspanCommit _ | .penq _ | .pdeq => 0

/-- The bytes of one copy of a command (R67). -/
def copyBytes (i : Instr) (q : Port) : Nat :=
  match i with
  | .push => q.esize
  | .pop => q.esize
  | .aenq => sampleSize
  | .adeq => sampleSize
  | .deint => 4
  | .inter => 4
  | .nop | .bind _ _ _ _ | .size _ | .empty | .full | .capacity | .availRead | .availWrite | .wspanAcq
  | .wspanCommit _ | .penq _ | .pdeq => 0

/-- The command reads a channel-pointer table (R191). -/
def readsTable (i : Instr) : Bool :=
  match i with
  | .deint => true
  | .inter => true
  | .nop | .bind _ _ _ _ | .size _ | .empty | .full | .capacity | .availRead | .availWrite | .push | .pop
  | .wspanAcq | .wspanCommit _ | .aenq | .adeq | .penq _ | .pdeq => false

/-- The engine holds `n` channel pointers, each of which has passed its checks (R191). -/
def tableOk (cfg : Config) (q : Port) (n : Nat) : Bool :=
  q.table.length == n && q.table.all (fun p => (checkPointer cfg p).isNone)

/-- Where the engine stands, it stands inside its command: the copy, the record byte or the table entry that is next
exists, and what it holds has the size the command gave it (R9, R182, R191). -/
def engineInside (cfg : Config) (q : Port) : Bool :=
  match q.pos with
  | .idle => q.table.isEmpty && q.record.isEmpty
  | .decode => q.table.isEmpty && q.record.isEmpty
  | .loadRd => q.record.isEmpty
  | .loadWr => q.record.isEmpty
  | .tableRead c => decide (c < q.channels) && tableOk cfg q c
  | .recordWrite k => decide (k < Config.recordSize) && decide (Config.recordSize ≤ q.writable)
  | .recordRead k => decide (k < Config.recordSize) && decide (Config.recordSize ≤ q.readable) &&
      q.record.length == k
  | .copyRead k => (match q.command? with
    | some i => decide (k < copyCount i q) && (!readsTable i || tableOk cfg q q.channels)
    | none => false)
  | .copyWrite k => (match q.command? with
    | some i => decide (k < copyCount i q) && (!readsTable i || tableOk cfg q q.channels) &&
        q.elem.length == copyBytes i q
    | none => false)
  | .initWr => true
  | .initRd => true
  | .publish => true
  | .finish => true
  | .raising _ _ => true

/-- Every engine stands inside its command. -/
def enginesInside (s : State) : Bool := s.ports.all (engineInside s.cfg)

/-- What holds of one port in every reachable state: reserved bits read 0 (R30, R32), ERR_CAUSE is a code that can be
raised (R201), BUSY shows whether the engine works (R30), and the binding, the grant and the engine are sound. -/
def portOk (cfg : Config) (q : Port) : Bool :=
  (q.status >>> 6 == 0#32) && (q.ctrl >>> 2 == 0#32) && decide (q.errCause.toNat < 15) &&
  (q.busy == (q.pos != .idle)) && (if q.bound then segmentOk cfg q else unboundOk q) &&
  grantOk q && engineOk cfg q

/-- The ports are those of the configuration and each is sound. -/
def portsOk (s : State) : Bool := s.ports.length == s.cfg.nports && s.ports.all (portOk s.cfg)

/-- The ordering record has one clock per agent, each with one entry per agent, and one list per agent of what it knows
of the ports' being idle, each with one entry per port; every recorded event is one its agent has counted, and no clock is ahead of the
events an agent has made (R74, R218). -/
def orderOk (s : State) : Bool :=
  let n := s.ports.length + 1
  let o := s.order
  o.clocks.length == n && o.clocks.all (fun c => c.length == n) && o.finished.length == s.ports.length &&
  o.finished.all (fun c => c.length == n) && o.released.all (fun r => r.2.length == n) &&
  o.known.length == n && o.known.all (fun k => k.length == s.ports.length) &&
  o.trace.all (fun e => decide (e.agent < n) && decide (e.time ≤ o.time e.agent e.agent)) &&
  (List.range n).all (fun b =>
    o.clocks.all (fun c => decide (c.getD b 0 ≤ o.time b b)) &&
    o.finished.all (fun c => decide (c.getD b 0 ≤ o.time b b)) &&
    o.released.all (fun r => decide (r.2.getD b 0 ≤ o.time b b)))

end Sys2Proof.Machine
end

