-- ==== Sys2Proof/Certificates/Slice0/Obligations.lean ====
section
/-! DEFINITION. The statements about the model, each a proposition for the provers. -/

open Sys2Proof Sys2Proof.Machine

/-- For every command whose encoding is legal (every command but a BIND with PROTO = 3), with every operand at every
value its field admits, decoding its command word gives exactly that command. (R91, R92, R95, R98, R99.) -/
def Obligations.DecodeOfEncode : Prop :=
  ∀ i : Instr, i.wellFormed = true → decode (encode i) = .ok i

/-- If a 32-bit word decodes to a command, that command is well formed and its encoding is that word: no command has
two words, and a word with a must-be-0 bit set decodes to nothing. (R90, R91, R95, R96, R101.) -/
def Obligations.EncodeOfDecode : Prop :=
  ∀ (w : Word) (i : Instr), decode w = .ok i → i.wellFormed = true ∧ encode i = w

/-- A word whose opcode is one of the reserved values (0x08-0x0F, 0x14-0x1F, 0x22-0x2F, 0x32-0x3F, 0x42-0xFF) is
refused as such; with an opcode of the table, a word with a 1 in a bit that its format marks must-be-0 is refused
for that; a BIND word with PROTO = 3 is refused for that; every other word decodes to a command. (R95, R96, R97,
R98.) -/
def Obligations.DecodeErrors : Prop :=
  ∀ w : Word,
    let opc := w.toNat / 2 ^ 24
    let reserved := (0x08 ≤ opc ∧ opc ≤ 0x0F) ∨ (0x14 ≤ opc ∧ opc ≤ 0x1F) ∨ (0x22 ≤ opc ∧ opc ≤ 0x2F) ∨
      (0x32 ≤ opc ∧ opc ≤ 0x3F) ∨ 0x42 ≤ opc
    let mustBe0 : Word := if opc = 0x01 then 0x0000FFFF#32 else if opc = 0x02 then 0x000FFFFF#32
      else if opc = 0x13 then 0x00FEFFFF#32 else if opc = 0x30 then 0x00FFFF00#32 else 0x00FFFFFF#32
    (reserved → decode w = .error (.reservedOpcode (BitVec.ofNat 8 opc))) ∧
    (¬ reserved → w &&& mustBe0 ≠ 0#32 → decode w = .error (.reservedBits w)) ∧
    (¬ reserved → w &&& mustBe0 = 0#32 → opc = 0x01 → w.toNat / 2 ^ 18 % 4 = 3 →
      decode w = .error (.reservedProto w)) ∧
    (¬ reserved → w &&& mustBe0 = 0#32 → ¬ (opc = 0x01 ∧ w.toNat / 2 ^ 18 % 4 = 3) →
      ∃ i, decode w = .ok i ∧ fieldOpc w = BitVec.ofNat 8 opc)

/-- Each of the twelve words of the table of R104, and one word of the opcode map for every command that the table
leaves out, decodes to the command it stands for, and encoding that command gives the word. (R104.) -/
def Obligations.WorkedEncodings : Prop :=
  ∀ x ∈ ([(0x00000000#32, .nop), (0x01610000#32, .bind 6#4 0#2 .producer true),
      (0x01620000#32, .bind 6#4 0#2 .consumer false), (0x01750000#32, .bind 7#4 1#2 .producer true),
      (0x01760000#32, .bind 7#4 1#2 .consumer false), (0x01190000#32, .bind 1#4 2#2 .producer true),
      (0x011A0000#32, .bind 1#4 2#2 .consumer false), (0x02600000#32, .size 6#4), (0x02700000#32, .size 7#4),
      (0x30000003#32, .penq 3#8), (0x300000FF#32, .penq 255#8), (0x13010000#32, .wspanCommit true),
      (0x03000000#32, .empty), (0x04000000#32, .full), (0x05000000#32, .capacity), (0x06000000#32, .availRead),
      (0x07000000#32, .availWrite), (0x10000000#32, .push), (0x11000000#32, .pop), (0x12000000#32, .wspanAcq),
      (0x13000000#32, .wspanCommit false), (0x20000000#32, .aenq), (0x21000000#32, .adeq), (0x31000000#32, .pdeq),
      (0x40000000#32, .deint), (0x41000000#32, .inter)] : List (Word × Instr)),
    decode x.1 = .ok x.2 ∧ encode x.2 = x.1

/-- Kinds 0 to 10 have the element sizes 1, 1, 1, 2, 2, 4, 4, 4, 8, 8, 8, and kinds 11 to 15 have none. (R42.) -/
def Obligations.ElementKinds : Prop :=
  (List.range 16).map (fun k => elemSize (BitVec.ofNat 4 k)) =
    [some 1, some 1, some 1, some 2, some 2, some 4, some 4, some 4, some 8, some 8, some 8,
     none, none, none, none, none]

/-- For S >= 1 slots and valid indices: AvailRead and AvailWrite are below S and sum to S - 1; empty means AvailRead
= 0 and full means AvailWrite = 0; moving write_index by n up to AvailWrite raises AvailRead by n, moving read_index
by n up to AvailRead lowers it by n, and the moved index stays below S; no intermediate value reaches 2^32 when S is
at most 2^31. (R130, R133, R112.) -/
def Obligations.RingCounts : Prop :=
  ∀ S rd wr : Nat, 1 ≤ S → rd < S → wr < S →
    availRead S rd wr < S ∧ availWrite S rd wr < S ∧ availRead S rd wr + availWrite S rd wr = S - 1 ∧
    (isEmpty rd wr = true ↔ availRead S rd wr = 0) ∧ (isFull S rd wr = true ↔ availWrite S rd wr = 0) ∧
    (∀ n, n ≤ availWrite S rd wr → advance S wr n < S ∧
      availRead S rd (advance S wr n) = availRead S rd wr + n) ∧
    (∀ n, n ≤ availRead S rd wr → advance S rd n < S ∧
      availRead S (advance S rd n) wr = availRead S rd wr - n) ∧
    (S ≤ 2 ^ 31 → wr + S - rd < 2 ^ 32 ∧ ∀ n, n < S → wr + n < 2 ^ 32)

/-- For i < S and n <= S - 1: first = min(S - i, n) and second = n - first; the slots of the transfer are i, i+1,
..., then 0, 1, ...; each is the next slot in ring order; S - i >= 1; if second > 0 then first = S - i and second =
n - (S - i) <= i - 1; and the n slots are distinct. (R132.) -/
def Obligations.SplitCoversTheRun : Prop :=
  ∀ S i n : Nat, i < S → n ≤ S - 1 →
    1 ≤ S - i ∧ splitFirst S i n = min (S - i) n ∧ splitSecond S i n = n - splitFirst S i n ∧
    (∀ k, k < splitFirst S i n → splitSlot S i n k = i + k) ∧
    (∀ k, k < splitSecond S i n → splitSlot S i n (splitFirst S i n + k) = k) ∧
    (∀ k, k < n → splitSlot S i n k = (i + k) % S ∧ splitSlot S i n k < S) ∧
    (0 < splitSecond S i n → splitFirst S i n = S - i ∧ splitSecond S i n = n - (S - i) ∧
      splitSecond S i n ≤ i - 1) ∧
    ∀ k l, k < n → l < n → splitSlot S i n k = splitSlot S i n l → k = l

/-- A host read of any of the nineteen registers of port p, at REG_BASE + 0x100 + 0x80 p + offset, completes,
returns that register, and leaves every port and MEM as they were; a reserved offset of the port reads 0. (R26, R27,
R28.) -/
def Obligations.PortRegisterReads : Prop :=
  ∀ (s : State) (p : Nat), s.cfg.regBase % 4 = 0 → s.ports.length ≤ 16 → p < s.ports.length →
    let q := s.port p
    (∀ x ∈ ([(0x00, q.cmd), (0x04, q.status), (0x08, q.ctrl), (0x0C, q.errCause), (0x10, q.errInfo),
        (0x14, q.arg0), (0x18, q.arg1), (0x1C, q.arg2), (0x20, q.arg3), (0x24, q.res0), (0x28, q.res1),
        (0x2C, q.res2), (0x30, q.segBase), (0x34, q.slots), (0x38, q.bindcfg), (0x3C, q.span0Addr),
        (0x40, q.span0Len), (0x44, q.span1Addr), (0x48, q.span1Len)] : List (Nat × Word)),
      ∃ t, moveRegRead s (s.cfg.regBase + 0x100 + 0x80 * p + x.1) 4 = .next t ∧ t.regData = x.2 ∧
        t.ports = s.ports ∧ t.mem = s.mem) ∧
    ∀ k, 0x4C ≤ 4 * k → 4 * k < 0x80 →
      ∃ t, moveRegRead s (s.cfg.regBase + 0x100 + 0x80 * p + 4 * k) 4 = .next t ∧ t.regData = 0 ∧
        t.ports = s.ports ∧ t.mem = s.mem

/-- A host read of ID returns 0x52424331, of CFG NPORTS in bits 4:0 and HAS_XPOSE in bit 8, of MEMSZ_M1 MEM_SIZE -
1, and of every reserved offset 0, each without changing anything; a host write to any global or reserved offset
changes nothing. (R22, R23, R24, R26, R28.) -/
def Obligations.GlobalRegisterReads : Prop :=
  ∀ s : State, s.cfg.ok = true → s.ports.length = s.cfg.nports →
    (∀ x ∈ ([(0x000, 0x52424331#32),
        (0x004, BitVec.ofNat 32 (s.cfg.nports + 256 * (if s.cfg.hasXpose then 1 else 0))),
        (0x008, BitVec.ofNat 32 (s.cfg.memSize - 1))] : List (Nat × Word)),
      moveRegRead s (s.cfg.regBase + x.1) 4 = .next { s with regData := x.2 }) ∧
    (∀ k, (0x10 ≤ 4 * k ∧ 4 * k < 0x100) ∨ (0x100 + 0x80 * s.cfg.nports ≤ 4 * k ∧ 4 * k < 0x1000) →
      moveRegRead s (s.cfg.regBase + 4 * k) 4 = .next { s with regData := 0 }) ∧
    ∀ k v, 4 * k < 0x100 ∨ (0x100 + 0x80 * s.cfg.nports ≤ 4 * k ∧ 4 * k < 0x1000) →
      moveRegWrite s (s.cfg.regBase + 4 * k) 4 v = .next s

/-- A host read of IRQ_STATUS completes and changes no port and no byte of MEM; bit p of the value, for p below
NPORTS, is the line IRQ[p] = (DONE and DONE_IE) or ((ERR or OVR) and ERR_IE); bits at and above NPORTS are 0; and a
host write to it changes nothing. (R25.) -/
def Obligations.IrqStatusReads : Prop :=
  ∀ s : State, s.cfg.ok = true → s.ports.length = s.cfg.nports →
    (∃ v, moveRegRead s (s.cfg.regBase + 0x00C) 4 = .next { s with regData := v } ∧
      ∀ p, v.getLsbD p = (decide (p < s.cfg.nports) &&
        (((s.port p).status.getLsbD 1 && (s.port p).ctrl.getLsbD 0) ||
         (((s.port p).status.getLsbD 2 || (s.port p).status.getLsbD 3) && (s.port p).ctrl.getLsbD 1)))) ∧
    ∀ v, moveRegWrite s (s.cfg.regBase + 0x00C) 4 v = .next s

/-- A host write of w to CMD of a port with BUSY = 0 completes: CMD and LCMD become w, ARG0-3 are copied to LARG0-3,
DONE and ERR become 0 and BUSY 1, ERR_CAUSE and ERR_INFO become 0, the engine stands at the decode step; every other
register of the port, every other port and MEM stay. With BUSY = 1 it completes and changes exactly one thing: OVR
becomes 1. (R29, R93, R35, R221.) -/
def Obligations.CmdWrites : Prop :=
  ∀ (s : State) (p : Nat) (w : Word), s.cfg.regBase % 4 = 0 → s.ports.length ≤ 16 → p < s.ports.length →
    let write := moveRegWrite s (s.cfg.regBase + 0x100 + 0x80 * p) 4 w
    ((s.port p).status.getLsbD 0 = false →
      ∃ t, write = .next t ∧
        t.port p = { s.port p with
          cmd := w, lcmd := w, larg0 := (s.port p).arg0, larg1 := (s.port p).arg1,
          larg2 := (s.port p).arg2, larg3 := (s.port p).arg3, errCause := 0, errInfo := 0, pos := .decode,
          status := ((s.port p).status &&& ~~~0x6#32) ||| 0x1#32 } ∧
        (∀ r, r ≠ p → t.port r = s.port r) ∧ t.ports.length = s.ports.length ∧ t.mem = s.mem ∧ t.cfg = s.cfg ∧
        t.agenda = s.agenda) ∧
    ((s.port p).status.getLsbD 0 = true →
      write = .next (s.setPort p { s.port p with status := (s.port p).status ||| 0x8#32 }))

/-- A host write to STATUS completes and clears exactly those of DONE, ERR and OVR whose bit is 1 in the written
value; a host write to CTRL completes and sets bits 0 and 1 to the written bits, the others to 0; nothing else
changes (ERR_CAUSE and ERR_INFO among it). (R30, R31, R32.) -/
def Obligations.StatusAndCtrlWrites : Prop :=
  ∀ (s : State) (p : Nat) (v : Word), s.cfg.regBase % 4 = 0 → s.ports.length ≤ 16 → p < s.ports.length →
    (∃ w, moveRegWrite s (s.cfg.regBase + 0x100 + 0x80 * p + 0x04) 4 v =
        .next (s.setPort p { s.port p with status := w }) ∧
      ∀ b, w.getLsbD b = ((s.port p).status.getLsbD b && !((b == 1 || b == 2 || b == 3) && v.getLsbD b))) ∧
    ∃ w, moveRegWrite s (s.cfg.regBase + 0x100 + 0x80 * p + 0x08) 4 v =
        .next (s.setPort p { s.port p with ctrl := w }) ∧
      ∀ b, w.getLsbD b = ((b == 0 || b == 1) && v.getLsbD b)

/-- A host write to ARGn completes and changes ARGn alone; a host write to any read-only register of a port
(ERR_CAUSE, ERR_INFO, RES0 to SPAN1_LEN) or to a reserved offset of the port completes and changes nothing. (R27,
R28, R35.) -/
def Obligations.OperandAndReadOnlyWrites : Prop :=
  ∀ (s : State) (p : Nat) (v : Word), s.cfg.regBase % 4 = 0 → s.ports.length ≤ 16 → p < s.ports.length →
    let at' := fun off => moveRegWrite s (s.cfg.regBase + 0x100 + 0x80 * p + off) 4 v
    at' 0x14 = .next (s.setPort p { s.port p with arg0 := v }) ∧
    at' 0x18 = .next (s.setPort p { s.port p with arg1 := v }) ∧
    at' 0x1C = .next (s.setPort p { s.port p with arg2 := v }) ∧
    at' 0x20 = .next (s.setPort p { s.port p with arg3 := v }) ∧
    ∀ k, 4 * k = 0x0C ∨ 4 * k = 0x10 ∨ (0x24 ≤ 4 * k ∧ 4 * k < 0x80) → at' (4 * k) = .next s

/-- For every state, every port p and every value: the host's write of ARG0, ARG1, ARG2 or ARG3 of port p and the
executing port's next micro-step give the same state in either order, the micro-step changes no ARG register of any
port, and the next accepted command on p copies the new value. (R241.) -/
def Obligations.ArgumentsAreLatched : Prop :=
  ∀ (s : State) (p off : Nat) (v : Word), p < s.ports.length → off ∈ [0x14, 0x18, 0x1C, 0x20] →
    let write := fun u : State => u.writeReg (0x100 + 0x80 * p + off) v
    portMicro (write s) = write (portMicro s) ∧
    (∀ r, ((portMicro s).port r).arg0 = (s.port r).arg0 ∧ ((portMicro s).port r).arg1 = (s.port r).arg1 ∧
      ((portMicro s).port r).arg2 = (s.port r).arg2 ∧ ((portMicro s).port r).arg3 = (s.port r).arg3) ∧
    ∀ w, (s.port p).busy = false →
      let q := ((write s).writeCmd p w).port p
      q.larg0 = (if off = 0x14 then v else (s.port p).arg0) ∧ q.larg1 = (if off = 0x18 then v else (s.port p).arg1) ∧
      q.larg2 = (if off = 0x1C then v else (s.port p).arg2) ∧ q.larg3 = (if off = 0x20 then v else (s.port p).arg3)

/-- A host write of bytes in MEM, where no index word of a bound segment and no slot outside a granted span is
touched and no other agent's write races with it, completes; every other byte of MEM, and every port, is unchanged;
and a host read of those bytes then completes and returns them. (R60, R62, R151, R245.) -/
def Obligations.HostReadsBackWhatItWrote : Prop :=
  ∀ (s : State) (a : Nat) (bs : List Byte), a + bs.length ≤ s.cfg.memSize →
    touchesIndex s hostAgent a bs.length = false → (∀ j, j < bs.length → hostOpen s (a + j) = false) →
    Quiet s.order hostAgent a bs.length →
    ∃ t u, moveMemWrite s a bs = .next t ∧ t.ports = s.ports ∧ t.cfg = s.cfg ∧
      (∀ x, (x < a ∨ a + bs.length ≤ x) → t.mem.read x = s.mem.read x) ∧
      moveMemRead t a bs.length = .next u ∧ u.memData = bs ∧ u.mem = t.mem ∧ u.ports = t.ports

/-- RST completes from every state, also in the middle of a command: every register and every piece of hidden state
of every port is 0 (the engine idle and empty), so every register reads 0 and every interrupt line is 0; MEM and the
configuration are unchanged. The moves still planned stay, and the ordering record starts anew, so that everything
before RST is ordered before everything after it: that is the model's choice (log 1, log 4, log 17). (R230, R231,
R232, R233.) -/
def Obligations.ResetLeaves : Prop :=
  ∀ s : State, ∃ t, move s .rst = .next t ∧ t.cfg = s.cfg ∧ t.mem = s.mem ∧ t.agenda = s.agenda ∧
    t.order = Order.start s.ports.length ∧ (∀ a m, t.order.racy a m = false) ∧ t.ports.length = s.ports.length ∧
    ∀ p, (t.port p).readReg = (fun _ => 0) ∧ t.irq p = false ∧
      (t.port p).lcmd = 0 ∧ (t.port p).larg0 = 0 ∧ (t.port p).larg1 = 0 ∧ (t.port p).larg2 = 0 ∧
      (t.port p).larg3 = 0 ∧ (t.port p).lrd = 0 ∧ (t.port p).lwr = 0 ∧ (t.port p).grantWr = 0 ∧
      (t.port p).grantN = 0 ∧ (t.port p).pos = .idle ∧ (t.port p).elem = [] ∧ (t.port p).table = [] ∧
      (t.port p).record = []

/-- For every configuration, the power-on state has the canonical memory form, sound ports, engines that hold
nothing, and a sound ordering record; State.reset is that state for the standard configuration. The memory contents
and the standard configuration are the model's choice (log 2, log 3). (R230, R231, R232.) -/
def Obligations.PowerOnIsSound : Prop :=
  (∀ cfg : Config, (State.powerOn cfg).mem.wf = true ∧ portsOk (State.powerOn cfg) = true ∧
      enginesInside (State.powerOn cfg) = true ∧ orderOk (State.powerOn cfg) = true) ∧
    State.reset = State.powerOn { nports := 2, hasXpose := true, memSize := 0x10000, regBase := 0, irqRoute := [] }

/-- For every state whose MEM is in canonical form (addresses strictly rising, no listed byte equal to what an
unlisted byte reads as), if a step answers a next state, its MEM is in canonical form. (R60, R66, R67.) -/
def Obligations.StepKeepsMemoryForm : Prop :=
  ∀ s t : State, s.mem.wf = true → step s = .next t → t.mem.wf = true

/-- For every state whose ports are sound, if a step answers a next state its ports are sound: reserved bits of
STATUS and CTRL read 0, ERR_CAUSE is a code that can be raised, BUSY shows whether the engine works, a bound port's
binding is one a BIND accepts and an unbound port's binding registers read 0, an open grant is a producer's with a
valid write_index and fewer elements than slots, and a command past its decode step has passed its checks and, past
LoadIndices, holds valid indices. (R30, R32, R39, R48, R112, R150, R201.) -/
def Obligations.StepKeepsPortsSound : Prop :=
  ∀ s t : State, portsOk s = true → step s = .next t → portsOk t = true

/-- For every state whose ports are sound and whose engines stand inside their commands (the next copy, record byte
or table entry exists, and what the engine holds has the size the command gave it), if a step answers a next state,
its engines stand inside their commands. (R9, R93, R191, R182.) -/
def Obligations.StepKeepsEnginesInside : Prop :=
  ∀ s t : State, portsOk s = true → enginesInside s = true → step s = .next t → enginesInside t = true

/-- For every state whose ordering record is sound (one clock per agent with one entry per agent, no clock ahead of
the events an agent has made, every recorded event counted by its agent), if a step answers a next state, its
ordering record is sound. The record is the model's own form of R74 (log 4). (R68, R74, R79, R80.) -/
def Obligations.StepKeepsOrderSound : Prop :=
  ∀ s t : State, orderOk s = true → step s = .next t → orderOk t = true

/-- If a step answers a next state, the configuration and the number of ports are those before. (R6, R20.) -/
def Obligations.StepKeepsConfiguration : Prop :=
  ∀ s t : State, step s = .next t → t.cfg = s.cfg ∧ t.ports.length = s.ports.length

/-- For every state whose ports are sound and whose engines stand inside their commands, and under every
interleaving: the memory event of the executing port's next micro-step, if it makes one, lies below MEM_SIZE, and
every byte of MEM at or above MEM_SIZE reads as before. (R70, R46, R72.) -/
def Obligations.PortsStayInsideMem : Prop :=
  ∀ s : State, portsOk s = true → enginesInside s = true → s.cur < s.ports.length →
    (∀ e, newEvent s (portMicro s) = some e → e.addr + e.len ≤ s.cfg.memSize) ∧
    ∀ a, s.cfg.memSize ≤ a → (portMicro s).mem.read a = s.mem.read a

/-- If a step answers a next state: a port's BOUND stays 1 unless the step was RST; its GRANT stays 1 unless the
step was RST or a WSPAN.COMMIT was at work on the port (its engine stood in one, or the step was the host's issue of
one to be run); its OVR stays 1 unless the step was RST or the host wrote STATUS of that port with bit 3 set. (R30,
R208, R115.) -/
def Obligations.StatusBitsClearedOnlyAsListed : Prop :=
  ∀ (s t : State) (p : Nat), s.cfg.regBase % 4 = 0 → p < s.ports.length → step s = .next t →
    ((s.port p).status.getLsbD 4 = true → (t.port p).status.getLsbD 4 = true ∨ s.agenda.head? = some .rst) ∧
    ((s.port p).status.getLsbD 5 = true → (t.port p).status.getLsbD 5 = true ∨ s.agenda.head? = some .rst ∨
      ∃ dflt, AtWork s p (.wspanCommit dflt)) ∧
    ((s.port p).status.getLsbD 3 = true → (t.port p).status.getLsbD 3 = true ∨ s.agenda.head? = some .rst ∨
      ∃ v, s.agenda.head? = some (.regWrite (s.cfg.regBase + 0x100 + 0x80 * p + 0x04) 4 v) ∧ v.getLsbD 3 = true)

/-- If a step answers a next state: SEG_BASE, SLOTS and BINDCFG of a port are unchanged unless the step was RST or a
BIND was at work on the port (its engine stood in one, or the step was the host's issue of one to be run); its span
registers and hidden grant state are unchanged unless the step was RST or a WSPAN.ACQ was at work on it. (R37, R38,
R39, R40, R115.) -/
def Obligations.BindingAndSpansChangeOnlyByTheirCommand : Prop :=
  ∀ (s t : State) (p : Nat), step s = .next t →
    (((t.port p).segBase = (s.port p).segBase ∧ (t.port p).slots = (s.port p).slots ∧
        (t.port p).bindcfg = (s.port p).bindcfg) ∨ s.agenda.head? = some .rst ∨
      ∃ kind proto role init, AtWork s p (.bind kind proto role init)) ∧
    (((t.port p).span0Addr = (s.port p).span0Addr ∧ (t.port p).span0Len = (s.port p).span0Len ∧
        (t.port p).span1Addr = (s.port p).span1Addr ∧ (t.port p).span1Len = (s.port p).span1Len ∧
        (t.port p).grantWr = (s.port p).grantWr ∧ (t.port p).grantN = (s.port p).grantN) ∨
      s.agenda.head? = some .rst ∨ AtWork s p .wspanAcq)

/-- When the host's next move is to write w to CMD of an idle port and see it end, and w decodes to command i, then
the step is: the port accepts w, i does what exec says, and the host has seen the port idle; given that the host
contract stops nothing on the way. When the next move is a micro-step of a port whose command is i, the step is one
micro-step of i. In both, the machine has looked ahead at its plan for the reads of the step that a later write
races with. From a state with none foreseen there are none where the planned run, its reads returning MEM's bytes,
comes to none, and none where one move other than a wait is planned and leaves every port idle. That a command word
is run from the agenda is the model's choice (log 1, log 6, log 11). (R21, R93, R95, R102.) -/
def Obligations.StepRunsTheCommand : Prop :=
  (∀ (s t : State) (p : Nat) (w : Word) (i : Instr) (rest : List Move), s.agenda = .command p w :: rest →
      p < s.ports.length → (s.port p).busy = false → decode w = .ok i →
      let u := ({ s.lookAhead with agenda := rest } : State).issued p w
      runStop (stepBound i u.here) u = none → exec i u = .next t → step s = .next (t.seenIdle p)) ∧
    (∀ (s : State) (p : Nat) (i : Instr) (rest : List Move), s.agenda = .portStep p :: rest →
      p < s.ports.length → (s.port p).command? = some i →
      let u : State := { s.lookAhead with agenda := rest, cur := p }
      portStop u (micro i u) = none → step s = .next (micro i u)) ∧
    (∀ s : State, s.order.plan = [] →
      (lateReads s [] = [] ∨ ∃ m t, s.agenda = [m] ∧ (∀ p, m ≠ .wait p) ∧ act (s.foreseeing []) = .next t ∧
        ∀ p, (t.port p).busy = false) →
      s.lookAhead.order.foreseen = [] ∧ s.lookAhead.order.plan = []) ∧
    ∀ (s : State) (nbits w : Nat), (s.withFetchWord nbits w).agenda =
      .command s.cur (BitVec.ofNat 32 (w % 2 ^ nbits)) :: s.agenda

/-- Every command, started at its decode step on any port in any state, ends: after at most the number of its own
steps that the table of R251 gives, the port is idle with BUSY = 0 and DONE = 1, and that is the next state exec
answers; for a BIND the number is 4 with INIT = 1 and 2 with INIT = 0. The port runs without another agent's step in
between here; no step of a command waits for one. (R251, R94, R82.) -/
def Obligations.EveryCommandEnds : Prop :=
  ∀ (i : Instr) (s : State), Ready s →
    (∃ t, exec i s = .next t ∧ t = runPort (micro i) (stepBound i s.here) s ∧ t.here.pos = .idle ∧
      t.here.status.getLsbD 0 = false ∧ t.here.status.getLsbD 1 = true) ∧
    (match i with
      | .nop | .size _ | .capacity => stepBound i s.here = 2
      | .bind _ _ _ init => stepBound i s.here = (if init then 4 else 2)
      | .empty | .full | .availRead | .availWrite | .wspanAcq => stepBound i s.here = 4
      | .wspanCommit _ => stepBound i s.here = 3
      | .push | .pop | .aenq | .adeq =>
        stepBound i s.here = 5 + 2 * min s.here.larg1.toNat (s.here.slots.toNat - 1)
      | .penq _ | .pdeq => stepBound i s.here = 10
      | .deint | .inter =>
        stepBound i s.here = 2 + s.here.larg3.toNat + 256 * s.here.larg3.toNat)

/-- Whatever command runs on a port, if exec answers a next state, every register and all hidden state of every
other port, the configuration, the planned moves and what the host last read are unchanged. (R217, R43, R218.) -/
def Obligations.CommandsTouchOnlyTheirPort : Prop :=
  ∀ (i : Instr) (s t : State), exec i s = .next t → Elsewhere s t

/-- When a check has failed with error E and value info, the port's next step is one atomic step that sets ERR_CAUSE
to the code of E, ERR_INFO to info, RES0 to 0, ERR and DONE to 1 and BUSY to 0, and leaves the engine idle and
empty; every other register of the port, every other port and MEM are unchanged. That the failing check and this
step are two steps is the model's choice (log 9), and so is that the engine's buffers are then empty (log 12).
(R203.) -/
def Obligations.RaiseEndsTheCommand : Prop :=
  ∀ (s : State) (e : ErrCode) (info : Word), s.cur < s.ports.length → s.here.pos = .raising e info →
    (portMicro s).here = { s.here with
      errCause := (match e with
        | .illegalCmd => 1 | .notBound => 2 | .role => 3 | .proto => 4 | .align => 5 | .bus => 6
        | .typeMismatch => 7 | .sizeMismatch => 8 | .sizeOverflow => 9 | .indexRange => 10
        | .grantPending => 11 | .noGrant => 12 | .commitRange => 13 | .partialRecord => 14)
      errInfo := info, res0 := 0, status := (s.here.status ||| 0x6#32) &&& ~~~0x1#32, pos := .idle,
      elem := [], table := [], record := [] } ∧
    Elsewhere s (portMicro s) ∧ NoEvent s (portMicro s)

/-- For every command at its decode step: if the first of its checks that fails gives error E and value info, exec
answers a next state in which exactly what raise E(info) says has happened to the port, and no memory event has.
(R93, R203, R205.) -/
def Obligations.FailedCheckRaises : Prop :=
  ∀ (i : Instr) (s : State) (e : ErrCode) (info : Word), Ready s → check i s.cfg s.here = some (e, info) →
    Fails i s e.word info

/-- If a command started with ERR = 0 ends with ERR = 1, it has written no byte of MEM and published no index, the
only memory events it made are index loads and, for DEINT and INTER, reads inside the channel-pointer table, and the
port is idle with BUSY = 0, so that the next command can be issued at once. (R204.) -/
def Obligations.ErrorsArePrecise : Prop :=
  ∀ (i : Instr) (s t : State), Ready s → s.here.status.getLsbD 2 = false → exec i s = .next t →
    t.here.status.getLsbD 2 = true →
    t.mem = s.mem ∧ t.order.released = s.order.released ∧ t.here.pos = .idle ∧ t.here.status.getLsbD 0 = false ∧
    ∃ es, t.order.trace = es ++ s.order.trace ∧ ∀ e ∈ es, e.agent = s.agent ∧
      ((e.kind = .load ∧ loadsIndices i = true ∧ (e.addr = s.here.base ∨ e.addr = s.here.base + 4)) ∨
       (e.kind = .table ∧ (i = .deint ∨ i = .inter) ∧ s.here.larg2.toNat ≤ e.addr ∧
        e.addr + e.len ≤ s.here.larg2.toNat + 4 * s.here.larg3.toNat))

/-- If a BIND started with ERR = 0 ends with ERR = 1, SEG_BASE, SLOTS, BINDCFG, BOUND, GRANT, the span registers and
the hidden grant state are unchanged, and it has made no memory event and no change to MEM. (R114.) -/
def Obligations.FailedBindChangesNoBinding : Prop :=
  ∀ (kind : BitVec 4) (proto : BitVec 2) (role : Role) (init : Bool) (s t : State), Ready s →
    s.here.status.getLsbD 2 = false → exec (.bind kind proto role init) s = .next t →
    t.here.status.getLsbD 2 = true →
    t.here.segBase = s.here.segBase ∧ t.here.slots = s.here.slots ∧ t.here.bindcfg = s.here.bindcfg ∧
    t.here.status.getLsbD 4 = s.here.status.getLsbD 4 ∧ t.here.status.getLsbD 5 = s.here.status.getLsbD 5 ∧
    t.here.span0Addr = s.here.span0Addr ∧ t.here.span0Len = s.here.span0Len ∧
    t.here.span1Addr = s.here.span1Addr ∧ t.here.span1Len = s.here.span1Len ∧
    t.here.grantWr = s.here.grantWr ∧ t.here.grantN = s.here.grantN ∧ NoEvent s t

/-- On a port whose LCMD decodes to no command, running the port from its decode step ends with ILLEGAL_CMD (1),
ERR_INFO the word, and no memory event. (R96, R97, R98, R201, R202.) -/
def Obligations.IllegalWordsEnd : Prop :=
  ∀ (s : State) (err : DecodeError), Ready s → decode s.here.lcmd = .error err →
    ∃ t, execHere s = .next t ∧ t.here = s.here.failed 1 s.here.lcmd ∧ Elsewhere s t ∧ NoEvent s t

/-- Every ring command on a port with BOUND = 0 ends with NOT_BOUND (2), ERR_INFO 0. On a bound port, PUSH,
WSPAN.ACQ, WSPAN.COMMIT, AENQ and PENQ with ROLE = CONSUMER end with ROLE (3), ERR_INFO 1; POP, ADEQ and PDEQ with
ROLE = PRODUCER end with ROLE, ERR_INFO 0. (R134, R160, R201, R202.) -/
def Obligations.NotBoundAndRole : Prop :=
  ∀ (i : Instr) (s : State), Ready s →
    (ringCommand i = true → s.here.status.getLsbD 4 = false → Fails i s 2 0) ∧
    (s.here.status.getLsbD 4 = true → s.here.bindcfg.getLsbD 10 = true →
      (i = .push ∨ i = .wspanAcq ∨ (∃ d, i = .wspanCommit d) ∨ i = .aenq ∨ (∃ x, i = .penq x)) → Fails i s 3 1) ∧
    (s.here.status.getLsbD 4 = true → s.here.bindcfg.getLsbD 10 = false →
      (i = .pop ∨ i = .adeq ∨ i = .pdeq) → Fails i s 3 0)

/-- On a bound port of the right role: AENQ and ADEQ without AUDIO, PENQ and PDEQ without PARAM, end with PROTO (4),
ERR_INFO the protocol; that passed, PUSH, AENQ, PENQ and WSPAN.ACQ with an open grant end with GRANT_PENDING (11),
ERR_INFO 0; WSPAN.COMMIT without a grant ends with NO_GRANT (12), ERR_INFO 0, and with a count above the granted
count with COMMIT_RANGE (13), ERR_INFO the count. (R134, R155, R201, R202.) -/
def Obligations.ProtocolAndGrantErrors : Prop :=
  ∀ (i : Instr) (s : State), Ready s → s.here.status.getLsbD 4 = true →
    let consumer := s.here.bindcfg.getLsbD 10
    let proto := s.here.bindcfg.toNat / 256 % 4
    let grant := s.here.status.getLsbD 5
    (consumer = false → i = .aenq → proto ≠ 1 → Fails i s 4 (BitVec.ofNat 32 proto)) ∧
    (consumer = true → i = .adeq → proto ≠ 1 → Fails i s 4 (BitVec.ofNat 32 proto)) ∧
    (consumer = false → (∃ x, i = .penq x) → proto ≠ 2 → Fails i s 4 (BitVec.ofNat 32 proto)) ∧
    (consumer = true → i = .pdeq → proto ≠ 2 → Fails i s 4 (BitVec.ofNat 32 proto)) ∧
    (consumer = false → grant = true →
      (i = .push ∨ i = .wspanAcq ∨ (i = .aenq ∧ proto = 1) ∨ ((∃ x, i = .penq x) ∧ proto = 2)) →
      Fails i s 11 0) ∧
    (consumer = false → grant = false → (∃ d, i = .wspanCommit d) → Fails i s 12 0) ∧
    (consumer = false → grant = true → i = .wspanCommit false → s.here.grantN.toNat < s.here.larg0.toNat →
      Fails i s 13 s.here.larg0)

/-- On a bound port of the right role and protocol and without a grant: a PUSH, POP, AENQ or ADEQ whose LARG0 is not
a multiple of E ends with ALIGN (5), and one of at least one element whose whole buffer range does not lie in MEM,
computed exactly, with BUS (6), ERR_INFO LARG0 each; E is BINDCFG.ESIZE for PUSH and POP and 4 for AENQ and ADEQ,
the offset is LARG2 for PUSH and POP and 0 for AENQ and ADEQ. The whole requested length counts, before any index is
loaded. (An empty range is in range: PushResult, PopResult and AudioTransferResults say that the command then
completes.) (R64, R65, R70, R134.) -/
def Obligations.TransferAddressErrors : Prop :=
  ∀ (i : Instr) (s : State) (e off : Nat), Ready s → s.here.bound = true →
    ((i = .push ∧ s.here.role = .producer ∧ s.here.grant = false ∧ e = s.here.esize ∧ off = s.here.larg2.toNat) ∨
     (i = .pop ∧ s.here.role = .consumer ∧ e = s.here.esize ∧ off = s.here.larg2.toNat) ∨
     (i = .aenq ∧ s.here.role = .producer ∧ s.here.proto = 1#2 ∧ s.here.grant = false ∧ e = 4 ∧ off = 0) ∨
     (i = .adeq ∧ s.here.role = .consumer ∧ s.here.proto = 1#2 ∧ e = 4 ∧ off = 0)) →
    (s.here.larg0.toNat % e ≠ 0 → Fails i s 5 s.here.larg0) ∧
    (s.here.larg0.toNat % e = 0 → 0 < s.here.larg1.toNat →
      s.cfg.memSize < s.here.larg0.toNat + (off + s.here.larg1.toNat) * e →
      Fails i s 6 s.here.larg0)

/-- For every command that loads the indices and passes its decode checks, no data write racing with the loads: if
read_index is at or above S the command ends with INDEX_RANGE (10) and ERR_INFO read_index; if only write_index is,
with INDEX_RANGE and ERR_INFO write_index; LRD and LWR hold the loaded words, MEM is unchanged, and the two loads
were the only memory events. (R131, R48, R201, R202.) -/
def Obligations.IndexOutOfRange : Prop :=
  ∀ (i : Instr) (s : State), Ready s → loadsIndices i = true → check i s.cfg s.here = none → IndicesQuiet s →
    (s.here.nslots ≤ s.rdIndex.toNat → Answers i s (s.loaded.failed 10 s.rdIndex) (OnlyReads 2 s)) ∧
    (s.rdIndex.toNat < s.here.nslots → s.here.nslots ≤ s.wrIndex.toNat →
      Answers i s (s.loaded.failed 10 s.wrIndex) (OnlyReads 2 s))

/-- A BIND ends with the first of: ILLEGAL_CMD (PROTO = 3), GRANT_PENDING (a grant is open), TYPE_MISMATCH (kind 11
to 15, ERR_INFO the kind), ALIGN (B not a multiple of 8), BUS (B + N above MEM_SIZE), TYPE_MISMATCH (N not 8 plus a
whole positive number of elements, ERR_INFO N), SIZE_OVERFLOW (more than 2^31 slots), TYPE_MISMATCH (AUDIO without
F32, PARAM without U8, ERR_INFO the kind). SIZE with kind 11 to 15 ends with TYPE_MISMATCH, ERR_INFO the kind.
(R111, R120, R98, R201, R202, R205.) -/
def Obligations.BindErrors : Prop :=
  (∀ (kind : BitVec 4) (s : State), Ready s → elemSize kind = none →
      Fails (.size kind) s 7 (BitVec.ofNat 32 kind.toNat)) ∧
    ∀ (kind : BitVec 4) (proto : BitVec 2) (role : Role) (init : Bool) (s : State), Ready s →
    let i := Instr.bind kind proto role init
    let b := s.here.larg0
    let n := s.here.larg1
    if proto = 3#2 then Fails i s 1 s.here.lcmd
    else if s.here.status.getLsbD 5 then Fails i s 11 0
    else match elemSize kind with
      | none => Fails i s 7 (BitVec.ofNat 32 kind.toNat)
      | some e =>
        if b.toNat % 8 ≠ 0 then Fails i s 5 b
        else if s.cfg.memSize < b.toNat + n.toNat then Fails i s 6 b
        else if n.toNat < 8 + e ∨ (n.toNat - 8) % e ≠ 0 then Fails i s 7 n
        else if 2 ^ 31 < (n.toNat - 8) / e then Fails i s 9 n
        else (proto = 1#2 → kind ≠ 7#4 → Fails i s 7 (BitVec.ofNat 32 kind.toNat)) ∧
          (proto = 2#2 → kind ≠ 1#4 → Fails i s 7 (BitVec.ofNat 32 kind.toNat))

/-- DEINT and INTER end with the first of: ILLEGAL_CMD (no transpose engine), SIZE_MISMATCH (L is not K times 128,
so also K = 0 with L above 0), ALIGN and BUS of the interleaved buffer, ALIGN and BUS of the table; all products and
sums exact. (R190, R191, R194, R201, R202.) -/
def Obligations.TransposeErrors : Prop :=
  ∀ (i : Instr) (s : State), Ready s → (i = .deint ∨ i = .inter) →
    let ib := s.here.larg0
    let l := s.here.larg1
    let tb := s.here.larg2
    let k := s.here.larg3
    (s.cfg.hasXpose = false → Fails i s 1 s.here.lcmd) ∧
    (s.cfg.hasXpose = true →
      (l.toNat ≠ k.toNat * 128 → Fails i s 8 l) ∧
      (l.toNat = k.toNat * 128 →
        (ib.toNat % 4 ≠ 0 → Fails i s 5 ib) ∧
        (ib.toNat % 4 = 0 →
          (s.cfg.memSize < ib.toNat + 4 * l.toNat → Fails i s 6 ib) ∧
          (ib.toNat + 4 * l.toNat ≤ s.cfg.memSize →
            (tb.toNat % 4 ≠ 0 → Fails i s 5 tb) ∧
            (tb.toNat % 4 = 0 → s.cfg.memSize < tb.toNat + 4 * k.toNat → Fails i s 6 tb)))))

/-- With operands that pass the decode checks and a table free of races: if channel c is the first whose pointer is
misaligned or whose buffer does not lie in MEM, DEINT and INTER end with ALIGN (5) or BUS (6), in that order of
checks, ERR_INFO the pointer; MEM is unchanged and the c + 1 table reads were the only memory events. (R191, R65,
R201, R202.) -/
def Obligations.BadChannelPointer : Prop :=
  ∀ (i : Instr) (s : State) (c : Nat), Fresh s → (i = .deint ∨ i = .inter) → XposeOperands s → TableQuiet s →
    c < s.here.larg3.toNat → (∀ d, d < c → PointerOk s d) →
    ((s.chan c).toNat % 4 ≠ 0 → Answers i s (s.here.failed 5 (s.chan c)) (OnlyReads (c + 1) s)) ∧
    ((s.chan c).toNat % 4 = 0 → s.cfg.memSize < (s.chan c).toNat + 512 →
      Answers i s (s.here.failed 6 (s.chan c)) (OnlyReads (c + 1) s))

/-- NOP on any port, bound or not, of either role, with or without a grant: the port ends with DONE = 1 and BUSY =
0, every other register as it was, and no memory event. (R110, R94.) -/
def Obligations.NopResult : Prop :=
  ∀ s : State, Ready s → Answers .nop s s.here.finished (NoEvent s)

/-- A BIND that passes its checks completes: SEG_BASE = B, SLOTS = (N - 8) / E, BINDCFG = KIND + 16 E + 256 PROTO +
1024 ROLE, BOUND = 1, RES0 = S - 1, every other register as it was. With INIT it makes two index stores, to
write_index and then to read_index, and only these eight bytes can change; each index word is then 0, unless a byte
of it lies in another, different bound segment (R71) or an unordered data write touched it (R77; then any value, log
5, log 7). Without INIT it makes no memory event. (R111, R112, R113.) -/
def Obligations.BindResult : Prop :=
  ∀ (kind : BitVec 4) (proto : BitVec 2) (role : Role) (init : Bool) (s : State) (e : Nat), Ready s →
    let b := s.here.larg0
    let n := s.here.larg1.toNat
    proto ≠ 3#2 → s.here.status.getLsbD 5 = false → elemSize kind = some e → b.toNat % 8 = 0 →
    b.toNat + n ≤ s.cfg.memSize → 8 + e ≤ n → (n - 8) % e = 0 → (n - 8) / e ≤ 2 ^ 31 →
    (proto = 1#2 → kind = 7#4) → (proto = 2#2 → kind = 1#4) →
    Answers (.bind kind proto role init) s
      ({ s.here with
          segBase := b, slots := BitVec.ofNat 32 ((n - 8) / e)
          bindcfg := BitVec.ofNat 32 (kind.toNat + 16 * e + 256 * proto.toNat +
            (if role = .consumer then 1024 else 0))
          res0 := BitVec.ofNat 32 ((n - 8) / e - 1), status := s.here.status ||| 0x10#32 } : Port).finished
      (fun t =>
        (init = false → NoEvent s t) ∧
        (init = true →
          (t.order.trace.map (fun ev => (ev.kind, ev.addr)) = (.init, b.toNat + 4) :: (.init, b.toNat) ::
            s.order.trace.map (fun ev => (ev.kind, ev.addr))) ∧
          (∀ a, ¬ (b.toNat ≤ a ∧ a < b.toNat + 8) → t.mem.read a = s.mem.read a) ∧
          (∀ w, (w = b.toNat ∨ w = b.toNat + 4) →
            (∀ j, j < 4 → s.foreignTo b.toNat ((n - 8) / e) e (w + j) = false ∧
              s.order.dataRacy s.agent (w + j) = false) → t.mem.readWord w = 0)))

/-- SIZE of a concrete kind ends with SIZE_OVERFLOW (9, ERR_INFO the capacity) exactly when cap + 1 > 2^31 or 8 +
(cap + 1) E > 2^32 - 1, and otherwise returns 8 + (cap + 1) E with no other register written; the largest accepted
capacities are those of the table; and BIND of the same kind at an 8-aligned base where the result fits into MEM
succeeds and returns RES0 = cap. (R121.) -/
def Obligations.SizeResult : Prop :=
  (∀ (kind : BitVec 4) (s : State) (e : Nat), Ready s → elemSize kind = some e →
      let cap := s.here.larg0.toNat
      (2 ^ 31 < cap + 1 ∨ 2 ^ 32 - 1 < 8 + (cap + 1) * e → Fails (.size kind) s 9 s.here.larg0) ∧
      (cap + 1 ≤ 2 ^ 31 → 8 + (cap + 1) * e ≤ 2 ^ 32 - 1 →
        Answers (.size kind) s ({ s.here with res0 := BitVec.ofNat 32 (8 + (cap + 1) * e) } : Port).finished
          (NoEvent s))) ∧
    (∀ x ∈ ([(1, 0x7FFFFFFF, 0x80000008), (2, 0x7FFFFFFA, 0xFFFFFFFE), (4, 0x3FFFFFFC, 0xFFFFFFFC),
        (8, 0x1FFFFFFD, 0xFFFFFFF8)] : List (Nat × Nat × Nat)),
      x.2.1 + 1 ≤ 2 ^ 31 ∧ 8 + (x.2.1 + 1) * x.1 = x.2.2 ∧ x.2.2 ≤ 2 ^ 32 - 1 ∧
      (2 ^ 31 < x.2.1 + 2 ∨ 2 ^ 32 - 1 < 8 + (x.2.1 + 2) * x.1) ∧
      (2 ≤ x.1 → x.2.1 = (2 ^ 32 - 9) / x.1 - 1)) ∧
    ∀ (kind : BitVec 4) (proto : BitVec 2) (role : Role) (init : Bool) (s u : State) (e cap : Nat), Ready u →
      elemSize kind = some e → cap + 1 ≤ 2 ^ 31 → 8 + (cap + 1) * e ≤ 2 ^ 32 - 1 → Ready s →
      s.here.larg0.toNat = cap →
      (∀ t, exec (.size kind) s = .next t → u.here.larg1 = t.here.res0) →
      u.here.larg0.toNat % 8 = 0 → u.here.larg0.toNat + (8 + (cap + 1) * e) ≤ u.cfg.memSize →
      u.here.status.getLsbD 5 = false → u.here.status.getLsbD 2 = false → proto ≠ 3#2 →
      (proto = 1#2 → kind = 7#4) → (proto = 2#2 → kind = 1#4) →
      ∃ v, exec (.bind kind proto role init) u = .next v ∧ v.here.status.getLsbD 2 = false ∧
        v.here.status.getLsbD 4 = true ∧ v.here.res0 = BitVec.ofNat 32 cap ∧
        v.here.slots = BitVec.ofNat 32 (cap + 1)

/-- On a bound port with valid indices in MEM whose loads do not race each of the four completes: RES0 is 1 or 0 for
write_index = read_index, 1 or 0 for (write_index + 1) mod S = read_index, (write_index + S - read_index) mod S, and
S - 1 minus that; LRD and LWR hold the loaded indices, every other register is as it was, MEM is unchanged and the
two index loads were the only memory events. (R160, R161, R162, R164, R165, R130, R131.) -/
def Obligations.QueryResults : Prop :=
  ∀ s : State, Ready s → s.here.status.getLsbD 4 = true → IndicesLoad s →
    let rd := s.rdIndex.toNat
    let wr := s.wrIndex.toNat
    let S := s.here.slots.toNat
    let with' := fun v : Nat => ({ s.loaded with res0 := BitVec.ofNat 32 v } : Port).finished
    Answers .empty s (with' (if wr = rd then 1 else 0)) (OnlyReads 2 s) ∧
    Answers .full s (with' (if (wr + 1) % S = rd then 1 else 0)) (OnlyReads 2 s) ∧
    Answers .availRead s (with' ((wr + S - rd) % S)) (OnlyReads 2 s) ∧
    Answers .availWrite s (with' (S - 1 - (wr + S - rd) % S)) (OnlyReads 2 s)

/-- On a bound port with S at least 1 (every bound port has it), CAPACITY completes: RES0 = S - 1, every other
register as it was, and no memory event. (R163, R160.) -/
def Obligations.CapacityResult : Prop :=
  ∀ s : State, Ready s → s.here.status.getLsbD 4 = true → 1 ≤ s.here.slots.toNat →
    Answers .capacity s ({ s.here with res0 := BitVec.ofNat 32 (s.here.slots.toNat - 1) } : Port).finished (NoEvent s)

/-- On a bound PRODUCER port without a grant, with an aligned source that is empty or lies in MEM, and valid indices
whose loads do not race, PUSH completes: RES0 = n = min(AvailWrite, len), LRD and LWR hold the loaded indices, every
other register as it was. Only the n slots from write_index on, in ring order, and write_index itself can change;
write_index becomes (write_index + n) mod S; the slots hold the source elements from offset off on, in order. A full
ring changes nothing and publishes nothing. The index holds where no overlap of segments and no unordered data write
touches it; the elements hold, byte by byte, of a source off the segment, where the slot byte lies in no other
segment and no access to the byte or its source races; otherwise those bytes are any value (log 5, log 7, log 8).
That an empty source above MEM_SIZE completes and does not end with BUS is the model's choice between the two
sentences of R70 that R134 rests on, and against R141's row of BUS taken to the letter (log 18). (R140, R141, R131,
R132, R133, R134, R70.) -/
def Obligations.PushResult : Prop :=
  ∀ s : State, Ready s → s.here.bound = true → s.here.role = .producer → s.here.grant = false →
    s.here.larg0.toNat % s.here.esize = 0 → BufferInMem s s.here.esize s.here.larg2.toNat → IndicesLoad s →
    let n := min s.canWrite s.here.larg1.toNat
    Answers .push s ({ s.loaded with res0 := BitVec.ofNat 32 n } : Port).finished (fun t =>
      PushedInto s s.here.esize s.here.larg2.toNat n t ∧ (s.canWrite = 0 → t.mem = s.mem) ∧
      t.order.trace.length = s.order.trace.length + (if s.canWrite = 0 then 2 else 3 + 2 * n))

/-- On a bound CONSUMER port, with an aligned destination that is empty or lies in MEM, and valid indices whose
loads do not race, POP completes: RES0 = n = min(AvailRead, len), LRD and LWR hold the loaded indices, every other
register as it was. Only the n destination elements from offset off on and read_index can change; read_index becomes
(read_index + n) mod S; the destination holds the elements of the slots from read_index on, in ring order. An empty
ring changes nothing and publishes nothing. Overlaps and races as for PUSH, a destination byte in any bound segment
being left to any value (log 5, log 7, log 8). That an empty destination above MEM_SIZE completes and does not end
with BUS is the model's choice between the two sentences of R70 that R134 rests on (log 18). (R145, R146, R131,
R132, R133, R134, R70.) -/
def Obligations.PopResult : Prop :=
  ∀ s : State, Ready s → s.here.bound = true → s.here.role = .consumer → 
    s.here.larg0.toNat % s.here.esize = 0 → BufferInMem s s.here.esize s.here.larg2.toNat → IndicesLoad s →
    let n := min s.canRead s.here.larg1.toNat
    Answers .pop s ({ s.loaded with res0 := BitVec.ofNat 32 n } : Port).finished (fun t =>
      PoppedFrom s s.here.esize s.here.larg2.toNat n t ∧ (s.canRead = 0 → t.mem = s.mem) ∧
      t.order.trace.length = s.order.trace.length + (if s.canRead = 0 then 2 else 3 + 2 * n))

/-- On a bound PRODUCER port of protocol AUDIO (so E = 4) without a grant, with a source aligned to 4 that is empty
or lies in MEM, and valid indices whose loads do not race, AENQ completes and does what PUSH does with offset 0 and
4-byte samples; on a bound CONSUMER port of protocol AUDIO, with a destination aligned to 4 that is empty or lies in
MEM, and valid indices whose loads do not race, ADEQ completes and does what POP does with offset 0 and 4-byte
samples. That an empty source or destination above MEM_SIZE completes and does not end with BUS is the model's
choice between the two sentences of R70 that R134 rests on (log 18). (R170, R171, R172, R134, R70.) -/
def Obligations.AudioTransferResults : Prop :=
  (∀ s : State, Ready s → s.here.bound = true → s.here.role = .producer → s.here.proto = 1#2 → s.here.esize = 4 →
    s.here.grant = false →
    s.here.larg0.toNat % 4 = 0 → BufferInMem s 4 0 → IndicesLoad s →
    let n := min s.canWrite s.here.larg1.toNat
    Answers .aenq s ({ s.loaded with res0 := BitVec.ofNat 32 n } : Port).finished (fun t =>
      PushedInto s 4 0 n t ∧ (s.canWrite = 0 → t.mem = s.mem) ∧
      t.order.trace.length = s.order.trace.length + (if s.canWrite = 0 then 2 else 3 + 2 * n))) ∧
  ∀ s : State, Ready s → s.here.bound = true → s.here.role = .consumer → s.here.proto = 1#2 → s.here.esize = 4 →
    s.here.larg0.toNat % 4 = 0 → BufferInMem s 4 0 → IndicesLoad s →
    let n := min s.canRead s.here.larg1.toNat
    Answers .adeq s ({ s.loaded with res0 := BitVec.ofNat 32 n } : Port).finished (fun t =>
      PoppedFrom s 4 0 n t ∧ (s.canRead = 0 → t.mem = s.mem) ∧
      t.order.trace.length = s.order.trace.length + (if s.canRead = 0 then 2 else 3 + 2 * n))

/-- On a bound PRODUCER port without a grant and with valid indices whose loads do not race, WSPAN.ACQ completes: n
= min(AvailWrite, amount); SPAN0 is SLOT(write_index) with min(S - write_index, n) elements, SPAN1 is SLOT(0) with
the rest; GRANT_WR is write_index, GRANT_N is n, GRANT = 1, RES0 = n; every other register as it was; MEM is
unchanged and the two index loads were the only memory events. (R150, R132.) -/
def Obligations.AcqResult : Prop :=
  ∀ s : State, Ready s → s.here.bound = true → s.here.role = .producer → s.here.grant = false → IndicesLoad s →
    let wr := s.wrIndex.toNat
    let n := min s.canWrite s.here.larg0.toNat
    let first := min (s.here.nslots - wr) n
    Answers .wspanAcq s
      ({ s.loaded with
          span0Addr := BitVec.ofNat 32 (s.here.base + 8 + wr * s.here.esize), span0Len := BitVec.ofNat 32 first
          span1Addr := BitVec.ofNat 32 (s.here.base + 8), span1Len := BitVec.ofNat 32 (n - first)
          grantWr := s.wrIndex, grantN := BitVec.ofNat 32 n, res0 := BitVec.ofNat 32 n
          status := s.here.status ||| 0x20#32 } : Port).finished (OnlyReads 2 s)

/-- On a bound PRODUCER port with an open grant, WSPAN.COMMIT of c elements (the whole grant with DFLT = 1, LARG0
otherwise, c at most GRANT_N) completes: GRANT = 0, RES0 = c, every other register as it was; its one memory event
is the store to write_index, which becomes (GRANT_WR + c) mod S (any value where another bound segment overlaps the
index word or an unordered data write touched it, log 5, log 7); every other byte of MEM is unchanged. (R155, R49.)
-/
def Obligations.CommitResult : Prop :=
  ∀ (dflt : Bool) (s : State), Ready s → s.here.bound = true → s.here.role = .producer → s.here.grant = true →
    let c := if dflt = true then s.here.grantN else s.here.larg0
    c.toNat ≤ s.here.grantN.toNat →
    Answers (.wspanCommit dflt) s
      ({ s.here with res0 := c, status := s.here.status &&& ~~~0x20#32 } : Port).finished (fun t =>
        (∀ a, ¬ (s.here.base ≤ a ∧ a < s.here.base + 4) → t.mem.read a = s.mem.read a) ∧
        (IndexSettled s s.order s.here.base → t.mem.readWord s.here.base =
          BitVec.ofNat 32 ((s.here.grantWr.toNat + c.toNat) % s.here.nslots)) ∧
        t.order.trace.length = s.order.trace.length + 1)

/-- On a bound PRODUCER port of protocol PARAM (so E = 1) without a grant and with valid indices whose loads do not
race, PENQ completes. With fewer than 5 bytes of write space: RES0 = 0, MEM unchanged, only the two index loads.
Otherwise RES0 = 1; only five slots and write_index can change; write_index becomes (write_index + 5) mod S and the
five slots from write_index on, in ring order, hold the index byte and the value's bytes, most significant first
(the index where no overlap of segments and no unordered data write touches it, each record byte where its slot lies
in no other segment and no write to it races; otherwise any value, log 5, log 7). (R181, R180, R63.) -/
def Obligations.PenqResult : Prop :=
  ∀ (pidx : BitVec 8) (s : State), Ready s → s.here.bound = true → s.here.role = .producer →
    s.here.proto = 2#2 → s.here.esize = 1 → s.here.grant = false → IndicesLoad s →
    (s.canWrite < 5 →
      Answers (.penq pidx) s ({ s.loaded with res0 := 0 } : Port).finished (OnlyReads 2 s)) ∧
    (5 ≤ s.canWrite →
      Answers (.penq pidx) s ({ s.loaded with res0 := 1 } : Port).finished (fun t =>
        (∀ a, ¬ inStores s s.here.base 1 s.wrIndex.toNat 5 a → t.mem.read a = s.mem.read a) ∧
        (IndexSettled s s.orderLoaded s.here.base →
          t.mem.readWord s.here.base = BitVec.ofNat 32 ((s.wrIndex.toNat + 5) % s.here.nslots)) ∧
        (∀ k, k < 5 → s.foreign (s.ringSlot 1 s.wrIndex.toNat k) = false →
          s.orderLoaded.racy s.agent (s.ringSlot 1 s.wrIndex.toNat k) = false →
          t.mem.read (s.ringSlot 1 s.wrIndex.toNat k) =
            (if k = 0 then pidx else BitVec.ofNat 8 (s.here.larg0.toNat / 2 ^ (8 * (4 - k))))) ∧
        t.order.trace.length = s.order.trace.length + 8))

/-- On a bound CONSUMER port of protocol PARAM (so E = 1) with valid indices whose loads do not race, PDEQ
completes. On an empty ring: RES0 = 0, RES1 and RES2 and MEM unchanged. With 1 to 4 bytes readable: PARTIAL_RECORD
(14), ERR_INFO the count, MEM unchanged. Otherwise RES0 = 1, RES1 is the byte at read_index, RES2 the next four
bytes in ring order, most significant first (where no write to the five slots races); only read_index changes, to
(read_index + 5) mod S (any value where another bound segment overlaps the index word or an unordered data write
touched it, log 5, log 7). (R182, R180, R63.) -/
def Obligations.PdeqResult : Prop :=
  ∀ s : State, Fresh s → s.here.bound = true → s.here.role = .consumer → s.here.proto = 2#2 →
    s.here.esize = 1 → IndicesLoad s →
    let byte := fun k : Nat => (s.mem.read (s.ringSlot 1 s.rdIndex.toNat k)).toNat
    (s.canRead = 0 → Answers .pdeq s ({ s.loaded with res0 := 0 } : Port).finished (OnlyReads 2 s)) ∧
    (0 < s.canRead → s.canRead < 5 →
      Answers .pdeq s (s.loaded.failed 14 (BitVec.ofNat 32 s.canRead)) (OnlyReads 2 s)) ∧
    (5 ≤ s.canRead → (∀ k, k < 5 → s.orderLoaded.mayRace s.agent (s.ringSlot 1 s.rdIndex.toNat k) = false) →
      Answers .pdeq s
        ({ s.loaded with
            res0 := 1, res1 := BitVec.ofNat 32 (byte 0)
            res2 := BitVec.ofNat 32 (byte 1 * 2 ^ 24 + byte 2 * 2 ^ 16 + byte 3 * 2 ^ 8 + byte 4) } : Port).finished
        (fun t =>
          (∀ a, ¬ (s.here.base + 4 ≤ a ∧ a < s.here.base + 8) → t.mem.read a = s.mem.read a) ∧
          (IndexSettled s s.orderLoaded (s.here.base + 4) → t.mem.readWord (s.here.base + 4) =
            BitVec.ofNat 32 ((s.rdIndex.toNat + 5) % s.here.nslots)) ∧
          t.order.trace.length = s.order.trace.length + 8))

/-- With operands and channel pointers that pass every check and a table free of races, on any port, bound or not,
DEINT completes: RES0 = L, every other register as it was, and only bytes of the K channel buffers can change. Where
the channel buffers keep off each other, the interleaved buffer, the table and every bound segment, and no access
races, sample j of channel c's buffer is sample j K + c of the interleaved buffer, for every c below K and j below
128. (R192, R191, R194, R196.) -/
def Obligations.DeintResult : Prop :=
  ∀ s : State, Fresh s → XposeOk s → TableQuiet s →
    Answers .deint s ({ s.here with res0 := s.here.larg1 } : Port).finished (fun t =>
      (∀ a, (∀ c, c < s.here.larg3.toNat → ¬ ((s.chan c).toNat ≤ a ∧ a < (s.chan c).toNat + 512)) →
        t.mem.read a = s.mem.read a) ∧
      (DeintFree s → ChannelsApart s → ∀ c j b, c < s.here.larg3.toNat → j < 128 → b < 4 →
        t.mem.read ((s.chan c).toNat + 4 * j + b) =
          s.mem.read (s.here.larg0.toNat + 4 * (j * s.here.larg3.toNat + c) + b)))

/-- With operands and channel pointers that pass every check and a table free of races, on any port, bound or not,
INTER completes: RES0 = L, every other register as it was, and only bytes of the interleaved buffer can change.
Where the interleaved buffer keeps off the channel buffers, the table and every bound segment, and no access races
(two equal channel pointers are allowed), sample j K + c of the interleaved buffer is sample j of channel c's
buffer. (R193, R191, R194, R196.) -/
def Obligations.InterResult : Prop :=
  ∀ s : State, Fresh s → XposeOk s → TableQuiet s →
    Answers .inter s ({ s.here with res0 := s.here.larg1 } : Port).finished (fun t =>
      (∀ a, ¬ (s.here.larg0.toNat ≤ a ∧ a < s.here.larg0.toNat + 4 * s.here.larg1.toNat) →
        t.mem.read a = s.mem.read a) ∧
      (InterFree s → ∀ c j b, c < s.here.larg3.toNat → j < 128 → b < 4 →
        t.mem.read (s.here.larg0.toNat + 4 * (j * s.here.larg3.toNat + c) + b) =
          s.mem.read ((s.chan c).toNat + 4 * j + b)))

/-- INTER through one table, then DEINT of the same interleaved buffer on the same port through another table that
lies off the interleaved buffer and whose buffers overlap nothing, both with operands that pass their checks and
buffers free of races: both complete, and each channel buffer of the second table holds the bytes that the same
channel's buffer of the first table held. (R195.) -/
def Obligations.TransposeRoundTrip : Prop :=
  ∀ (s : State) (tb : Word), Fresh s → XposeOk s → TableQuiet s → InterFree s →
    let s2 := s.setHere { s.here with larg2 := tb }
    XposeOk s2 → TableQuiet s2 → TableApart s2 → DeintFree s2 → ChannelsApart s2 →
    ∃ t u, exec .inter s = .next t ∧ exec .deint (t.setHere { t.here with larg2 := tb, pos := .decode }) = .next u ∧
      ∀ c j, c < s.here.larg3.toNat → j < 512 →
        u.mem.read ((s2.chan c).toNat + j) = s.mem.read ((s.chan c).toNat + j)

/-- A byte that the host may read without a race, a port may read without a race once it has accepted the host's CMD
write; and a byte that a port may read without a race, the host may read without a race once the port has ended its
command, by its finish step or by raise, and the host has then read STATUS, by a register read or at the end of its
wait. What a race is is said by the model's ordering record (log 4). (R74, R79, R80.) -/
def Obligations.IssueAndFinishOrder : Prop :=
  ∀ (s : State) (p m : Nat), orderOk s = true → p < s.ports.length →
    (∀ w, (s.port p).busy = false → s.order.racy hostAgent m = false →
      (s.writeCmd p w).order.racy (portAgent p) m = false) ∧
    ∀ u, s.cur = p → ((∃ q, u = s.finishStep q) ∨ ∃ e info, u = s.raise e info) →
      s.order.racy (portAgent p) m = false →
      (u.seenIdle p).order.racy hostAgent m = false ∧
      (u.afterRead (0x100 + 0x80 * p + 0x04)).order.racy hostAgent m = false

/-- Two ports are bound to one segment, one PRODUCER, one CONSUMER; the ring is empty with valid indices whose loads
do not race; their segment overlaps no other and no unordered data write touches write_index; the source lies off
the segment, the destination off every bound segment; source, destination, slots and index words are free of races
for the agent that uses them. A PUSH of n elements that all fit, then a POP of at least n elements, both completing:
POP returns n and the destination holds the n source elements byte for byte. Nothing orders the two ports but the
publishing store and the load that reads it. (R75, R73, R74, R145.) -/
def Obligations.PublishedElementsArriveIntact : Prop :=
  ∀ (s : State) (c : Nat), orderOk s = true → Ready s → c < s.ports.length → c ≠ s.cur →
    (s.port c).pos = .decode → s.here.bound = true → (s.port c).bound = true → s.here.role = .producer →
    (s.port c).role = .consumer → (s.port c).segBase = s.here.segBase → (s.port c).slots = s.here.slots →
    (s.port c).esize = s.here.esize → s.here.grant = false → s.here.larg0.toNat % s.here.esize = 0 →
    (s.port c).larg0.toNat % s.here.esize = 0 → IndicesLoad s → s.rdIndex = s.wrIndex →
    s.here.larg1.toNat < s.here.nslots → 0 < s.here.larg1.toNat → s.here.larg1.toNat ≤ (s.port c).larg1.toNat →
    SegmentApart s → IndexSettled s s.orderLoaded s.here.base → SlotsQuiet s →
    BufferInMem s s.here.esize s.here.larg2.toNat → BufferApart s s.here.esize s.here.larg2.toNat →
    BufferQuiet s s.here.esize s.here.larg2.toNat →
    let s2 : State := { s with cur := c }
    IndicesQuiet s2 → (∀ j, j < 8 → s.order.lateAt (s.here.base + j) = false) →
    BufferInMem s2 s.here.esize (s.port c).larg2.toNat →
    s2.meetsBound ((s.port c).larg0.toNat + (s.port c).larg2.toNat * s.here.esize)
      ((s.port c).larg1.toNat * s.here.esize) = false →
    BufferQuiet s2 s.here.esize (s.port c).larg2.toNat →
    ∃ t u, exec .push s = .next t ∧ exec .pop { t with cur := c } = .next u ∧
      (u.port c).res0 = s.here.larg1 ∧
      ∀ k j, k < s.here.larg1.toNat → j < s.here.esize →
        u.mem.read ((s.port c).larg0.toNat + ((s.port c).larg2.toNat + k) * s.here.esize + j) =
          s.mem.read (s.here.larg0.toNat + (s.here.larg2.toNat + k) * s.here.esize + j)

/-- On a sound port whose index words no other segment overlaps and no unordered data write touches, and whose
transfer buffer lies off its own segment: from indices below S, whatever ring command runs, if exec answers a next
state, both indices in MEM are again below S. (R48, R133, R150, R155.) -/
def Obligations.RingCommandsKeepIndicesValid : Prop :=
  ∀ (i : Instr) (s t : State), Ready s → ringCommand i = true → portOk s.cfg s.here = true → ValidIndices s →
    IndexSettled s s.order s.here.base → IndexSettled s s.order (s.here.base + 4) →
    BufferApart s s.here.esize s.here.larg2.toNat → BufferApart s s.here.esize 0 →
    exec i s = .next t → ValidIndices t

/-- A host access to the register block that is not 4 bytes wide, or not at a multiple of 4, is refused by name; a
host write of at least one byte inside MEM that touches an index word of a bound segment is refused by name; a
micro-step of a ring command on a bound port is refused by name while two ports, the port itself or others, are
bound to its base in one role; the finish step of a BIND is refused by name at a base where another port is bound in
that role, unless the BIND changes the port's own role on that base, and then too while another port is bound there,
if the host had not read STATUS with BUSY = 0 of both ports before it wrote the first of their rebinding words, or
the other port has accepted a command other than its one rebinding since; and so it is where two other ports are
bound to that base in one role. A change of roles that keeps all this is not refused for pairing, whether the other
port has been rebound meanwhile or not. When a pairing is broken is read from R218 (log 10). (R28, R85, R218, R245.)
-/
def Obligations.ContractRefusals : Prop :=
  (∀ (s : State) (addr width : Nat) (v : Word), s.cfg.regBase ≤ addr → addr < s.cfg.regBase + 0x1000 →
      (width ≠ 4 ∨ addr % 4 ≠ 0) →
      moveRegRead s addr width = .refused (.registerAccess addr width) ∧
      moveRegWrite s addr width v = .refused (.registerAccess addr width)) ∧
    (∀ (s : State) (a : Nat) (bs : List Byte), a + bs.length ≤ s.cfg.memSize →
      touchesIndex s hostAgent a bs.length = true → moveMemWrite s a bs = .refused (.indexOwnership a)) ∧
    (∀ (s : State) (p r : Nat) (kind : BitVec 4) (proto : BitVec 2) (role : Role) (init : Bool),
      p < s.ports.length → r < s.ports.length → r ≠ p → (s.port p).pos = .finish →
      (s.port p).command? = some (.bind kind proto role init) → (s.port r).bound = true →
      (s.port r).base = (s.port p).larg0.toNat →
      (if (s.port p).bound = true ∧ (s.port p).base = (s.port p).larg0.toNat ∧ (s.port p).role ≠ role then
        s.order.knows (portAgent p) p ≠ .idle ∨ s.order.knows (portAgent p) r = .no ∨
          (s.order.knows (portAgent p) r = .rebinding ∧ s.order.knows (portAgent r) p = .no)
      else (s.port r).role = role) → movePortStep s p = .refused (.pairing p)) ∧
    (∀ (s : State) (p r q : Nat) (kind : BitVec 4) (proto : BitVec 2) (role : Role) (init : Bool),
      p < s.ports.length → r < s.ports.length → q < s.ports.length → r ≠ p → q ≠ p → r ≠ q →
      (s.port p).pos = .finish → (s.port p).command? = some (.bind kind proto role init) →
      (s.port r).bound = true → (s.port q).bound = true → (s.port r).base = (s.port p).larg0.toNat →
      (s.port q).base = (s.port p).larg0.toNat → (s.port r).role = (s.port q).role →
      movePortStep s p = .refused (.pairing p)) ∧
    (∀ (s : State) (p : Nat) (kind : BitVec 4) (proto : BitVec 2) (role : Role) (init : Bool),
      p < s.ports.length → (s.port p).pos = .finish → (s.port p).command? = some (.bind kind proto role init) →
      (s.port p).bound = true → (s.port p).base = (s.port p).larg0.toNat → (s.port p).role ≠ role →
      s.order.knows (portAgent p) p = .idle →
      (∀ r, r < s.ports.length → r ≠ p → (s.port r).bound = true → (s.port r).base = (s.port p).base →
        (s.order.knows (portAgent p) r = .idle ∨
          (s.order.knows (portAgent p) r = .rebinding ∧ s.order.knows (portAgent r) p ≠ .no)) ∧
        ∀ q, q < s.ports.length → q ≠ p → q ≠ r → (s.port q).bound = true →
          (s.port q).base = (s.port p).base → (s.port r).role ≠ (s.port q).role) →
      movePortStep s p ≠ .refused (.pairing p)) ∧
    ∀ (s : State) (p r q : Nat) (i : Instr), p < s.ports.length → r < s.ports.length → q < s.ports.length → r ≠ q →
      (s.port p).command? = some i → ringCommand i = true → (s.port p).pos ≠ .idle →
      (s.port p).bound = true → (s.port r).bound = true → (s.port q).bound = true →
      (s.port r).base = (s.port p).base → (s.port q).base = (s.port p).base →
      (s.port r).role = (s.port q).role → movePortStep s p = .refused (.pairing p)

/-- Every read of the planned run with which a later write of that run races, in a byte of MEM, is foreseen, the run
being the one in which the reads foreseen return any value; and of the reads foreseen the step has those that are
its own. A data read of a byte so foreseen for the next memory event returns a free value there; so does an
AtomicLoad32 in a byte that is so foreseen or that an earlier data write races with, and such a load orders nothing
before the steps that follow it. So where the next move is the micro-step of a PUSH in which the port reads a source
element, and the host then writes one byte of that element, no index word of a bound segment, without having seen
the port idle, the step completes, the host contract permitting it, and the byte the port has read there is a free
value. That any value is a free value drawn in the step is the model's choice (log 5), that a load in a race orders
nothing is read from edge 2 of R74 (log 4, DEDUCED), and that late races are found by looking at the moves planned
is the model's choice (log 6). U7 of 93_implementation_defined.md. (R74, R77, R242, R245.) -/
def Obligations.LateRaceLeavesAnyValue : Prop :=
  (∀ (s : State) (r : LateRead) (e w : MemEvent) (later between before : List MemEvent),
      newEvents s (planEnd s (planned s)) = later ++ w :: (between ++ e :: before) → e.racesWith w = true →
      e.touches r.byte = true → w.touches r.byte = true → r.event = s.order.trace.length + before.length →
      r.byte < s.cfg.memSize → r ∈ planned s) ∧
    (∀ (s t : State) (r : LateRead), act (s.foreseeing (planned s)) = .next t → r ∈ planned s →
      r.event < t.order.trace.length → r ∈ s.lookAhead.order.foreseen) ∧
    (∀ (s : State) (a x n j : Nat), j < n →
      { event := s.order.trace.length, byte := x + j } ∈ s.order.foreseen →
      (s.seenBytes a x n).getD j 0 = Config.freeByte (s.free + j)) ∧
    (∀ (s : State) (a x j : Nat), j < 4 → (s.order.acquire a x).loadOpen a (x + j) = true →
      (s.loadedWord a x).extractLsb' (8 * j) 8 = Config.freeByte (s.free + j) ∧
      (s.loadEvent a x).order.clocks = (s.order.record a .load x 4).clocks) ∧
    ∀ (s : State) (p k m : Nat) (v : Byte), orderOk s = true → portsOk s = true → enginesInside s = true →
    p < s.ports.length → s.agenda = [.portStep p, .memWrite m [v]] → (s.port p).command? = some .push →
    (s.port p).pos = .copyRead k → m + 1 ≤ s.cfg.memSize → touchesIndex s hostAgent m 1 = false →
    let src := bufferAddr (s.port p) (s.port p).esize ((s.port p).larg2.toNat + k)
    src ≤ m → m < src + (s.port p).esize →
    let u : State := { s with cur := p }
    portStop u (portMicro u) = none →
    ∃ t, step s = .next t ∧ (t.port p).elem.getD (m - src) 0 = Config.freeByte (s.free + (m - src))
end

