-- ==== Sys2Proof/Laws/State.lean ====
section
/-! SUPPORT. One lemma per field per update of the state and of a port, each true by unfolding the update once, so
that no later proof unfolds a record update. -/

namespace Sys2Proof.Machine

/-! ## Updates of the state -/

@[simp] theorem State.setPort_cfg (s : State) (p : Nat) (q : Port) :
    (s.setPort p q).cfg = s.cfg := rfl
@[simp] theorem State.setPort_ports (s : State) (p : Nat) (q : Port) :
    (s.setPort p q).ports = s.ports.set p q := rfl
@[simp] theorem State.setPort_mem (s : State) (p : Nat) (q : Port) :
    (s.setPort p q).mem = s.mem := rfl
@[simp] theorem State.setPort_cur (s : State) (p : Nat) (q : Port) :
    (s.setPort p q).cur = s.cur := rfl
@[simp] theorem State.setPort_agenda (s : State) (p : Nat) (q : Port) :
    (s.setPort p q).agenda = s.agenda := rfl
@[simp] theorem State.setPort_regData (s : State) (p : Nat) (q : Port) :
    (s.setPort p q).regData = s.regData := rfl
@[simp] theorem State.setPort_memData (s : State) (p : Nat) (q : Port) :
    (s.setPort p q).memData = s.memData := rfl
@[simp] theorem State.setPort_order (s : State) (p : Nat) (q : Port) :
    (s.setPort p q).order = s.order := rfl
@[simp] theorem State.setPort_free (s : State) (p : Nat) (q : Port) :
    (s.setPort p q).free = s.free := rfl

@[simp] theorem State.setHere_cfg (s : State) (q : Port) :
    (s.setHere q).cfg = s.cfg := rfl
@[simp] theorem State.setHere_ports (s : State) (q : Port) :
    (s.setHere q).ports = s.ports.set s.cur q := rfl
@[simp] theorem State.setHere_mem (s : State) (q : Port) :
    (s.setHere q).mem = s.mem := rfl
@[simp] theorem State.setHere_cur (s : State) (q : Port) :
    (s.setHere q).cur = s.cur := rfl
@[simp] theorem State.setHere_agenda (s : State) (q : Port) :
    (s.setHere q).agenda = s.agenda := rfl
@[simp] theorem State.setHere_regData (s : State) (q : Port) :
    (s.setHere q).regData = s.regData := rfl
@[simp] theorem State.setHere_memData (s : State) (q : Port) :
    (s.setHere q).memData = s.memData := rfl
@[simp] theorem State.setHere_order (s : State) (q : Port) :
    (s.setHere q).order = s.order := rfl
@[simp] theorem State.setHere_free (s : State) (q : Port) :
    (s.setHere q).free = s.free := rfl

@[simp] theorem State.goto_cfg (s : State) (pos : EnginePos) :
    (s.goto pos).cfg = s.cfg := rfl
@[simp] theorem State.goto_ports (s : State) (pos : EnginePos) :
    (s.goto pos).ports = s.ports.set s.cur { s.here with pos := pos } := rfl
@[simp] theorem State.goto_mem (s : State) (pos : EnginePos) :
    (s.goto pos).mem = s.mem := rfl
@[simp] theorem State.goto_cur (s : State) (pos : EnginePos) :
    (s.goto pos).cur = s.cur := rfl
@[simp] theorem State.goto_agenda (s : State) (pos : EnginePos) :
    (s.goto pos).agenda = s.agenda := rfl
@[simp] theorem State.goto_regData (s : State) (pos : EnginePos) :
    (s.goto pos).regData = s.regData := rfl
@[simp] theorem State.goto_memData (s : State) (pos : EnginePos) :
    (s.goto pos).memData = s.memData := rfl
@[simp] theorem State.goto_order (s : State) (pos : EnginePos) :
    (s.goto pos).order = s.order := rfl
@[simp] theorem State.goto_free (s : State) (pos : EnginePos) :
    (s.goto pos).free = s.free := rfl

@[simp] theorem State.readEvent_cfg (s : State) (a : Nat) (k : EventKind) (addr n : Nat) :
    (s.readEvent a k addr n).cfg = s.cfg := rfl
@[simp] theorem State.readEvent_ports (s : State) (a : Nat) (k : EventKind) (addr n : Nat) :
    (s.readEvent a k addr n).ports = s.ports := rfl
@[simp] theorem State.readEvent_mem (s : State) (a : Nat) (k : EventKind) (addr n : Nat) :
    (s.readEvent a k addr n).mem = s.mem := rfl
@[simp] theorem State.readEvent_cur (s : State) (a : Nat) (k : EventKind) (addr n : Nat) :
    (s.readEvent a k addr n).cur = s.cur := rfl
@[simp] theorem State.readEvent_agenda (s : State) (a : Nat) (k : EventKind) (addr n : Nat) :
    (s.readEvent a k addr n).agenda = s.agenda := rfl
@[simp] theorem State.readEvent_regData (s : State) (a : Nat) (k : EventKind) (addr n : Nat) :
    (s.readEvent a k addr n).regData = s.regData := rfl
@[simp] theorem State.readEvent_memData (s : State) (a : Nat) (k : EventKind) (addr n : Nat) :
    (s.readEvent a k addr n).memData = s.memData := rfl
@[simp] theorem State.readEvent_order (s : State) (a : Nat) (k : EventKind) (addr n : Nat) :
    (s.readEvent a k addr n).order = s.order.record a k addr n := rfl
@[simp] theorem State.readEvent_free (s : State) (a : Nat) (k : EventKind) (addr n : Nat) :
    (s.readEvent a k addr n).free = s.free + n := rfl

@[simp] theorem State.writeEvent_cfg (s : State) (a addr : Nat) (f : Nat → Bool) (bs : List Byte) :
    (s.writeEvent a addr f bs).cfg = s.cfg := rfl
@[simp] theorem State.writeEvent_ports (s : State) (a addr : Nat) (f : Nat → Bool) (bs : List Byte) :
    (s.writeEvent a addr f bs).ports = s.ports := rfl
@[simp] theorem State.writeEvent_mem (s : State) (a addr : Nat) (f : Nat → Bool) (bs : List Byte) :
    (s.writeEvent a addr f bs).mem = s.mem.writeBytes addr (s.landedBytes addr (fun m => f m || s.order.racy a m) bs) := rfl
@[simp] theorem State.writeEvent_cur (s : State) (a addr : Nat) (f : Nat → Bool) (bs : List Byte) :
    (s.writeEvent a addr f bs).cur = s.cur := rfl
@[simp] theorem State.writeEvent_agenda (s : State) (a addr : Nat) (f : Nat → Bool) (bs : List Byte) :
    (s.writeEvent a addr f bs).agenda = s.agenda := rfl
@[simp] theorem State.writeEvent_regData (s : State) (a addr : Nat) (f : Nat → Bool) (bs : List Byte) :
    (s.writeEvent a addr f bs).regData = s.regData := rfl
@[simp] theorem State.writeEvent_memData (s : State) (a addr : Nat) (f : Nat → Bool) (bs : List Byte) :
    (s.writeEvent a addr f bs).memData = s.memData := rfl
@[simp] theorem State.writeEvent_order (s : State) (a addr : Nat) (f : Nat → Bool) (bs : List Byte) :
    (s.writeEvent a addr f bs).order = (s.order.record a .write addr bs.length).overwrite addr bs.length := rfl
@[simp] theorem State.writeEvent_free (s : State) (a addr : Nat) (f : Nat → Bool) (bs : List Byte) :
    (s.writeEvent a addr f bs).free = s.free + bs.length := rfl

@[simp] theorem State.loadEvent_cfg (s : State) (a addr : Nat) :
    (s.loadEvent a addr).cfg = s.cfg := rfl
@[simp] theorem State.loadEvent_ports (s : State) (a addr : Nat) :
    (s.loadEvent a addr).ports = s.ports := rfl
@[simp] theorem State.loadEvent_mem (s : State) (a addr : Nat) :
    (s.loadEvent a addr).mem = s.mem := rfl
@[simp] theorem State.loadEvent_cur (s : State) (a addr : Nat) :
    (s.loadEvent a addr).cur = s.cur := rfl
@[simp] theorem State.loadEvent_agenda (s : State) (a addr : Nat) :
    (s.loadEvent a addr).agenda = s.agenda := rfl
@[simp] theorem State.loadEvent_regData (s : State) (a addr : Nat) :
    (s.loadEvent a addr).regData = s.regData := rfl
@[simp] theorem State.loadEvent_memData (s : State) (a addr : Nat) :
    (s.loadEvent a addr).memData = s.memData := rfl
@[simp] theorem State.loadEvent_order (s : State) (a addr : Nat) :
    (s.loadEvent a addr).order = s.order.loaded a addr := rfl
@[simp] theorem State.loadEvent_free (s : State) (a addr : Nat) :
    (s.loadEvent a addr).free = s.free + 4 := rfl

@[simp] theorem State.storeEvent_cfg (s : State) (a addr : Nat) (k : EventKind) (b : Nat → Bool) (v : Word) :
    (s.storeEvent a addr k b v).cfg = s.cfg := rfl
@[simp] theorem State.storeEvent_ports (s : State) (a addr : Nat) (k : EventKind) (b : Nat → Bool) (v : Word) :
    (s.storeEvent a addr k b v).ports = s.ports := rfl
@[simp] theorem State.storeEvent_cur (s : State) (a addr : Nat) (k : EventKind) (b : Nat → Bool) (v : Word) :
    (s.storeEvent a addr k b v).cur = s.cur := rfl
@[simp] theorem State.storeEvent_agenda (s : State) (a addr : Nat) (k : EventKind) (b : Nat → Bool) (v : Word) :
    (s.storeEvent a addr k b v).agenda = s.agenda := rfl
@[simp] theorem State.storeEvent_regData (s : State) (a addr : Nat) (k : EventKind) (b : Nat → Bool) (v : Word) :
    (s.storeEvent a addr k b v).regData = s.regData := rfl
@[simp] theorem State.storeEvent_memData (s : State) (a addr : Nat) (k : EventKind) (b : Nat → Bool) (v : Word) :
    (s.storeEvent a addr k b v).memData = s.memData := rfl
@[simp] theorem State.storeEvent_order (s : State) (a addr : Nat) (k : EventKind) (b : Nat → Bool) (v : Word) :
    (s.storeEvent a addr k b v).order = (s.order.record a k addr 4).publish a addr := rfl
@[simp] theorem State.storeEvent_free (s : State) (a addr : Nat) (k : EventKind) (b : Nat → Bool) (v : Word) :
    (s.storeEvent a addr k b v).free = s.free + 4 := rfl

@[simp] theorem State.ended_cfg (s : State) (q : Port) :
    (s.ended q).cfg = s.cfg := rfl
@[simp] theorem State.ended_ports (s : State) (q : Port) :
    (s.ended q).ports = s.ports.set s.cur { q with pos := .idle, elem := [], table := [], record := [] } := rfl
@[simp] theorem State.ended_mem (s : State) (q : Port) :
    (s.ended q).mem = s.mem := rfl
@[simp] theorem State.ended_cur (s : State) (q : Port) :
    (s.ended q).cur = s.cur := rfl
@[simp] theorem State.ended_agenda (s : State) (q : Port) :
    (s.ended q).agenda = s.agenda := rfl
@[simp] theorem State.ended_regData (s : State) (q : Port) :
    (s.ended q).regData = s.regData := rfl
@[simp] theorem State.ended_memData (s : State) (q : Port) :
    (s.ended q).memData = s.memData := rfl
@[simp] theorem State.ended_order (s : State) (q : Port) :
    (s.ended q).order = s.order.finish s.cur := rfl
@[simp] theorem State.ended_free (s : State) (q : Port) :
    (s.ended q).free = s.free := rfl

@[simp] theorem State.finishStep_cfg (s : State) (q : Port) :
    (s.finishStep q).cfg = s.cfg := rfl
@[simp] theorem State.finishStep_ports (s : State) (q : Port) :
    (s.finishStep q).ports = s.ports.set s.cur { q.ending with pos := .idle, elem := [], table := [], record := [] } := rfl
@[simp] theorem State.finishStep_mem (s : State) (q : Port) :
    (s.finishStep q).mem = s.mem := rfl
@[simp] theorem State.finishStep_cur (s : State) (q : Port) :
    (s.finishStep q).cur = s.cur := rfl
@[simp] theorem State.finishStep_agenda (s : State) (q : Port) :
    (s.finishStep q).agenda = s.agenda := rfl
@[simp] theorem State.finishStep_regData (s : State) (q : Port) :
    (s.finishStep q).regData = s.regData := rfl
@[simp] theorem State.finishStep_memData (s : State) (q : Port) :
    (s.finishStep q).memData = s.memData := rfl
@[simp] theorem State.finishStep_order (s : State) (q : Port) :
    (s.finishStep q).order = s.order.finish s.cur := rfl
@[simp] theorem State.finishStep_free (s : State) (q : Port) :
    (s.finishStep q).free = s.free := rfl

@[simp] theorem State.raise_cfg (s : State) (e : ErrCode) (info : Word) :
    (s.raise e info).cfg = s.cfg := rfl
@[simp] theorem State.raise_ports (s : State) (e : ErrCode) (info : Word) :
    (s.raise e info).ports = s.ports.set s.cur { s.here.raised e info with pos := .idle, elem := [], table := [], record := [] } := rfl
@[simp] theorem State.raise_mem (s : State) (e : ErrCode) (info : Word) :
    (s.raise e info).mem = s.mem := rfl
@[simp] theorem State.raise_cur (s : State) (e : ErrCode) (info : Word) :
    (s.raise e info).cur = s.cur := rfl
@[simp] theorem State.raise_agenda (s : State) (e : ErrCode) (info : Word) :
    (s.raise e info).agenda = s.agenda := rfl
@[simp] theorem State.raise_regData (s : State) (e : ErrCode) (info : Word) :
    (s.raise e info).regData = s.regData := rfl
@[simp] theorem State.raise_memData (s : State) (e : ErrCode) (info : Word) :
    (s.raise e info).memData = s.memData := rfl
@[simp] theorem State.raise_order (s : State) (e : ErrCode) (info : Word) :
    (s.raise e info).order = s.order.finish s.cur := rfl
@[simp] theorem State.raise_free (s : State) (e : ErrCode) (info : Word) :
    (s.raise e info).free = s.free := rfl

@[simp] theorem State.rst_cfg (s : State) :
    (s.rst).cfg = s.cfg := rfl
@[simp] theorem State.rst_ports (s : State) :
    (s.rst).ports = s.ports.map (fun _ => Port.reset) := rfl
@[simp] theorem State.rst_mem (s : State) :
    (s.rst).mem = s.mem := rfl
@[simp] theorem State.rst_cur (s : State) :
    (s.rst).cur = s.cur := rfl
@[simp] theorem State.rst_agenda (s : State) :
    (s.rst).agenda = s.agenda := rfl
@[simp] theorem State.rst_regData (s : State) :
    (s.rst).regData = s.regData := rfl
@[simp] theorem State.rst_memData (s : State) :
    (s.rst).memData = s.memData := rfl
@[simp] theorem State.rst_order (s : State) :
    (s.rst).order = Order.start s.ports.length := rfl
@[simp] theorem State.rst_free (s : State) :
    (s.rst).free = s.free := rfl

@[simp] theorem State.seenIdle_cfg (s : State) (p : Nat) :
    (s.seenIdle p).cfg = s.cfg := rfl
@[simp] theorem State.seenIdle_ports (s : State) (p : Nat) :
    (s.seenIdle p).ports = s.ports := rfl
@[simp] theorem State.seenIdle_mem (s : State) (p : Nat) :
    (s.seenIdle p).mem = s.mem := rfl
@[simp] theorem State.seenIdle_cur (s : State) (p : Nat) :
    (s.seenIdle p).cur = s.cur := rfl
@[simp] theorem State.seenIdle_agenda (s : State) (p : Nat) :
    (s.seenIdle p).agenda = s.agenda := rfl
@[simp] theorem State.seenIdle_regData (s : State) (p : Nat) :
    (s.seenIdle p).regData = (s.port p).status := rfl
@[simp] theorem State.seenIdle_memData (s : State) (p : Nat) :
    (s.seenIdle p).memData = s.memData := rfl
@[simp] theorem State.seenIdle_order (s : State) (p : Nat) :
    (s.seenIdle p).order = s.order.seen p := rfl
@[simp] theorem State.seenIdle_free (s : State) (p : Nat) :
    (s.seenIdle p).free = s.free := rfl

@[simp] theorem State.storeEvent_mem (s : State) (a addr : Nat) (k : EventKind) (b : Nat → Bool) (v : Word) :
    (s.storeEvent a addr k b v).mem =
      s.mem.writeBytes addr (s.landedBytes addr (fun m => b m || s.order.dataRacy a m) (leBytes v)) := rfl

/-! ## Updates of a port -/

@[simp] theorem Port.setFlag_cmd (q : Port) (f : Flag) (v : Bool) : (q.setFlag f v).cmd = q.cmd := rfl
@[simp] theorem Port.setFlag_ctrl (q : Port) (f : Flag) (v : Bool) : (q.setFlag f v).ctrl = q.ctrl := rfl
@[simp] theorem Port.setFlag_errCause (q : Port) (f : Flag) (v : Bool) : (q.setFlag f v).errCause = q.errCause := rfl
@[simp] theorem Port.setFlag_errInfo (q : Port) (f : Flag) (v : Bool) : (q.setFlag f v).errInfo = q.errInfo := rfl
@[simp] theorem Port.setFlag_arg0 (q : Port) (f : Flag) (v : Bool) : (q.setFlag f v).arg0 = q.arg0 := rfl
@[simp] theorem Port.setFlag_arg1 (q : Port) (f : Flag) (v : Bool) : (q.setFlag f v).arg1 = q.arg1 := rfl
@[simp] theorem Port.setFlag_arg2 (q : Port) (f : Flag) (v : Bool) : (q.setFlag f v).arg2 = q.arg2 := rfl
@[simp] theorem Port.setFlag_arg3 (q : Port) (f : Flag) (v : Bool) : (q.setFlag f v).arg3 = q.arg3 := rfl
@[simp] theorem Port.setFlag_res0 (q : Port) (f : Flag) (v : Bool) : (q.setFlag f v).res0 = q.res0 := rfl
@[simp] theorem Port.setFlag_res1 (q : Port) (f : Flag) (v : Bool) : (q.setFlag f v).res1 = q.res1 := rfl
@[simp] theorem Port.setFlag_res2 (q : Port) (f : Flag) (v : Bool) : (q.setFlag f v).res2 = q.res2 := rfl
@[simp] theorem Port.setFlag_segBase (q : Port) (f : Flag) (v : Bool) : (q.setFlag f v).segBase = q.segBase := rfl
@[simp] theorem Port.setFlag_slots (q : Port) (f : Flag) (v : Bool) : (q.setFlag f v).slots = q.slots := rfl
@[simp] theorem Port.setFlag_bindcfg (q : Port) (f : Flag) (v : Bool) : (q.setFlag f v).bindcfg = q.bindcfg := rfl
@[simp] theorem Port.setFlag_span0Addr (q : Port) (f : Flag) (v : Bool) : (q.setFlag f v).span0Addr = q.span0Addr := rfl
@[simp] theorem Port.setFlag_span0Len (q : Port) (f : Flag) (v : Bool) : (q.setFlag f v).span0Len = q.span0Len := rfl
@[simp] theorem Port.setFlag_span1Addr (q : Port) (f : Flag) (v : Bool) : (q.setFlag f v).span1Addr = q.span1Addr := rfl
@[simp] theorem Port.setFlag_span1Len (q : Port) (f : Flag) (v : Bool) : (q.setFlag f v).span1Len = q.span1Len := rfl
@[simp] theorem Port.setFlag_lcmd (q : Port) (f : Flag) (v : Bool) : (q.setFlag f v).lcmd = q.lcmd := rfl
@[simp] theorem Port.setFlag_larg0 (q : Port) (f : Flag) (v : Bool) : (q.setFlag f v).larg0 = q.larg0 := rfl
@[simp] theorem Port.setFlag_larg1 (q : Port) (f : Flag) (v : Bool) : (q.setFlag f v).larg1 = q.larg1 := rfl
@[simp] theorem Port.setFlag_larg2 (q : Port) (f : Flag) (v : Bool) : (q.setFlag f v).larg2 = q.larg2 := rfl
@[simp] theorem Port.setFlag_larg3 (q : Port) (f : Flag) (v : Bool) : (q.setFlag f v).larg3 = q.larg3 := rfl
@[simp] theorem Port.setFlag_lrd (q : Port) (f : Flag) (v : Bool) : (q.setFlag f v).lrd = q.lrd := rfl
@[simp] theorem Port.setFlag_lwr (q : Port) (f : Flag) (v : Bool) : (q.setFlag f v).lwr = q.lwr := rfl
@[simp] theorem Port.setFlag_grantWr (q : Port) (f : Flag) (v : Bool) : (q.setFlag f v).grantWr = q.grantWr := rfl
@[simp] theorem Port.setFlag_grantN (q : Port) (f : Flag) (v : Bool) : (q.setFlag f v).grantN = q.grantN := rfl
@[simp] theorem Port.setFlag_pos (q : Port) (f : Flag) (v : Bool) : (q.setFlag f v).pos = q.pos := rfl
@[simp] theorem Port.setFlag_elem (q : Port) (f : Flag) (v : Bool) : (q.setFlag f v).elem = q.elem := rfl
@[simp] theorem Port.setFlag_table (q : Port) (f : Flag) (v : Bool) : (q.setFlag f v).table = q.table := rfl
@[simp] theorem Port.setFlag_record (q : Port) (f : Flag) (v : Bool) : (q.setFlag f v).record = q.record := rfl

@[simp] theorem Port.ending_cmd (q : Port) : q.ending.cmd = q.cmd := rfl
@[simp] theorem Port.ending_ctrl (q : Port) : q.ending.ctrl = q.ctrl := rfl
@[simp] theorem Port.ending_errCause (q : Port) : q.ending.errCause = q.errCause := rfl
@[simp] theorem Port.ending_errInfo (q : Port) : q.ending.errInfo = q.errInfo := rfl
@[simp] theorem Port.ending_arg0 (q : Port) : q.ending.arg0 = q.arg0 := rfl
@[simp] theorem Port.ending_arg1 (q : Port) : q.ending.arg1 = q.arg1 := rfl
@[simp] theorem Port.ending_arg2 (q : Port) : q.ending.arg2 = q.arg2 := rfl
@[simp] theorem Port.ending_arg3 (q : Port) : q.ending.arg3 = q.arg3 := rfl
@[simp] theorem Port.ending_res0 (q : Port) : q.ending.res0 = q.res0 := rfl
@[simp] theorem Port.ending_res1 (q : Port) : q.ending.res1 = q.res1 := rfl
@[simp] theorem Port.ending_res2 (q : Port) : q.ending.res2 = q.res2 := rfl
@[simp] theorem Port.ending_segBase (q : Port) : q.ending.segBase = q.segBase := rfl
@[simp] theorem Port.ending_slots (q : Port) : q.ending.slots = q.slots := rfl
@[simp] theorem Port.ending_bindcfg (q : Port) : q.ending.bindcfg = q.bindcfg := rfl
@[simp] theorem Port.ending_span0Addr (q : Port) : q.ending.span0Addr = q.span0Addr := rfl
@[simp] theorem Port.ending_span0Len (q : Port) : q.ending.span0Len = q.span0Len := rfl
@[simp] theorem Port.ending_span1Addr (q : Port) : q.ending.span1Addr = q.span1Addr := rfl
@[simp] theorem Port.ending_span1Len (q : Port) : q.ending.span1Len = q.span1Len := rfl
@[simp] theorem Port.ending_lcmd (q : Port) : q.ending.lcmd = q.lcmd := rfl
@[simp] theorem Port.ending_larg0 (q : Port) : q.ending.larg0 = q.larg0 := rfl
@[simp] theorem Port.ending_larg1 (q : Port) : q.ending.larg1 = q.larg1 := rfl
@[simp] theorem Port.ending_larg2 (q : Port) : q.ending.larg2 = q.larg2 := rfl
@[simp] theorem Port.ending_larg3 (q : Port) : q.ending.larg3 = q.larg3 := rfl
@[simp] theorem Port.ending_lrd (q : Port) : q.ending.lrd = q.lrd := rfl
@[simp] theorem Port.ending_lwr (q : Port) : q.ending.lwr = q.lwr := rfl
@[simp] theorem Port.ending_grantWr (q : Port) : q.ending.grantWr = q.grantWr := rfl
@[simp] theorem Port.ending_grantN (q : Port) : q.ending.grantN = q.grantN := rfl
@[simp] theorem Port.ending_pos (q : Port) : q.ending.pos = q.pos := rfl
@[simp] theorem Port.ending_elem (q : Port) : q.ending.elem = q.elem := rfl
@[simp] theorem Port.ending_table (q : Port) : q.ending.table = q.table := rfl
@[simp] theorem Port.ending_record (q : Port) : q.ending.record = q.record := rfl

@[simp] theorem Port.raised_cmd (q : Port) (e : ErrCode) (info : Word) :
    (q.raised e info).cmd = q.cmd := rfl
@[simp] theorem Port.raised_ctrl (q : Port) (e : ErrCode) (info : Word) :
    (q.raised e info).ctrl = q.ctrl := rfl
@[simp] theorem Port.raised_errCause (q : Port) (e : ErrCode) (info : Word) :
    (q.raised e info).errCause = e.word := rfl
@[simp] theorem Port.raised_errInfo (q : Port) (e : ErrCode) (info : Word) :
    (q.raised e info).errInfo = info := rfl
@[simp] theorem Port.raised_arg0 (q : Port) (e : ErrCode) (info : Word) :
    (q.raised e info).arg0 = q.arg0 := rfl
@[simp] theorem Port.raised_arg1 (q : Port) (e : ErrCode) (info : Word) :
    (q.raised e info).arg1 = q.arg1 := rfl
@[simp] theorem Port.raised_arg2 (q : Port) (e : ErrCode) (info : Word) :
    (q.raised e info).arg2 = q.arg2 := rfl
@[simp] theorem Port.raised_arg3 (q : Port) (e : ErrCode) (info : Word) :
    (q.raised e info).arg3 = q.arg3 := rfl
@[simp] theorem Port.raised_res0 (q : Port) (e : ErrCode) (info : Word) :
    (q.raised e info).res0 = 0 := rfl
@[simp] theorem Port.raised_res1 (q : Port) (e : ErrCode) (info : Word) :
    (q.raised e info).res1 = q.res1 := rfl
@[simp] theorem Port.raised_res2 (q : Port) (e : ErrCode) (info : Word) :
    (q.raised e info).res2 = q.res2 := rfl
@[simp] theorem Port.raised_segBase (q : Port) (e : ErrCode) (info : Word) :
    (q.raised e info).segBase = q.segBase := rfl
@[simp] theorem Port.raised_slots (q : Port) (e : ErrCode) (info : Word) :
    (q.raised e info).slots = q.slots := rfl
@[simp] theorem Port.raised_bindcfg (q : Port) (e : ErrCode) (info : Word) :
    (q.raised e info).bindcfg = q.bindcfg := rfl
@[simp] theorem Port.raised_span0Addr (q : Port) (e : ErrCode) (info : Word) :
    (q.raised e info).span0Addr = q.span0Addr := rfl
@[simp] theorem Port.raised_span0Len (q : Port) (e : ErrCode) (info : Word) :
    (q.raised e info).span0Len = q.span0Len := rfl
@[simp] theorem Port.raised_span1Addr (q : Port) (e : ErrCode) (info : Word) :
    (q.raised e info).span1Addr = q.span1Addr := rfl
@[simp] theorem Port.raised_span1Len (q : Port) (e : ErrCode) (info : Word) :
    (q.raised e info).span1Len = q.span1Len := rfl
@[simp] theorem Port.raised_lcmd (q : Port) (e : ErrCode) (info : Word) :
    (q.raised e info).lcmd = q.lcmd := rfl
@[simp] theorem Port.raised_larg0 (q : Port) (e : ErrCode) (info : Word) :
    (q.raised e info).larg0 = q.larg0 := rfl
@[simp] theorem Port.raised_larg1 (q : Port) (e : ErrCode) (info : Word) :
    (q.raised e info).larg1 = q.larg1 := rfl
@[simp] theorem Port.raised_larg2 (q : Port) (e : ErrCode) (info : Word) :
    (q.raised e info).larg2 = q.larg2 := rfl
@[simp] theorem Port.raised_larg3 (q : Port) (e : ErrCode) (info : Word) :
    (q.raised e info).larg3 = q.larg3 := rfl
@[simp] theorem Port.raised_lrd (q : Port) (e : ErrCode) (info : Word) :
    (q.raised e info).lrd = q.lrd := rfl
@[simp] theorem Port.raised_lwr (q : Port) (e : ErrCode) (info : Word) :
    (q.raised e info).lwr = q.lwr := rfl
@[simp] theorem Port.raised_grantWr (q : Port) (e : ErrCode) (info : Word) :
    (q.raised e info).grantWr = q.grantWr := rfl
@[simp] theorem Port.raised_grantN (q : Port) (e : ErrCode) (info : Word) :
    (q.raised e info).grantN = q.grantN := rfl
@[simp] theorem Port.raised_pos (q : Port) (e : ErrCode) (info : Word) :
    (q.raised e info).pos = q.pos := rfl
@[simp] theorem Port.raised_elem (q : Port) (e : ErrCode) (info : Word) :
    (q.raised e info).elem = q.elem := rfl
@[simp] theorem Port.raised_table (q : Port) (e : ErrCode) (info : Word) :
    (q.raised e info).table = q.table := rfl
@[simp] theorem Port.raised_record (q : Port) (e : ErrCode) (info : Word) :
    (q.raised e info).record = q.record := rfl

@[simp] theorem Port.accepted_cmd (q : Port) (w : Word) : (q.accepted w).cmd = w := rfl
@[simp] theorem Port.accepted_ctrl (q : Port) (w : Word) : (q.accepted w).ctrl = q.ctrl := rfl
@[simp] theorem Port.accepted_errCause (q : Port) (w : Word) : (q.accepted w).errCause = 0 := rfl
@[simp] theorem Port.accepted_errInfo (q : Port) (w : Word) : (q.accepted w).errInfo = 0 := rfl
@[simp] theorem Port.accepted_arg0 (q : Port) (w : Word) : (q.accepted w).arg0 = q.arg0 := rfl
@[simp] theorem Port.accepted_arg1 (q : Port) (w : Word) : (q.accepted w).arg1 = q.arg1 := rfl
@[simp] theorem Port.accepted_arg2 (q : Port) (w : Word) : (q.accepted w).arg2 = q.arg2 := rfl
@[simp] theorem Port.accepted_arg3 (q : Port) (w : Word) : (q.accepted w).arg3 = q.arg3 := rfl
@[simp] theorem Port.accepted_res0 (q : Port) (w : Word) : (q.accepted w).res0 = q.res0 := rfl
@[simp] theorem Port.accepted_res1 (q : Port) (w : Word) : (q.accepted w).res1 = q.res1 := rfl
@[simp] theorem Port.accepted_res2 (q : Port) (w : Word) : (q.accepted w).res2 = q.res2 := rfl
@[simp] theorem Port.accepted_segBase (q : Port) (w : Word) : (q.accepted w).segBase = q.segBase := rfl
@[simp] theorem Port.accepted_slots (q : Port) (w : Word) : (q.accepted w).slots = q.slots := rfl
@[simp] theorem Port.accepted_bindcfg (q : Port) (w : Word) : (q.accepted w).bindcfg = q.bindcfg := rfl
@[simp] theorem Port.accepted_span0Addr (q : Port) (w : Word) : (q.accepted w).span0Addr = q.span0Addr := rfl
@[simp] theorem Port.accepted_span0Len (q : Port) (w : Word) : (q.accepted w).span0Len = q.span0Len := rfl
@[simp] theorem Port.accepted_span1Addr (q : Port) (w : Word) : (q.accepted w).span1Addr = q.span1Addr := rfl
@[simp] theorem Port.accepted_span1Len (q : Port) (w : Word) : (q.accepted w).span1Len = q.span1Len := rfl
@[simp] theorem Port.accepted_lcmd (q : Port) (w : Word) : (q.accepted w).lcmd = w := rfl
@[simp] theorem Port.accepted_larg0 (q : Port) (w : Word) : (q.accepted w).larg0 = q.arg0 := rfl
@[simp] theorem Port.accepted_larg1 (q : Port) (w : Word) : (q.accepted w).larg1 = q.arg1 := rfl
@[simp] theorem Port.accepted_larg2 (q : Port) (w : Word) : (q.accepted w).larg2 = q.arg2 := rfl
@[simp] theorem Port.accepted_larg3 (q : Port) (w : Word) : (q.accepted w).larg3 = q.arg3 := rfl
@[simp] theorem Port.accepted_lrd (q : Port) (w : Word) : (q.accepted w).lrd = q.lrd := rfl
@[simp] theorem Port.accepted_lwr (q : Port) (w : Word) : (q.accepted w).lwr = q.lwr := rfl
@[simp] theorem Port.accepted_grantWr (q : Port) (w : Word) : (q.accepted w).grantWr = q.grantWr := rfl
@[simp] theorem Port.accepted_grantN (q : Port) (w : Word) : (q.accepted w).grantN = q.grantN := rfl
@[simp] theorem Port.accepted_pos (q : Port) (w : Word) : (q.accepted w).pos = .decode := rfl
@[simp] theorem Port.accepted_elem (q : Port) (w : Word) : (q.accepted w).elem = q.elem := rfl
@[simp] theorem Port.accepted_table (q : Port) (w : Word) : (q.accepted w).table = q.table := rfl
@[simp] theorem Port.accepted_record (q : Port) (w : Word) : (q.accepted w).record = q.record := rfl

end Sys2Proof.Machine
end

