-- ==== Sys2Proof/Laws/Flags.lean ====
section
/-! SUPPORT. The STATUS fields of a port after each update, and the operand names of a port that no STATUS update
touches. -/

namespace Sys2Proof.Machine

theorem Flag.mask_getLsbD (f g : Flag) : f.mask.getLsbD g.bit = decide (f = g) := by
  cases f <;> cases g <;> decide

/-- A field of STATUS after one field is set or cleared. -/
theorem Port.flag_setFlag (q : Port) (f g : Flag) (v : Bool) :
    (q.setFlag f v).flag g = if f = g then v else q.flag g := by
  have hm := Flag.mask_getLsbD f g
  have hg : g.bit < 32 := by cases g <;> decide
  cases v
  · simp only [Port.flag, Port.setFlag, Bool.false_eq_true, if_false, BitVec.getLsbD_and, BitVec.getLsbD_not, hm, hg]
    by_cases h : f = g <;> simp [h]
  · simp only [Port.flag, Port.setFlag, if_true, BitVec.getLsbD_or, hm]
    by_cases h : f = g <;> simp [h]

/-- The fields of STATUS at the end of a command (R94). -/
theorem Port.flag_ending (q : Port) (g : Flag) :
    q.ending.flag g = if g = .busy then false else if g = .done then true else q.flag g := by
  simp only [Port.ending, Port.flag_setFlag]
  cases g <;> simp

/-- The fields of STATUS after `raise` (R203). -/
theorem Port.flag_raised (q : Port) (e : ErrCode) (info : Word) (g : Flag) :
    (q.raised e info).flag g =
      if g = .busy then false else if g = .done then true else if g = .err then true else q.flag g := by
  simp only [Port.raised, Port.flag_ending, Port.flag_setFlag]
  cases g <;> simp <;> rfl

/-- The fields of STATUS after a port accepts a command (R93). -/
theorem Port.flag_accepted (q : Port) (w : Word) (g : Flag) :
    (q.accepted w).flag g =
      if g = .busy then true else if g = .err then false else if g = .done then false else q.flag g := by
  simp only [Port.accepted, Port.flag_setFlag]
  cases g <;> simp <;> rfl

/-- STATUS at the end of a command, as a word. -/
theorem Port.status_ending (q : Port) : q.ending.status = (q.status ||| 0x2#32) &&& ~~~0x1#32 := rfl

/-- STATUS after `raise`, as a word. -/
theorem Port.status_raised (q : Port) (e : ErrCode) (info : Word) :
    (q.raised e info).status = (q.status ||| 0x4#32 ||| 0x2#32) &&& ~~~0x1#32 := rfl

@[simp] theorem Port.setFlag_base (q : Port) (f : Flag) (v : Bool) : (q.setFlag f v).base = q.base := rfl
@[simp] theorem Port.setFlag_nslots (q : Port) (f : Flag) (v : Bool) : (q.setFlag f v).nslots = q.nslots := rfl
@[simp] theorem Port.setFlag_esize (q : Port) (f : Flag) (v : Bool) : (q.setFlag f v).esize = q.esize := rfl
@[simp] theorem Port.setFlag_kind (q : Port) (f : Flag) (v : Bool) : (q.setFlag f v).kind = q.kind := rfl
@[simp] theorem Port.setFlag_proto (q : Port) (f : Flag) (v : Bool) : (q.setFlag f v).proto = q.proto := rfl
@[simp] theorem Port.setFlag_role (q : Port) (f : Flag) (v : Bool) : (q.setFlag f v).role = q.role := rfl
@[simp] theorem Port.setFlag_segLen (q : Port) (f : Flag) (v : Bool) : (q.setFlag f v).segLen = q.segLen := rfl

end Sys2Proof.Machine
end

