-- ==== Sys2Proof/Laws/Memory.lean ====
section
/-! SUPPORT. The laws of MEM: what a byte reads as after a write, and that every operation keeps the canonical
form. -/

namespace Sys2Proof.Machine

theorem Memory.read_erase (m : Memory) (a x : Nat) :
    (m.erase a).read x = if x = a then Memory.blank else m.read x := by
  induction m with
  | nil => simp [Memory.erase, Memory.read]
  | cons c rest ih =>
    simp only [Memory.erase, List.filter_cons] at ih ⊢
    by_cases h : c.1 = a
    · simp only [h, bne_self_eq_false, Bool.false_eq_true, if_false, ih, Memory.read]
      grind
    · simp only [bne_iff_ne, ne_eq, h, not_false_eq_true, if_true, Memory.read, ih]
      grind

theorem Memory.read_insert (m : Memory) (a : Nat) (v : Byte) (x : Nat) :
    (m.erase a |>.insert a v).read x = if x = a then v else m.read x := by
  have key : ∀ l : Memory, (∀ c ∈ l, c.1 ≠ a) → (l.insert a v).read x = if x = a then v else l.read x := by
    intro l
    induction l with
    | nil => intro _; simp only [Memory.insert, Memory.read]; grind
    | cons c rest ih =>
      intro h
      have hc : c.1 ≠ a := h c (by simp)
      have hr := ih (fun d hd => h d (by simp [hd]))
      simp only [Memory.insert]
      split
      · simp only [Memory.read]; grind
      · simp only [Memory.read, hr]; grind
  have he : ∀ c ∈ m.erase a, c.1 ≠ a := by
    intro c hc
    simp only [Memory.erase, List.mem_filter, bne_iff_ne] at hc
    exact hc.2
  rw [key _ he, Memory.read_erase]
  split <;> simp_all

/-- Read after write: the written byte holds the value, every other byte is as it was. -/
theorem Memory.read_write (m : Memory) (a : Nat) (v : Byte) (x : Nat) :
    (m.write a v).read x = if x = a then v else m.read x := by
  unfold Memory.write
  split
  · rename_i h; rw [Memory.read_erase, h]
  · exact Memory.read_insert m a v x

/-- Read after a write of several bytes. -/
theorem Memory.read_writeBytes (bs : List Byte) (m : Memory) (a x : Nat) :
    (m.writeBytes a bs).read x =
      if a ≤ x ∧ x < a + bs.length then bs.getD (x - a) 0 else m.read x := by
  induction bs generalizing m a with
  | nil => simp only [Memory.writeBytes, List.length_nil]; split <;> [omega; rfl]
  | cons b rest ih =>
    simp only [Memory.writeBytes, ih, Memory.read_write, List.length_cons]
    by_cases h1 : x = a
    · subst h1; simp
    · by_cases h2 : a + 1 ≤ x ∧ x < a + 1 + rest.length
      · have : x - a = (x - (a + 1)) + 1 := by omega
        rw [if_pos h2, if_pos (by omega), this, List.getD_cons_succ]
      · rw [if_neg h2, if_neg h1, if_neg (by omega)]

theorem Memory.read_writeBytes_outside (m : Memory) (a : Nat) (bs : List Byte) (x : Nat)
    (h : x < a ∨ a + bs.length ≤ x) : (m.writeBytes a bs).read x = m.read x := by
  rw [Memory.read_writeBytes, if_neg (by omega)]

theorem Memory.readBytes_length (m : Memory) (a n : Nat) : (m.readBytes a n).length = n := by
  simp [Memory.readBytes]

theorem Memory.readBytes_getD (m : Memory) (a n j : Nat) (h : j < n) :
    (m.readBytes a n).getD j 0 = m.read (a + j) := by
  simp [Memory.readBytes, List.getD, h]

theorem leBytes_length (v : Word) : (leBytes v).length = 4 := rfl

/-- The bytes of a word give the word back (R61). -/
theorem leWord_leBytes (v : Word) : leWord (leBytes v) = v := by
  simp only [leWord, leBytes, List.getD_cons_succ, List.getD_cons_zero]
  ext i hi
  simp only [BitVec.getElem_append, BitVec.getElem_extractLsb']
  grind

/-- Two memories that agree on four bytes hold the same word there. -/
theorem Memory.readWord_congr (m m' : Memory) (a : Nat)
    (h : ∀ x, a ≤ x → x < a + 4 → m.read x = m'.read x) : m.readWord a = m'.readWord a := by
  have hb : m.readBytes a 4 = m'.readBytes a 4 := by
    simp only [Memory.readBytes]
    apply List.map_congr_left
    intro j hj
    have := List.mem_range.mp hj
    exact h _ (by omega) (by omega)
  simp only [Memory.readWord, hb]

/-- The word read back after it was stored (R61, R66). -/
theorem Memory.readWord_writeBytes (m : Memory) (a : Nat) (v : Word) :
    (m.writeBytes a (leBytes v)).readWord a = v := by
  have h : (m.writeBytes a (leBytes v)).readBytes a 4 = leBytes v := by
    apply List.ext_getElem
    · simp [Memory.readBytes_length, leBytes_length]
    · intro j h1 h2
      have h3 : j < 4 := h2
      simp only [Memory.readBytes, List.getElem_map, List.getElem_range]
      rw [Memory.read_writeBytes, leBytes_length, if_pos (by omega)]
      rw [List.getD_eq_getElem?_getD, Nat.add_sub_cancel_left, List.getElem?_eq_getElem h2]
      rfl
  rw [Memory.readWord, h, leWord_leBytes]

/-- The canonical form as a statement about each entry and the rest. -/
theorem Memory.wfFrom_cons (c : Host.Cell) (rest : Memory) (lo : Nat) :
    Memory.wfFrom (c :: rest) lo = true ↔ lo ≤ c.1 ∧ c.2 ≠ Memory.blank ∧ Memory.wfFrom rest (c.1 + 1) = true := by
  simp [Memory.wfFrom, and_assoc]

theorem Memory.wfFrom_mono (m : Memory) (lo lo' : Nat) (h : lo' ≤ lo) (hw : m.wfFrom lo = true) :
    m.wfFrom lo' = true := by
  cases m with
  | nil => rfl
  | cons c rest =>
    rw [Memory.wfFrom_cons] at hw ⊢
    exact ⟨by omega, hw.2⟩

theorem Memory.wfFrom_erase (m : Memory) (lo a : Nat) (h : m.wfFrom lo = true) :
    (m.erase a).wfFrom lo = true := by
  induction m generalizing lo with
  | nil => rfl
  | cons c rest ih =>
    rw [Memory.wfFrom_cons] at h
    simp only [Memory.erase, List.filter_cons]
    split
    · rw [Memory.wfFrom_cons]; exact ⟨h.1, h.2.1, ih _ h.2.2⟩
    · exact Memory.wfFrom_mono _ _ _ (by omega) (ih _ h.2.2)

theorem Memory.wfFrom_insert (m : Memory) (lo a : Nat) (v : Byte) (hv : v ≠ Memory.blank) (hlo : lo ≤ a)
    (ha : ∀ c ∈ m, c.1 ≠ a) (h : m.wfFrom lo = true) : (m.insert a v).wfFrom lo = true := by
  induction m generalizing lo with
  | nil => simp [Memory.insert, Memory.wfFrom, hv, hlo]
  | cons c rest ih =>
    rw [Memory.wfFrom_cons] at h
    have hc : c.1 ≠ a := ha c (by simp)
    simp only [Memory.insert]
    split
    · rename_i hlt
      rw [Memory.wfFrom_cons, Memory.wfFrom_cons]
      exact ⟨hlo, hv, by simp only; omega, h.2⟩
    · rw [Memory.wfFrom_cons]
      exact ⟨h.1, h.2.1, ih _ (by omega) (fun d hd => ha d (by simp [hd])) h.2.2⟩

/-- Every byte write keeps the canonical form. -/
theorem Memory.wf_write (m : Memory) (a : Nat) (v : Byte) (h : m.wf = true) : (m.write a v).wf = true := by
  unfold Memory.write Memory.wf at *
  split
  · exact Memory.wfFrom_erase m 0 a h
  · rename_i hv
    refine Memory.wfFrom_insert _ 0 a v hv (Nat.zero_le _) ?_ (Memory.wfFrom_erase m 0 a h)
    intro c hc
    simp only [Memory.erase, List.mem_filter, bne_iff_ne] at hc
    exact hc.2

/-- Every write of several bytes keeps the canonical form. -/
theorem Memory.wf_writeBytes (bs : List Byte) (m : Memory) (a : Nat) (h : m.wf = true) :
    (m.writeBytes a bs).wf = true := by
  induction bs generalizing m a with
  | nil => exact h
  | cons b rest ih => exact ih _ _ (Memory.wf_write m a b h)

end Sys2Proof.Machine
end

