-- ==== Sys2Proof/Laws/Order.lean ====
section
/-! SUPPORT. The laws of the ordering record: clocks only grow, an agent's own events are always ordered before its
next step, and what one agent learns from another. -/

namespace Sys2Proof.Machine

theorem Clock.join_getD (c d : Clock) (b : Nat) :
    (Clock.join c d).getD b 0 = max (c.getD b 0) (d.getD b 0) := by
  induction c generalizing d b with
  | nil => simp [Clock.join]
  | cons x xs ih =>
    cases d with
    | nil => simp [Clock.join]
    | cons y ys =>
      cases b with
      | zero => simp [Clock.join]
      | succ b => simpa [Clock.join] using ih ys b

theorem Order.covers_iff (o : Order) (a : Nat) (e : MemEvent) :
    o.covers a e = true ↔ e.agent = a ∨ e.time ≤ o.time a e.agent := by
  simp [Order.covers]

/-- No write to the byte is unordered: the statement behind `racy`. -/
theorem Order.racy_eq_false (o : Order) (a m : Nat) :
    o.racy a m = false ↔
      ∀ e ∈ o.trace, e.kind.isWrite = true → e.touches m = true → e.agent = a ∨ e.time ≤ o.time a e.agent := by
  simp only [Order.racy, List.any_eq_false, Bool.and_eq_true, Bool.not_eq_true', not_and, Bool.not_eq_false,
    Order.covers_iff]
  grind

theorem Order.clock_set (o : Order) (a : Nat) (c : Clock) (b : Nat) :
    (o.clocks.set a c).getD b [] = if a = b ∧ a < o.clocks.length then c else o.clock b := by
  simp only [Order.clock, List.getD_eq_getElem?_getD, List.getElem?_set]
  grind

@[simp] theorem Order.record_trace (o : Order) (a : Nat) (k : EventKind) (x n : Nat) :
    (o.record a k x n).trace =
      { agent := a, time := o.time a a + 1, kind := k, addr := x, len := n, seen := o.clock a } :: o.trace := rfl

@[simp] theorem Order.record_released (o : Order) (a : Nat) (k : EventKind) (x n : Nat) :
    (o.record a k x n).released = o.released := rfl

@[simp] theorem Order.record_finished (o : Order) (a : Nat) (k : EventKind) (x n : Nat) :
    (o.record a k x n).finished = o.finished := rfl

@[simp] theorem Order.learn_trace (o : Order) (a : Nat) (c : Clock) : (o.learn a c).trace = o.trace := rfl
@[simp] theorem Order.learn_released (o : Order) (a : Nat) (c : Clock) : (o.learn a c).released = o.released := rfl
@[simp] theorem Order.learn_finished (o : Order) (a : Nat) (c : Clock) : (o.learn a c).finished = o.finished := rfl
@[simp] theorem Order.publish_trace (o : Order) (a x : Nat) : (o.publish a x).trace = o.trace := rfl
@[simp] theorem Order.publish_clocks (o : Order) (a x : Nat) : (o.publish a x).clocks = o.clocks := rfl
@[simp] theorem Order.publish_finished (o : Order) (a x : Nat) : (o.publish a x).finished = o.finished := rfl
@[simp] theorem Order.overwrite_trace (o : Order) (x n : Nat) : (o.overwrite x n).trace = o.trace := rfl
@[simp] theorem Order.overwrite_clocks (o : Order) (x n : Nat) : (o.overwrite x n).clocks = o.clocks := rfl
@[simp] theorem Order.overwrite_finished (o : Order) (x n : Nat) : (o.overwrite x n).finished = o.finished := rfl
@[simp] theorem Order.finish_trace (o : Order) (p : Nat) : (o.finish p).trace = o.trace := rfl
@[simp] theorem Order.finish_clocks (o : Order) (p : Nat) : (o.finish p).clocks = o.clocks := rfl
@[simp] theorem Order.finish_released (o : Order) (p : Nat) : (o.finish p).released = o.released := rfl
@[simp] theorem Order.publish_time (o : Order) (a x b c : Nat) : (o.publish a x).time b c = o.time b c := rfl
@[simp] theorem Order.overwrite_time (o : Order) (x n b c : Nat) : (o.overwrite x n).time b c = o.time b c := rfl
@[simp] theorem Order.finish_time (o : Order) (p b c : Nat) : (o.finish p).time b c = o.time b c := rfl
@[simp] theorem Order.publish_racy (o : Order) (a x b m : Nat) : (o.publish a x).racy b m = o.racy b m := rfl
@[simp] theorem Order.overwrite_racy (o : Order) (x n b m : Nat) : (o.overwrite x n).racy b m = o.racy b m := rfl
@[simp] theorem Order.finish_racy (o : Order) (p b m : Nat) : (o.finish p).racy b m = o.racy b m := rfl
@[simp] theorem Order.publish_dataRacy (o : Order) (a x b m : Nat) : (o.publish a x).dataRacy b m = o.dataRacy b m := rfl
@[simp] theorem Order.overwrite_dataRacy (o : Order) (x n b m : Nat) :
    (o.overwrite x n).dataRacy b m = o.dataRacy b m := rfl
@[simp] theorem Order.finish_dataRacy (o : Order) (p b m : Nat) : (o.finish p).dataRacy b m = o.dataRacy b m := rfl

@[simp] theorem Order.record_foreseen (o : Order) (a : Nat) (k : EventKind) (x n : Nat) : (o.record a k x n).foreseen = o.foreseen := rfl
@[simp] theorem Order.record_plan (o : Order) (a : Nat) (k : EventKind) (x n : Nat) : (o.record a k x n).plan = o.plan := rfl
@[simp] theorem Order.record_known (o : Order) (a : Nat) (k : EventKind) (x n : Nat) : (o.record a k x n).known = o.known := rfl
@[simp] theorem Order.learn_foreseen (o : Order) (a : Nat) (c : Clock) : (o.learn a c).foreseen = o.foreseen := rfl
@[simp] theorem Order.learn_plan (o : Order) (a : Nat) (c : Clock) : (o.learn a c).plan = o.plan := rfl
@[simp] theorem Order.learn_known (o : Order) (a : Nat) (c : Clock) : (o.learn a c).known = o.known := rfl
@[simp] theorem Order.publish_foreseen (o : Order) (a x : Nat) : (o.publish a x).foreseen = o.foreseen := rfl
@[simp] theorem Order.publish_plan (o : Order) (a x : Nat) : (o.publish a x).plan = o.plan := rfl
@[simp] theorem Order.publish_known (o : Order) (a x : Nat) : (o.publish a x).known = o.known := rfl
@[simp] theorem Order.acquire_foreseen (o : Order) (a x : Nat) : (o.acquire a x).foreseen = o.foreseen := rfl
@[simp] theorem Order.acquire_plan (o : Order) (a x : Nat) : (o.acquire a x).plan = o.plan := rfl
@[simp] theorem Order.acquire_known (o : Order) (a x : Nat) : (o.acquire a x).known = o.known := rfl
@[simp] theorem Order.overwrite_foreseen (o : Order) (x n : Nat) : (o.overwrite x n).foreseen = o.foreseen := rfl
@[simp] theorem Order.overwrite_plan (o : Order) (x n : Nat) : (o.overwrite x n).plan = o.plan := rfl
@[simp] theorem Order.overwrite_known (o : Order) (x n : Nat) : (o.overwrite x n).known = o.known := rfl
@[simp] theorem Order.finish_foreseen (o : Order) (p : Nat) : (o.finish p).foreseen = o.foreseen := rfl
@[simp] theorem Order.finish_plan (o : Order) (p : Nat) : (o.finish p).plan = o.plan := rfl
@[simp] theorem Order.finish_known (o : Order) (p : Nat) : (o.finish p).known = o.known := rfl
@[simp] theorem Order.accept_foreseen (o : Order) (p : Nat) (b : Bool) : (o.accept p b).foreseen = o.foreseen := rfl
@[simp] theorem Order.accept_plan (o : Order) (p : Nat) (b : Bool) : (o.accept p b).plan = o.plan := rfl
@[simp] theorem Order.seen_foreseen (o : Order) (p : Nat) : (o.seen p).foreseen = o.foreseen := rfl
@[simp] theorem Order.seen_plan (o : Order) (p : Nat) : (o.seen p).plan = o.plan := rfl
@[simp] theorem Order.accept_trace (o : Order) (p : Nat) (b : Bool) : (o.accept p b).trace = o.trace := rfl
@[simp] theorem Order.seen_trace (o : Order) (p : Nat) : (o.seen p).trace = o.trace := rfl

/-- A command knows of every port what the host knew when it wrote CMD (R218). -/
theorem Order.knows_accept (o : Order) (p r : Nat) (b : Bool) (h : portAgent p < o.known.length) :
    (o.accept p b).knows (portAgent p) r = o.knows hostAgent r := by
  simp [Order.knows, Order.accept, List.getD_eq_getElem?_getD, h]

/-- Any other agent then knows of the port that it has accepted a command: nothing, or only its rebinding (R218). -/
theorem Order.knows_accept_of_ne (o : Order) (a p : Nat) (b : Bool) (ha : a ≠ portAgent p) (hl : a < o.known.length)
    (hp : p < (o.known.getD a []).length) : (o.accept p b).knows a p = (o.knows a p).accepted b := by
  simp only [List.getD_eq_getElem?_getD, List.getElem?_eq_getElem hl, Option.getD_some] at hp
  simp [Order.knows, Order.accept, List.getD_eq_getElem?_getD, Ne.symm ha, hl, hp]

/-- The host knows idle the port whose STATUS it has just read with BUSY = 0 (R218). -/
theorem Order.knows_seen (o : Order) (p : Nat) (h : hostAgent < o.known.length)
    (hp : p < (o.known.getD hostAgent []).length) : (o.seen p).knows hostAgent p = .idle := by
  simp only [List.getD_eq_getElem?_getD, List.getElem?_eq_getElem h, Option.getD_some] at hp
  simp [Order.knows, Order.seen, List.getD_eq_getElem?_getD, h, hp]

@[simp] theorem Order.loaded_trace (o : Order) (a x : Nat) :
    (o.loaded a x).trace = (o.record a .load x 4).trace := by unfold Order.loaded; split <;> rfl
@[simp] theorem Order.loaded_released (o : Order) (a x : Nat) : (o.loaded a x).released = o.released := by
  unfold Order.loaded; split <;> rfl
@[simp] theorem Order.loaded_finished (o : Order) (a x : Nat) : (o.loaded a x).finished = o.finished := by
  unfold Order.loaded; split <;> rfl
@[simp] theorem Order.loaded_known (o : Order) (a x : Nat) : (o.loaded a x).known = o.known := by
  unfold Order.loaded; split <;> rfl
@[simp] theorem Order.loaded_plan (o : Order) (a x : Nat) : (o.loaded a x).plan = o.plan := by
  unfold Order.loaded; split <;> rfl
@[simp] theorem Order.loaded_foreseen (o : Order) (a x : Nat) : (o.loaded a x).foreseen = o.foreseen := by
  unfold Order.loaded; split <;> rfl

/-- A load is clean where no byte of its word is open. -/
theorem Order.loadClean_iff (o : Order) (a x : Nat) :
    o.loadClean a x = true ↔ ∀ j, j < 4 → (o.acquire a x).loadOpen a (x + j) = false := by
  simp [Order.loadClean]

/-- Edge 2 of R74 holds for a clean load. -/
theorem Order.loaded_clean (o : Order) (a x : Nat) (h : o.loadClean a x = true) :
    o.loaded a x = (o.record a .load x 4).acquire a x := if_pos h

theorem Order.beforeLoad_clean (o : Order) (a x : Nat) (h : o.loadClean a x = true) :
    o.beforeLoad a x = o.acquire a x := if_pos h

/-- A load in a race learns nothing (R74 edge 2 does not hold for it). -/
theorem Order.loaded_open (o : Order) (a x : Nat) (h : o.loadClean a x = false) :
    o.loaded a x = o.record a .load x 4 := by rw [Order.loaded, h]; rfl

theorem Order.beforeLoad_open (o : Order) (a x : Nat) (h : o.loadClean a x = false) : o.beforeLoad a x = o := by
  rw [Order.beforeLoad, h]; rfl

/-- The store an index word's value came from, after a new publish. -/
theorem Order.release_publish (o : Order) (a x y : Nat) :
    (o.publish a x).release y = if y = x then o.clock a else o.release y := by
  simp only [Order.release, Order.publish]
  split
  · rename_i h; subst h; simp
  · rename_i h
    have hne : (y == x) = false := by simp [h]
    simp only [List.lookup_cons, hne]
    congr 1
    induction o.released with
    | nil => rfl
    | cons r rest ih =>
      obtain ⟨k, c⟩ := r
      by_cases hr : k = x
      · subst hr
        simp only [List.filter_cons, bne_self_eq_false, Bool.false_eq_true, if_false, ih,
          List.lookup_cons, hne]
      · simp only [List.filter_cons, bne_iff_ne, ne_eq, hr, not_false_eq_true, if_true, List.lookup_cons, ih]

/-- Time after an agent learns a clock. -/
theorem Order.time_learn (o : Order) (a : Nat) (c : Clock) (b d : Nat) :
    (o.learn a c).time b d =
      if a = b ∧ a < o.clocks.length then max (o.time b d) (c.getD d 0) else o.time b d := by
  simp only [Order.time, Order.clock, Order.learn]
  rw [Order.clock_set]
  split
  · rename_i h; obtain ⟨rfl, h⟩ := h; rw [Clock.join_getD]
  · rfl

/-- Time after an agent's own event. -/
theorem Order.time_record (o : Order) (a : Nat) (k : EventKind) (x n b d : Nat) :
    (o.record a k x n).time b d =
      if a = b ∧ a < o.clocks.length ∧ a = d ∧ a < (o.clock a).length then o.time a a + 1 else o.time b d := by
  have hc : (o.record a k x n).clock b =
      if a = b ∧ a < o.clocks.length then (o.clock a).set a (o.time a a + 1) else o.clock b :=
    Order.clock_set o a _ b
  unfold Order.time at hc ⊢
  rw [hc]
  by_cases h : a = b ∧ a < o.clocks.length
  · rw [if_pos h]
    obtain ⟨rfl, h⟩ := h
    simp only [List.getD_eq_getElem?_getD, List.getElem?_set]
    grind
  · rw [if_neg h, if_neg (by tauto)]

theorem Order.time_learn_le (o : Order) (a : Nat) (c : Clock) (b d : Nat) :
    o.time b d ≤ (o.learn a c).time b d := by
  rw [Order.time_learn]; split <;> omega

/-- An agent's own event leaves what is ordered before its next step as it was. -/
theorem Order.covers_record_self (o : Order) (a : Nat) (k : EventKind) (x n : Nat) (e : MemEvent) :
    (o.record a k x n).covers a e = o.covers a e := by
  by_cases he : e.agent = a
  · simp [Order.covers, he]
  · have ht : (o.record a k x n).time a e.agent = o.time a e.agent := by
      rw [Order.time_record, if_neg]
      intro hh; exact he hh.2.2.1.symm
    simp [Order.covers, ht]

/-- An agent's own event leaves what it may read without a race as it was. -/
theorem Order.racy_record_self (o : Order) (a : Nat) (k : EventKind) (x n m : Nat) :
    (o.record a k x n).racy a m = o.racy a m := by
  simp only [Order.racy, Order.record_trace, List.any_cons, Order.covers_record_self]
  simp [Order.covers]

/-- An agent's own event leaves where it may store without a race as it was. -/
theorem Order.dataRacy_record_self (o : Order) (a : Nat) (k : EventKind) (x n m : Nat) :
    (o.record a k x n).dataRacy a m = o.dataRacy a m := by
  simp only [Order.dataRacy, Order.record_trace, List.any_cons, Order.covers_record_self]
  simp [Order.covers]

/-- What is ordered before an agent's next step stays so when any agent learns more. -/
theorem Order.covers_learn (o : Order) (a : Nat) (c : Clock) (b : Nat) (e : MemEvent) (h : o.covers b e = true) :
    (o.learn a c).covers b e = true := by
  rw [Order.covers_iff] at h ⊢
  exact h.imp_right (fun h1 => le_trans h1 (Order.time_learn_le o a c b e.agent))

/-- Learning never makes a race. -/
theorem Order.racy_learn_false (o : Order) (a : Nat) (c : Clock) (b m : Nat) (h : o.racy b m = false) :
    (o.learn a c).racy b m = false := by
  rw [Order.racy_eq_false] at h ⊢
  intro e he hw ht
  rcases h e he hw ht with h1 | h1
  · exact Or.inl h1
  · exact Or.inr (le_trans h1 (Order.time_learn_le o a c b e.agent))

theorem Order.dataRacy_learn_false (o : Order) (a : Nat) (c : Clock) (b m : Nat) (h : o.dataRacy b m = false) :
    (o.learn a c).dataRacy b m = false := by
  simp only [Order.dataRacy, Order.learn_trace, List.any_eq_false, Bool.and_eq_true, Bool.not_eq_true', not_and,
    Bool.not_eq_false] at h ⊢
  exact fun e he hk => Order.covers_learn o a c b e (h e he hk)

theorem Order.dataRacy_acquire_false (o : Order) (a x m : Nat) (h : o.dataRacy a m = false) :
    (o.acquire a x).dataRacy a m = false := Order.dataRacy_learn_false o a _ a m h

/-- The agent's own event before an acquire leaves where its loads race as it was. -/
theorem Order.dataRacy_acquire_record (o : Order) (a : Nat) (k : EventKind) (x n y m : Nat) :
    ((o.record a k x n).acquire a y).dataRacy a m = (o.acquire a y).dataRacy a m := by
  have hc : ∀ e, ((o.record a k x n).acquire a y).covers a e = (o.acquire a y).covers a e := by
    intro e
    by_cases he : e.agent = a
    · simp [Order.covers, he]
    · have hl : (o.record a k x n).clocks.length = o.clocks.length := by simp [Order.record]
      have ht : (o.record a k x n).time a e.agent = o.time a e.agent := by
        rw [Order.time_record, if_neg]
        intro hh; exact he hh.2.2.1.symm
      have : ((o.record a k x n).acquire a y).time a e.agent = (o.acquire a y).time a e.agent := by
        simp only [Order.acquire, Order.time_learn, ht, hl, Order.release, Order.record_released]
      simp [Order.covers, this]
  simp only [Order.dataRacy, hc]
  simp [Order.acquire, Order.covers]

/-- With no unordered write to a byte there is no unordered data write. -/
theorem Order.dataRacy_of_racy (o : Order) (a m : Nat) (h : o.racy a m = false) : o.dataRacy a m = false := by
  simp only [Order.racy, Order.dataRacy, List.any_eq_false, Bool.and_eq_true, not_and] at h ⊢
  intro e he hk
  have hw : e.kind = .write := by simpa using hk.1
  exact h e he ⟨by rw [hw]; rfl, hk.2⟩

@[simp] theorem Order.acquire_foresees (o : Order) (a x m : Nat) : (o.acquire a x).foresees m = o.foresees m := rfl

@[simp] theorem Order.record_lateAt (o : Order) (a : Nat) (k : EventKind) (x n m : Nat) :
    (o.record a k x n).lateAt m = o.lateAt m := rfl

@[simp] theorem Order.acquire_lateAt (o : Order) (a x m : Nat) : (o.acquire a x).lateAt m = o.lateAt m := rfl

/-- What the next event is foreseen to race with is among what the step is. -/
theorem Order.lateAt_of_foresees (o : Order) (m : Nat) (h : o.foresees m = true) : o.lateAt m = true := by
  simp only [Order.foresees, List.contains_iff_mem] at h
  exact List.any_eq_true.mpr ⟨_, h, by simp⟩

/-- A byte that no access may race at is in no race with an earlier write, and in none with a later one. -/
theorem Order.mayRace_eq_false (o : Order) (a m : Nat) :
    o.mayRace a m = false ↔ o.racy a m = false ∧ o.lateAt m = false := by
  simp [Order.mayRace]

/-- A read at a byte that no access may race at returns MEM's byte. -/
theorem Order.readOpen_of_mayRace (o : Order) (a m : Nat) (h : o.mayRace a m = false) : o.readOpen a m = false := by
  obtain ⟨h1, h2⟩ := (Order.mayRace_eq_false o a m).mp h
  have h3 : o.foresees m = false := by
    by_contra hc
    rw [Order.lateAt_of_foresees o m (by simpa using hc)] at h2
    cases h2
  simp [Order.readOpen, h1, h3]

/-- An agent's own event leaves where it may race as it was. -/
theorem Order.mayRace_record_self (o : Order) (a : Nat) (k : EventKind) (x n m : Nat) :
    (o.record a k x n).mayRace a m = o.mayRace a m := by
  simp only [Order.mayRace, Order.racy_record_self, Order.record_lateAt]

theorem Order.mayRace_acquire_false (o : Order) (a x m : Nat) (h : o.mayRace a m = false) :
    (o.acquire a x).mayRace a m = false := by
  rw [Order.mayRace_eq_false] at h ⊢
  exact ⟨Order.racy_learn_false o a _ a m h.1, h.2⟩

theorem Order.racy_acquire_false (o : Order) (a x m : Nat) (h : o.racy a m = false) :
    (o.acquire a x).racy a m = false := Order.racy_learn_false o a _ a m h

/-- Learning never opens a byte of a load. -/
theorem Order.loadOpen_of_acquire (o : Order) (a x m : Nat) (h : (o.acquire a x).loadOpen a m = true) :
    o.loadOpen a m = true := by
  rw [Order.loadOpen, Bool.or_eq_true] at h ⊢
  exact h.imp_left fun h1 => by
    by_contra h2
    rw [Order.dataRacy_acquire_false o a x m (by simpa using h2)] at h1
    cases h1

/-- A byte that is open although the load counted as ordered after its store is open in the load (R74, R77). -/
theorem Order.loadOpen_beforeLoad (o : Order) (a x m : Nat) (h : (o.acquire a x).loadOpen a m = true) :
    (o.beforeLoad a x).loadOpen a m = true := by
  cases hc : o.loadClean a x
  · rw [Order.beforeLoad_open _ _ _ hc]; exact Order.loadOpen_of_acquire o a x m h
  · rw [Order.beforeLoad_clean _ _ _ hc]; exact h

end Sys2Proof.Machine
end

