-- ==== Sys2Proof/Laws/Ops.lean ====
section
/-! SUPPORT. One lemma per shared operation that says what it does: the ports, the memory events, the micro-steps
all commands share, and running a port. -/

namespace Sys2Proof.Machine

/-! ## Ports -/

theorem State.port_set_same (s : State) (p : Nat) (q : Port) (h : p < s.ports.length) :
    (s.ports.set p q).getD p Port.reset = q := by
  simp [List.getD_eq_getElem?_getD, h]

theorem State.port_set_ne (s : State) (p p' : Nat) (q : Port) (h : p' ≠ p) :
    (s.ports.set p q).getD p' Port.reset = s.port p' := by
  simp only [State.port, List.getD_eq_getElem?_getD, List.getElem?_set]
  grind

@[simp] theorem State.here_setHere (s : State) (q : Port) (h : s.cur < s.ports.length) :
    (s.setHere q).here = q := State.port_set_same s s.cur q h

theorem State.port_setHere_ne (s : State) (q : Port) (p : Nat) (h : p ≠ s.cur) :
    (s.setHere q).port p = s.port p := State.port_set_ne s s.cur p q h

@[simp] theorem State.setHere_length (s : State) (q : Port) : (s.setHere q).ports.length = s.ports.length := by
  simp

@[simp] theorem State.here_goto (s : State) (pos : EnginePos) (h : s.cur < s.ports.length) :
    (s.goto pos).here = { s.here with pos := pos } := State.here_setHere s _ h

theorem State.port_goto_ne (s : State) (pos : EnginePos) (p : Nat) (h : p ≠ s.cur) :
    (s.goto pos).port p = s.port p := State.port_setHere_ne s _ p h

@[simp] theorem State.here_ended (s : State) (q : Port) (h : s.cur < s.ports.length) :
    (s.ended q).here = { q with pos := .idle, elem := [], table := [], record := [] } :=
  State.here_setHere s _ h

theorem State.port_ended_ne (s : State) (q : Port) (p : Nat) (h : p ≠ s.cur) :
    (s.ended q).port p = s.port p := State.port_setHere_ne s _ p h

@[simp] theorem State.here_finishStep (s : State) (q : Port) (h : s.cur < s.ports.length) :
    (s.finishStep q).here = { q.ending with pos := .idle, elem := [], table := [], record := [] } :=
  State.here_setHere s _ h

@[simp] theorem State.here_raise (s : State) (e : ErrCode) (info : Word) (h : s.cur < s.ports.length) :
    (s.raise e info).here =
      { s.here.raised e info with pos := .idle, elem := [], table := [], record := [] } :=
  State.here_setHere s _ h

@[simp] theorem State.here_readEvent (s : State) (a : Nat) (k : EventKind) (x n : Nat) :
    (s.readEvent a k x n).here = s.here := rfl
@[simp] theorem State.port_readEvent (s : State) (a : Nat) (k : EventKind) (x n p : Nat) :
    (s.readEvent a k x n).port p = s.port p := rfl
@[simp] theorem State.here_writeEvent (s : State) (a x : Nat) (f : Nat → Bool) (bs : List Byte) : (s.writeEvent a x f bs).here = s.here := rfl
@[simp] theorem State.port_writeEvent (s : State) (a x : Nat) (f : Nat → Bool) (bs : List Byte) (p : Nat) : (s.writeEvent a x f bs).port p = s.port p := rfl
@[simp] theorem State.here_loadEvent (s : State) (a x : Nat) : (s.loadEvent a x).here = s.here := rfl
@[simp] theorem State.port_loadEvent (s : State) (a x : Nat) (p : Nat) : (s.loadEvent a x).port p = s.port p := rfl
@[simp] theorem State.here_storeEvent (s : State) (a x : Nat) (k : EventKind) (b : Nat → Bool) (v : Word) : (s.storeEvent a x k b v).here = s.here := rfl
@[simp] theorem State.port_storeEvent (s : State) (a x : Nat) (k : EventKind) (b : Nat → Bool) (v : Word) (p : Nat) : (s.storeEvent a x k b v).port p = s.port p := rfl

/-! ## The shared micro-steps -/

/-- The decode step (R93): to `raise` where a check fails, otherwise on. -/
theorem State.decodeStep_some (s : State) (e : ErrCode) (info : Word) (next : EnginePos) :
    s.decodeStep (some (e, info)) next = s.goto (.raising e info) := rfl

@[simp] theorem State.decodeStep_none (s : State) (next : EnginePos) : s.decodeStep none next = s.goto next := rfl

@[simp] theorem State.loadRdStep_cfg (s : State)  :
    (s.loadRdStep).cfg = s.cfg := rfl
@[simp] theorem State.loadRdStep_mem (s : State)  :
    (s.loadRdStep).mem = s.mem := rfl
@[simp] theorem State.loadRdStep_cur (s : State)  :
    (s.loadRdStep).cur = s.cur := rfl
@[simp] theorem State.loadRdStep_agenda (s : State)  :
    (s.loadRdStep).agenda = s.agenda := rfl
@[simp] theorem State.loadRdStep_regData (s : State)  :
    (s.loadRdStep).regData = s.regData := rfl
@[simp] theorem State.loadRdStep_memData (s : State)  :
    (s.loadRdStep).memData = s.memData := rfl
@[simp] theorem State.loadRdStep_order (s : State)  :
    (s.loadRdStep).order = s.order.loaded s.agent s.here.riAddr := rfl
@[simp] theorem State.loadRdStep_free (s : State)  :
    (s.loadRdStep).free = s.free + 4 := rfl

/-- LoadIndices, first event (R131): LRD holds the word loaded from RI. -/
@[simp] theorem State.here_loadRdStep (s : State) (h : s.cur < s.ports.length) :
    s.loadRdStep.here = { s.here with lrd := s.loadedWord s.agent s.here.riAddr, pos := .loadWr } :=
  State.here_setHere (s.loadEvent s.agent s.here.riAddr) _ h

theorem State.port_loadRdStep_ne (s : State) (p : Nat) (h : p ≠ s.cur) : s.loadRdStep.port p = s.port p :=
  State.port_setHere_ne (s.loadEvent s.agent s.here.riAddr) _ p h

/-- The port after the load of write_index, before its checks (R131). -/
def State.loadedWr (s : State) : Port := { s.here with lwr := s.loadedWord s.agent s.here.wiAddr }

/-- Where LoadIndices leads (R131): to `raise` on an index out of range, otherwise on. -/
def State.afterLoads (s : State) (next : Port → EnginePos) : EnginePos :=
  match s.loadedWr.indexError with
  | some (e, info) => .raising e info
  | none => next s.loadedWr

/-- LoadIndices, second event (R131), as one update. -/
theorem State.loadWrStep_eq (s : State) (next : Port → EnginePos) :
    s.loadWrStep next =
      (s.loadEvent s.agent s.here.wiAddr).setHere { s.loadedWr with pos := s.afterLoads next } := by
  simp only [State.loadWrStep, State.afterLoads, State.loadedWr]
  split
  all_goals simp_all

/-- LoadIndices checks read_index, then write_index (R131, R205). -/
theorem Port.indexError_none (q : Port) :
    q.indexError = none ↔ q.lrd.toNat < q.nslots ∧ q.lwr.toNat < q.nslots := by
  simp only [Port.indexError, firstError]
  by_cases h1 : q.nslots ≤ q.lrd.toNat <;> by_cases h2 : q.nslots ≤ q.lwr.toNat
  all_goals (simp [h1, h2]; try omega)

@[simp] theorem State.loadWrStep_cfg (s : State) (next : Port → EnginePos) :
    (s.loadWrStep next).cfg = s.cfg := by
  rw [State.loadWrStep_eq]; rfl
@[simp] theorem State.loadWrStep_mem (s : State) (next : Port → EnginePos) :
    (s.loadWrStep next).mem = s.mem := by
  rw [State.loadWrStep_eq]; rfl
@[simp] theorem State.loadWrStep_cur (s : State) (next : Port → EnginePos) :
    (s.loadWrStep next).cur = s.cur := by
  rw [State.loadWrStep_eq]; rfl
@[simp] theorem State.loadWrStep_agenda (s : State) (next : Port → EnginePos) :
    (s.loadWrStep next).agenda = s.agenda := by
  rw [State.loadWrStep_eq]; rfl
@[simp] theorem State.loadWrStep_regData (s : State) (next : Port → EnginePos) :
    (s.loadWrStep next).regData = s.regData := by
  rw [State.loadWrStep_eq]; rfl
@[simp] theorem State.loadWrStep_memData (s : State) (next : Port → EnginePos) :
    (s.loadWrStep next).memData = s.memData := by
  rw [State.loadWrStep_eq]; rfl
@[simp] theorem State.loadWrStep_order (s : State) (next : Port → EnginePos) :
    (s.loadWrStep next).order = s.order.loaded s.agent s.here.wiAddr := by
  rw [State.loadWrStep_eq]; rfl
@[simp] theorem State.loadWrStep_free (s : State) (next : Port → EnginePos) :
    (s.loadWrStep next).free = s.free + 4 := by
  rw [State.loadWrStep_eq]; rfl

@[simp] theorem State.here_loadWrStep (s : State) (next : Port → EnginePos) (h : s.cur < s.ports.length) :
    (s.loadWrStep next).here = { s.loadedWr with pos := s.afterLoads next } := by
  rw [State.loadWrStep_eq]; exact State.here_setHere (s.loadEvent s.agent s.here.wiAddr) _ h

theorem State.port_loadWrStep_ne (s : State) (next : Port → EnginePos) (p : Nat) (h : p ≠ s.cur) :
    (s.loadWrStep next).port p = s.port p := by
  rw [State.loadWrStep_eq]; exact State.port_setHere_ne (s.loadEvent s.agent s.here.wiAddr) _ p h

@[simp] theorem State.loadWrStep_length (s : State) (next : Port → EnginePos) :
    (s.loadWrStep next).ports.length = s.ports.length := by
  rw [State.loadWrStep_eq]; simp

@[simp] theorem State.copyReadStep_cfg (s : State) (x n : Nat) (pos : EnginePos) :
    (s.copyReadStep x n pos).cfg = s.cfg := rfl
@[simp] theorem State.copyReadStep_mem (s : State) (x n : Nat) (pos : EnginePos) :
    (s.copyReadStep x n pos).mem = s.mem := rfl
@[simp] theorem State.copyReadStep_cur (s : State) (x n : Nat) (pos : EnginePos) :
    (s.copyReadStep x n pos).cur = s.cur := rfl
@[simp] theorem State.copyReadStep_agenda (s : State) (x n : Nat) (pos : EnginePos) :
    (s.copyReadStep x n pos).agenda = s.agenda := rfl
@[simp] theorem State.copyReadStep_regData (s : State) (x n : Nat) (pos : EnginePos) :
    (s.copyReadStep x n pos).regData = s.regData := rfl
@[simp] theorem State.copyReadStep_memData (s : State) (x n : Nat) (pos : EnginePos) :
    (s.copyReadStep x n pos).memData = s.memData := rfl
@[simp] theorem State.copyReadStep_order (s : State) (x n : Nat) (pos : EnginePos) :
    (s.copyReadStep x n pos).order = s.order.record s.agent .read x n := rfl
@[simp] theorem State.copyReadStep_free (s : State) (x n : Nat) (pos : EnginePos) :
    (s.copyReadStep x n pos).free = s.free + n := rfl

/-- The read event of a CopyElem (R9): the engine holds the bytes read. -/
@[simp] theorem State.here_copyReadStep (s : State) (x n : Nat) (pos : EnginePos) (h : s.cur < s.ports.length) :
    (s.copyReadStep x n pos).here = { s.here with elem := s.seenBytes s.agent x n, pos := pos } :=
  State.here_setHere (s.readEvent s.agent .read x n) _ h

theorem State.port_copyReadStep_ne (s : State) (x n : Nat) (pos : EnginePos) (p : Nat) (h : p ≠ s.cur) :
    (s.copyReadStep x n pos).port p = s.port p := State.port_setHere_ne (s.readEvent s.agent .read x n) _ p h

@[simp] theorem State.copyReadStep_length (s : State) (x n : Nat) (pos : EnginePos) :
    (s.copyReadStep x n pos).ports.length = s.ports.length := List.length_set ..

@[simp] theorem State.copyWriteStep_cfg (s : State) (x : Nat) (b : Nat → Bool) (pos : EnginePos) :
    (s.copyWriteStep x b pos).cfg = s.cfg := rfl
@[simp] theorem State.copyWriteStep_mem (s : State) (x : Nat) (b : Nat → Bool) (pos : EnginePos) :
    (s.copyWriteStep x b pos).mem = s.mem.writeBytes x (s.landedBytes x (fun m => b m || s.order.racy s.agent m) s.here.elem) := rfl
@[simp] theorem State.copyWriteStep_cur (s : State) (x : Nat) (b : Nat → Bool) (pos : EnginePos) :
    (s.copyWriteStep x b pos).cur = s.cur := rfl
@[simp] theorem State.copyWriteStep_agenda (s : State) (x : Nat) (b : Nat → Bool) (pos : EnginePos) :
    (s.copyWriteStep x b pos).agenda = s.agenda := rfl
@[simp] theorem State.copyWriteStep_regData (s : State) (x : Nat) (b : Nat → Bool) (pos : EnginePos) :
    (s.copyWriteStep x b pos).regData = s.regData := rfl
@[simp] theorem State.copyWriteStep_memData (s : State) (x : Nat) (b : Nat → Bool) (pos : EnginePos) :
    (s.copyWriteStep x b pos).memData = s.memData := rfl
@[simp] theorem State.copyWriteStep_order (s : State) (x : Nat) (b : Nat → Bool) (pos : EnginePos) :
    (s.copyWriteStep x b pos).order = (s.order.record s.agent .write x s.here.elem.length).overwrite x s.here.elem.length := rfl
@[simp] theorem State.copyWriteStep_free (s : State) (x : Nat) (b : Nat → Bool) (pos : EnginePos) :
    (s.copyWriteStep x b pos).free = s.free + s.here.elem.length := rfl

/-- The write event of a CopyElem (R9): only the engine position of the port changes. -/
@[simp] theorem State.here_copyWriteStep (s : State) (x : Nat) (b : Nat → Bool) (pos : EnginePos)
    (h : s.cur < s.ports.length) : (s.copyWriteStep x b pos).here = { s.here with pos := pos } :=
  State.here_setHere (s.writeEvent s.agent x b s.here.elem) _ h

theorem State.port_copyWriteStep_ne (s : State) (x : Nat) (b : Nat → Bool) (pos : EnginePos) (p : Nat)
    (h : p ≠ s.cur) : (s.copyWriteStep x b pos).port p = s.port p :=
  State.port_setHere_ne (s.writeEvent s.agent x b s.here.elem) _ p h

@[simp] theorem State.copyWriteStep_length (s : State) (x : Nat) (b : Nat → Bool) (pos : EnginePos) :
    (s.copyWriteStep x b pos).ports.length = s.ports.length := List.length_set ..

@[simp] theorem State.publishStep_cfg (s : State) (x v : Nat) :
    (s.publishStep x v).cfg = s.cfg := rfl
@[simp] theorem State.publishStep_cur (s : State) (x v : Nat) :
    (s.publishStep x v).cur = s.cur := rfl
@[simp] theorem State.publishStep_agenda (s : State) (x v : Nat) :
    (s.publishStep x v).agenda = s.agenda := rfl
@[simp] theorem State.publishStep_regData (s : State) (x v : Nat) :
    (s.publishStep x v).regData = s.regData := rfl
@[simp] theorem State.publishStep_memData (s : State) (x v : Nat) :
    (s.publishStep x v).memData = s.memData := rfl
@[simp] theorem State.publishStep_order (s : State) (x v : Nat) :
    (s.publishStep x v).order = (s.order.record s.agent .store x 4).publish s.agent x := rfl
@[simp] theorem State.publishStep_free (s : State) (x v : Nat) :
    (s.publishStep x v).free = s.free + 4 := rfl

@[simp] theorem State.publishStep_mem (s : State) (x v : Nat) :
    (s.publishStep x v).mem = s.mem.writeBytes x
      (s.landedBytes x (fun m => s.foreign m || s.order.dataRacy s.agent m) (leBytes (BitVec.ofNat 32 v))) := rfl

@[simp] theorem State.here_publishStep (s : State) (x v : Nat) (h : s.cur < s.ports.length) :
    (s.publishStep x v).here = { s.here with pos := .finish } :=
  State.here_setHere (s.storeEvent s.agent x .store s.foreign (BitVec.ofNat 32 v)) _ h

theorem State.port_publishStep_ne (s : State) (x v p : Nat) (h : p ≠ s.cur) :
    (s.publishStep x v).port p = s.port p :=
  State.port_setHere_ne (s.storeEvent s.agent x .store s.foreign (BitVec.ofNat 32 v)) _ p h

@[simp] theorem State.publishStep_length (s : State) (x v : Nat) :
    (s.publishStep x v).ports.length = s.ports.length := List.length_set ..

/-! ## Bytes read and bytes written -/

theorem State.drawnBytes_length (s : State) (x n : Nat) (f : Nat → Bool) : (s.drawnBytes x n f).length = n := by
  simp [State.drawnBytes]

theorem State.seenBytes_length (s : State) (a x n : Nat) : (s.seenBytes a x n).length = n :=
  State.drawnBytes_length s x n _

/-- A read that leaves no byte open returns MEM's bytes (R78). -/
theorem State.drawnBytes_quiet (s : State) (x n : Nat) (f : Nat → Bool) (h : ∀ j, j < n → f (x + j) = false) :
    s.drawnBytes x n f = s.mem.readBytes x n := by
  simp only [State.drawnBytes, Memory.readBytes]
  apply List.map_congr_left
  intro j hj
  simp [h j (List.mem_range.mp hj)]

/-- A read with no race returns MEM's bytes (R78). -/
theorem State.seenBytes_quiet (s : State) (a x n : Nat)
    (h : ∀ j, j < n → s.order.readOpen a (x + j) = false) : s.seenBytes a x n = s.mem.readBytes x n :=
  State.drawnBytes_quiet s x n _ h

/-- An index load with no race returns MEM's word (R66, R78). -/
theorem State.loadedWord_quiet (s : State) (a x : Nat)
    (h : ∀ j, j < 4 → (s.order.acquire a x).loadOpen a (x + j) = false) : s.loadedWord a x = s.mem.readWord x := by
  rw [State.loadedWord, Order.beforeLoad_clean _ _ _ ((Order.loadClean_iff _ _ _).mpr h),
    State.drawnBytes_quiet s x 4 _ h]
  rfl

/-- One byte of a read with no race on it is MEM's byte (R74). -/
theorem State.seenBytes_getD (s : State) (a x n j : Nat) (hj : j < n) (h : s.order.readOpen a (x + j) = false) :
    (s.seenBytes a x n).getD j 0 = s.mem.read (x + j) := by
  simp [State.seenBytes, State.drawnBytes, List.getD_eq_getElem?_getD, hj, h]

/-- One byte of a read that races is a free value (R77). -/
theorem State.seenBytes_open (s : State) (a x n j : Nat) (hj : j < n) (h : s.order.readOpen a (x + j) = true) :
    (s.seenBytes a x n).getD j 0 = Config.freeByte (s.free + j) := by
  simp [State.seenBytes, State.drawnBytes, List.getD_eq_getElem?_getD, hj, h]

@[simp] theorem State.landedBytes_length (s : State) (x : Nat) (f : Nat → Bool) (bs : List Byte) :
    (s.landedBytes x f bs).length = bs.length := by
  simp [State.landedBytes]

/-- One byte of a write that is not left open is the byte written (R67). -/
theorem State.landedBytes_getD (s : State) (x : Nat) (f : Nat → Bool) (bs : List Byte) (j : Nat)
    (hf : f (x + j) = false) : (s.landedBytes x f bs).getD j 0 = bs.getD j 0 := by
  simp only [State.landedBytes, List.getD_eq_getElem?_getD, List.getElem?_mapIdx, hf]
  cases bs[j]? <;> simp

/-- A write that leaves no byte open leaves the bytes it was given (R67). -/
theorem State.landedBytes_quiet (s : State) (x : Nat) (f : Nat → Bool) (bs : List Byte)
    (hf : ∀ j, j < bs.length → f (x + j) = false) : s.landedBytes x f bs = bs := by
  apply List.ext_getElem
  · simp
  · intro j h1 h2
    simp [State.landedBytes, hf j h2]

/-! ## Running a port -/

theorem runPort_zero (f : State → State) (s : State) : runPort f 0 s = s := rfl

theorem runPort_idle (f : State → State) (k : Nat) (s : State) (h : s.here.pos = .idle) : runPort f k s = s := by
  cases k <;> simp [runPort, h]

theorem runPort_succ (f : State → State) (k : Nat) (s : State) (h : s.here.pos ≠ .idle) :
    runPort f (k + 1) s = runPort f k (f s) := by
  simp [runPort, h]

/-- Running a port for `j + k` steps is running it for `j`, then for `k`. -/
theorem runPort_add (f : State → State) (j k : Nat) (s : State) :
    runPort f (j + k) s = runPort f k (runPort f j s) := by
  induction j generalizing s with
  | zero => simp [runPort]
  | succ j ih =>
    by_cases h : s.here.pos = .idle
    · rw [runPort_idle f _ s h, runPort_idle f _ s h, runPort_idle f _ s h]
    · rw [Nat.succ_add, runPort_succ f _ s h, runPort_succ f _ s h, ih]

/-- What every micro-step keeps, running the port keeps. -/
theorem runPort_induct (f : State → State) (P : State → Prop) (hf : ∀ s, P s → P (f s)) (k : Nat) (s : State)
    (h : P s) : P (runPort f k s) := by
  induction k generalizing s with
  | zero => exact h
  | succ k ih =>
    by_cases hi : s.here.pos = .idle
    · rw [runPort_idle f _ s hi]; exact h
    · rw [runPort_succ f _ s hi]; exact ih _ (hf s h)

/-- The first check that fails decides (R205). -/
theorem firstError_none (cs : List (Bool × ErrCode × Word)) :
    firstError cs = none ↔ ∀ c ∈ cs, c.1 = false := by
  induction cs with
  | nil => simp [firstError]
  | cons c rest ih =>
    simp only [firstError, List.mem_cons, forall_eq_or_imp]
    cases h : c.1 <;> simp [ih]

end Sys2Proof.Machine
end

