-- ==== Sys2Proof/Laws/PerInstr.lean ====
section
/-! SUPPORT. The per-instruction family `InRow`: the word of a command lies in the command's own row of the opcode
table, and its fields come back from it (spec R91, R95, R99). -/

namespace Sys2Proof.Laws.InRow

/-- The word of command `i` has the fixed bits of its row of the opcode table (R95), and building the row's command
from that word gives `i` back (R91, R99). -/
def Statement (i : Instr) : Prop := i.op.selects (encode i) = true ∧ i.op.build (encode i) = i

theorem nop : Statement .nop := by
  unfold Statement; decide

theorem bind (kind : BitVec 4) (proto : BitVec 2) (role : Role) (init : Bool) : Statement (.bind kind proto role init) := by
  refine ⟨?_, ?_⟩
  · cases role <;> cases init <;> revert kind proto <;> decide
  · cases role <;> cases init <;> revert kind proto <;> decide

theorem size (kind : BitVec 4) : Statement (.size kind) := by
  revert kind; unfold Statement; decide

theorem empty : Statement .empty := by
  unfold Statement; decide

theorem full : Statement .full := by
  unfold Statement; decide

theorem capacity : Statement .capacity := by
  unfold Statement; decide

theorem availRead : Statement .availRead := by
  unfold Statement; decide

theorem availWrite : Statement .availWrite := by
  unfold Statement; decide

theorem push : Statement .push := by
  unfold Statement; decide

theorem pop : Statement .pop := by
  unfold Statement; decide

theorem wspanAcq : Statement .wspanAcq := by
  unfold Statement; decide

theorem wspanCommit (dflt : Bool) : Statement (.wspanCommit dflt) := by
  revert dflt; unfold Statement; decide

theorem aenq : Statement .aenq := by
  unfold Statement; decide

theorem adeq : Statement .adeq := by
  unfold Statement; decide

theorem penq (pidx : BitVec 8) : Statement (.penq pidx) := by
  revert pidx; unfold Statement; decide

theorem pdeq : Statement .pdeq := by
  unfold Statement; decide

theorem deint : Statement .deint := by
  unfold Statement; decide

theorem inter : Statement .inter := by
  unfold Statement; decide

end Sys2Proof.Laws.InRow
end

