-- ==== Sys2Proof/Laws/Ring.lean ====
section
/-! SUPPORT. The index arithmetic of a ring (spec R130, R132) without mod: what each count and each slot is, by cases. -/

namespace Sys2Proof.Machine

/-- One wrap at most: the index `n` places on from a valid index. -/
theorem ring_mod (S i n : Nat) (hi : i < S) (hn : n ≤ S) :
    (i + n) % S = if i + n < S then i + n else i + n - S := by
  split
  · rw [Nat.mod_eq_of_lt (by omega)]
  · rw [Nat.mod_eq_sub_mod (by omega), Nat.mod_eq_of_lt (by omega)]

/-- AvailRead of two valid indices, by cases (R130). -/
theorem availRead_eq (S rd wr : Nat) (hr : rd < S) (hw : wr < S) :
    availRead S rd wr = if rd ≤ wr then wr - rd else wr + S - rd := by
  unfold availRead
  split
  · rw [show wr + S - rd = (wr - rd) + S by omega, Nat.add_mod_right, Nat.mod_eq_of_lt (by omega)]
  · rw [Nat.mod_eq_of_lt (by omega)]

/-- The full test by cases (R130). -/
theorem isFull_eq (S rd wr : Nat) (hw : wr < S) :
    isFull S rd wr = decide ((if wr + 1 < S then wr + 1 else wr + 1 - S) = rd) := by
  simp only [isFull, ring_mod S wr 1 hw (by omega)]

/-- Different places in ring order are different slots (R132). -/
theorem ring_place_ne (S i k l : Nat) (hi : i < S) (hk : k < S) (hl : l < S) (h : k ≠ l) :
    (i + k) % S ≠ (i + l) % S := by
  rw [ring_mod S i k hi (by omega), ring_mod S i l hi (by omega)]
  split <;> split <;> omega

/-- Element `k` of a transfer goes to the slot `k` places on in ring order (R132). -/
theorem splitSlot_eq_mod (S i n k : Nat) (hi : i < S) (hn : n ≤ S - 1) (hk : k < n) :
    splitSlot S i n k = (i + k) % S := by
  rw [ring_mod S i k hi (by omega)]
  unfold splitSlot splitFirst
  split <;> split <;> omega

theorem mul_add_le_mul (a b e : Nat) (h : a < b) : a * e + e ≤ b * e := by
  have h1 : (a + 1) * e ≤ b * e := Nat.mul_le_mul_right e h
  rw [Nat.add_mul] at h1; omega

/-- Different slots have no byte in common (R47). -/
theorem slotAddr_apart (B e x y : Nat) (h : x ≠ y) :
    slotAddr B e x + e ≤ slotAddr B e y ∨ slotAddr B e y + e ≤ slotAddr B e x := by
  unfold slotAddr
  rcases Nat.lt_or_gt_of_ne h with h | h
  · have := mul_add_le_mul x y e h; omega
  · have := mul_add_le_mul y x e h; omega

/-- A slot of the segment lies in the segment (R47). -/
theorem slotAddr_inside (B e S x : Nat) (h : x < S) :
    B + 8 ≤ slotAddr B e x ∧ slotAddr B e x + e ≤ B + segBytes S e := by
  have := mul_add_le_mul x S e h
  unfold slotAddr segBytes Config.headerSize; omega

end Sys2Proof.Machine
end

