-- ==== Sys2Proof/Laws/Run.lean ====
section
/-! SUPPORT. What running a port does: the shared micro-steps leave everything else alone, and the copy loop of the
transfers and transposes as one lemma. -/

namespace Sys2Proof.Machine

/-! ## Nothing elsewhere changes -/

theorem Elsewhere.refl (s : State) : Elsewhere s s := ⟨rfl, rfl, rfl, rfl, rfl, rfl, fun _ _ => rfl⟩

theorem Elsewhere.trans {s t u : State} (h : Elsewhere s t) (k : Elsewhere t u) : Elsewhere s u := by
  obtain ⟨h1, h2, h3, h4, h5, h6, h7⟩ := h
  obtain ⟨k1, k2, k3, k4, k5, k6, k7⟩ := k
  exact ⟨k1.trans h1, k2.trans h2, k3.trans h3, k4.trans h4, k5.trans h5, k6.trans h6,
    fun p hp => (k7 p (h2 ▸ hp)).trans (h7 p hp)⟩

theorem Elsewhere.cur {s t : State} (h : Elsewhere s t) : t.cur = s.cur := h.2.1

theorem Elsewhere.agent {s t : State} (h : Elsewhere s t) : t.agent = s.agent := by
  simp only [State.agent, h.cur]

theorem Elsewhere.exists {s t : State} (h : Elsewhere s t) (hc : s.cur < s.ports.length) :
    t.cur < t.ports.length := by
  rw [h.2.1, h.2.2.2.2.2.1]; exact hc

theorem elsewhere_setHere (s : State) (q : Port) : Elsewhere s (s.setHere q) :=
  ⟨rfl, rfl, rfl, rfl, rfl, by simp, fun p hp => State.port_setHere_ne s q p hp⟩

theorem elsewhere_goto (s : State) (pos : EnginePos) : Elsewhere s (s.goto pos) := elsewhere_setHere s _

theorem elsewhere_readEvent (s : State) (a : Nat) (k : EventKind) (x n : Nat) : Elsewhere s (s.readEvent a k x n) :=
  ⟨rfl, rfl, rfl, rfl, rfl, rfl, fun _ _ => rfl⟩

theorem elsewhere_writeEvent (s : State) (a x : Nat) (f : Nat → Bool) (bs : List Byte) :
    Elsewhere s (s.writeEvent a x f bs) := ⟨rfl, rfl, rfl, rfl, rfl, rfl, fun _ _ => rfl⟩

theorem elsewhere_loadEvent (s : State) (a x : Nat) : Elsewhere s (s.loadEvent a x) :=
  ⟨rfl, rfl, rfl, rfl, rfl, rfl, fun _ _ => rfl⟩

theorem elsewhere_storeEvent (s : State) (a x : Nat) (k : EventKind) (b : Nat → Bool) (v : Word) :
    Elsewhere s (s.storeEvent a x k b v) := ⟨rfl, rfl, rfl, rfl, rfl, rfl, fun _ _ => rfl⟩

theorem elsewhere_ended (s : State) (q : Port) : Elsewhere s (s.ended q) :=
  ⟨rfl, rfl, rfl, rfl, rfl, by simp, fun p hp => State.port_ended_ne s q p hp⟩

theorem elsewhere_finishStep (s : State) (q : Port) : Elsewhere s (s.finishStep q) := elsewhere_ended s _

theorem elsewhere_raise (s : State) (e : ErrCode) (info : Word) : Elsewhere s (s.raise e info) :=
  elsewhere_ended s _

theorem elsewhere_decodeStep (s : State) (r : Option (ErrCode × Word)) (pos : EnginePos) :
    Elsewhere s (s.decodeStep r pos) := by
  unfold State.decodeStep
  split <;> exact elsewhere_goto s _

theorem elsewhere_loadRdStep (s : State) : Elsewhere s s.loadRdStep :=
  (elsewhere_loadEvent s _ _).trans (elsewhere_setHere _ _)

theorem elsewhere_loadWrStep (s : State) (next : Port → EnginePos) : Elsewhere s (s.loadWrStep next) := by
  rw [State.loadWrStep_eq]
  exact (elsewhere_loadEvent s _ _).trans (elsewhere_setHere _ _)

theorem elsewhere_copyReadStep (s : State) (x n : Nat) (pos : EnginePos) : Elsewhere s (s.copyReadStep x n pos) :=
  (elsewhere_readEvent s _ _ _ _).trans (elsewhere_setHere _ _)

theorem elsewhere_copyWriteStep (s : State) (x : Nat) (b : Nat → Bool) (pos : EnginePos) :
    Elsewhere s (s.copyWriteStep x b pos) :=
  (elsewhere_writeEvent s _ _ _ _).trans (elsewhere_goto _ _)

theorem elsewhere_publishStep (s : State) (x v : Nat) : Elsewhere s (s.publishStep x v) :=
  (elsewhere_storeEvent s _ _ _ _ _).trans (elsewhere_goto _ _)

/-! ## Which bytes an event can change -/

theorem State.writeEvent_read (s : State) (a x : Nat) (f : Nat → Bool) (bs : List Byte) (b : Nat)
    (h : b < x ∨ x + bs.length ≤ b) : (s.writeEvent a x f bs).mem.read b = s.mem.read b := by
  simp only [State.writeEvent]
  exact Memory.read_writeBytes_outside _ _ _ _ (by rw [State.landedBytes_length]; exact h)

theorem State.storeEvent_read (s : State) (a x : Nat) (k : EventKind) (o : Nat → Bool) (v : Word) (b : Nat)
    (h : b < x ∨ x + 4 ≤ b) : (s.storeEvent a x k o v).mem.read b = s.mem.read b := by
  rw [State.storeEvent_mem]
  exact Memory.read_writeBytes_outside _ _ _ _ (by rw [State.landedBytes_length]; exact h)

theorem State.publishStep_read (s : State) (x v b : Nat) (h : b < x ∨ x + 4 ≤ b) :
    (s.publishStep x v).mem.read b = s.mem.read b :=
  State.storeEvent_read s s.agent x .store s.foreign (BitVec.ofNat 32 v) b h

/-! ## What other ports show stays as it is -/

theorem State.any_ports (s : State) (f : Port → Bool) :
    s.ports.any f = true ↔ ∃ p, p < s.ports.length ∧ f (s.port p) = true := by
  simp only [List.any_eq_true, List.mem_iff_getElem]
  constructor
  · rintro ⟨x, ⟨p, hp, rfl⟩, hf⟩
    exact ⟨p, hp, by simpa [State.port, List.getD_eq_getElem?_getD, hp] using hf⟩
  · rintro ⟨p, hp, hf⟩
    exact ⟨_, ⟨p, hp, rfl⟩, by simpa [State.port, List.getD_eq_getElem?_getD, hp] using hf⟩

/-- A question that asks every port stays answered as it was when only the executing port moves on and its own answer
stays. -/
theorem Elsewhere.any_ports {s t : State} (h : Elsewhere s t) (f : Port → Bool) (hf : f t.here = f s.here) :
    t.ports.any f = s.ports.any f := by
  have key : (t.ports.any f = true) ↔ (s.ports.any f = true) := by
    rw [State.any_ports, State.any_ports, h.2.2.2.2.2.1]
    constructor
    all_goals
      rintro ⟨p, hp, hx⟩
      refine ⟨p, hp, ?_⟩
      by_cases hc : p = s.cur
      · subst hc
        have h1 : t.port s.cur = t.here := by simp only [State.here, h.cur]
        first
          | (rw [h1, hf] at hx; exact hx)
          | (rw [h1, hf]; exact hx)
      · first
          | (rw [h.2.2.2.2.2.2 p hc] at hx; exact hx)
          | (rw [h.2.2.2.2.2.2 p hc]; exact hx)
  exact Bool.eq_iff_iff.mpr key

/-- The bytes a port's binding claims are those before. -/
def Port.SameSegment (q r : Port) : Prop :=
  q.bound = r.bound ∧ q.base = r.base ∧ q.nslots = r.nslots ∧ q.esize = r.esize

theorem Elsewhere.meetsBound {s t : State} (h : Elsewhere s t) (hq : t.here.SameSegment s.here) (a n : Nat) :
    t.meetsBound a n = s.meetsBound a n := by
  apply h.any_ports
  obtain ⟨h1, h2, h3, h4⟩ := hq
  simp only [Port.segLen, h1, h2, h3, h4]

theorem Elsewhere.others {s t : State} (h : Elsewhere s t) : t.others = s.others := by
  simp only [State.others, h.cur]
  apply List.ext_getElem?
  intro j
  have hp : ∀ p, p ≠ s.cur → t.ports[p]? = s.ports[p]? := by
    intro p hp
    have h1 := h.2.2.2.2.2.2 p hp
    simp only [State.port, List.getD_eq_getElem?_getD] at h1
    have hl := h.2.2.2.2.2.1
    by_cases hlt : p < s.ports.length
    · rw [List.getElem?_eq_getElem (hl ▸ hlt), List.getElem?_eq_getElem hlt] at h1 ⊢
      simpa using h1
    · rw [List.getElem?_eq_none (by omega), List.getElem?_eq_none (by omega)]
  simp only [List.getElem?_eraseIdx]
  split
  · exact hp j (by omega)
  · exact hp (j + 1) (by omega)

theorem Elsewhere.inSegment {s t : State} (h : Elsewhere s t) (hq : t.here.SameSegment s.here) (m : Nat) :
    t.inSegment m = s.inSegment m := by
  apply h.any_ports
  obtain ⟨h1, h2, h3, h4⟩ := hq
  simp only [Port.segLen, h1, h2, h3, h4]

theorem Elsewhere.meetsOwn {s t : State} (_h : Elsewhere s t) (hq : t.here.SameSegment s.here) (a n : Nat) :
    t.meetsOwn a n = s.meetsOwn a n := by
  obtain ⟨-, h2, h3, h4⟩ := hq
  simp only [State.meetsOwn, Port.segLen, h2, h3, h4]

theorem Elsewhere.foreign {s t : State} (h : Elsewhere s t) (hq : t.here.SameSegment s.here) (m : Nat) :
    t.foreign m = s.foreign m := by
  obtain ⟨-, h2, h3, h4⟩ := hq
  simp only [State.foreign, State.foreignTo, h.others, h2, h3, h4]

/-! ## The copy loop (R9, R140, R145, R192, R193) -/

/-- The port `q` in the middle of its copies: its engine stands at `pos` and holds `x`. -/
def Port.copying (q : Port) (pos : EnginePos) (x : List Byte) : Port := { q with pos := pos, elem := x }

/-- What a command's micro-steps do at its copies: copy `k` of `n` moves `e` bytes from `src k` to `dst k`;
`isOpen k m` says whether byte `m` is left to any value. After the last copy the engine stands at `last`. -/
structure CopyLoop (f : State → State) (s : State) (q : Port) (n e : Nat) (src dst : Nat → Nat)
    (isOpen : Nat → Nat → Bool) (last : EnginePos) : Prop where
  read : ∀ u k x, Elsewhere s u → u.here = q.copying (.copyRead k) x → k < n →
    f u = u.copyReadStep (src k) e (.copyWrite k)
  write : ∀ u k x, Elsewhere s u → u.here = q.copying (.copyWrite k) x → k < n →
    f u = u.copyWriteStep (dst k) (isOpen k) (if k + 1 < n then .copyRead (k + 1) else last)

/-- MEM after the copies `k` to `n − 1`: a byte outside every destination reads as before; and where no copy touches
what another reads or writes, a destination byte that is not open, with no race on it or on its source, holds its
source. -/
def Copied (s u t : State) (k n e : Nat) (src dst : Nat → Nat) (isOpen : Nat → Nat → Bool) : Prop :=
  (∀ a, (∀ i, k ≤ i → i < n → ¬ (dst i ≤ a ∧ a < dst i + e)) → t.mem.read a = u.mem.read a) ∧
  ((∀ i j, i < n → j < n → dst i + e ≤ src j ∨ src j + e ≤ dst i) →
    (∀ i j, i < n → j < n → i ≠ j → dst i + e ≤ dst j ∨ dst j + e ≤ dst i) →
    ∀ i j, k ≤ i → i < n → j < e → isOpen i (dst i + j) = false →
      s.order.mayRace s.agent (src i + j) = false → s.order.racy s.agent (dst i + j) = false →
      t.mem.read (dst i + j) = u.mem.read (src i + j))

/-- The same accesses of the executing agent race in both states (R77). -/
def SameRaces (s u : State) : Prop :=
  (∀ m, u.order.racy s.agent m = s.order.racy s.agent m) ∧ u.order.foreseen = s.order.foreseen

theorem SameRaces.mayRace {s u : State} (h : SameRaces s u) (m : Nat) :
    u.order.mayRace s.agent m = s.order.mayRace s.agent m := by
  simp only [Order.mayRace, Order.lateAt, h.1, h.2]

/-- One copy: its read event and its write event. -/
theorem CopyLoop.one {f : State → State} {s : State} {q : Port} {n e : Nat} {src dst : Nat → Nat}
    {isOpen : Nat → Nat → Bool} {last : EnginePos} (L : CopyLoop f s q n e src dst isOpen last)
    (hc : s.cur < s.ports.length) (u : State) (k : Nat) (x : List Byte) (hu : Elsewhere s u)
    (hq : u.here = q.copying (.copyRead k) x) (hk : k < n)
    (hr : SameRaces s u) (fuel : Nat) :
    ∃ t y, runPort f (fuel + 2) u = runPort f fuel t ∧ Elsewhere s t ∧
      t.here = q.copying (if k + 1 < n then .copyRead (k + 1) else last) y ∧
      SameRaces s t ∧ t.order.trace.length = u.order.trace.length + 2 ∧
      Copied s u t k (k + 1) e src dst isOpen := by
  have hcu := hu.exists hc
  have e1 := L.read u k x hu hq hk
  have hu1 : Elsewhere s (u.copyReadStep (src k) e (.copyWrite k)) := hu.trans (elsewhere_copyReadStep u _ _ _)
  have hq1 : (u.copyReadStep (src k) e (.copyWrite k)).here =
      q.copying (.copyWrite k) (u.seenBytes s.agent (src k) e) := by
    rw [State.here_copyReadStep _ _ _ _ hcu, hq, hu.agent]; rfl
  have e2 := L.write _ k _ hu1 hq1 hk
  have hcu1 := hu1.exists hc
  have r1 : runPort f (fuel + 2) u = runPort f (fuel + 1) (f u) :=
    runPort_succ f (fuel + 1) u (by rw [hq]; simp [Port.copying])
  have r2 : runPort f (fuel + 1) (f u) = runPort f fuel (f (f u)) :=
    runPort_succ f fuel (f u) (by rw [e1, hq1]; simp [Port.copying])
  refine ⟨f (f u), u.seenBytes s.agent (src k) e, by rw [r1, r2], ?_, ?_, ?_, ?_, ?_⟩
  · rw [e1, e2]; exact hu1.trans (elsewhere_copyWriteStep _ _ _ _)
  · rw [e1, e2, State.here_copyWriteStep _ _ _ _ hcu1, hq1]; rfl
  · refine ⟨fun m => ?_, ?_⟩
    · rw [e1, e2, State.copyWriteStep_order, Order.overwrite_racy, hu1.agent, Order.racy_record_self,
        State.copyReadStep_order, hu.agent, Order.racy_record_self, hr.1]
    · rw [e1, e2, State.copyWriteStep_order, Order.overwrite_foreseen, Order.record_foreseen,
        State.copyReadStep_order, Order.record_foreseen, hr.2]
  · rw [e1, e2]; simp
  · have hlen : (u.copyReadStep (src k) e (.copyWrite k)).here.elem.length = e := by
      rw [hq1]; simp [Port.copying, State.seenBytes_length]
    constructor
    · intro a ha
      have := ha k (Nat.le_refl k) (Nat.lt_succ_self k)
      rw [e1, e2, State.copyWriteStep_mem, Memory.read_writeBytes, State.landedBytes_length, hlen, if_neg this]
      rfl
    · intro hsd hdd i j hi1 hi2 hj ho hs hd
      have hik : i = k := by omega
      subst hik
      have hq2 : (u.copyReadStep (src i) e (.copyWrite i)).here.elem = u.seenBytes s.agent (src i) e := by
        rw [hq1]; rfl
      rw [e1, e2, State.copyWriteStep_mem, Memory.read_writeBytes, State.landedBytes_length, hlen,
        if_pos (by omega), show dst i + j - dst i = j by omega, State.landedBytes_getD, hq2,
        State.seenBytes_getD _ _ _ _ _ hj (Order.readOpen_of_mayRace _ _ _ (by rw [hr.mayRace]; exact hs))]
      rw [Bool.or_eq_false_iff]
      refine ⟨ho, ?_⟩
      rw [hu1.agent, State.copyReadStep_order, hu.agent, Order.racy_record_self, hr.1]
      exact hd

/-- The copy loop as a whole. -/
theorem CopyLoop.run {f : State → State} {s : State} {q : Port} {n e : Nat} {src dst : Nat → Nat}
    {isOpen : Nat → Nat → Bool} {last : EnginePos} (L : CopyLoop f s q n e src dst isOpen last)
    (hc : s.cur < s.ports.length) (m : Nat) : ∀ (u : State) (k : Nat) (x : List Byte), Elsewhere s u →
    u.here = q.copying (.copyRead k) x → k + (m + 1) = n →
    SameRaces s u → ∀ fuel,
    ∃ t y, runPort f (fuel + 2 * (m + 1)) u = runPort f fuel t ∧ Elsewhere s t ∧ t.here = q.copying last y ∧
      SameRaces s t ∧
      t.order.trace.length = u.order.trace.length + 2 * (m + 1) ∧ Copied s u t k n e src dst isOpen := by
  induction m with
  | zero =>
    intro u k x hu hq hk hr fuel
    have hn : n = k + 1 := by omega
    obtain ⟨t, y, h1, h2, h3, h4, h5, h6⟩ := L.one hc u k x hu hq (by omega) hr fuel
    rw [if_neg (by omega)] at h3
    exact ⟨t, y, h1, h2, h3, h4, h5, hn ▸ h6⟩
  | succ m ih =>
    intro u k x hu hq hk hr fuel
    obtain ⟨t, y, h1, h2, h3, h4, h5, h6⟩ := L.one hc u k x hu hq (by omega) hr (fuel + 2 * (m + 1))
    rw [if_pos (by omega)] at h3
    obtain ⟨v, z, g1, g2, g3, g4, g5, g6⟩ := ih t (k + 1) y h2 h3 (by omega) h4 fuel
    refine ⟨v, z, ?_, g2, g3, g4, by omega, ?_, ?_⟩
    · rw [← g1, ← h1]; congr 1
    · intro a ha
      rw [g6.1 a (fun i h1 h2 => ha i (by omega) h2), h6.1 a (fun i h1 h2 => ha i h1 (by omega))]
    · intro hsd hdd i j hi1 hi2 hj ho hs hd
      by_cases hik : i = k
      · subst hik
        rw [g6.1 (dst i + j) (fun l h1 h2 => by have := hdd i l (by omega) h2 (by omega); omega)]
        exact h6.2 (fun a b h1 h2 => hsd a b (by omega) (by omega)) (fun a b h1 h2 => hdd a b (by omega) (by omega))
          i j (Nat.le_refl i) (Nat.lt_succ_self i) hj ho hs hd
      · rw [g6.2 hsd hdd i j (by omega) hi2 hj ho hs hd]
        exact h6.1 (src i + j) (fun l h1 h2 => by have := hsd l i (by omega) hi2; omega)

/-! ## The decode step and LoadIndices (R93, R131) -/

/-- What a ring command's micro-steps do up to its checked indices. -/
structure LoadPhase (f : State → State) (s : State) (next : Port → EnginePos) : Prop where
  decode : f s = s.goto .loadRd
  loadRd : ∀ u, Elsewhere s u → u.here = { s.here with pos := .loadRd } → f u = u.loadRdStep
  loadWr : ∀ u w, Elsewhere s u → u.here = { s.here with lrd := w, pos := .loadWr } →
    f u = u.loadWrStep next

/-- Where LoadIndices leads from the indices that MEM holds (R131). -/
def State.indexPos (s : State) (next : Port → EnginePos) : EnginePos :=
  match ({ s.loaded with pos := .loadWr } : Port).indexError with
  | some (e, info) => .raising e info
  | none => next { s.loaded with pos := .loadWr }

/-- The decode step and LoadIndices as a whole. -/
theorem LoadPhase.run {f : State → State} {s : State} {next : Port → EnginePos} (L : LoadPhase f s next)
    (h : Ready s) (hq : IndicesQuiet s) (fuel : Nat) :
    ∃ t, runPort f (fuel + 3) s = runPort f fuel t ∧ Elsewhere s t ∧
      t.here = { s.loaded with pos := s.indexPos next } ∧ t.mem = s.mem ∧ t.order = s.orderLoaded ∧
      t.order.trace.length = s.order.trace.length + 2 := by
  obtain ⟨hc, hp⟩ := h
  have e1 := L.decode
  have u1 : Elsewhere s (s.goto .loadRd) := elsewhere_goto s _
  have q1 : (s.goto .loadRd).here = { s.here with pos := .loadRd } := State.here_goto s _ hc
  have e2 := L.loadRd _ u1 q1
  have w1 : (s.goto .loadRd).loadedWord (s.goto .loadRd).agent (s.goto .loadRd).here.riAddr = s.rdIndex := by
    rw [q1]
    exact State.loadedWord_quiet (s.goto .loadRd) s.agent (s.here.base + 4) hq.1
  have u2 := u1.trans (elsewhere_loadRdStep (s.goto .loadRd))
  have q2 : (s.goto .loadRd).loadRdStep.here = { s.here with lrd := s.rdIndex, pos := .loadWr } := by
    rw [State.here_loadRdStep _ (u1.exists hc), w1, q1]
  have e3 := L.loadWr _ _ u2 q2
  have u3 := u2.trans (elsewhere_loadWrStep (s.goto .loadRd).loadRdStep next)
  have ha : ((s.goto .loadRd).loadRdStep).agent = s.agent := u2.agent
  have hm : (s.goto .loadRd).loadRdStep.mem = s.mem := rfl
  have ho : (s.goto .loadRd).loadRdStep.order =
      (s.order.record s.agent .load (s.here.base + 4) 4).acquire s.agent (s.here.base + 4) := by
    rw [State.loadRdStep_order, q1]
    exact Order.loaded_clean _ _ _ ((Order.loadClean_iff _ _ _).mpr hq.1)
  have hq2 : (s.goto .loadRd).loadRdStep.order.loadClean s.agent s.here.base = true := by
    rw [ho]
    exact (Order.loadClean_iff _ _ _).mpr hq.2
  have hl : (s.goto .loadRd).loadRdStep.loadedWr = { s.loaded with pos := .loadWr } := by
    have w2 : (s.goto .loadRd).loadRdStep.loadedWord (s.goto .loadRd).loadRdStep.agent
        (s.goto .loadRd).loadRdStep.here.wiAddr = s.wrIndex := by
      rw [ha, q2]
      exact (State.loadedWord_quiet _ s.agent s.here.base ((Order.loadClean_iff _ _ _).mp hq2)).trans (by rw [hm]; rfl)
    rw [State.loadedWr, w2, q2]; rfl
  have q3 : ((s.goto .loadRd).loadRdStep.loadWrStep next).here = { s.loaded with pos := s.indexPos next } := by
    have hn : (s.goto .loadRd).loadRdStep.afterLoads next = s.indexPos next :=
      congrArg (fun q : Port => match q.indexError with
        | some (e, info) => EnginePos.raising e info
        | none => next q) hl
    rw [State.here_loadWrStep _ _ (u2.exists hc)]
    simp only [hl, hn]
  refine ⟨(s.goto .loadRd).loadRdStep.loadWrStep next, ?_, u3, q3, ?_, ?_, ?_⟩
  · rw [runPort_succ f _ s (by rw [hp]; simp), e1, runPort_succ f _ _ (by rw [q1]; simp), e2,
      runPort_succ f _ _ (by rw [q2]; simp), e3]
  · rw [State.loadWrStep_mem]; exact hm
  · rw [State.loadWrStep_order, ha, q2]
    exact (Order.loaded_clean _ _ _ hq2).trans (by rw [ho]; rfl)
  · simp

/-- Valid indices pass the checks of LoadIndices (R131). -/
theorem State.indexPos_valid (s : State) (next : Port → EnginePos) (h : ValidIndices s) :
    s.indexPos next = next { s.loaded with pos := .loadWr } := by
  have : ({ s.loaded with pos := .loadWr } : Port).indexError = none := (Port.indexError_none _).mpr h
  simp only [State.indexPos, this]

/-- After LoadIndices the executing agent races nowhere it did not race before (R77). -/
theorem State.orderLoaded_racy (s : State) (m : Nat) (h : s.order.racy s.agent m = false) :
    s.orderLoaded.racy s.agent m = false := by
  unfold State.orderLoaded State.orderRd
  apply Order.racy_acquire_false
  rw [Order.racy_record_self]
  apply Order.racy_acquire_false
  rw [Order.racy_record_self]; exact h

/-- Where nothing may race before LoadIndices, nothing may after it (R77). -/
theorem State.orderLoaded_mayRace (s : State) (m : Nat) (h : s.order.mayRace s.agent m = false) :
    s.orderLoaded.mayRace s.agent m = false := by
  unfold State.orderLoaded State.orderRd
  apply Order.mayRace_acquire_false
  rw [Order.mayRace_record_self]
  apply Order.mayRace_acquire_false
  rw [Order.mayRace_record_self]; exact h

/-- After LoadIndices the executing agent's stores race nowhere they did not race before (R77). -/
theorem State.orderLoaded_dataRacy (s : State) (m : Nat) (h : s.order.dataRacy s.agent m = false) :
    s.orderLoaded.dataRacy s.agent m = false := by
  unfold State.orderLoaded State.orderRd
  apply Order.dataRacy_acquire_false
  rw [Order.dataRacy_record_self]
  apply Order.dataRacy_acquire_false
  rw [Order.dataRacy_record_self]; exact h

/-! ## The channel-pointer table (R191) -/

/-- The micro-steps of DEINT and INTER up to the last table read. -/
structure TablePhase (f : State → State) (s : State) : Prop where
  decode : f s = s.goto (xposeStart s.here)
  read : ∀ u c tb, Elsewhere s u → u.here = { s.here with pos := .tableRead c, table := tb } →
    f u = xposeTableStep u c

/-- The first `c` channel pointers as MEM holds them. -/
def State.chans (s : State) (c : Nat) : List Word := (List.range c).map s.chan

/-- Where the read of table entry `c` leads (R191). -/
def State.tablePos (s : State) (c : Nat) : EnginePos :=
  match checkPointer s.cfg (s.chan c) with
  | some (e, info) => .raising e info
  | none => if c + 1 < s.here.channels then .tableRead (c + 1) else .copyRead 0

theorem checkPointer_none (cfg : Config) (p : Word) :
    checkPointer cfg p = none ↔ p.toNat % 4 = 0 ∧ p.toNat + 512 ≤ cfg.memSize := by
  rw [checkPointer, firstError_none]
  simp only [fitsMem, planarLen, Config.blockFrames, List.mem_cons, List.not_mem_nil, or_false, forall_eq_or_imp,
    forall_eq, bne_eq_false_iff_eq, Bool.not_eq_false']
  exact and_congr_right fun _ => decide_eq_true_iff

/-- One table read. -/
theorem TablePhase.one {f : State → State} {s : State} (L : TablePhase f s) (hc : s.cur < s.ports.length)
    (hq : TableQuiet s) (u : State) (c : Nat) (hu : Elsewhere s u)
    (hh : u.here = { s.here with pos := .tableRead c, table := s.chans c }) (hm : u.mem = s.mem)
    (hr : SameRaces s u) (hk : c < s.here.channels) :
    Elsewhere s (f u) ∧ (f u).here = { s.here with pos := s.tablePos c, table := s.chans (c + 1) } ∧
      (f u).mem = s.mem ∧ SameRaces s (f u) ∧
      (f u).order.trace.length = u.order.trace.length + 1 := by
  have e := L.read u c _ hu hh
  have hs : leWord (u.seenBytes s.agent (s.here.larg2.toNat + 4 * c) 4) = s.chan c := by
    rw [State.seenBytes_quiet, hm]
    · rfl
    · intro j hj
      apply Order.readOpen_of_mayRace
      rw [hr.mayRace]
      have hk' : c < s.here.larg3.toNat := hk
      have := hq (4 * c + j) (by omega)
      rw [← this]; congr 1; omega
  have ha : tableAddr u.here c = s.here.larg2.toNat + 4 * c := by rw [hh]; rfl
  have hcfg : u.cfg = s.cfg := hu.1
  have e2 : f u = (u.readEvent s.agent .table (s.here.larg2.toNat + 4 * c) 4).setHere
      { s.here with pos := s.tablePos c, table := s.chans (c + 1) } := by
    rw [e]
    simp only [xposeTableStep, ha, hu.agent, hs, hcfg]
    congr 1
    rw [hh]
    simp only [State.tablePos, State.chans, List.range_succ, List.map_append, List.map_cons, List.map_nil]
    rfl
  rw [e2]
  refine ⟨hu.trans ((elsewhere_readEvent u _ _ _ _).trans (elsewhere_setHere _ _)), ?_, hm, ?_, ?_⟩
  · exact State.here_setHere (u.readEvent s.agent .table (s.here.larg2.toNat + 4 * c) 4) _ (hu.exists hc)
  · exact ⟨fun b => by rw [State.setHere_order, State.readEvent_order, Order.racy_record_self, hr.1], hr.2⟩
  · simp

/-- The decode step and the table reads before entry `c`, all pointers before it passing their checks. -/
theorem TablePhase.run {f : State → State} {s : State} (L : TablePhase f s) (h : Fresh s) (hq : TableQuiet s)
    (c : Nat) : c < s.here.channels → (∀ d, d < c → PointerOk s d) → ∀ fuel,
    ∃ t, runPort f (fuel + (c + 1)) s = runPort f fuel t ∧ Elsewhere s t ∧
      t.here = { s.here with pos := .tableRead c, table := s.chans c } ∧ t.mem = s.mem ∧
      SameRaces s t ∧ t.order.trace.length = s.order.trace.length + c := by
  obtain ⟨⟨hc, hp⟩, ht, -⟩ := h
  induction c with
  | zero =>
    intro hk _ fuel
    have h0 : s.here.channels ≠ 0 := by omega
    have e : f s = s.goto (.tableRead 0) := by rw [L.decode, xposeStart, if_neg h0]
    refine ⟨f s, runPort_succ f fuel s (by rw [hp]; simp), ?_, ?_, ?_, ?_, ?_⟩
    · rw [e]; exact elsewhere_goto s _
    · rw [e, State.here_goto s _ hc]
      have hch : s.chans 0 = s.here.table := by rw [ht]; rfl
      rw [hch]
    · rw [e]; rfl
    · rw [e]; exact ⟨fun _ => rfl, rfl⟩
    · rw [e]; rfl
  | succ c ih =>
    intro hk hok fuel
    obtain ⟨t, h1, h2, h3, h4, h5, h6⟩ := ih (by omega) (fun d hd => hok d (by omega)) (fuel + 1)
    obtain ⟨g1, g2, g3, g4, g5⟩ := L.one hc hq t c h2 h3 h4 h5 (by omega)
    have hpos : s.tablePos c = .tableRead (c + 1) := by
      have := (checkPointer_none s.cfg (s.chan c)).mpr (hok c (by omega))
      simp only [State.tablePos, this, if_pos hk]
    rw [hpos] at g2
    refine ⟨f t, ?_, g1, g2, g3, g4, by omega⟩
    rw [show fuel + (c + 1 + 1) = fuel + 1 + (c + 1) by omega, h1]
    exact runPort_succ f fuel t (by rw [h3]; simp)

/-- The channel pointers as the engine holds them after the table reads. -/
theorem State.chans_getD (s : State) (n c : Nat) (h : c < n) : (s.chans n).getD c 0 = s.chan c := by
  simp [State.chans, List.getD_eq_getElem?_getD, h]

/-! ## The last steps of a command -/

/-- The finish step, run (R94). -/
theorem runPort_finish (f : State → State) (u : State) (q : Port) (fuel : Nat) (hc : u.cur < u.ports.length)
    (hp : u.here.pos = .finish) (hf : f u = u.finishStep q) :
    runPort f (fuel + 1) u = u.finishStep q := by
  rw [runPort_succ f _ u (by rw [hp]; simp), hf, runPort_idle f _ _ (by rw [State.here_finishStep _ _ hc])]

/-- The `raise` step, run (R203). -/
theorem runPort_raise (f : State → State) (u : State) (e : ErrCode) (info : Word) (fuel : Nat)
    (hc : u.cur < u.ports.length) (hp : u.here.pos = .raising e info) (hf : f u = u.raise e info) :
    runPort f (fuel + 1) u = u.raise e info := by
  rw [runPort_succ f _ u (by rw [hp]; simp), hf, runPort_idle f _ _ (by rw [State.here_raise _ _ _ hc])]

/-- The registers a finish step leaves (R94). -/
theorem State.here_finish_eq (u : State) (q : Port) (h : u.cur < u.ports.length) :
    (u.finishStep q).here = q.finished := by
  rw [State.here_finishStep _ _ h]; rfl

end Sys2Proof.Machine
end

