-- ==== Sys2Proof/Laws/Races.lean ====
section
/-! SUPPORT. What foreseeing changes, which races it finds, and what the planned run adds to the ordering record. -/

namespace Sys2Proof.Machine

/-! ## Foreseeing -/

@[simp] theorem State.foreseeing_cfg (s : State) (l : List LateRead) : (s.foreseeing l).cfg = s.cfg := rfl
@[simp] theorem State.foreseeing_ports (s : State) (l : List LateRead) : (s.foreseeing l).ports = s.ports := rfl
@[simp] theorem State.foreseeing_mem (s : State) (l : List LateRead) : (s.foreseeing l).mem = s.mem := rfl
@[simp] theorem State.foreseeing_cur (s : State) (l : List LateRead) : (s.foreseeing l).cur = s.cur := rfl
@[simp] theorem State.foreseeing_agenda (s : State) (l : List LateRead) : (s.foreseeing l).agenda = s.agenda := rfl
@[simp] theorem State.foreseeing_regData (s : State) (l : List LateRead) : (s.foreseeing l).regData = s.regData := rfl
@[simp] theorem State.foreseeing_memData (s : State) (l : List LateRead) : (s.foreseeing l).memData = s.memData := rfl
@[simp] theorem State.foreseeing_free (s : State) (l : List LateRead) : (s.foreseeing l).free = s.free := rfl
@[simp] theorem State.foreseeing_here (s : State) (l : List LateRead) : (s.foreseeing l).here = s.here := rfl
@[simp] theorem State.foreseeing_agent (s : State) (l : List LateRead) : (s.foreseeing l).agent = s.agent := rfl
@[simp] theorem State.foreseeing_port (s : State) (l : List LateRead) (p : Nat) : (s.foreseeing l).port p = s.port p := rfl
@[simp] theorem State.foreseeing_foreseen (s : State) (l : List LateRead) : (s.foreseeing l).order.foreseen = l := rfl
@[simp] theorem State.foreseeing_trace (s : State) (l : List LateRead) : (s.foreseeing l).order.trace = s.order.trace := rfl
@[simp] theorem State.foreseeing_racy (s : State) (l : List LateRead) (a m : Nat) :
    (s.foreseeing l).order.racy a m = s.order.racy a m := rfl
@[simp] theorem State.foreseeing_dataRacy (s : State) (l : List LateRead) (a m : Nat) :
    (s.foreseeing l).order.dataRacy a m = s.order.dataRacy a m := rfl

/-- Looking ahead changes only what is foreseen. -/
theorem State.lookAhead_eq (s : State) : s.lookAhead =
    { s with order := { s.order with foreseen := foresee s, plan := planned s } } := rfl

@[simp] theorem State.lookAhead_cfg (s : State) : s.lookAhead.cfg = s.cfg := rfl
@[simp] theorem State.lookAhead_ports (s : State) : s.lookAhead.ports = s.ports := rfl
@[simp] theorem State.lookAhead_mem (s : State) : s.lookAhead.mem = s.mem := rfl
@[simp] theorem State.lookAhead_cur (s : State) : s.lookAhead.cur = s.cur := rfl
@[simp] theorem State.lookAhead_agenda (s : State) : s.lookAhead.agenda = s.agenda := rfl
@[simp] theorem State.lookAhead_regData (s : State) : s.lookAhead.regData = s.regData := rfl
@[simp] theorem State.lookAhead_memData (s : State) : s.lookAhead.memData = s.memData := rfl
@[simp] theorem State.lookAhead_free (s : State) : s.lookAhead.free = s.free := rfl
@[simp] theorem State.lookAhead_here (s : State) : s.lookAhead.here = s.here := rfl
@[simp] theorem State.lookAhead_agent (s : State) : s.lookAhead.agent = s.agent := rfl
@[simp] theorem State.lookAhead_port (s : State) (p : Nat) : s.lookAhead.port p = s.port p := rfl
@[simp] theorem State.lookAhead_foreseen (s : State) : s.lookAhead.order.foreseen = foresee s := rfl
@[simp] theorem State.lookAhead_plan (s : State) : s.lookAhead.order.plan = planned s := rfl
@[simp] theorem State.lookAhead_clocks (s : State) : s.lookAhead.order.clocks = s.order.clocks := rfl
@[simp] theorem State.lookAhead_finished (s : State) : s.lookAhead.order.finished = s.order.finished := rfl
@[simp] theorem State.lookAhead_released (s : State) : s.lookAhead.order.released = s.order.released := rfl
@[simp] theorem State.lookAhead_trace (s : State) : s.lookAhead.order.trace = s.order.trace := rfl
@[simp] theorem State.lookAhead_known (s : State) : s.lookAhead.order.known = s.order.known := rfl

/-- The bytes in which a read and a later write race are those both touch, where nothing orders the two (R77). -/
theorem mem_lateBytes (e w : MemEvent) (m : Nat) :
    m ∈ lateBytes e w ↔ e.racesWith w = true ∧ e.touches m = true ∧ w.touches m = true := by
  simp only [lateBytes]
  split
  · rename_i h
    simp only [List.mem_filter, List.mem_map, List.mem_range, h, true_and, MemEvent.touches, Bool.and_eq_true,
      decide_eq_true_eq]
    constructor
    · rintro ⟨⟨j, hj, rfl⟩, hw⟩; exact ⟨⟨by omega, by omega⟩, hw⟩
    · rintro ⟨he, hw⟩; exact ⟨⟨m - e.addr, by omega, by omega⟩, hw⟩
  · rename_i h; simp [h]

/-- A step that makes no memory event has no new event. -/
theorem newEvents_none (s t : State) (h : t.order.trace.length = s.order.trace.length) : newEvents s t = [] := by
  simp [newEvents, h]

/-- A step that makes one memory event has that one as new. -/
theorem newEvents_one (s t : State) (e : MemEvent) (h : t.order.trace = e :: s.order.trace) : newEvents s t = [e] := by
  simp [newEvents, h]

/-! ## The record grows -/

/-- From `s` to `t` at most `k` events were made, all by agent `a`, and the ports are as many as before. -/
def Grows (a k : Nat) (s t : State) : Prop :=
  (∃ es, t.order.trace = es ++ s.order.trace ∧ es.length ≤ k ∧ ∀ e ∈ es, e.agent = a) ∧
    t.ports.length = s.ports.length

theorem Grows.same {a k : Nat} {s t : State} (h : t.order.trace = s.order.trace)
    (hl : t.ports.length = s.ports.length) : Grows a k s t := ⟨⟨[], h, Nat.zero_le k, by simp⟩, hl⟩

theorem Grows.refl {a k : Nat} (s : State) : Grows a k s s := Grows.same rfl rfl

theorem Grows.one {a k : Nat} {s t : State} {e : MemEvent} (h : t.order.trace = e :: s.order.trace)
    (he : e.agent = a) (hl : t.ports.length = s.ports.length) : Grows a (k + 1) s t :=
  ⟨⟨[e], h, by simp, by simp [he]⟩, hl⟩

theorem Grows.trans {a j k : Nat} {s t u : State} (h : Grows a j s t) (h' : Grows a k t u) : Grows a (k + j) s u := by
  obtain ⟨⟨es, h1, h2, h3⟩, hl⟩ := h
  obtain ⟨⟨fs, g1, g2, g3⟩, gl⟩ := h'
  refine ⟨⟨fs ++ es, by rw [g1, h1, List.append_assoc], by simp; omega, ?_⟩, gl.trans hl⟩
  intro e he
  rcases List.mem_append.mp he with he | he
  · exact g3 e he
  · exact h3 e he

theorem Grows.mono {a j k : Nat} {s t : State} (h : Grows a j s t) (hk : j ≤ k) : Grows a k s t := by
  obtain ⟨⟨es, h1, h2, h3⟩, hl⟩ := h
  exact ⟨⟨es, h1, by omega, h3⟩, hl⟩

@[simp] theorem State.decodeStep_trace (s : State) (r : Option (ErrCode × Word)) (pos : EnginePos) :
    (s.decodeStep r pos).order.trace = s.order.trace := by
  unfold State.decodeStep; split <;> rfl

theorem micro_length (i : Instr) (s : State) : (micro i s).ports.length = s.ports.length := by
  cases i
  all_goals
    simp only [micro, microNop, microBind, microSize, microEmpty, microFull, microCapacity, microAvailRead,
      microAvailWrite, microIndexQuery, microPush, microPop, microAenq, microAdeq, microPushBody, microPopBody,
      microWspanAcq, microWspanCommit, microPenq, microPdeq, microDeint, microInter]
    split
  all_goals
    first
      | rfl
      | exact (elsewhere_decodeStep s _ _).2.2.2.2.2.1
      | exact State.loadWrStep_length s _
      | exact List.length_set ..

/-- A micro-step makes at most one memory event, the executing port's own (R68, R93). -/
theorem grows_micro (i : Instr) (s : State) : Grows s.agent 1 s (micro i s) := by
  have hl := micro_length i s
  revert hl
  cases i
  all_goals
    simp only [micro, microNop, microBind, microSize, microEmpty, microFull, microCapacity, microAvailRead,
      microAvailWrite, microIndexQuery, microPush, microPop, microAenq, microAdeq, microPushBody, microPopBody,
      microWspanAcq, microWspanCommit, microPenq, microPdeq, microDeint, microInter]
    split
  all_goals
    intro hl
    first
      | exact Grows.same rfl hl
      | exact Grows.same (State.decodeStep_trace _ _ _) hl
      | exact Grows.one rfl rfl hl
      | exact Grows.one (by rw [State.loadRdStep_order, Order.loaded_trace]; rfl) rfl hl
      | exact Grows.one (by rw [State.loadWrStep_order, Order.loaded_trace]; rfl) rfl hl

theorem microIllegal_length (s : State) : (microIllegal s).ports.length = s.ports.length := by
  unfold microIllegal
  split
  all_goals first | rfl | exact List.length_set ..

theorem grows_microIllegal (s : State) : Grows s.agent 1 s (microIllegal s) := by
  have hl := microIllegal_length s
  revert hl
  unfold microIllegal
  split
  all_goals exact fun hl => Grows.same rfl hl

theorem grows_portMicro (s : State) : Grows s.agent 1 s (portMicro s) := by
  unfold portMicro
  split
  · exact grows_micro _ s
  · exact grows_microIllegal s

theorem micro_cur (i : Instr) (s : State) : (micro i s).cur = s.cur := by
  cases i
  all_goals
    simp only [micro, microNop, microBind, microSize, microEmpty, microFull, microCapacity, microAvailRead,
      microAvailWrite, microIndexQuery, microPush, microPop, microAenq, microAdeq, microPushBody, microPopBody,
      microWspanAcq, microWspanCommit, microPenq, microPdeq, microDeint, microInter]
    split
  all_goals
    first
      | rfl
      | exact (elsewhere_decodeStep s _ _).cur
      | exact State.loadWrStep_cur s _

theorem portMicro_cur (s : State) : (portMicro s).cur = s.cur := by
  unfold portMicro
  split
  · exact micro_cur _ s
  · unfold microIllegal
    split
    all_goals rfl

/-- A port that runs makes at most one event a step. -/
theorem grows_runPort (f : State → State) (hc : ∀ s, (f s).cur = s.cur) (hf : ∀ s, Grows s.agent 1 s (f s))
    (k : Nat) (s : State) : Grows s.agent k s (runPort f k s) := by
  induction k generalizing s with
  | zero => exact Grows.refl _
  | succ k ih =>
    by_cases h : s.here.pos = .idle
    · rw [runPort_idle f _ s h]; exact Grows.refl _
    · rw [runPort_succ f k s h]
      have ha : (f s).agent = s.agent := by simp only [State.agent, hc]
      exact (hf s).trans (ha ▸ ih (f s))

theorem grows_runFar (k : Nat) (s : State) : Grows s.agent k s (runFar k s).1 := by
  induction k generalizing s with
  | zero => exact Grows.refl _
  | succ k ih =>
    unfold runFar
    split
    · exact Grows.refl _
    · split
      · exact Grows.refl _
      · have ha : (portMicro s).agent = s.agent := by simp only [State.agent, portMicro_cur]
        exact (grows_portMicro s).trans (ha ▸ ih (portMicro s))

/-- No command takes 2^42 steps (R251). -/
theorem stepBound_le (i : Instr) (q : Port) : stepBound i q ≤ 2 ^ 42 := by
  have h1 := q.larg1.isLt
  have h3 := q.larg3.isLt
  cases i
  all_goals simp only [stepBound, bindSteps, transferSteps, xposeSteps, Port.channels]
  all_goals first | omega | (split <;> omega)

theorem bound?_le (q : Port) : q.bound? ≤ 2 ^ 42 := by
  unfold Port.bound?
  split
  · exact stepBound_le _ q
  · omega

/-- A command's meaning is its micro-steps one after another. -/
theorem exec_runPort (i : Instr) (s : State) : exec i s = .next (runPort (micro i) (stepBound i s.here) s) := by
  cases i <;> rfl

theorem grows_execHere {s t : State} (h : execHere s = .next t) : Grows s.agent (2 ^ 42) s t := by
  unfold execHere at h
  split at h
  · rename_i i _
    rw [exec_runPort] at h
    cases h
    exact (grows_runPort _ (micro_cur i) (grows_micro i) _ s).mono (stepBound_le i _)
  · cases h
    refine (grows_runPort microIllegal (fun s => ?_) grows_microIllegal 2 s).mono (by omega)
    unfold microIllegal
    split
    all_goals rfl

theorem grows_runHere {s t : State} (h : runHere s = .next t) : Grows s.agent (2 ^ 42) s t := by
  unfold runHere at h
  split at h
  · rename_i u _
    cases u <;> cases h
  · exact grows_execHere h

theorem grows_guardedMicro {s t : State} (h : guardedMicro s = .next t) : Grows s.agent (2 ^ 42) s t := by
  unfold guardedMicro at h
  split at h
  · rename_i u _
    cases u <;> cases h
  · cases h
    exact (grows_portMicro s).mono (by omega)

/-- The agent that moves. -/
def Move.agent (m : Move) : Nat :=
  match m with
  | .portStep p => portAgent p
  | .run p => portAgent p
  | .command p _ => portAgent p
  | .wait p => portAgent p
  | .regRead _ _ => hostAgent
  | .regWrite _ _ _ => hostAgent
  | .memRead _ _ => hostAgent
  | .memWrite _ _ => hostAgent
  | .rst => hostAgent

theorem grows_writeCmd (a k : Nat) (s : State) (p : Nat) (w : Word) : Grows a k s (s.writeCmd p w) := by
  unfold State.writeCmd
  split
  all_goals exact Grows.same rfl (List.length_set ..)

theorem grows_writeReg (a k : Nat) (s : State) (off : Nat) (v : Word) : Grows a k s (s.writeReg off v) := by
  unfold State.writeReg
  split
  · exact Grows.refl _
  · split
    · split
      · exact grows_writeCmd a k s _ v
      · exact Grows.same rfl (List.length_set ..)
    · exact Grows.refl _

theorem grows_afterRead (a k : Nat) (s : State) (off : Nat) : Grows a k s (s.afterRead off) := by
  unfold State.afterRead State.seeStatus
  split
  · split
    all_goals exact Grows.same rfl rfl
  · exact Grows.same rfl rfl

theorem grows_absentStatus {a k : Nat} {s t : State} {p : Nat} (h : moveAbsentStatus s p = .next t) :
    Grows a k s t := by
  unfold moveAbsentStatus at h
  split at h
  · cases h; exact grows_afterRead a k s _
  · cases h

/-- A move other than RST makes fewer than 2^42 events, all by one agent (R68, R251). -/
theorem grows_move {s t : State} {m : Move} (hm : m ≠ .rst) (h : move s m = .next t) :
    Grows m.agent (2 ^ 42) s t := by
  cases m with
  | regRead addr width =>
    simp only [move, moveRegRead] at h
    split at h
    · cases h
    · split at h
      · cases h
      · cases h; exact grows_afterRead _ _ s _
  | regWrite addr width v =>
    simp only [move, moveRegWrite] at h
    split at h
    · cases h
    · split at h
      · cases h
      · cases h; exact grows_writeReg _ _ s _ v
  | memRead addr n =>
    simp only [move, moveMemRead] at h
    split at h
    · cases h; exact Grows.one rfl rfl rfl
    · cases h
  | memWrite addr bs =>
    have : t = s.writeEvent hostAgent addr (hostOpen s) bs := by
      simp only [move, moveMemWrite] at h
      split at h
      · split at h
        · rename_i u _
          cases u <;> cases h
        · cases h; rfl
      · cases h; rfl
    subst this
    exact Grows.one rfl rfl rfl
  | portStep p =>
    simp only [move, movePortStep] at h
    split at h
    · exact grows_guardedMicro h
    · cases h; exact Grows.refl _
  | run p =>
    simp only [move, moveRun] at h
    split at h
    · exact grows_runHere h
    · cases h; exact Grows.refl _
  | command p w =>
    simp only [move, moveCommand] at h
    split at h
    · split at h
      · cases h; exact grows_writeCmd _ _ s p w
      · split at h
        · rename_i u hu
          cases h
          exact (grows_writeCmd (portAgent p) 0 s p w).trans (grows_runHere hu)
        · cases h
        · cases h
    · exact (grows_writeReg (portAgent p) 0 s _ w).trans (grows_absentStatus h)
  | wait p =>
    simp only [move, moveWait] at h
    split at h
    · split at h
      · exact grows_guardedMicro (s := { s with cur := p, agenda := .wait p :: s.agenda }) h
      · cases h; exact Grows.refl _
    · exact grows_absentStatus h
  | rst => exact absurd rfl hm

theorem grows_finishPort (s : State) (p : Nat) : Grows (portAgent p) (2 ^ 42) s (finishPort s p).1 :=
  (grows_runFar _ { s with cur := p }).mono (bound?_le _)

theorem grows_lastOf {a k : Nat} {s : State} {o : Host.Outcome State Fault Refusal}
    (h : ∀ t, o = .next t → Grows a k s t) : Grows a k s (lastOf s o).1 := by
  cases o with
  | next t => exact h t rfl
  | fault f => exact Grows.refl _
  | refused r => exact Grows.refl _

theorem grows_wholeMove {s : State} {m : Move} (hm : m ≠ .rst) : Grows m.agent (2 ^ 42) s (wholeMove s m).1 := by
  cases m with
  | wait p =>
    simp only [wholeMove, wholeWait]
    split
    · have h := grows_finishPort s p
      split
      · rename_i t ht
        rw [ht] at h
        exact h
      · rename_i t ht
        rw [ht] at h
        exact h
    · exact grows_lastOf fun t ht => grows_move hm ht
  | rst => exact absurd rfl hm
  | regRead _ _ => exact grows_lastOf fun t ht => grows_move hm ht
  | regWrite _ _ _ => exact grows_lastOf fun t ht => grows_move hm ht
  | memRead _ _ => exact grows_lastOf fun t ht => grows_move hm ht
  | memWrite _ _ => exact grows_lastOf fun t ht => grows_move hm ht
  | portStep _ => exact grows_lastOf fun t ht => grows_move hm ht
  | run _ => exact grows_lastOf fun t ht => grows_move hm ht
  | command _ _ => exact grows_lastOf fun t ht => grows_move hm ht

/-- From `s` to `t` at most `k` events were made, and the ports are as many as before. -/
def GrowsBy (k : Nat) (s t : State) : Prop :=
  (∃ es, t.order.trace = es ++ s.order.trace ∧ es.length ≤ k) ∧ t.ports.length = s.ports.length

theorem GrowsBy.refl {k : Nat} (s : State) : GrowsBy k s s := ⟨⟨[], rfl, Nat.zero_le k⟩, rfl⟩

theorem Grows.by {a k : Nat} {s t : State} (h : Grows a k s t) : GrowsBy k s t := by
  obtain ⟨⟨es, h1, h2, _⟩, hl⟩ := h
  exact ⟨⟨es, h1, h2⟩, hl⟩

theorem GrowsBy.trans {j k : Nat} {s t u : State} (h : GrowsBy j s t) (h' : GrowsBy k t u) : GrowsBy (k + j) s u := by
  obtain ⟨⟨es, h1, h2⟩, hl⟩ := h
  obtain ⟨⟨fs, g1, g2⟩, gl⟩ := h'
  exact ⟨⟨fs ++ es, by rw [g1, h1, List.append_assoc], by simp; omega⟩, gl.trans hl⟩

theorem GrowsBy.mono {j k : Nat} {s t : State} (h : GrowsBy j s t) (hk : j ≤ k) : GrowsBy k s t := by
  obtain ⟨⟨es, h1, h2⟩, hl⟩ := h
  exact ⟨⟨es, h1, by omega⟩, hl⟩

theorem grows_drain (k : Nat) (s : State) : GrowsBy (k * 2 ^ 42) s (drain k s) := by
  induction k generalizing s with
  | zero => exact GrowsBy.refl s
  | succ k ih =>
    unfold drain
    split
    · exact GrowsBy.refl s
    · rename_i p _
      have h := (grows_finishPort s p).by
      split
      · rename_i t ht
        rw [ht] at h
        exact (h.trans (ih t)).mono (by omega)
      · rename_i t ht
        rw [ht] at h
        exact h.mono (by omega)

theorem grows_runPlan (ms : List Move) (s : State) :
    GrowsBy ((ms.length + s.ports.length) * 2 ^ 42) s (runPlan ms s) := by
  induction ms generalizing s with
  | nil => exact (grows_drain _ s).mono (by simp)
  | cons m rest ih =>
    unfold runPlan
    split
    · exact GrowsBy.refl s
    · rename_i hm
      have h := (grows_wholeMove (s := { s with agenda := rest }) hm).by
      have hs : ∀ t, GrowsBy (2 ^ 42) { s with agenda := rest } t → GrowsBy (2 ^ 42) s t := fun t h => h
      split
      · rename_i t ht
        rw [ht] at h
        refine ((hs t h).trans (ih t)).mono ?_
        rw [show t.ports.length = s.ports.length from h.2, List.length_cons]
        omega
      · rename_i t ht
        rw [ht] at h
        exact (hs t h).mono (by rw [List.length_cons]; omega)

/-- The events of the planned run, and how many they can be. -/
theorem planEnd_trace (s : State) (l : List LateRead) :
    (planEnd s l).order.trace = newEvents s (planEnd s l) ++ s.order.trace ∧
      (newEvents s (planEnd s l)).length ≤ planBound s := by
  obtain ⟨⟨es, h1, h2⟩, -⟩ := grows_runPlan s.agenda (s.foreseeing l)
  have h3 : (planEnd s l).order.trace = es ++ s.order.trace := h1
  have h4 : newEvents s (planEnd s l) = es := by
    simp [newEvents, h3]
  exact ⟨by rw [h4, h3], by rw [h4]; exact h2⟩

/-! ## Which reads race late -/

/-- A write makes a late read of each earlier read that races with it, in each byte both touch. -/
theorem mem_lateBy (base : Nat) (w : MemEvent) (es : List MemEvent) (r : LateRead) :
    r ∈ lateBy base w es ↔ ∃ later e before, es = later ++ e :: before ∧ r.event = base + before.length ∧
      r.byte ∈ lateBytes e w := by
  induction es with
  | nil => simp [lateBy]
  | cons e rest ih =>
    simp only [lateBy, List.mem_append, List.mem_map, ih]
    constructor
    · rintro (⟨m, hm, rfl⟩ | ⟨later, f, before, rfl, h1, h2⟩)
      · exact ⟨[], e, rest, rfl, rfl, hm⟩
      · exact ⟨e :: later, f, before, rfl, h1, h2⟩
    · rintro ⟨later, f, before, h0, h1, h2⟩
      cases later with
      | nil =>
        obtain ⟨rfl, rfl⟩ := List.cons.inj h0
        exact Or.inl ⟨r.byte, h2, by rw [← h1]⟩
      | cons g later =>
        obtain ⟨rfl, rfl⟩ := List.cons.inj h0
        exact Or.inr ⟨later, f, before, rfl, h1, h2⟩

/-- The late reads of a run are its reads that a later write races with, in each byte both touch (R77). -/
theorem mem_lateIn (base : Nat) (es : List MemEvent) (r : LateRead) :
    r ∈ lateIn base es ↔ ∃ later w between e before, es = later ++ w :: (between ++ e :: before) ∧
      r.event = base + before.length ∧ e.racesWith w = true ∧ e.touches r.byte = true ∧ w.touches r.byte = true := by
  have key : ∀ (w : MemEvent) (rest : List MemEvent),
      (r ∈ (if w.kind.isWrite = true then lateBy base w rest else [])) ↔ ∃ between e before,
        rest = between ++ e :: before ∧ r.event = base + before.length ∧ e.racesWith w = true ∧
        e.touches r.byte = true ∧ w.touches r.byte = true := by
    intro w rest
    split
    · simp only [mem_lateBy, mem_lateBytes]
    · rename_i hw
      simp only [List.not_mem_nil, false_iff]
      rintro ⟨-, e, -, -, -, hr, -⟩
      simp only [MemEvent.racesWith, Bool.and_eq_true] at hr
      exact hw hr.1.1.2
  induction es with
  | nil => simp [lateIn]
  | cons w rest ih =>
    have : lateIn base (w :: rest) =
        (if w.kind.isWrite = true then lateBy base w rest else []) ++ lateIn base rest := by
      simp only [lateIn]; split <;> rfl
    rw [this, List.mem_append]
    refine (or_congr (key w rest) ih).trans ?_
    constructor
    · rintro (⟨b, e, c, h1, h2⟩ | ⟨a, w', b, e, c, h1, h2⟩)
      · exact ⟨[], w, b, e, c, by rw [h1]; rfl, h2⟩
      · exact ⟨w :: a, w', b, e, c, by rw [h1]; rfl, h2⟩
    · rintro ⟨a, w', b, e, c, h1, h2⟩
      cases a with
      | nil =>
        obtain ⟨rfl, h3⟩ := List.cons.inj h1
        exact Or.inl ⟨b, e, c, h3, h2⟩
      | cons x a =>
        obtain ⟨rfl, h3⟩ := List.cons.inj h1
        exact Or.inr ⟨a, w', b, e, c, h3, h2⟩

/-- Events of one agent race with none of each other. -/
theorem lateIn_one_agent (base a : Nat) (es : List MemEvent) (h : ∀ e ∈ es, e.agent = a) : lateIn base es = [] := by
  rw [List.eq_nil_iff_forall_not_mem]
  intro r hr
  obtain ⟨x, w, y, e, z, rfl, -, hr, -⟩ := (mem_lateIn base es r).mp hr
  have h1 := h w (by simp)
  have h2 := h e (by simp)
  simp [MemEvent.racesWith, MemEvent.before, h1, h2] at hr

theorem lateIn_oneAgent (base : Nat) (es : List MemEvent) (h : oneAgent es = true) : lateIn base es = [] := by
  cases es with
  | nil => rfl
  | cons e rest =>
    refine lateIn_one_agent base e.agent _ fun f hf => ?_
    rcases List.mem_cons.mp hf with rfl | hf
    · rfl
    · simpa using List.all_eq_true.mp h f hf

theorem mem_lateReads (s : State) (l : List LateRead) (r : LateRead) :
    r ∈ lateReads s l ↔
      r ∈ lateIn s.order.trace.length (newEvents s (planEnd s l)) ∧ r.byte < s.cfg.memSize := by
  simp only [lateReads]
  split
  · rename_i h
    rw [lateIn_oneAgent _ _ h]
    simp
  · simp

/-- The late reads of the planned run are among its events and in MEM. -/
theorem lateReads_lt (s : State) (l : List LateRead) (r : LateRead) (h : r ∈ lateReads s l) :
    s.order.trace.length ≤ r.event ∧ r.event < s.order.trace.length + planBound s ∧ r.byte < s.cfg.memSize := by
  obtain ⟨h1, h2⟩ := (mem_lateReads s l r).mp h
  obtain ⟨x, w, y, e, z, h3, h4, -⟩ := (mem_lateIn _ _ r).mp h1
  have := (planEnd_trace s l).2
  rw [h3] at this
  simp at this
  exact ⟨by omega, by omega, h2⟩

/-! ## The search for late reads -/

theorem closed_iff (late : List LateRead → List LateRead) (l : List LateRead) :
    closed late l = true ↔ late l ⊆ l := by
  simp [closed, List.subset_def]

/-- The search ends closed, if there are fewer late reads than looks. -/
theorem closed_settle (k : Nat) (late : List LateRead → List LateRead) (l : List LateRead) (S : Finset LateRead)
    (hS : ∀ l, ∀ r ∈ late l, r ∈ S) (hk : (S \ l.toFinset).card < k) : closed late (settle k late l) = true := by
  induction k generalizing l with
  | zero => omega
  | succ k ih =>
    simp only [settle]
    split
    · rename_i h
      rw [closed_iff]
      intro r hr
      by_contra hc
      have : r ∈ (late l).filter (fun r => !l.contains r) := by simp [hr, hc]
      rw [h] at this
      cases this
    · rename_i r more h
      apply ih
      have hr : r ∈ (late l).filter (fun r => !l.contains r) := by rw [h]; simp
      simp only [List.mem_filter, Bool.not_eq_true', List.contains_eq_mem, decide_eq_false_iff_not] at hr
      have hlt : (S \ (l ++ r :: more).toFinset).card < (S \ l.toFinset).card := by
        apply Finset.card_lt_card
        rw [Finset.ssubset_iff_of_subset (Finset.sdiff_subset_sdiff (Finset.Subset.refl _) (by
          intro x hx; simp only [List.mem_toFinset, List.mem_append] at hx ⊢; exact Or.inl hx))]
        exact ⟨r, by simp [hS l r hr.1, hr.2], by simp⟩
      omega

theorem closed_tighten (k : Nat) (late : List LateRead → List LateRead) (l : List LateRead)
    (h : closed late l = true) : closed late (tighten k late l) = true := by
  induction k generalizing l with
  | zero => exact h
  | succ k ih =>
    simp only [tighten]
    split
    · exact h
    · split
      · rename_i h2
        exact ih _ h2
      · exact h

theorem closed_search (s : State) (l : List LateRead) : closed (lateReads s) (search s l) = true := by
  unfold search
  split
  · assumption
  · refine closed_tighten _ _ _ (closed_settle _ _ _
      (((Finset.range (planBound s)) ×ˢ (Finset.range s.cfg.memSize)).image
        (fun x => ({ event := s.order.trace.length + x.1, byte := x.2 } : LateRead))) ?_ ?_)
    · intro l r hr
      obtain ⟨h1, h2, h3⟩ := lateReads_lt s l r hr
      simp only [Finset.mem_image, Finset.mem_product, Finset.mem_range, Prod.exists]
      refine ⟨r.event - s.order.trace.length, r.byte, ⟨by omega, h3⟩, ?_⟩
      rw [show s.order.trace.length + (r.event - s.order.trace.length) = r.event by omega]
    · refine Nat.lt_succ_of_le ((Finset.card_le_card Finset.sdiff_subset).trans (Finset.card_image_le.trans ?_))
      simp

theorem closed_inPlan (s : State) (l : List LateRead) (h : closed (lateReads s) l = true) :
    closed (lateReads s) (inPlan s l) = true := by
  unfold inPlan
  split
  · exact h
  · simp only []
    split
    · assumption
    · exact h

/-- The planned run foresees every late read it comes to (R77). -/
theorem planned_closed (s : State) : lateReads s (planned s) ⊆ planned s :=
  (closed_iff _ _).mp (closed_inPlan s _ (closed_search s _))

/-- With nothing foreseen before, and no late read when none is, none is foreseen. -/
theorem planned_eq_nil (s : State) (hp : s.order.plan = []) (h : lateReads s [] = []) : planned s = [] := by
  have : closed (lateReads s) [] = true := by simp [closed, h]
  rw [planned, hp, search, if_pos this]
  rfl

@[simp] theorem inStep_nil (s : State) : inStep s [] = [] := rfl

/-- What a step foresees is what its plan does of the step's events. -/
theorem inStep_next (s t : State) (l : List LateRead) (h : act (s.foreseeing l) = .next t) :
    inStep s l = l.filter (fun r => decide (r.event < t.order.trace.length)) := by
  cases l with
  | nil => rfl
  | cons r more => simp only [inStep, h]

end Sys2Proof.Machine
end

