-- ==== Sys2Proof/Machine/Assembler.lean ====
section
/-! DEFINITION. RBC assembly (spec R102, R103): host operations and pseudo-instructions as lists of the host's moves
for a port. The directive `.port p` is the port argument; labels and comments mean nothing to the machine. -/

namespace Sys2Proof.Machine

/-- The registers a `set` names (R102). -/
inductive SetReg where
  | arg0
  | arg1
  | arg2
  | arg3
  | ctrl
  | status
deriving DecidableEq, Repr

/-- The offset of a `set` register (R27). -/
def SetReg.off (r : SetReg) : Nat :=
  match r with
  | .arg0 => 0x14
  | .arg1 => 0x18
  | .arg2 => 0x1C
  | .arg3 => 0x20
  | .ctrl => 0x08
  | .status => 0x04

/-- The host address of the register at offset `off` of port `p` (R26). -/
def portRegAddr (cfg : Config) (p off : Nat) : Nat := cfg.regBase + portSpace + portStride * p + off

/-- A host operation of R102, on the current port. -/
inductive HostOp where
  /-- `set REG, v`. -/
  | set (r : SetReg) (v : Word)
  /-- `get REG`, by the register's offset (R27). -/
  | get (off : Nat)
  /-- `wait`. -/
  | wait
  /-- `mw8 a, v`. -/
  | mw8 (a : Nat) (v : Byte)
  /-- `mw32 a, v`. -/
  | mw32 (a : Nat) (v : Word)
  /-- `mr8 a`. -/
  | mr8 (a : Nat)
  /-- `mr32 a`. -/
  | mr32 (a : Nat)
  /-- A lower-case command mnemonic: exactly one CMD write. -/
  | cmd (i : Instr)
deriving DecidableEq, Repr

/-- The moves of a host operation on port `p` (R102: one host action each, `wait` a poll). -/
def HostOp.moves (cfg : Config) (p : Nat) (op : HostOp) : List Move :=
  match op with
  | .set r v => [.regWrite (portRegAddr cfg p r.off) 4 v]
  | .get off => [.regRead (portRegAddr cfg p off) 4]
  | .wait => [.wait p]
  | .mw8 a v => [.memWrite a [v]]
  | .mw32 a v => [.memWrite a (leBytes v)]
  | .mr8 a => [.memRead a 1]
  | .mr32 a => [.memRead a 4]
  | .cmd i => [.regWrite (portRegAddr cfg p 0x00) 4 (encode i)]

/-- The offset of RES0 (R27). -/
def offRes0 : Nat := 0x24

/-- A pseudo-instruction of R103. -/
inductive Pseudo where
  /-- `BIND.<k>.<pr>.<r>[.init] base, bytes`. -/
  | bind (kind : BitVec 4) (proto : BitVec 2) (role : Role) (init : Bool) (base bytes : Word)
  /-- `SIZE.<k> cap`. -/
  | size (kind : BitVec 4) (cap : Word)
  /-- `Q <query>`. -/
  | query (i : Instr)
  /-- `PUSH src, len, off`. -/
  | push (src len off : Word)
  /-- `POP dst, len, off`. -/
  | pop (dst len off : Word)
  /-- `ACQ amount`. -/
  | acq (amount : Word)
  /-- `COMMIT n`. -/
  | commit (n : Word)
  /-- `COMMIT`. -/
  | commitDflt
  /-- `AENQ buf, len`. -/
  | aenq (buf len : Word)
  /-- `ADEQ buf, len`. -/
  | adeq (buf len : Word)
  /-- `PENQ i, vbits`. -/
  | penq (pidx : BitVec 8) (v : Word)
  /-- `PDEQ`. -/
  | pdeq
  /-- `DEINT buf, len, tbl, n`. -/
  | deint (buf len tbl n : Word)
  /-- `INTER buf, len, tbl, n`. -/
  | inter (buf len tbl n : Word)
deriving DecidableEq, Repr

/-- The expansion of a pseudo-instruction (R103). -/
def Pseudo.expand (x : Pseudo) : List HostOp :=
  match x with
  | .bind kind proto role init base bytes =>
    [.set .arg0 base, .set .arg1 bytes, .cmd (.bind kind proto role init), .wait]
  | .size kind cap => [.set .arg0 cap, .cmd (.size kind), .wait]
  | .query i => [.cmd i, .wait, .get offRes0]
  | .push src len off => [.set .arg0 src, .set .arg1 len, .set .arg2 off, .cmd .push, .wait]
  | .pop dst len off => [.set .arg0 dst, .set .arg1 len, .set .arg2 off, .cmd .pop, .wait]
  | .acq amount => [.set .arg0 amount, .cmd .wspanAcq, .wait]
  | .commit n => [.set .arg0 n, .cmd (.wspanCommit false), .wait]
  | .commitDflt => [.cmd (.wspanCommit true), .wait]
  | .aenq buf len => [.set .arg0 buf, .set .arg1 len, .cmd .aenq, .wait]
  | .adeq buf len => [.set .arg0 buf, .set .arg1 len, .cmd .adeq, .wait]
  | .penq pidx v => [.set .arg0 v, .cmd (.penq pidx), .wait]
  | .pdeq => [.cmd .pdeq, .wait]
  | .deint buf len tbl n =>
    [.set .arg0 buf, .set .arg1 len, .set .arg2 tbl, .set .arg3 n, .cmd .deint, .wait]
  | .inter buf len tbl n =>
    [.set .arg0 buf, .set .arg1 len, .set .arg2 tbl, .set .arg3 n, .cmd .inter, .wait]

/-- The moves of a pseudo-instruction on port `p` (R103). -/
def Pseudo.moves (cfg : Config) (p : Nat) (x : Pseudo) : List Move :=
  x.expand.flatMap (fun op => op.moves cfg p)

end Sys2Proof.Machine
end

