-- ==== Sys2Proof/Tests/Slice0.lean ====
section
/-! SUPPORT. Tests: ill-formed commands refused, command words written out bit by bit, one small step per command with
values from the spec's examples, and for every statement with hypotheses a state and operands that meet them. -/

namespace Sys2Proof.Tests

open Sys2Proof.Machine

-- one test after another: each test checked in a thread of its own takes more memory than the check allows
set_option Elab.async false

/-! ## Well-formedness -/

/-- PROTO = 3 is the one ill-formed field value (R98). -/
theorem test_wf_bind_proto_3 : (Instr.bind 6#4 3#2 .producer true).wellFormed = false := by decide

/-- The word an ill-formed BIND would have is refused by name (R98). -/
theorem test_decode_bind_proto_3 :
    decode 0b00000001011011010000000000000000#32 = .error (.reservedProto 0x016D0000#32) := by decide

/-- A KIND of 11 to 15 is a legal encoding (R98). -/
theorem test_wf_bind_kind_15 : (Instr.bind 15#4 0#2 .consumer false).wellFormed = true := by decide

/-! ## Words, OPC in bits 31:24 and the format's fields below (R91, R92) -/

theorem test_decode_nop : decode 0b00000000000000000000000000000000#32 = .ok .nop := by decide
theorem test_decode_bind :
    decode 0b00000001011101100000000000000000#32 = .ok (.bind 7#4 1#2 .consumer false) := by decide
theorem test_decode_bind_init :
    decode 0b00000001000110010000000000000000#32 = .ok (.bind 1#4 2#2 .producer true) := by decide
theorem test_decode_size : decode 0b00000010101000000000000000000000#32 = .ok (.size 10#4) := by decide
theorem test_decode_empty : decode 0b00000011000000000000000000000000#32 = .ok .empty := by decide
theorem test_decode_full : decode 0b00000100000000000000000000000000#32 = .ok .full := by decide
theorem test_decode_capacity : decode 0b00000101000000000000000000000000#32 = .ok .capacity := by decide
theorem test_decode_availRead : decode 0b00000110000000000000000000000000#32 = .ok .availRead := by decide
theorem test_decode_availWrite : decode 0b00000111000000000000000000000000#32 = .ok .availWrite := by decide
theorem test_decode_push : decode 0b00010000000000000000000000000000#32 = .ok .push := by decide
theorem test_decode_pop : decode 0b00010001000000000000000000000000#32 = .ok .pop := by decide
theorem test_decode_wspanAcq : decode 0b00010010000000000000000000000000#32 = .ok .wspanAcq := by decide
theorem test_decode_wspanCommit :
    decode 0b00010011000000000000000000000000#32 = .ok (.wspanCommit false) := by decide
theorem test_decode_wspanCommit_dflt :
    decode 0b00010011000000010000000000000000#32 = .ok (.wspanCommit true) := by decide
theorem test_decode_aenq : decode 0b00100000000000000000000000000000#32 = .ok .aenq := by decide
theorem test_decode_adeq : decode 0b00100001000000000000000000000000#32 = .ok .adeq := by decide
theorem test_decode_penq : decode 0b00110000000000000000000011111111#32 = .ok (.penq 255#8) := by decide
theorem test_decode_pdeq : decode 0b00110001000000000000000000000000#32 = .ok .pdeq := by decide
theorem test_decode_deint : decode 0b01000000000000000000000000000000#32 = .ok .deint := by decide
theorem test_decode_inter : decode 0b01000001000000000000000000000000#32 = .ok .inter := by decide
theorem test_decode_reserved_opcode : decode 0x42000000#32 = .error (.reservedOpcode 0x42#8) := by decide
theorem test_decode_reserved_bits : decode 0x10000001#32 = .error (.reservedBits 0x10000001#32) := by decide
theorem test_table_word_short : decodeTableWord 32 0x30000003 = some (.penq 3#8) := by decide

/-! ## A small machine -/

/-- The operands of a command: LARG0 to LARG3. -/
structure Args where
  a0 : Word := 0
  a1 : Word := 0
  a2 : Word := 0
  a3 : Word := 0

/-- A port that stands at its decode step, unbound. -/
def ready (x : Args) : Port :=
  { Port.reset with status := 1, larg0 := x.a0, larg1 := x.a1, larg2 := x.a2, larg3 := x.a3, pos := .decode }

/-- The same port bound to the segment at 0x1000. -/
def bound (kind : BitVec 4) (proto : BitVec 2) (role : Role) (slots : Word) (x : Args) : Port :=
  { ready x with
    status := 0x11, segBase := 0x1000, slots := slots
    bindcfg := bindcfgWord kind ((elemSize kind).getD 0) proto role }

/-- Two ports, the first about to start a command, the second idle and unbound, and the bytes `bs` from 0x1000 on. -/
def two (q : Port) (bs : List Byte) : State :=
  { State.reset with ports := [q, Port.reset], mem := Memory.writeBytes [] 0x1000 bs }

/-- The first bytes of a segment: write_index, read_index (R47). -/
def indices (wr rd : Word) : List Byte := leBytes wr ++ leBytes rd

/-- Little-endian words as bytes. -/
def wordBytes (ws : List Word) : List Byte := ws.flatMap leBytes

/-- The step answers a next state. -/
def isNext (o : Host.Outcome State Fault Refusal) : Bool :=
  match o with
  | .next _ => true
  | .fault _ => false
  | .refused _ => false

/-- The next state, where there is one. -/
def after (o : Host.Outcome State Fault Refusal) : State :=
  match o with
  | .next t => t
  | .fault _ => State.reset
  | .refused _ => State.reset

theorem next_after (o : Host.Outcome State Fault Refusal) (h : isNext o = true) : o = .next (after o) := by
  cases o <;> first | rfl | cases h

/-- The port that ran, after `exec`. -/
def ran (i : Instr) (s : State) : Port := (after (exec i s)).here

/-! ## One command each, from the spec's examples -/

/-- R110: NOP as the first command after reset leaves STATUS = DONE. -/
theorem test_nop_first_command :
    ((after (step (State.reset.withFetchWord 32 0))).port 0).status = 0x2#32 := by decide +kernel

/-- R111's example: S = 11, BINDCFG = 0x046, RES0 = 10. -/
theorem test_bind_example :
    let q := ran (.bind 6#4 0#2 .producer true) (two (ready { a0 := 0x1000, a1 := 52 }) [])
    q.slots = 11 ∧ q.bindcfg = 0x046 ∧ q.res0 = 10 ∧ q.segBase = 0x1000 ∧ q.status = 0x12 := by decide +kernel

/-- R111: a reserved kind ends with TYPE_MISMATCH, ERR_INFO the kind. -/
theorem test_bind_reserved_kind :
    let q := ran (.bind 12#4 0#2 .producer true) (two (ready { a0 := 0x1001, a1 := 52 }) [])
    q.errCause = 7 ∧ q.errInfo = 12 ∧ q.status = 0x6 ∧ q.slots = 0 := by decide +kernel

/-- R120's example. -/
theorem test_size_example : (ran (.size 6#4) (two (ready { a0 := 10 }) [])).res0 = 52 := by decide +kernel

/-- R121: one above the largest capacity of 8-byte elements. -/
theorem test_size_overflow :
    let q := ran (.size 8#4) (two (ready { a0 := 0x1FFFFFFE }) [])
    q.errCause = 9 ∧ q.errInfo = 0x1FFFFFFE := by decide +kernel

/-- R130: a ring of capacity 0 is empty and full. -/
theorem test_empty_capacity_0 :
    (ran .empty (two (bound 6#4 0#2 .producer 1 {}) (indices 0 0))).res0 = 1 := by decide +kernel

theorem test_full_capacity_0 :
    (ran .full (two (bound 6#4 0#2 .consumer 1 {}) (indices 0 0))).res0 = 1 := by decide +kernel

/-- R163: C = S − 1. -/
theorem test_capacity : (ran .capacity (two (bound 6#4 0#2 .consumer 11 {}) [])).res0 = 10 := by decide +kernel

/-- R164: S = 11, rd = 10, wr = 1 gives 2. -/
theorem test_availRead_wraps :
    (ran .availRead (two (bound 6#4 0#2 .consumer 11 {}) (indices 1 10))).res0 = 2 := by decide +kernel

/-- R165's example: S = 11, rd = 0, wr = 6 gives 4. -/
theorem test_availWrite_example :
    (ran .availWrite (two (bound 6#4 0#2 .producer 11 {}) (indices 6 0))).res0 = 4 := by decide +kernel

/-- R131: an index at S ends with INDEX_RANGE, ERR_INFO the index. -/
theorem test_availWrite_index_range :
    let q := ran .availWrite (two (bound 6#4 0#2 .producer 11 {}) (indices 11 0))
    q.errCause = 10 ∧ q.errInfo = 11 ∧ q.lrd = 0 ∧ q.lwr = 11 := by decide +kernel

/-- R140's example: slots 6 to 10 get 6 to 10, slot 0 gets 11, write_index becomes 1. -/
theorem test_push_example :
    let s := two (bound 6#4 0#2 .producer 11 { a0 := 0x1100, a1 := 6 })
      (indices 6 4 ++ List.replicate 0xF8 0 ++ wordBytes [6, 7, 8, 9, 10, 11])
    let t := after (exec .push s)
    t.here.res0 = 6 ∧ t.mem.readWord 0x1000 = 1 ∧ t.mem.readWord 0x1004 = 4 ∧ t.mem.readWord 0x1020 = 6 ∧
      t.mem.readWord 0x1030 = 10 ∧ t.mem.readWord 0x1008 = 11 ∧ t.mem.readWord 0x100C = 0 := by decide +kernel

/-- R134: PUSH on a CONSUMER port ends with ROLE, ERR_INFO 1. -/
theorem test_push_role :
    let q := ran .push (two (bound 6#4 0#2 .consumer 11 {}) (indices 0 0))
    q.errCause = 3 ∧ q.errInfo = 1 := by decide +kernel

/-- R145's example, on three elements: S = 11, rd = 9, wr = 1: slots 9, 10 and 0, read_index becomes 1. -/
theorem test_pop_wraps :
    let s := two (bound 6#4 0#2 .consumer 11 { a0 := 0x1100, a1 := 6, a2 := 1 })
      (indices 1 9 ++ wordBytes [11, 0, 0, 0, 0, 0, 0, 0, 0, 9, 10])
    let t := after (exec .pop s)
    t.here.res0 = 3 ∧ t.mem.readWord 0x1004 = 1 ∧ t.mem.readWord 0x1100 = 0 ∧ t.mem.readWord 0x1104 = 9 ∧
      t.mem.readWord 0x1108 = 10 ∧ t.mem.readWord 0x110C = 11 := by decide +kernel

/-- R146: an empty ring gives 0 and makes no store. -/
theorem test_pop_empty :
    let t := after (exec .pop (two (bound 6#4 0#2 .consumer 11 { a0 := 0x1100, a1 := 6 }) (indices 3 3)))
    t.here.res0 = 0 ∧ t.order.trace.length = 2 := by decide +kernel

/-- R150's example: S = 5, rd = wr = 3, amount = 4. -/
theorem test_wspanAcq_example :
    let q := ran .wspanAcq (two (bound 6#4 0#2 .producer 5 { a0 := 4 }) (indices 3 3))
    q.span0Addr = 0x1014 ∧ q.span0Len = 2 ∧ q.span1Addr = 0x1008 ∧ q.span1Len = 2 ∧ q.res0 = 4 ∧
      q.status = 0x32 := by decide +kernel

/-- A producer port with the grant of R150's example. -/
def granted (x : Args) : Port := { bound 6#4 0#2 .producer 5 x with status := 0x31, grantWr := 3, grantN := 4 }

/-- R155's example: COMMIT 3 publishes (3 + 3) mod 5 = 1. -/
theorem test_wspanCommit_example :
    let t := after (exec (.wspanCommit false) (two (granted { a0 := 3 }) (indices 3 3)))
    t.mem.readWord 0x1000 = 1 ∧ t.here.res0 = 3 ∧ t.here.status = 0x12 := by decide +kernel

/-- R155: COMMIT 5 of 4 granted ends with COMMIT_RANGE, the grant stays. -/
theorem test_wspanCommit_range :
    let q := ran (.wspanCommit false) (two (granted { a0 := 5 }) (indices 3 3))
    q.errCause = 13 ∧ q.errInfo = 5 ∧ q.status = 0x36 := by decide +kernel

/-- R171: AENQ ignores LARG2 and moves 4-byte samples. -/
theorem test_aenq :
    let s := two (bound 7#4 1#2 .producer 3 { a0 := 0x1020, a1 := 2, a2 := 7 })
      (indices 2 2 ++ List.replicate 24 0 ++ wordBytes [0x3F800000, 0x7FC00001])
    let t := after (exec .aenq s)
    t.here.res0 = 2 ∧ t.mem.readWord 0x1000 = 1 ∧ t.mem.readWord 0x1010 = 0x3F800000 ∧
      t.mem.readWord 0x1008 = 0x7FC00001 := by decide +kernel

/-- R172: ADEQ on a port that is not AUDIO ends with PROTO. -/
theorem test_adeq_proto :
    let q := ran .adeq (two (bound 7#4 0#2 .consumer 3 {}) (indices 0 0))
    q.errCause = 4 ∧ q.errInfo = 0 := by decide +kernel

/-- R172: ADEQ. -/
theorem test_adeq :
    let s := two (bound 7#4 1#2 .consumer 3 { a0 := 0x1020, a1 := 1, a2 := 7 }) (indices 1 0 ++ wordBytes [0x3F800000])
    let t := after (exec .adeq s)
    t.here.res0 = 1 ∧ t.mem.readWord 0x1004 = 1 ∧ t.mem.readWord 0x1020 = 0x3F800000 := by decide +kernel

/-- R181's example: the record 03 3F 40 00 00, write_index 5. -/
theorem test_penq_example :
    let t := after (exec (.penq 3) (two (bound 1#4 2#2 .producer 13 { a0 := 0x3F400000 }) (indices 0 0)))
    t.here.res0 = 1 ∧ t.mem.readWord 0x1000 = 5 ∧ t.mem.readBytes 0x1008 5 = [3, 0x3F, 0x40, 0, 0] := by decide +kernel

/-- R181: a record wraps with LWR = S − 2. -/
theorem test_penq_wraps :
    let t := after (exec (.penq 255) (two (bound 1#4 2#2 .producer 13 { a0 := 0x40000000 }) (indices 11 11)))
    t.mem.readWord 0x1000 = 3 ∧ t.mem.readBytes 0x1013 2 = [255, 0x40] ∧ t.mem.readBytes 0x1008 3 = [0, 0, 0] := by
  decide +kernel

/-- R182's example: RES0 = 1, RES1 = 3, RES2 = 0x3F400000, read_index 5. -/
theorem test_pdeq_example :
    let t := after (exec .pdeq (two (bound 1#4 2#2 .consumer 13 {}) (indices 5 0 ++ [3, 0x3F, 0x40, 0, 0])))
    t.here.res0 = 1 ∧ t.here.res1 = 3 ∧ t.here.res2 = 0x3F400000 ∧ t.mem.readWord 0x1004 = 5 := by decide +kernel

/-- R182: four bytes readable end with PARTIAL_RECORD. -/
theorem test_pdeq_partial :
    let q := ran .pdeq (two (bound 1#4 2#2 .consumer 13 {}) (indices 4 0 ++ [3, 0x3F, 0x40, 0]))
    q.errCause = 14 ∧ q.errInfo = 4 := by decide +kernel

/-- R194: K = 0 moves nothing. -/
theorem test_deint_no_channel : (ran .deint (two (ready {}) [])).status = 0x2 := by decide +kernel

/-- R192: copy 129 of two channels, channel 1 and frame 1, reads sample 1·2 + 1 and writes P[1] + 4. -/
theorem test_deint_copy :
    let q := { ready { a0 := 0x1000, a1 := 256, a2 := 0x2000, a3 := 2 } with table := [0x3000, 0x3200] }
    let s := microDeint (two { q with pos := .copyRead 129 } (wordBytes [0, 0x100, 1, 0x101]))
    (microDeint s).mem.readWord 0x3204 = 0x101 ∧ (microDeint s).here.pos = .copyRead 130 := by decide +kernel

/-- R191: L that is not K·128 ends with SIZE_MISMATCH. -/
theorem test_inter_size_mismatch :
    let q := ran .inter (two (ready { a0 := 0x1000, a1 := 255, a2 := 0x2000, a3 := 2 }) [])
    q.errCause = 8 ∧ q.errInfo = 255 := by decide +kernel

/-- R193: copy 3 of two channels, frame 1 and channel 1, reads P[1] + 4 and writes sample 3. -/
theorem test_inter_copy :
    let q := { ready { a0 := 0x3000, a1 := 256, a2 := 0x2000, a3 := 2 } with table := [0x1000, 0x1200] }
    let s := microInter (two { q with pos := .copyRead 3 } (List.replicate 0x200 0 ++ wordBytes [0x100, 0x101]))
    (microInter s).mem.readWord 0x300C = 0x101 := by decide +kernel

/-- R103: a pseudo-instruction is its host operations in order. -/
theorem test_pseudo_size : (Pseudo.size 6#4 10).moves Config.standard 1 =
    [.regWrite 0x194 4 10, .regWrite 0x180 4 0x02600000, .wait 1] := by decide +kernel

/-- R70, R141: an empty range above MEM is in range; PUSH of no element stores the index unchanged. -/
theorem test_push_empty_range :
    let t := after (exec .push (two (bound 6#4 0#2 .producer 3 { a0 := 0xFFFFFFFC }) (indices 2 2)))
    t.here.status = 0x12 ∧ t.here.res0 = 0 ∧ t.mem.readWord 0x1000 = 2 ∧ t.order.trace.length = 3 := by decide +kernel

/-- Ports 0 and 1 of a machine where port 0 is about to finish the BIND `i` at 0x1000. -/
def binding (i : Instr) (q r : Port) : State :=
  { two { q with status := q.status ||| 1, lcmd := encode i, larg0 := 0x1000, larg1 := 20, pos := .finish } [] with
    ports := [{ q with status := q.status ||| 1, lcmd := encode i, larg0 := 0x1000, larg1 := 20, pos := .finish }, r] }

/-- R218: a second producer is refused; a change of roles is, unless the host had read both ports idle before the first
rebinding: of this port, or of the other one beside it. -/
theorem test_pairing :
    let swap := binding (.bind 6#4 0#2 .consumer false) (bound 6#4 0#2 .producer 3 {})
      { bound 6#4 0#2 .consumer 3 {} with pos := .idle }
    isNext (guardedMicro (binding (.bind 6#4 0#2 .producer false) Port.reset
      { bound 6#4 0#2 .producer 3 {} with pos := .idle })) = false ∧
    isNext (guardedMicro swap) = false ∧
    (let read := (swap.order.seen 0).seen 1
     isNext (guardedMicro { swap with order := read.accept 0 true }) = true ∧
     isNext (guardedMicro { swap with order := (read.accept 0 true).accept 1 true }) = true ∧
     isNext (guardedMicro { swap with order := (read.accept 1 true).accept 0 true }) = true ∧
     isNext (guardedMicro { swap with order := (read.accept 0 true).accept 1 false }) = false ∧
     isNext (guardedMicro { swap with order := (read.accept 1 false).accept 0 true }) = false) ∧
    isNext (guardedMicro { swap with order := (((swap.order.seen 1).accept 1 true).seen 0).accept 0 true }) = false := by
  decide +kernel

/-- U7: a port reads a source byte, then the host writes it, then the port would publish. -/
theorem test_late_race :
    let s := { two { bound 6#4 0#2 .producer 3 { a0 := 0x1100, a1 := 1 } with
      lcmd := 0x10000000, status := 0x11, lrd := 2, lwr := 2, pos := .copyRead 0 } (indices 2 2) with
        agenda := [.portStep 0, .memWrite 0x1103 [7, 8], .wait 0] }
    foresee s = [⟨0, 0x1103⟩] ∧ foresee { s with agenda := [.portStep 0, .wait 0, .memWrite 0x1103 [7]] } = [] := by
  decide +kernel

/-- R73, R77: a PUSH reads its own read_index as data, its source, and a consumer's store of it comes later: that read
alone is late, event 2 of the run, and no load. -/
theorem test_late_kind :
    let c := bound 6#4 0#2 .consumer 3 { a0 := 0x2000, a1 := 1 }
    let s := { two { bound 6#4 0#2 .producer 3 { a0 := 0x1004, a1 := 1 } with lcmd := 0x10000000, status := 0x11 }
      (indices 1 0) with
      ports := [{ bound 6#4 0#2 .producer 3 { a0 := 0x1004, a1 := 1 } with lcmd := 0x10000000, status := 0x11 },
        { c with lcmd := 0x11000000, lrd := 0, lwr := 1, status := 0x11, pos := .publish }]
      agenda := [.run 0, .run 1] }
    foresee s = [⟨2, 0x1004⟩, ⟨2, 0x1005⟩, ⟨2, 0x1006⟩, ⟨2, 0x1007⟩] ∧ planned (after (step s)) = [] ∧
      ((after (step s)).port 0).lrd = s.mem.readWord 0x1004 := by
  decide +kernel

/-- R243: a granted slot is the host's until a COMMIT is under way. -/
theorem test_span_until_commit :
    let s := fun pos => two { granted {} with span0Addr := 0x1014, span0Len := 2, lcmd := 0x13010000, pos := pos } []
    hostOpen (s .idle) 0x1014 = false ∧ hostOpen (s .decode) 0x1014 = true := by decide +kernel

/-- R151, R71: a granted byte in another bound segment is left open. -/
theorem test_span_overlap :
    let s := { two { granted {} with span0Addr := 0x1014, span0Len := 2 } [] with
      ports := [{ granted {} with span0Addr := 0x1014, span0Len := 2, pos := .idle },
        { bound 6#4 0#2 .consumer 3 {} with segBase := 0x1018 }] }
    hostOpen s 0x1017 = false ∧ hostOpen s 0x1018 = true := by decide +kernel

/-- R20, R28: a command for a port that is not there is a write to and a read of a reserved offset; no such port steps. -/
theorem test_absent_port :
    let s := { two (ready {}) [] with regData := 7, agenda := [.command 2 0x10000000, .run 2] }
    (after (step s)).regData = 0 ∧ (after (step s)).ports = s.ports ∧ isNext (step (after (step s))) = true ∧
      isNext (moveWait s 29) = true ∧ isNext (moveWait s 30) = false := by decide +kernel

/-- U8: of two overlapping segments only the common slots are left open. -/
theorem test_overlap_bytes :
    let s := { two (bound 6#4 0#2 .producer 3 {}) [] with
      ports := [bound 6#4 0#2 .producer 3 {}, { bound 6#4 0#2 .consumer 3 {} with segBase := 0x1010 }] }
    s.foreign 0x100F = false ∧ s.foreign 0x1010 = true ∧ s.foreign 0x1000 = false := by decide +kernel

/-! ## Witnesses: for every statement with hypotheses, a state and operands that meet them together -/

/-- A port that stands at its decode step, no operands. -/
def fresh : State := two (ready {}) []

theorem witness_DecodeOfEncode :
    (Instr.bind 15#4 2#2 .consumer true).wellFormed = true ∧ (Instr.penq 255#8).wellFormed = true := by decide

theorem witness_EncodeOfDecode : decode 0x300000FF#32 = .ok (.penq 255#8) := by decide

/-- One word for each clause, at the ends of the reserved ranges. -/
theorem witness_DecodeErrors :
    (0x08000000#32).toNat / 2 ^ 24 = 0x08 ∧ (0xFFFFFFFF#32).toNat / 2 ^ 24 = 0xFF ∧
    (0x13020000#32).toNat / 2 ^ 24 = 0x13 ∧ 0x13020000#32 &&& 0x00FEFFFF#32 ≠ 0#32 ∧
    (0x016C0000#32).toNat / 2 ^ 18 % 4 = 3 ∧ 0x016C0000#32 &&& 0x0000FFFF#32 = 0#32 ∧
    0x13010000#32 &&& 0x00FEFFFF#32 = 0#32 := by decide

/-- S = 1 (capacity 0), and a full ring of 2^31 slots with n at both ends. -/
theorem witness_RingCounts :
    (1 ≤ 1 ∧ 0 < 1 ∧ 0 ≤ availWrite 1 0 0) ∧
    (1 ≤ 2 ^ 31 ∧ 0 < 2 ^ 31 ∧ 2 ^ 31 - 1 < 2 ^ 31 ∧ 2 ^ 31 - 1 ≤ availRead (2 ^ 31) 0 (2 ^ 31 - 1) ∧
      0 ≤ availWrite (2 ^ 31) 0 (2 ^ 31 - 1)) := by decide +kernel

/-- A transfer of S − 1 elements from the last slot: both parts are there. -/
theorem witness_SplitCoversTheRun :
    10 < 11 ∧ 10 ≤ 11 - 1 ∧ 0 < splitFirst 11 10 10 ∧ 0 < splitSecond 11 10 10 ∧ 9 < 10 := by decide

theorem witness_PortRegisterReads : State.reset.cfg.regBase % 4 = 0 ∧ State.reset.ports.length ≤ 16 ∧
    1 < State.reset.ports.length ∧ 0x4C ≤ 4 * 0x13 ∧ 4 * 0x1F < 0x80 := by decide

theorem witness_GlobalRegisterReads : State.reset.cfg.ok = true ∧
    State.reset.ports.length = State.reset.cfg.nports ∧ 4 * 0x3F < 0x100 ∧
    0x100 + 0x80 * State.reset.cfg.nports ≤ 4 * 0x80 ∧ 4 * 0x3FF < 0x1000 := by decide

theorem witness_IrqStatusReads : State.reset.cfg.ok = true ∧
    State.reset.ports.length = State.reset.cfg.nports := by decide

/-- An idle port and a busy one. -/
theorem witness_CmdWrites : fresh.cfg.regBase % 4 = 0 ∧ fresh.ports.length ≤ 16 ∧ 1 < fresh.ports.length ∧
    (fresh.port 1).status.getLsbD 0 = false ∧ (fresh.port 0).status.getLsbD 0 = true := by decide

theorem witness_StatusAndCtrlWrites : fresh.cfg.regBase % 4 = 0 ∧ fresh.ports.length ≤ 16 ∧
    1 < fresh.ports.length := by decide

theorem witness_OperandAndReadOnlyWrites : fresh.cfg.regBase % 4 = 0 ∧ fresh.ports.length ≤ 16 ∧
    1 < fresh.ports.length ∧ 4 * 3 = 0x0C ∧ 4 * 4 = 0x10 ∧ 0x24 ≤ 4 * 9 ∧ 4 * 0x1F < 0x80 := by decide

theorem witness_ArgumentsAreLatched : 1 < fresh.ports.length ∧ 0x20 ∈ [0x14, 0x18, 0x1C, 0x20] ∧
    (fresh.port 1).busy = false := by decide

/-- The last four bytes of MEM, and a slot of a granted span. -/
theorem witness_HostReadsBackWhatItWrote :
    (0xFFFC + [1, 2, 3, (4 : Byte)].length ≤ fresh.cfg.memSize ∧ touchesIndex fresh hostAgent 0xFFFC 4 = false ∧
      (∀ j, j < 4 → hostOpen fresh (0xFFFC + j) = false) ∧ Quiet fresh.order hostAgent 0xFFFC 4) ∧
    (let s := two { granted {} with span0Addr := 0x1014, span0Len := 2, span1Addr := 0x1008, span1Len := 2 }
        (indices 3 3)
     0x1008 + 8 ≤ s.cfg.memSize ∧ touchesIndex s hostAgent 0x1008 8 = false ∧
      (∀ j, j < 8 → hostOpen s (0x1008 + j) = false) ∧ Quiet s.order hostAgent 0x1008 8) := by decide +kernel

/-- A port in the middle of a PUSH of two elements, its next step the write of the first, and the ports' next move. -/
def midPush : State :=
  { two { bound 6#4 0#2 .producer 3 { a0 := 0x1100, a1 := 2 } with
      lcmd := 0x10000000, lrd := 2, lwr := 2, pos := .copyWrite 0, elem := [1, 2, 3, 4] } (indices 2 2) with
    agenda := [.portStep 0] }

/-- A port in the middle of an INTER of one channel, its next step the read of the table. -/
def midInter : State :=
  { two { ready { a0 := 0x3000, a1 := 128, a2 := 0x1000, a3 := 1 } with
      lcmd := 0x41000000, pos := .tableRead 0 } (wordBytes [0x2000]) with agenda := [.portStep 0] }

theorem witness_StepKeepsMemoryForm : midPush.mem.wf = true ∧ isNext (step midPush) = true ∧
    (after (step midPush)).mem ≠ midPush.mem := by decide +kernel

theorem witness_StepKeepsPortsSound : portsOk midPush = true ∧ isNext (step midPush) = true ∧
    portsOk midInter = true ∧ isNext (step midInter) = true := by decide +kernel

theorem witness_StepKeepsEnginesInside :
    portsOk midPush = true ∧ enginesInside midPush = true ∧ isNext (step midPush) = true ∧
    portsOk midInter = true ∧ enginesInside midInter = true ∧ isNext (step midInter) = true := by decide +kernel

theorem witness_StepKeepsOrderSound : orderOk midPush = true ∧ isNext (step midPush) = true ∧
    (after (step midPush)).order ≠ midPush.order := by decide +kernel

/-- RST after a slot write of port 0 that the host has not seen ordered. -/
theorem witness_ResetLeaves : (after (step midPush)).order.racy hostAgent 0x1010 = true := by decide +kernel

theorem witness_StepKeepsConfiguration : isNext (step midPush) = true := by decide +kernel

theorem witness_PortsStayInsideMem :
    portsOk midPush = true ∧ enginesInside midPush = true ∧ midPush.cur < midPush.ports.length ∧
    newEvent midPush (portMicro midPush) = some ⟨1, 1, .write, 0x1010, 4, [0, 0, 0]⟩ := by decide +kernel

/-- BOUND cleared by RST, GRANT by a COMMIT, OVR by a write of 1. -/
theorem witness_StatusBitsClearedOnlyAsListed :
    (let s := { midPush with agenda := [.rst] }
     s.cfg.regBase % 4 = 0 ∧ 0 < s.ports.length ∧ isNext (step s) = true ∧ (s.port 0).status.getLsbD 4 = true ∧
      ((after (step s)).port 0).status.getLsbD 4 = false) ∧
    (let s := { two { granted {} with status := 0x30, pos := .idle } (indices 3 3) with
        agenda := [.command 0 0x13010000#32] }
     s.agenda.head? = some (.command 0 0x13010000#32) ∧ decode 0x13010000#32 = .ok (.wspanCommit true) ∧
      isNext (step s) = true ∧ (s.port 0).status.getLsbD 5 = true ∧
      ((after (step s)).port 0).status.getLsbD 5 = false) ∧
    (let s := { two { ready {} with status := 9 } [] with agenda := [.regWrite 0x104 4 8] }
     isNext (step s) = true ∧ (s.port 0).status.getLsbD 3 = true ∧
      ((after (step s)).port 0).status.getLsbD 3 = false) := by decide +kernel

theorem witness_BindingAndSpansChangeOnlyByTheirCommand :
    isNext (step { fresh with agenda := [.command 1 0x01610000#32] }) = true ∧ isNext (step midPush) = true := by
  decide +kernel

/-- A NOP issued on an idle port, and a micro-step of the PUSH in flight. -/
theorem witness_StepRunsTheCommand :
    (let s := { State.reset with agenda := [.command 1 0#32] }
     let u := ({ s.lookAhead with agenda := [] } : State).issued 1 0#32
     1 < s.ports.length ∧ (s.port 1).busy = false ∧ decode 0#32 = .ok .nop ∧
      runStop (stepBound .nop u.here) u = none ∧ isNext (exec .nop u) = true) ∧
    (let u := { midPush.lookAhead with agenda := [], cur := 0 }
     0 < midPush.ports.length ∧ (midPush.port 0).command? = some .push ∧
      portStop u (micro .push u) = none) ∧
    (midPush.order.plan = [] ∧ lateReads midPush [] = []) ∧
    (let s := { State.reset with agenda := [.memRead 0xFFFF 1] }
     s.order.plan = [] ∧ isNext (act (s.foreseeing [])) = true ∧
      (after (act (s.foreseeing []))).ports.all (fun q => !q.busy) = true) := by
  decide +kernel

theorem witness_EveryCommandEnds : Ready fresh := by decide

theorem witness_CommandsTouchOnlyTheirPort : isNext (exec .nop fresh) = true := by decide +kernel

theorem witness_RaiseEndsTheCommand :
    (two { ready {} with pos := .raising .align 0x1001 } []).cur < 2 ∧
    (two { ready {} with pos := .raising .align 0x1001 } []).here.pos = .raising .align 0x1001 := by decide

theorem witness_FailedCheckRaises : Ready fresh ∧ check .push fresh.cfg fresh.here = some (.notBound, 0) := by
  decide +kernel

/-- PARTIAL_RECORD after the index loads, and a bad channel pointer after a table read. -/
theorem witness_ErrorsArePrecise :
    (let s := two (bound 1#4 2#2 .consumer 13 {}) (indices 4 0)
     Ready s ∧ s.here.status.getLsbD 2 = false ∧ isNext (exec .pdeq s) = true ∧
      (ran .pdeq s).status.getLsbD 2 = true) ∧
    (let s := two (ready { a0 := 0x3000, a1 := 128, a2 := 0x1000, a3 := 1 }) (wordBytes [0x2002])
     Ready s ∧ s.here.status.getLsbD 2 = false ∧ isNext (exec .deint s) = true ∧
      (ran .deint s).status.getLsbD 2 = true) := by decide +kernel

theorem witness_FailedBindChangesNoBinding :
    let s := two (bound 6#4 0#2 .producer 3 { a0 := 4, a1 := 52 }) (indices 0 0)
    let i := Instr.bind 6#4 0#2 .consumer true
    Ready s ∧ s.here.status.getLsbD 2 = false ∧ isNext (exec i s) = true ∧
      (ran i s).status.getLsbD 2 = true := by decide +kernel

theorem witness_IllegalWordsEnd :
    let s := two { ready {} with lcmd := 0x42000000 } []
    Ready s ∧ decode s.here.lcmd = .error (.reservedOpcode 0x42#8) := by decide

/-- An unbound port, a consumer port and a producer port. -/
theorem witness_NotBoundAndRole :
    (Ready fresh ∧ ringCommand .capacity = true ∧ fresh.here.status.getLsbD 4 = false) ∧
    (let s := two (bound 1#4 2#2 .consumer 13 {}) []
     Ready s ∧ s.here.status.getLsbD 4 = true ∧ s.here.bindcfg.getLsbD 10 = true) ∧
    (let s := two (bound 1#4 2#2 .producer 13 {}) []
     Ready s ∧ s.here.status.getLsbD 4 = true ∧ s.here.bindcfg.getLsbD 10 = false) := by decide +kernel

/-- A PARAM consumer and a PARAM producer for the PROTO clauses, a producer with a grant, one without, and a count
one above the grant. -/
theorem witness_ProtocolAndGrantErrors :
    (let s := two (bound 1#4 2#2 .consumer 13 {}) []
     Ready s ∧ s.here.bound = true ∧ s.here.bindcfg.getLsbD 10 = true ∧ s.here.bindcfg.toNat / 256 % 4 ≠ 1) ∧
    (let s := two (bound 7#4 1#2 .consumer 13 {}) []
     Ready s ∧ s.here.bound = true ∧ s.here.bindcfg.getLsbD 10 = true ∧ s.here.bindcfg.toNat / 256 % 4 ≠ 2) ∧
    (let s := two (bound 6#4 0#2 .producer 13 {}) []
     Ready s ∧ s.here.bound = true ∧ s.here.bindcfg.getLsbD 10 = false ∧ s.here.bindcfg.toNat / 256 % 4 ≠ 1 ∧
      s.here.bindcfg.toNat / 256 % 4 ≠ 2 ∧ s.here.status.getLsbD 5 = false) ∧
    (let s := two (granted { a0 := 5 }) []
     Ready s ∧ s.here.bound = true ∧ s.here.bindcfg.getLsbD 10 = false ∧ s.here.status.getLsbD 5 = true ∧
      s.here.grantN.toNat < s.here.larg0.toNat) ∧
    (let s := two { bound 7#4 1#2 .producer 13 {} with status := 0x31 } []
     Ready s ∧ s.here.status.getLsbD 5 = true ∧ s.here.bindcfg.toNat / 256 % 4 = 1) ∧
    (let s := two { bound 1#4 2#2 .producer 13 {} with status := 0x31 } []
     Ready s ∧ s.here.status.getLsbD 5 = true ∧ s.here.bindcfg.toNat / 256 % 4 = 2) := by decide +kernel

/-- A misaligned base, and an aligned buffer one element above the end of MEM, for each of the four commands. -/
theorem witness_TransferAddressErrors :
    (let q := fun (proto : BitVec 2) (r : Role) (x : Args) => two (bound 7#4 proto r 3 x) (indices 0 0)
     (let s := q 0#2 .producer { a0 := 0x1102, a1 := 1 }
      Ready s ∧ s.here.bound = true ∧ s.here.role = .producer ∧ s.here.grant = false ∧
        s.here.larg0.toNat % s.here.esize ≠ 0) ∧
     (let s := q 0#2 .consumer { a0 := 0xFFF8, a1 := 2, a2 := 1 }
      Ready s ∧ 0 < s.here.larg1.toNat ∧ s.here.bound = true ∧ s.here.role = .consumer ∧ s.here.larg0.toNat % s.here.esize = 0 ∧
        s.cfg.memSize < s.here.larg0.toNat + (s.here.larg2.toNat + s.here.larg1.toNat) * s.here.esize) ∧
     (let s := q 1#2 .producer { a0 := 0xFFF8, a1 := 3 }
      Ready s ∧ 0 < s.here.larg1.toNat ∧ s.here.bound = true ∧ s.here.role = .producer ∧ s.here.proto = 1#2 ∧ s.here.grant = false ∧
        s.here.larg0.toNat % 4 = 0 ∧ s.cfg.memSize < s.here.larg0.toNat + (0 + s.here.larg1.toNat) * 4) ∧
     (let s := q 1#2 .consumer { a0 := 0x1103, a1 := 3 }
      Ready s ∧ s.here.bound = true ∧ s.here.role = .consumer ∧ s.here.proto = 1#2 ∧
        s.here.larg0.toNat % 4 ≠ 0)) := by decide +kernel

/-- read_index = S, and write_index = S with read_index = S − 1. -/
theorem witness_IndexOutOfRange :
    (let s := two (bound 6#4 0#2 .producer 11 {}) (indices 0 11)
     Ready s ∧ loadsIndices .empty = true ∧ check .empty s.cfg s.here = none ∧ s.here.nslots ≤ s.rdIndex.toNat ∧
      IndicesQuiet s) ∧
    (let s := two (bound 6#4 0#2 .producer 11 {}) (indices 11 10)
     Ready s ∧ IndicesQuiet s ∧ check .wspanAcq s.cfg s.here = none ∧ s.rdIndex.toNat < s.here.nslots ∧
      s.here.nslots ≤ s.wrIndex.toNat) := by decide +kernel

theorem witness_BindErrors : Ready fresh ∧ elemSize 11#4 = none ∧ elemSize 10#4 = some 8 := by decide

/-- L one below K·128, bases off by one, and ranges that end one sample above MEM_SIZE. -/
theorem witness_TransposeErrors :
    (let s := two (ready { a0 := 0x1000, a1 := 127, a2 := 0x2000, a3 := 1 }) []
     Ready s ∧ s.cfg.hasXpose = true ∧ s.here.larg1.toNat ≠ s.here.larg3.toNat * 128) ∧
    (let s := two (ready { a0 := 0xFE04, a1 := 128, a2 := 0x2000, a3 := 1 }) []
     s.here.larg1.toNat = s.here.larg3.toNat * 128 ∧ s.here.larg0.toNat % 4 = 0 ∧
      s.cfg.memSize < s.here.larg0.toNat + 4 * s.here.larg1.toNat) ∧
    (let s := two (ready { a0 := 0xFE00, a1 := 128, a2 := 0xFFFD, a3 := 1 }) []
     s.here.larg0.toNat + 4 * s.here.larg1.toNat ≤ s.cfg.memSize ∧ s.here.larg2.toNat % 4 ≠ 0) ∧
    (let s := { two (ready {}) [] with cfg := { Config.standard with hasXpose := false } }
     Ready s ∧ s.cfg.hasXpose = false) := by decide +kernel

/-- Two channels: the second pointer misaligned, and the second buffer one word above the end of MEM. -/
theorem witness_BadChannelPointer :
    (let s := two (ready { a0 := 0x4000, a1 := 256, a2 := 0x1000, a3 := 2 }) (wordBytes [0xFE00, 0x2001])
     Fresh s ∧ XposeOperands s ∧ TableQuiet s ∧ 1 < s.here.larg3.toNat ∧ (∀ d, d < 1 → PointerOk s d) ∧
      (s.chan 1).toNat % 4 ≠ 0) ∧
    (let s := two (ready { a0 := 0x4000, a1 := 256, a2 := 0x1000, a3 := 2 }) (wordBytes [0xFE00, 0xFE04])
     Fresh s ∧ XposeOperands s ∧ TableQuiet s ∧ (∀ d, d < 1 → PointerOk s d) ∧ (s.chan 1).toNat % 4 = 0 ∧
      s.cfg.memSize < (s.chan 1).toNat + 512) := by decide +kernel

theorem witness_NopResult : Ready fresh := by decide

/-- The smallest segment at the end of MEM, with INIT and no other port bound. -/
theorem witness_BindResult :
    let s := two (ready { a0 := 0xFFF0, a1 := 16 }) []
    Ready s ∧ (2#2 : BitVec 2) ≠ 3#2 ∧ s.here.status.getLsbD 5 = false ∧ elemSize 10#4 = some 8 ∧
      s.here.larg0.toNat % 8 = 0 ∧ s.here.larg0.toNat + s.here.larg1.toNat ≤ s.cfg.memSize ∧
      8 + 8 ≤ s.here.larg1.toNat ∧ (s.here.larg1.toNat - 8) % 8 = 0 ∧ (s.here.larg1.toNat - 8) / 8 ≤ 2 ^ 31 ∧
      (∀ j, j < 4 → s.foreignTo s.here.larg0.toNat 1 8 (s.here.larg0.toNat + j) = false ∧
        s.order.dataRacy s.agent (s.here.larg0.toNat + j) = false) := by decide +kernel

/-- The largest capacity of 8-byte elements and one above it, and a BIND of what SIZE answers. -/
theorem witness_SizeResult :
    (let s := two (ready { a0 := 0x1FFFFFFD }) []
     Ready s ∧ elemSize 8#4 = some 8 ∧ s.here.larg0.toNat + 1 ≤ 2 ^ 31 ∧
      8 + (s.here.larg0.toNat + 1) * 8 ≤ 2 ^ 32 - 1) ∧
    (let s := two (ready { a0 := 0x1FFFFFFE }) []
     Ready s ∧ 2 ^ 32 - 1 < 8 + (s.here.larg0.toNat + 1) * 8) ∧
    (let s := two (ready { a0 := 10 }) []
     let u := two (ready { a0 := 0x1000, a1 := 52 }) []
     Ready u ∧ elemSize 6#4 = some 4 ∧ Ready s ∧ s.here.larg0.toNat = 10 ∧ isNext (exec (.size 6#4) s) = true ∧
      u.here.larg1 = (ran (.size 6#4) s).res0 ∧ u.here.larg0.toNat % 8 = 0 ∧
      u.here.larg0.toNat + (8 + (10 + 1) * 4) ≤ u.cfg.memSize ∧ u.here.status.getLsbD 5 = false ∧
      u.here.status.getLsbD 2 = false) := by decide +kernel

theorem witness_QueryResults :
    let s := two (bound 6#4 0#2 .consumer 11 {}) (indices 1 10)
    Ready s ∧ s.here.status.getLsbD 4 = true ∧ IndicesLoad s := by decide +kernel

theorem witness_CapacityResult :
    let s := two (bound 6#4 0#2 .consumer 1 {}) []
    Ready s ∧ s.here.status.getLsbD 4 = true ∧ 1 ≤ s.here.slots.toNat := by decide +kernel

/-- A wrapping PUSH from the last bytes of MEM, a full ring, and no element from above MEM. -/
theorem witness_PushResult :
    (let s := two (bound 6#4 0#2 .producer 11 { a0 := 0xFFE4, a1 := 6, a2 := 1 }) (indices 6 4)
     Ready s ∧ s.here.bound = true ∧ s.here.role = .producer ∧ s.here.grant = false ∧
      s.here.larg0.toNat % s.here.esize = 0 ∧ BufferInMem s s.here.esize s.here.larg2.toNat ∧ IndicesLoad s ∧
      s.canWrite = 8 ∧ IndexSettled s s.orderLoaded s.here.base ∧ BufferApart s s.here.esize s.here.larg2.toNat ∧
      BufferQuiet s s.here.esize s.here.larg2.toNat ∧ SegmentApart s ∧ SlotsQuiet s) ∧
    (let s := two (bound 6#4 0#2 .producer 1 {}) (indices 0 0)
     Ready s ∧ s.here.bound = true ∧ s.here.role = .producer ∧ s.here.grant = false ∧
      s.here.larg0.toNat % s.here.esize = 0 ∧ BufferInMem s s.here.esize s.here.larg2.toNat ∧ IndicesLoad s ∧
      s.canWrite = 0) ∧
    (let s := two (bound 6#4 0#2 .producer 3 { a0 := 0xFFFFFFFC }) (indices 2 2)
     Ready s ∧ s.here.bound = true ∧ s.here.role = .producer ∧ s.here.grant = false ∧
      s.here.larg0.toNat % s.here.esize = 0 ∧ BufferInMem s s.here.esize s.here.larg2.toNat ∧ IndicesLoad s ∧
      s.cfg.memSize < s.here.larg0.toNat ∧ 0 < s.canWrite) := by decide +kernel

/-- A wrapping POP to the last bytes of MEM, and an empty ring. -/
theorem witness_PopResult :
    (let s := two (bound 6#4 0#2 .consumer 11 { a0 := 0xFFE4, a1 := 6, a2 := 1 }) (indices 4 6)
     Ready s ∧ s.here.bound = true ∧ s.here.role = .consumer ∧ s.here.larg0.toNat % s.here.esize = 0 ∧
      BufferInMem s s.here.esize s.here.larg2.toNat ∧ IndicesLoad s ∧ s.canRead = 9 ∧
      IndexSettled s s.orderLoaded (s.here.base + 4) ∧ BufferApart s s.here.esize s.here.larg2.toNat ∧
      s.meetsBound 0xFFE8 24 = false ∧ BufferQuiet s s.here.esize s.here.larg2.toNat ∧ SlotsQuiet s) ∧
    (let s := two (bound 6#4 0#2 .consumer 1 {}) (indices 0 0)
     Ready s ∧ s.here.bound = true ∧ s.here.role = .consumer ∧ s.here.larg0.toNat % s.here.esize = 0 ∧
      BufferInMem s s.here.esize s.here.larg2.toNat ∧ IndicesLoad s ∧ s.canRead = 0) := by decide +kernel

theorem witness_AudioTransferResults :
    (let s := two (bound 7#4 1#2 .producer 3 { a0 := 0xFFF8, a1 := 2 }) (indices 2 2)
     Ready s ∧ s.here.bound = true ∧ s.here.role = .producer ∧ s.here.proto = 1#2 ∧ s.here.esize = 4 ∧
      s.here.grant = false ∧ s.here.larg0.toNat % 4 = 0 ∧ BufferInMem s 4 0 ∧ IndicesLoad s ∧
      IndexSettled s s.orderLoaded s.here.base ∧ BufferApart s 4 0 ∧ SegmentApart s ∧ BufferQuiet s 4 0 ∧ SlotsQuiet s) ∧
    (let s := two (bound 7#4 1#2 .consumer 3 { a0 := 0xFFF8, a1 := 2 }) (indices 1 2)
     Ready s ∧ s.here.bound = true ∧ s.here.role = .consumer ∧ s.here.proto = 1#2 ∧ s.here.esize = 4 ∧
      s.here.larg0.toNat % 4 = 0 ∧ BufferInMem s 4 0 ∧ IndicesLoad s ∧
      IndexSettled s s.orderLoaded (s.here.base + 4) ∧ BufferApart s 4 0 ∧ BufferQuiet s 4 0 ∧ SlotsQuiet s) := by decide +kernel

theorem witness_AcqResult :
    let s := two (bound 6#4 0#2 .producer 5 { a0 := 4 }) (indices 3 3)
    Ready s ∧ s.here.bound = true ∧ s.here.role = .producer ∧ s.here.grant = false ∧ IndicesLoad s := by
  decide +kernel

/-- LARG0 elements at the bound, and the whole grant. -/
theorem witness_CommitResult :
    let s := two (granted { a0 := 4 }) (indices 3 3)
    Ready s ∧ s.here.bound = true ∧ s.here.role = .producer ∧ s.here.grant = true ∧
      s.here.larg0.toNat ≤ s.here.grantN.toNat ∧ IndexSettled s s.order s.here.base := by decide +kernel

/-- Four bytes of write space, and five. -/
theorem witness_PenqResult :
    (let s := two (bound 1#4 2#2 .producer 5 { a0 := 0x3F400000 }) (indices 3 3)
     Ready s ∧ s.here.bound = true ∧ s.here.role = .producer ∧ s.here.proto = 2#2 ∧ s.here.esize = 1 ∧
      s.here.grant = false ∧ IndicesLoad s ∧ s.canWrite = 4) ∧
    (let s := two (bound 1#4 2#2 .producer 6 { a0 := 0x3F400000 }) (indices 4 4)
     Ready s ∧ s.here.bound = true ∧ s.here.role = .producer ∧ s.here.proto = 2#2 ∧ s.here.esize = 1 ∧
      s.here.grant = false ∧ IndicesLoad s ∧ s.canWrite = 5 ∧ IndexSettled s s.orderLoaded s.here.base ∧
      SegmentApart s ∧ SlotsQuiet s) := by decide +kernel

/-- A PARAM consumer with `wr` bytes readable. -/
def paramReader (wr : Word) : State := two (bound 1#4 2#2 .consumer 6 {}) (indices wr 0)

/-- No byte readable, one, four, and five. -/
theorem witness_PdeqResult :
    (let s := paramReader 0
     Fresh s ∧ s.here.bound = true ∧ s.here.role = .consumer ∧ s.here.proto = 2#2 ∧ s.here.esize = 1 ∧ IndicesLoad s ∧
      s.canRead = 0) ∧
    (IndicesLoad (paramReader 1) ∧ (paramReader 1).canRead = 1) ∧
    (IndicesLoad (paramReader 4) ∧ (paramReader 4).canRead = 4) ∧
    (let s := paramReader 5
     IndicesLoad s ∧ s.canRead = 5 ∧ SlotsQuiet s ∧ IndexSettled s s.orderLoaded (s.here.base + 4)) := by
  decide +kernel

/-- Two channels, the table, the interleaved buffer and the channel buffers side by side, the last at the end of MEM;
and no channel at all. -/
def transpose : State := two (ready { a0 := 0x4000, a1 := 256, a2 := 0x1000, a3 := 2 }) (wordBytes [0x4400, 0xFE00])

theorem witness_DeintResult :
    Fresh transpose ∧ XposeOk transpose ∧ TableQuiet transpose ∧ DeintFree transpose ∧ ChannelsApart transpose ∧
    Fresh fresh ∧ XposeOk fresh ∧ TableQuiet fresh := by decide +kernel

theorem witness_InterResult :
    Fresh transpose ∧ XposeOk transpose ∧ TableQuiet transpose ∧ InterFree transpose := by decide +kernel

/-- One channel, two tables of one entry one after the other; the second channel buffer ends with MEM. -/
def oneChannel : State := two (ready { a0 := 0x4000, a1 := 128, a2 := 0x1000, a3 := 1 }) (wordBytes [0x4400, 0xFE00])

/-- The same machine with the second table as the operand. -/
def otherTable : State := oneChannel.setHere { oneChannel.here with larg2 := 0x1004 }

theorem witness_TransposeRoundTrip :
    (Fresh oneChannel ∧ XposeOk oneChannel ∧ TableQuiet oneChannel ∧ InterFree oneChannel) ∧
    XposeOk otherTable ∧ TableQuiet otherTable ∧ TableApart otherTable ∧ DeintFree otherTable ∧ ChannelsApart otherTable :=
  ⟨by decide +kernel, by decide +kernel⟩

theorem witness_IssueAndFinishOrder : orderOk fresh = true ∧ 1 < fresh.ports.length ∧
    (fresh.port 1).busy = false ∧ 0 = fresh.cur ∧
    fresh.order.racy hostAgent 0 = false ∧ fresh.order.racy (portAgent 0) 0 = false := by decide +kernel

/-- A producer and a consumer at their decode steps, on one empty ring of three slots that wraps. -/
def pair : State :=
  { two (bound 6#4 0#2 .producer 3 { a0 := 0xFFF8, a1 := 2 }) (indices 2 2) with
    ports := [bound 6#4 0#2 .producer 3 { a0 := 0xFFF8, a1 := 2 },
      bound 6#4 0#2 .consumer 3 { a0 := 0x2000, a1 := 2, a2 := 1 }] }

theorem witness_PublishedElementsArriveIntact :
    let s := pair
    orderOk s = true ∧ Ready s ∧ 1 < s.ports.length ∧ 1 ≠ s.cur ∧ (s.port 1).pos = .decode ∧ s.here.bound = true ∧
    (s.port 1).bound = true ∧ s.here.role = .producer ∧ (s.port 1).role = .consumer ∧
    (s.port 1).segBase = s.here.segBase ∧ (s.port 1).slots = s.here.slots ∧ (s.port 1).esize = s.here.esize ∧
    s.here.grant = false ∧ s.here.larg0.toNat % s.here.esize = 0 ∧ (s.port 1).larg0.toNat % s.here.esize = 0 ∧
    IndicesLoad s ∧ s.rdIndex = s.wrIndex ∧ s.here.larg1.toNat < s.here.nslots ∧ 0 < s.here.larg1.toNat ∧
    s.here.larg1.toNat ≤ (s.port 1).larg1.toNat ∧ SegmentApart s ∧
    IndexSettled s s.orderLoaded s.here.base ∧ SlotsQuiet s ∧ BufferInMem s s.here.esize s.here.larg2.toNat ∧
    BufferApart s s.here.esize s.here.larg2.toNat ∧ BufferQuiet s s.here.esize s.here.larg2.toNat ∧
    IndicesQuiet { s with cur := 1 } ∧ (∀ j, j < 8 → s.order.lateAt (s.here.base + j) = false) ∧ BufferInMem { s with cur := 1 } s.here.esize (s.port 1).larg2.toNat ∧
    State.meetsBound { s with cur := 1 } 0x2004 8 = false ∧
    BufferQuiet { s with cur := 1 } s.here.esize (s.port 1).larg2.toNat := by decide +kernel

theorem witness_RingCommandsKeepIndicesValid :
    let s := two (bound 6#4 0#2 .consumer 11 { a0 := 0xFFE4, a1 := 6, a2 := 1 }) (indices 10 0)
    Ready s ∧ ringCommand .pop = true ∧ portOk s.cfg s.here = true ∧ ValidIndices s ∧
    IndexSettled s s.order s.here.base ∧ IndexSettled s s.order (s.here.base + 4) ∧
    BufferApart s s.here.esize s.here.larg2.toNat ∧ BufferApart s s.here.esize 0 ∧
    isNext (exec .pop s) = true := by decide +kernel

/-- The last byte of the register block, a byte access and an odd address; the last byte of read_index; a second
producer on the segment of the PUSH in flight, and one about to be made by a BIND; a change of roles without the host's
STATUS reads, with one of them too late, and as R218 asks; and two consumers beside a third port that binds a producer, or runs its PUSH. -/
theorem witness_ContractRefusals :
    (State.reset.cfg.regBase ≤ 0xFFF ∧ 0xFFF < State.reset.cfg.regBase + 0x1000 ∧ 0xFFF % 4 ≠ 0 ∧ (1 : Nat) ≠ 4) ∧
    (0x1007 + 1 ≤ midPush.cfg.memSize ∧ touchesIndex midPush hostAgent 0x1007 1 = true) ∧
    (let s := { midPush with ports := [midPush.here, { bound 6#4 0#2 .producer 3 {} with pos := .idle }] }
     0 < s.ports.length ∧ 1 < s.ports.length ∧ (s.port 0).command? = some .push ∧ ringCommand .push = true ∧
      (s.port 0).pos ≠ .idle ∧ (s.port 0).bound = true ∧ (s.port 1).bound = true ∧
      (s.port 1).base = (s.port 0).base ∧ (s.port 0).role = (s.port 1).role) ∧
    (let s := binding (.bind 6#4 0#2 .producer false) Port.reset { bound 6#4 0#2 .producer 3 {} with pos := .idle }
     (s.port 0).pos = .finish ∧ (s.port 0).command? = some (.bind 6#4 0#2 .producer false) ∧
      (s.port 1).bound = true ∧ (s.port 1).base = (s.port 0).larg0.toNat ∧ (s.port 0).bound = false ∧
      (s.port 1).role = .producer) ∧
    (let s := binding (.bind 6#4 0#2 .consumer false) (bound 6#4 0#2 .producer 3 {}) (bound 6#4 0#2 .consumer 3 {})
     let o := ((s.order.seen 1).accept 1 true).seen 0
     let u := { s with order := o.accept 0 true }
     let t := { s with order := (((s.order.seen 0).seen 1).accept 0 true).accept 1 true }
     (s.port 0).bound = true ∧ (s.port 0).base = (s.port 0).larg0.toNat ∧ (s.port 0).role ≠ .consumer ∧
      s.order.knows (portAgent 0) 0 ≠ .idle ∧ s.order.knows (portAgent 0) 1 = .no ∧
      u.order.knows (portAgent 0) 0 = .idle ∧ u.order.knows (portAgent 0) 1 = .rebinding ∧
      u.order.knows (portAgent 1) 0 = .no ∧ t.order.knows (portAgent 0) 0 = .idle ∧
      t.order.knows (portAgent 0) 1 = .rebinding ∧ t.order.knows (portAgent 1) 0 ≠ .no) ∧
    (let r := { bound 6#4 0#2 .consumer 3 {} with pos := .idle }
     let b := binding (.bind 6#4 0#2 .producer false) Port.reset r
     let s := { b with ports := b.ports ++ [r] }
     2 < s.ports.length ∧ (s.port 0).pos = .finish ∧ (s.port 1).bound = true ∧ (s.port 2).bound = true ∧
      (s.port 1).base = (s.port 0).larg0.toNat ∧ (s.port 2).base = (s.port 0).larg0.toNat ∧
      (s.port 1).role = (s.port 2).role) ∧
    (let r := { bound 6#4 0#2 .consumer 3 {} with pos := .idle }
     let s := { midPush with ports := [midPush.here, r, r] }
     2 < s.ports.length ∧ (s.port 0).command? = some .push ∧ (s.port 0).pos ≠ .idle ∧ (s.port 0).bound = true ∧
      (s.port 1).bound = true ∧ (s.port 2).bound = true ∧ (s.port 1).base = (s.port 0).base ∧
      (s.port 2).base = (s.port 0).base ∧ (s.port 1).role = (s.port 2).role) := by decide +kernel

/-- Port 0 is about to read its second source element of a PUSH; then the host writes the last byte of it. -/
def readThenWritten : State :=
  { two { bound 6#4 0#2 .producer 3 { a0 := 0x1100, a1 := 2 } with
    lcmd := 0x10000000, lrd := 2, lwr := 2, pos := .copyRead 1 } (indices 2 2) with
      agenda := [.portStep 0, .memWrite 0x1107 [9]] }

/-- An index load and a read of a byte that is foreseen to race, and a source byte read before the host writes it. -/
theorem witness_LateRaceLeavesAnyValue :
    (let s := midPush.foreseeing [⟨midPush.order.trace.length, 0x1003⟩]
     (s.order.acquire 1 0x1000).loadOpen 1 (0x1000 + 3) = true ∧
      { event := s.order.trace.length, byte := 0x1000 + 3 } ∈ s.order.foreseen) ∧
    (let s := readThenWritten
     let es := newEvents s (planEnd s (planned s))
     let n := es.length
     let w := es.getD (n - 2) ⟨0, 0, .read, 0, 0, []⟩
     let e := es.getD (n - 1) ⟨0, 0, .read, 0, 0, []⟩
     2 ≤ n ∧ es = es.take (n - 2) ++ w :: ([] ++ e :: []) ∧ e.racesWith w = true ∧
      e.touches 0x1107 = true ∧ w.touches 0x1107 = true ∧ 0x1107 < s.cfg.memSize ∧
      isNext (act (s.foreseeing (planned s))) = true ∧ ⟨0, 0x1107⟩ ∈ planned s ∧
      0 < (after (act (s.foreseeing (planned s)))).order.trace.length) ∧
    (let s := readThenWritten
     orderOk s = true ∧ portsOk s = true ∧ enginesInside s = true ∧ 0 < s.ports.length ∧
      s.agenda = [.portStep 0, .memWrite 0x1107 [9]] ∧ (s.port 0).command? = some .push ∧
      (s.port 0).pos = .copyRead 1 ∧ 0x1107 + 1 ≤ s.cfg.memSize ∧ touchesIndex s hostAgent 0x1107 1 = false ∧
      bufferAddr (s.port 0) (s.port 0).esize ((s.port 0).larg2.toNat + 1) = 0x1104 ∧ (s.port 0).esize = 4 ∧
      portStop { s with cur := 0 } (portMicro { s with cur := 0 }) = none) := by decide +kernel

end Sys2Proof.Tests
end

/-! PROOFS. What every step keeps (spec R6, R9, R20, R93, R182, R191): what one micro-step does to the engine of the
executing port, the elementary changes that every step is made of, and from these the two invariants. -/

namespace Sys2Proof.Machine

/-! ## What a micro-step does to the engine (R93) -/

/-- The command in flight is LCMD's, whatever else the port holds. -/
theorem Port.command?_congr {q r : Port} (h : q.lcmd = r.lcmd) : q.command? = r.command? := by
  simp only [Port.command?, h]

/-- The engine stands inside its command, and BUSY is set where it works (R30). The second half is what makes the next
accepted command start on an empty engine. -/
def Port.EngineSound (cfg : Config) (q : Port) : Prop :=
  engineInside cfg q = true ∧ (q.pos ≠ .idle → q.busy = true)

/-- The step from `s` to `t` changes the ports in the executing one alone, stays in its command, and keeps its engine
sound. -/
def Advances (s t : State) : Prop :=
  t.cfg = s.cfg ∧ ∃ q, t.ports = s.ports.set s.cur q ∧ q.lcmd = s.here.lcmd ∧
    (s.here.EngineSound s.cfg → q.EngineSound s.cfg)

theorem State.set_here (s : State) : s.ports.set s.cur s.here = s.ports := by
  by_cases h : s.cur < s.ports.length
  · simp [State.here, State.port, List.getD_eq_getElem?_getD, h]
  · exact List.set_eq_of_length_le (Nat.not_lt.mp h)

theorem Advances.refl (s : State) : Advances s s := ⟨rfl, s.here, s.set_here.symm, rfl, id⟩

/-- A step of a working engine that leaves BUSY as it is has only to stay inside the command. -/
theorem Advances.of_inside {s t : State} {q : Port} (hc : t.cfg = s.cfg) (ht : t.ports = s.ports.set s.cur q)
    (hl : q.lcmd = s.here.lcmd) (hb : q.busy = s.here.busy) (hp : s.here.pos ≠ .idle)
    (hi : engineInside s.cfg s.here = true → engineInside s.cfg q = true) : Advances s t :=
  ⟨hc, q, ht, hl, fun h => ⟨hi h.1, fun _ => hb.trans (h.2 hp)⟩⟩

/-- The end of a command leaves an idle engine that holds nothing (R94). -/
theorem advances_ended (s : State) (q : Port) (hl : q.lcmd = s.here.lcmd) : Advances s (s.ended q) :=
  ⟨rfl, _, State.ended_ports s q, hl, fun _ => ⟨rfl, fun h => absurd rfl h⟩⟩

theorem advances_finishStep (s : State) (q : Port) (hl : q.lcmd = s.here.lcmd) : Advances s (s.finishStep q) :=
  advances_ended s q.ending hl

theorem advances_raise (s : State) (e : ErrCode) (info : Word) : Advances s (s.raise e info) :=
  advances_ended s (s.here.raised e info) rfl

/-- The decode step finds the engine empty (R93). -/
theorem advances_decodeStep {s : State} (failed : Option (ErrCode × Word)) {next : EnginePos}
    (hp : s.here.pos = .decode)
    (hn : s.here.table = [] → s.here.record = [] → engineInside s.cfg { s.here with pos := next } = true) :
    Advances s (s.decodeStep failed next) := by
  have hw : s.here.pos ≠ .idle := by simp [hp]
  cases failed with
  | some c => exact .of_inside rfl (State.goto_ports s _) rfl rfl hw fun _ => rfl
  | none =>
    refine .of_inside rfl (State.goto_ports s _) rfl rfl hw fun hi => ?_
    simp only [engineInside, hp, Bool.and_eq_true, List.isEmpty_iff] at hi
    exact hn hi.1 hi.2

/-- LoadIndices, first event, keeps the record of the engine empty (R131). -/
theorem advances_loadRdStep {s : State} (hp : s.here.pos = .loadRd) : Advances s s.loadRdStep := by
  refine .of_inside rfl rfl rfl rfl (by simp [hp]) fun hi => ?_
  simpa only [engineInside, hp] using hi

/-- LoadIndices, second event (R131): `next` has only to be right for a port in the same command with an empty
record. -/
theorem advances_loadWrStep {s : State} {next : Port → EnginePos} (hp : s.here.pos = .loadWr)
    (hn : ∀ q : Port, q.lcmd = s.here.lcmd → q.record = [] →
      engineInside s.cfg { q with pos := next q } = true) : Advances s (s.loadWrStep next) := by
  rw [State.loadWrStep_eq]
  refine .of_inside rfl rfl rfl rfl (by simp [hp]) fun hi => ?_
  simp only [engineInside, hp, List.isEmpty_iff] at hi
  unfold State.afterLoads
  split
  · rfl
  · exact hn s.loadedWr rfl hi

/-- The publishing store, then the finish step (R66). -/
theorem advances_publishStep {s : State} (x v : Nat) (hp : s.here.pos = .publish) : Advances s (s.publishStep x v) :=
  .of_inside rfl rfl rfl rfl (by simp [hp]) fun _ => rfl

/-- The read event of copy `k` gives the engine as many bytes as a copy of the command has (R9). -/
theorem advances_copyReadStep {s : State} {i : Instr} {k : Nat} (x : Nat) {n : Nat} (hc : s.here.command? = some i)
    (hp : s.here.pos = .copyRead k) (hn : n = copyBytes i s.here) :
    Advances s (s.copyReadStep x n (.copyWrite k)) := by
  refine .of_inside (q := { s.here with elem := s.seenBytes s.agent x n, pos := .copyWrite k }) rfl rfl rfl rfl
    (by simp [hp]) fun hi => ?_
  have hlen : (s.seenBytes s.agent x n).length = copyBytes i s.here := (State.seenBytes_length s _ _ _).trans hn
  simp only [engineInside, hp, hc] at hi
  have hc' : Port.command? { s.here with elem := s.seenBytes s.agent x n, pos := .copyWrite k } = some i := hc
  simp only [engineInside, hc', Bool.and_eq_true, beq_iff_eq]
  rw [Bool.and_eq_true] at hi
  exact ⟨hi, hlen⟩

/-- After the write event of copy `k` the next copy exists, or the copies are over (R9). -/
theorem advances_copyWriteStep {s : State} {i : Instr} {k n : Nat} (x : Nat) (f : Nat → Bool) {last : EnginePos}
    (hc : s.here.command? = some i) (hp : s.here.pos = .copyWrite k) (hn : n = copyCount i s.here)
    (hl : ∀ q : Port, engineInside s.cfg { q with pos := last } = true) :
    Advances s (s.copyWriteStep x f (if k + 1 < n then .copyRead (k + 1) else last)) := by
  refine .of_inside rfl (State.goto_ports (s.writeEvent s.agent x f s.here.elem) _) rfl rfl
    (by simp [hp]) fun hi => ?_
  split
  · rename_i hk
    simp only [engineInside, hp, hc, Bool.and_eq_true, decide_eq_true_eq] at hi
    have hc' : Port.command? { s.here with pos := .copyRead (k + 1) } = some i := hc
    simp only [State.here_writeEvent, engineInside, hc', Bool.and_eq_true]
    exact ⟨decide_eq_true (hn ▸ hk), hi.1.2⟩
  · exact hl _

/-! ## Every command's micro-steps -/

/-- The commands without a memory event: a decode step and a finish step. -/
theorem advances_eventless {i : Instr} (s : State) (hi : i = .nop ∨ i = .capacity ∨ ∃ kind, i = .size kind) :
    Advances s (micro i s) := by
  rcases hi with rfl | rfl | ⟨kind, rfl⟩
  all_goals
    simp only [micro, microNop, microCapacity, microSize]
    split
    next hp => exact advances_decodeStep _ hp fun _ _ => rfl
    next => exact advances_finishStep s _ rfl
    next => exact advances_raise s _ _
    all_goals exact Advances.refl s

theorem advances_bind (kind : BitVec 4) (proto : BitVec 2) (role : Role) (init : Bool) (s : State) :
    Advances s (microBind kind proto role init s) := by
  unfold microBind
  split
  next hp => exact advances_decodeStep _ hp fun _ _ => by cases init <;> rfl
  next hp => exact .of_inside rfl rfl rfl rfl (by simp [hp]) fun _ => rfl
  next hp => exact .of_inside rfl rfl rfl rfl (by simp [hp]) fun _ => rfl
  next => exact advances_finishStep s _ rfl
  next => exact advances_raise s _ _
  all_goals exact Advances.refl s

/-- The decode step of a command that loads the indices leaves the record of its engine empty. -/
theorem advances_decode_loads {s : State} (failed : Option (ErrCode × Word)) (hp : s.here.pos = .decode) :
    Advances s (s.decodeStep failed .loadRd) :=
  advances_decodeStep failed hp fun _ hr => by simpa only [engineInside, List.isEmpty_iff] using hr

/-- The commands that load the indices and then finish (R150, R160). -/
theorem advances_loadAndFinish {i : Instr} (s : State)
    (hi : i = .empty ∨ i = .full ∨ i = .availRead ∨ i = .availWrite ∨ i = .wspanAcq) : Advances s (micro i s) := by
  rcases hi with rfl | rfl | rfl | rfl | rfl
  all_goals
    simp only [micro, microEmpty, microFull, microAvailRead, microAvailWrite, microIndexQuery, microWspanAcq]
    split
    next hp => exact advances_decode_loads _ hp
    next hp => exact advances_loadRdStep hp
    next hp => exact advances_loadWrStep hp fun _ _ _ => rfl
    next => exact advances_finishStep s _ rfl
    next => exact advances_raise s _ _
    all_goals exact Advances.refl s

theorem advances_wspanCommit (dflt : Bool) (s : State) : Advances s (microWspanCommit dflt s) := by
  unfold microWspanCommit
  split
  next hp => exact advances_decodeStep _ hp fun _ _ => rfl
  next hp => exact advances_publishStep _ _ hp
  next => exact advances_finishStep s _ rfl
  next => exact advances_raise s _ _
  all_goals exact Advances.refl s

/-- After LoadIndices a ring transfer ends at once, publishes nothing new, or makes its first copy, which exists; its
engine needs no table (R140, R145). -/
theorem engineInside_transferNext (cfg : Config) {q : Port} {i : Instr} (hc : q.command? = some i)
    (ht : readsTable i = false) (stop : Bool) :
    engineInside cfg { q with
      pos := if stop then .finish else if copyCount i q = 0 then .publish else .copyRead 0 } = true := by
  split
  · rfl
  · split
    · rfl
    next hn =>
      have hc' : Port.command? { q with pos := .copyRead 0 } = some i := hc
      have hcount : copyCount i { q with pos := .copyRead 0 } = copyCount i q := by cases i <;> rfl
      simp only [engineInside, hc', ht, hcount, Bool.not_false, Bool.true_or, Bool.and_true]
      exact decide_eq_true (Nat.pos_of_ne_zero hn)

/-- The ring transfers: their copies are counted from the loaded indices (R140, R145, R171, R172). -/
theorem advances_transfer {s : State} {i : Instr} (hi : i = .push ∨ i = .pop ∨ i = .aenq ∨ i = .adeq)
    (hc : s.here.command? = some i) : Advances s (micro i s) := by
  rcases hi with rfl | rfl | rfl | rfl
  all_goals
    simp only [micro, microPush, microPop, microAenq, microAdeq, microPushBody, microPopBody]
    split
    next hp => exact advances_decode_loads _ hp
    next hp => exact advances_loadRdStep hp
    next hp =>
      exact advances_loadWrStep hp fun q hq _ =>
        engineInside_transferNext s.cfg ((Port.command?_congr hq).trans hc) rfl _
    next hp => exact advances_copyReadStep _ hc hp rfl
    next hp => exact advances_copyWriteStep _ _ hc hp rfl fun _ => rfl
    next hp => exact advances_publishStep _ _ hp
    next => exact advances_finishStep s _ rfl
    next => exact advances_raise s _ _
    all_goals exact Advances.refl s

/-- A record is written only where its five bytes fit, and byte after byte (R181). -/
theorem advances_penq (pidx : BitVec 8) (s : State) : Advances s (microPenq pidx s) := by
  unfold microPenq
  split
  next hp => exact advances_decode_loads _ hp
  next hp => exact advances_loadRdStep hp
  next hp =>
    refine advances_loadWrStep hp fun q _ _ => ?_
    split
    · rfl
    next h =>
      simp only [penqFull, decide_eq_true_eq, Nat.not_lt] at h
      simp only [engineInside, Bool.and_eq_true]
      exact ⟨by decide, decide_eq_true h⟩
  next k hp =>
    refine .of_inside rfl rfl rfl rfl (by simp [hp]) fun hi => ?_
    simp only [engineInside, hp, Bool.and_eq_true] at hi
    split
    next hk =>
      simp only [engineInside, Bool.and_eq_true]
      exact ⟨decide_eq_true hk, hi.2⟩
    · rfl
  next hp => exact advances_publishStep _ _ hp
  next => exact advances_finishStep s _ rfl
  next => exact advances_raise s _ _
  all_goals exact Advances.refl s

/-- A record is read only where the ring holds its five bytes, and the engine holds the bytes read so far (R182). -/
theorem advances_pdeq (s : State) : Advances s (microPdeq s) := by
  unfold microPdeq
  split
  next hp => exact advances_decode_loads _ hp
  next hp => exact advances_loadRdStep hp
  next hp =>
    refine advances_loadWrStep hp fun q _ hr => ?_
    unfold pdeqNext
    split
    · rfl
    · split
      · rfl
      next h =>
        simp only [engineInside, Bool.and_eq_true, hr]
        exact ⟨⟨by decide, decide_eq_true (Nat.not_lt.mp h)⟩, rfl⟩
  next k hp =>
    refine .of_inside rfl rfl rfl rfl (by simp [hp]) fun hi => ?_
    simp only [engineInside, hp, Bool.and_eq_true, beq_iff_eq] at hi
    obtain ⟨⟨-, havail⟩, hlen⟩ := hi
    split
    next hk =>
      simp only [engineInside, Bool.and_eq_true, beq_iff_eq, List.length_append, State.seenBytes_length, hlen]
      exact ⟨⟨decide_eq_true hk, havail⟩, trivial⟩
    · rfl
  next hp => exact advances_publishStep _ _ hp
  next => exact advances_finishStep s _ (by unfold pdeqResult; split <;> rfl)
  next => exact advances_raise s _ _
  all_goals exact Advances.refl s

/-- The decode step of a transpose leads to the first table entry, if there is one (R191, R194). -/
theorem advances_decode_table {s : State} (failed : Option (ErrCode × Word)) (hp : s.here.pos = .decode) :
    Advances s (s.decodeStep failed (xposeStart s.here)) := by
  refine advances_decodeStep failed hp fun ht _ => ?_
  unfold xposeStart
  split
  · rfl
  next h =>
    simp only [engineInside, tableOk, ht, Bool.and_eq_true]
    exact ⟨decide_eq_true (Nat.pos_of_ne_zero h), rfl, rfl⟩

/-- A pointer enters the table of the engine with its checks passed, or the command fails (R191). -/
theorem advances_tableStep {s : State} {i : Instr} {c : Nat} (hc : s.here.command? = some i)
    (hn : copyCount i = fun q => Config.blockFrames * q.channels) (hp : s.here.pos = .tableRead c) :
    Advances s (xposeTableStep s c) := by
  unfold xposeTableStep
  refine .of_inside rfl rfl rfl rfl (by simp [hp]) fun hi => ?_
  simp only [engineInside, hp, tableOk, Bool.and_eq_true, decide_eq_true_eq, beq_iff_eq] at hi
  obtain ⟨hlt, hlen, hall⟩ := hi
  generalize leWord (s.seenBytes s.agent (tableAddr s.here c) 4) = ptr
  have htab : tableOk s.cfg { s.here with table := s.here.table ++ [ptr] } (c + 1) =
      (checkPointer s.cfg ptr).isNone := by
    simp [tableOk, hlen, hall]
  cases hck : checkPointer s.cfg ptr with
  | some err => rfl
  | none =>
    rw [hck] at htab
    simp only
    split
    next hk =>
      simp only [engineInside, Bool.and_eq_true]
      exact ⟨decide_eq_true hk, htab⟩
    next hk =>
      have hlast : c + 1 = s.here.channels := by omega
      have hc' : Port.command? { s.here with table := s.here.table ++ [ptr], pos := .copyRead 0 } = some i := hc
      simp only [engineInside, hc', hn, Bool.and_eq_true, Bool.or_eq_true]
      refine ⟨decide_eq_true ?_, .inr (hlast ▸ htab)⟩
      show 0 < Config.blockFrames * s.here.channels
      simp only [Config.blockFrames]
      omega

/-- The transposes: table reads, then copies (R192, R193). -/
theorem advances_transpose {s : State} {i : Instr} (hi : i = .deint ∨ i = .inter)
    (hc : s.here.command? = some i) : Advances s (micro i s) := by
  rcases hi with rfl | rfl
  all_goals
    simp only [micro, microDeint, microInter]
    split
    next hp => exact advances_decode_table _ hp
    next hp => exact advances_tableStep hc rfl hp
    next hp => exact advances_copyReadStep _ hc hp rfl
    next hp => exact advances_copyWriteStep _ _ hc hp rfl fun _ => rfl
    next => exact advances_finishStep s _ rfl
    next => exact advances_raise s _ _
    all_goals exact Advances.refl s

/-- One micro-step of any command, from wherever its engine stands (R93). -/
theorem advances_micro {s : State} {i : Instr} (hc : s.here.command? = some i) : Advances s (micro i s) := by
  cases i with
  | bind kind proto role init => exact advances_bind kind proto role init s
  | wspanCommit dflt => exact advances_wspanCommit dflt s
  | penq pidx => exact advances_penq pidx s
  | pdeq => exact advances_pdeq s
  | nop | capacity | size => exact advances_eventless s (by simp)
  | empty | full | availRead | availWrite | wspanAcq => exact advances_loadAndFinish s (by simp)
  | push | pop | aenq | adeq => exact advances_transfer (by simp) hc
  | deint | inter => exact advances_transpose (by simp) hc

theorem advances_microIllegal (s : State) : Advances s (microIllegal s) := by
  unfold microIllegal
  split
  next hp => exact advances_decodeStep _ hp fun _ _ => rfl
  next => exact advances_raise s _ _
  all_goals exact Advances.refl s

theorem advances_portMicro (s : State) : Advances s (portMicro s) := by
  unfold portMicro
  split
  next hc => exact advances_micro hc
  next => exact advances_microIllegal s

/-! ## Running a command is taking the port's micro-steps -/

/-- A port stays in its command from micro-step to micro-step. -/
theorem portMicro_command (s : State) : (portMicro s).here.command? = s.here.command? := by
  obtain ⟨-, q, hports, hlcmd, -⟩ := advances_portMicro s
  apply Port.command?_congr
  have hh : (portMicro s).here = (s.setHere q).here := by
    simp only [State.here, State.port, hports, portMicro_cur, State.setHere_ports, State.setHere_cur]
  rw [hh]
  by_cases hcur : s.cur < s.ports.length
  · rw [State.here_setHere s q hcur, hlcmd]
  · rw [show (s.setHere q).here = s.here by
      simp only [State.here, State.port, State.setHere_ports, State.setHere_cur,
        List.set_eq_of_length_le (Nat.not_lt.mp hcur)]]

/-- Running the micro-steps `f` of the port's command is running the port's own micro-steps. -/
theorem runPort_portMicro {f : State → State} {c : Option Instr}
    (hf : ∀ u : State, u.here.command? = c → portMicro u = f u) (k : Nat) (s : State) (hs : s.here.command? = c) :
    runPort f k s = runPort portMicro k s := by
  induction k generalizing s with
  | zero => rfl
  | succ k ih =>
    by_cases hi : s.here.pos = .idle
    · rw [runPort_idle f _ s hi, runPort_idle portMicro _ s hi]
    · rw [runPort_succ f k s hi, runPort_succ portMicro k s hi, ← hf s hs]
      exact ih _ ((portMicro_command s).trans hs)

/-- The meaning of a port's command, legal or not, is its micro-steps one after another (R93). -/
theorem execHere_eq (s : State) : execHere s = .next (runPort portMicro s.here.bound? s) := by
  unfold execHere Port.bound?
  split
  next i hi =>
    rw [exec_runPort, runPort_portMicro (c := some i) _ _ s hi]
    exact fun u hu => by simp only [portMicro, hu]
  next hn =>
    rw [runPort_portMicro (c := none) _ _ s hn]
    exact fun u hu => by simp only [portMicro, hu]

/-! ## The changes every step is made of -/

/-- `P` speaks of the configuration and the ports, and each elementary change of these keeps it: a micro-step of the
executing port, a host write to a busy port's CMD, to an idle port's CMD or to another register, and RST. -/
structure Kept (P : State → Prop) : Prop where
  aside : ∀ s, P s → ∀ t : State, t.cfg = s.cfg → t.ports = s.ports → P t
  micro : ∀ s, P s → P (portMicro s)
  dropped : ∀ s p, P s → P (s.setPort p ((s.port p).setFlag .ovr true))
  accepted : ∀ s p w, (s.port p).busy = false → P s → P (s.setPort p ((s.port p).accepted w))
  written : ∀ s p off v, P s → P (s.setPort p ((s.port p).writeReg off v))
  rst : ∀ s, P s → P s.rst

section
variable {P : State → Prop} {s t : State}

theorem Stop.outcome_ne_next (x : Stop) (t : State) : x.outcome ≠ .next t := by
  cases x <;> simp [Stop.outcome]

theorem Kept.guardedMicro (K : Kept P) (h : guardedMicro s = .next t) (hs : P s) : P t := by
  unfold Machine.guardedMicro at h
  split at h
  · exact absurd h (Stop.outcome_ne_next _ t)
  · cases h; exact K.micro s hs

theorem Kept.runHere (K : Kept P) (h : runHere s = .next t) (hs : P s) : P t := by
  unfold Machine.runHere at h
  split at h
  · exact absurd h (Stop.outcome_ne_next _ t)
  · rw [execHere_eq] at h
    cases h
    exact runPort_induct portMicro P K.micro _ s hs

theorem Kept.writeCmd (K : Kept P) (hs : P s) (p : Nat) (w : Word) : P (s.writeCmd p w) := by
  unfold State.writeCmd
  split
  · exact K.dropped s p hs
  next hb => exact K.aside _ (K.accepted s p w (Bool.eq_false_iff.mpr hb) hs) _ rfl rfl

theorem Kept.writeReg (K : Kept P) (hs : P s) (off : Nat) (v : Word) : P (s.writeReg off v) := by
  unfold State.writeReg
  split
  · exact hs
  · split
    · split
      · exact K.writeCmd hs _ v
      · exact K.written s _ _ v hs
    · exact hs

theorem State.afterRead_cfg_ports (s : State) (off : Nat) :
    (s.afterRead off).cfg = s.cfg ∧ (s.afterRead off).ports = s.ports := by
  unfold State.afterRead State.seeStatus
  split
  · split <;> exact ⟨rfl, rfl⟩
  · exact ⟨rfl, rfl⟩

theorem Kept.afterRead (K : Kept P) (hs : P s) (off : Nat) : P (s.afterRead off) :=
  K.aside s hs _ (s.afterRead_cfg_ports off).1 (s.afterRead_cfg_ports off).2

theorem Kept.moveAbsentStatus (K : Kept P) {p : Nat} (h : moveAbsentStatus s p = .next t) (hs : P s) : P t := by
  unfold Machine.moveAbsentStatus at h
  split at h
  · cases h; exact K.afterRead hs _
  · cases h

theorem Kept.moveRegRead (K : Kept P) {addr width : Nat} (h : moveRegRead s addr width = .next t)
    (hs : P s) : P t := by
  unfold Machine.moveRegRead at h
  split at h
  · cases h
  · split at h
    · cases h
    · cases h; exact K.afterRead hs _

theorem Kept.moveRegWrite (K : Kept P) {addr width : Nat} {v : Word}
    (h : moveRegWrite s addr width v = .next t) (hs : P s) : P t := by
  unfold Machine.moveRegWrite at h
  split at h
  · cases h
  · split at h
    · cases h
    · cases h; exact K.writeReg hs _ v

theorem Kept.moveMemRead (K : Kept P) {addr n : Nat} (h : moveMemRead s addr n = .next t) (hs : P s) : P t := by
  unfold Machine.moveMemRead at h
  split at h
  · cases h; exact K.aside s hs _ rfl rfl
  · cases h

theorem Kept.moveMemWrite (K : Kept P) {addr : Nat} {bs : List Byte}
    (h : moveMemWrite s addr bs = .next t) (hs : P s) : P t := by
  have hw : P (s.writeEvent hostAgent addr (hostOpen s) bs) := K.aside s hs _ rfl rfl
  unfold Machine.moveMemWrite at h
  simp only at h
  split at h
  · split at h
    · exact absurd h (Stop.outcome_ne_next _ t)
    · cases h; exact hw
  · cases h; exact hw

theorem Kept.movePortStep (K : Kept P) {p : Nat} (h : movePortStep s p = .next t) (hs : P s) : P t := by
  unfold Machine.movePortStep at h
  split at h
  · exact K.guardedMicro h (K.aside s hs _ rfl rfl)
  · cases h; exact hs

theorem Kept.moveRun (K : Kept P) {p : Nat} (h : moveRun s p = .next t) (hs : P s) : P t := by
  unfold Machine.moveRun at h
  split at h
  · exact K.runHere h (K.aside s hs _ rfl rfl)
  · cases h; exact hs

theorem Kept.moveCommand (K : Kept P) {p : Nat} {w : Word} (h : moveCommand s p w = .next t) (hs : P s) : P t := by
  unfold Machine.moveCommand at h
  split at h
  · split at h
    · cases h; exact K.writeCmd hs p w
    · have hissued : P (s.issued p w) := K.aside _ (K.writeCmd hs p w) _ rfl rfl
      split at h
      next u hu => cases h; exact K.aside u (K.runHere hu hissued) _ rfl rfl
      · cases h
      · cases h
  · exact K.moveAbsentStatus h (K.writeReg hs _ w)

theorem Kept.moveWait (K : Kept P) {p : Nat} (h : moveWait s p = .next t) (hs : P s) : P t := by
  unfold Machine.moveWait at h
  split at h
  · split at h
    · exact K.guardedMicro h (K.aside s hs _ rfl rfl)
    · cases h; exact K.aside s hs _ rfl rfl
  · exact K.moveAbsentStatus h hs

theorem Kept.move (K : Kept P) {m : Move} (h : move s m = .next t) (hs : P s) : P t := by
  cases m with
  | regRead addr width => exact K.moveRegRead h hs
  | regWrite addr width v => exact K.moveRegWrite h hs
  | memRead addr n => exact K.moveMemRead h hs
  | memWrite addr bs => exact K.moveMemWrite h hs
  | portStep p => exact K.movePortStep h hs
  | run p => exact K.moveRun h hs
  | command p w => exact K.moveCommand h hs
  | wait p => exact K.moveWait h hs
  | rst => cases h; exact K.rst s hs

/-- What every elementary change keeps, every step of the machine keeps. -/
theorem Kept.step (K : Kept P) (h : step s = .next t) (hs : P s) : P t := by
  have hl : P s.lookAhead := K.aside s hs _ rfl rfl
  unfold Machine.step act at h
  split at h
  · unfold idleMove at h
    split at h
    · exact K.movePortStep h hl
    · cases h; exact hl
  · exact K.move h (K.aside _ hl _ rfl rfl)

end

/-! ## The configuration and the number of ports (R6, R20) -/

theorem kept_configuration (c : Config) (n : Nat) : Kept (fun s => s.cfg = c ∧ s.ports.length = n) where
  aside s h t hc hp := by rw [hc, hp]; exact h
  micro s h := by
    obtain ⟨hc, q, hports, -⟩ := advances_portMicro s
    rw [hc, hports, List.length_set]
    exact h
  dropped s p h := ⟨h.1, (List.length_set ..).trans h.2⟩
  accepted s p w _ h := ⟨h.1, (List.length_set ..).trans h.2⟩
  written s p off v h := ⟨h.1, (List.length_set ..).trans h.2⟩
  rst s h := ⟨h.1, (List.length_map ..).trans h.2⟩

/-- Settles O22: no elementary change touches the configuration or the number of ports. -/
theorem stepKeepsConfiguration : Obligations.StepKeepsConfiguration := by
  intro s t h
  exact (kept_configuration s.cfg s.ports.length).step h ⟨rfl, rfl⟩

/-! ## The engines (R9, R93, R182, R191) -/

/-- Every port's engine is sound. -/
def EnginesSound (s : State) : Prop := ∀ q ∈ s.ports, q.EngineSound s.cfg

theorem Port.engineSound_reset (cfg : Config) : Port.reset.EngineSound cfg := ⟨rfl, fun h => absurd rfl h⟩

theorem EnginesSound.port {s : State} (h : EnginesSound s) (p : Nat) : (s.port p).EngineSound s.cfg := by
  by_cases hp : p < s.ports.length
  · have : s.port p = s.ports[p] := by simp [State.port, List.getD_eq_getElem?_getD, hp]
    exact this ▸ h _ (List.getElem_mem hp)
  · have : s.port p = Port.reset := by simp [State.port, List.getD_eq_getElem?_getD, hp]
    exact this ▸ Port.engineSound_reset s.cfg

theorem EnginesSound.set {s t : State} {p : Nat} {q : Port} (h : EnginesSound s) (hc : t.cfg = s.cfg)
    (ht : t.ports = s.ports.set p q) (hq : q.EngineSound s.cfg) : EnginesSound t := by
  intro r hr
  rw [ht] at hr
  rw [hc]
  rcases List.mem_or_eq_of_mem_set hr with hr | rfl
  · exact h r hr
  · exact hq

/-- An idle port's engine holds nothing, so the command it accepts starts on an empty engine (R93). -/
theorem Port.EngineSound.accepted {cfg : Config} {q : Port} (h : q.EngineSound cfg) (hb : q.busy = false) (w : Word) :
    (q.accepted w).EngineSound cfg := by
  have hidle : q.pos = .idle := by
    by_contra hp
    simp [h.2 hp] at hb
  have hempty : engineInside cfg q = true := h.1
  simp only [engineInside, hidle] at hempty
  exact ⟨hempty, fun _ => Port.flag_accepted q w .busy⟩

/-- No other host write reaches BUSY or what the engine works with (R28, R31, R35, R241). -/
theorem Port.EngineSound.writeReg {cfg : Config} {q : Port} (h : q.EngineSound cfg) (off : Nat) (v : Word) :
    (q.writeReg off v).EngineSound cfg := by
  unfold Port.writeReg
  split
  · exact ⟨h.1, fun hp => by simpa [Port.busy, Port.flag, Port.writeStatus, statusW1C, Flag.bit] using h.2 hp⟩
  all_goals exact h

theorem kept_enginesSound : Kept EnginesSound where
  aside s h t hc hp := by unfold EnginesSound; rw [hc, hp]; exact h
  micro s h := by
    obtain ⟨hc, q, hports, -, hq⟩ := advances_portMicro s
    exact h.set hc hports (hq (h.port s.cur))
  dropped s p h := h.set rfl rfl
    ⟨(h.port p).1, fun hp => (Port.flag_setFlag _ .ovr .busy true).trans ((h.port p).2 hp)⟩
  accepted s p w hb h := h.set rfl rfl ((h.port p).accepted hb w)
  written s p off v h := h.set rfl rfl ((h.port p).writeReg off v)
  rst s h q hq := by
    obtain ⟨-, -, rfl⟩ := List.mem_map.mp hq
    exact Port.engineSound_reset _

/-- Sound ports show BUSY where their engines work (R30). -/
theorem enginesSound_of_portsOk {s : State} (hp : portsOk s = true) (he : enginesInside s = true) :
    EnginesSound s := by
  intro q hq
  refine ⟨List.all_eq_true.mp he q hq, fun hpos => ?_⟩
  simp only [portsOk, portOk, Bool.and_eq_true, List.all_eq_true, beq_iff_eq] at hp
  obtain ⟨-, hok⟩ := hp
  obtain ⟨⟨⟨⟨-, hbusy⟩, -⟩, -⟩, -⟩ := hok q hq
  exact hbusy.trans (bne_iff_ne.mpr hpos)

/-- Settles O20: an engine that is sound stays so at each elementary change. -/
theorem stepKeepsEnginesInside : Obligations.StepKeepsEnginesInside := by
  intro s t hp he h
  have ht : EnginesSound t := kept_enginesSound.step h (enginesSound_of_portsOk hp he)
  exact List.all_eq_true.mpr fun q hq => (ht q hq).1

end Sys2Proof.Machine

/-! PROOFS. What one micro-step does to the registers of its port (spec R93), and from it the invariant of the ports (R30,
R32, R39, R48, R112, R150, R201). -/

namespace Sys2Proof.Machine

/-! ## One micro-step, as its port sees it (R93) -/

/-- The engine has passed its decode step, and no check of the command has failed (R93). -/
def EnginePos.passed (pos : EnginePos) : Bool :=
  match pos with
  | .idle | .decode | .raising _ _ => false
  | .initWr | .initRd | .loadRd | .loadWr | .tableRead _ | .copyRead _ | .copyWrite _ | .recordWrite _ | .recordRead _
  | .publish | .finish => true

/-- The registers of a port before and after one micro-step of the command `c`, an illegal word where `c` is none
(R93). -/
inductive PortMicro (cfg : Config) (c : Option Instr) (q : Port) : Port → Prop
  /-- The decode step, every check passed. -/
  | checked (i : Instr) (next : EnginePos) (hc : c = some i) (hp : q.pos = .decode) (hk : check i cfg q = none)
      (hn : next.passed = true) (hl : loadsIndices i = true → next.afterLoads = false) :
      PortMicro cfg c q { q with pos := next }
  /-- The decode step, a check failed. -/
  | failed (e : ErrCode) (info : Word) (hp : q.pos = .decode) : PortMicro cfg c q { q with pos := .raising e info }
  /-- LoadIndices, first event (R131). -/
  | loadedRd (w : Word) (hp : q.pos = .loadRd) : PortMicro cfg c q { q with lrd := w, pos := .loadWr }
  /-- LoadIndices, second event, and the checks on both indices (R131). -/
  | loadedWr (w : Word) (next : EnginePos) (hp : q.pos = .loadWr) (hn : next ≠ .idle)
      (hv : next.passed = true → q.lrd.toNat < q.nslots ∧ w.toNat < q.nslots) :
      PortMicro cfg c q { q with lwr := w, pos := next }
  /-- A table read, a copy, a record byte or a store: only the engine changes. -/
  | worked (next : EnginePos) (x : List Byte) (tb : List Word) (r : List Byte) (hp : q.pos.passed = true)
      (hn : next ≠ .idle)
      (hl : ∀ i, c = some i → loadsIndices i = true → next.afterLoads = true → q.pos.afterLoads = true) :
      PortMicro cfg c q { q with pos := next, elem := x, table := tb, record := r }
  /-- `raise` (R203). -/
  | raised (e : ErrCode) (info : Word) (hp : q.pos = .raising e info) : PortMicro cfg c q (q.raised e info).atRest
  /-- The finish step of a command that writes results alone (R94). -/
  | answered (a b d : Word) (hp : q.pos = .finish) :
      PortMicro cfg c q ({ q with res0 := a, res1 := b, res2 := d } : Port).ending.atRest
  /-- The finish step of BIND (R111). -/
  | rebound (kind : BitVec 4) (proto : BitVec 2) (role : Role) (init : Bool)
      (hc : c = some (.bind kind proto role init)) (hp : q.pos = .finish) : PortMicro cfg c q (bindResult kind proto role q).ending.atRest
  /-- The finish step of WSPAN.ACQ (R150). -/
  | acquired (hc : c = some .wspanAcq) (hp : q.pos = .finish) : PortMicro cfg c q (acqResult q).ending.atRest
  /-- The finish step of WSPAN.COMMIT (R155). -/
  | committed (dflt : Bool) (hc : c = some (.wspanCommit dflt)) (hp : q.pos = .finish) :
      PortMicro cfg c q (({ q with res0 := commitCount dflt q } : Port).setFlag .grant false).ending.atRest

/-- One micro-step of a command: nothing on an idle port and where the command has no such step, otherwise one of the
changes of `PortMicro`. -/
abbrev PortMoves (cfg : Config) (c : Option Instr) : Port → Port → Prop := Relation.ReflGen (PortMicro cfg c)

/-- From `s` to `t` the executing port takes one micro-step of the command `c`, or none; of the other ports and of what
the host sees nothing changes (R93, R217). -/
def Moved (c : Option Instr) (s t : State) : Prop := Elsewhere s t ∧ PortMoves s.cfg c s.here t.here

section
variable {s : State} {c : Option Instr} {i : Instr}

theorem Moved.refl : Moved c s s := ⟨Elsewhere.refl s, .refl⟩

/-- A step that makes a memory event, or none, and then replaces the executing port. -/
theorem moved_setHere {u : State} {q : Port} (hu : Elsewhere s u) (h : PortMicro s.cfg c s.here q) :
    Moved c s (u.setHere q) := by
  refine ⟨hu.trans (elsewhere_setHere u q), ?_⟩
  by_cases hc : s.cur < s.ports.length
  · rw [State.here_setHere u q (hu.exists hc)]; exact .single h
  · have hl : u.ports.length ≤ u.cur := by rw [hu.2.2.2.2.2.1, hu.cur]; exact Nat.not_lt.mp hc
    have hh : (u.setHere q).here = s.here := by
      simp only [State.here, State.port, State.setHere_ports, State.setHere_cur, List.set_eq_of_length_le hl]
      rw [List.getD_eq_default _ _ hl, List.getD_eq_default _ _ (Nat.not_lt.mp hc)]
    rw [hh]

/-- The end of a command (R94, R203). -/
theorem moved_ended {q : Port} (h : PortMicro s.cfg c s.here q.atRest) : Moved c s (s.ended q) :=
  moved_setHere (Elsewhere.refl s) h

theorem moved_decodeStep {next : EnginePos} (hp : s.here.pos = .decode) (hn : next.passed = true)
    (hl : loadsIndices i = true → next.afterLoads = false) :
    Moved (some i) s (s.decodeStep (check i s.cfg s.here) next) := by
  unfold State.decodeStep
  split
  · exact moved_setHere (Elsewhere.refl s) (.failed _ _ hp)
  next hk => exact moved_setHere (Elsewhere.refl s) (.checked i next rfl hp hk hn hl)

/-- The decode step of a command that loads the indices (R131). -/
theorem moved_decode_loads (hp : s.here.pos = .decode) :
    Moved (some i) s (s.decodeStep (check i s.cfg s.here) .loadRd) := moved_decodeStep hp rfl fun _ => rfl

theorem moved_loadRdStep (hp : s.here.pos = .loadRd) : Moved c s s.loadRdStep :=
  moved_setHere (elsewhere_loadEvent s _ _) (.loadedRd _ hp)

/-- Past the checks of LoadIndices both indices are valid (R131). -/
theorem moved_loadWrStep {next : Port → EnginePos} (hp : s.here.pos = .loadWr) (hn : ∀ q, next q ≠ .idle) :
    Moved c s (s.loadWrStep next) := by
  rw [State.loadWrStep_eq]
  refine moved_setHere (elsewhere_loadEvent s _ _) (.loadedWr _ _ hp ?_ ?_)
  all_goals
    unfold State.afterLoads
    split
  · simp
  · exact hn _
  · simp [EnginePos.passed]
  next h => exact fun _ => (Port.indexError_none _).mp h

theorem moved_copyReadStep (x n : Nat) {k : Nat} (hp : s.here.pos = .copyRead k) :
    Moved c s (s.copyReadStep x n (.copyWrite k)) :=
  moved_setHere (elsewhere_readEvent s _ _ _ _)
    (.worked _ _ _ _ (by rw [hp]; rfl) (by simp) (fun _ _ _ _ => by rw [hp]; rfl))

theorem moved_copyWriteStep (x : Nat) (f : Nat → Bool) {k : Nat} {next : EnginePos}
    (hp : s.here.pos = .copyWrite k) (hn : next ≠ .idle) : Moved c s (s.copyWriteStep x f next) :=
  moved_setHere (elsewhere_writeEvent s _ _ _ _)
    (.worked _ _ _ _ (by rw [hp]; rfl) hn (fun _ _ _ _ => by rw [hp]; rfl))

theorem moved_publishStep (x v : Nat) (hp : s.here.pos = .publish) : Moved c s (s.publishStep x v) :=
  moved_setHere (elsewhere_storeEvent s _ _ _ _ _)
    (.worked _ _ _ _ (by rw [hp]; rfl) (by simp) (fun _ _ _ _ => by rw [hp]; rfl))

theorem moved_raise {e : ErrCode} {info : Word} (hp : s.here.pos = .raising e info) : Moved c s (s.raise e info) :=
  moved_ended (.raised e info hp)

/-- The finish step of a command that writes results alone (R94). -/
theorem moved_answer (a b d : Word) (hp : s.here.pos = .finish) :
    Moved c s (s.finishStep { s.here with res0 := a, res1 := b, res2 := d }) := moved_ended (.answered a b d hp)

/-! ## Every command's micro-steps (R93) -/

theorem moved_eventless (hi : i = .nop ∨ i = .capacity ∨ ∃ kind, i = .size kind) : Moved (some i) s (micro i s) := by
  rcases hi with rfl | rfl | ⟨kind, rfl⟩
  all_goals
    simp only [micro, microNop, microCapacity, microSize]
    split
    next hp => exact moved_decodeStep hp rfl (by simp [loadsIndices])
    next hp => exact moved_answer _ _ _ hp
    next hp => exact moved_raise hp
    all_goals exact Moved.refl

theorem moved_bind (kind : BitVec 4) (proto : BitVec 2) (role : Role) (init : Bool) :
    Moved (some (.bind kind proto role init)) s (microBind kind proto role init s) := by
  unfold microBind
  split
  next hp => exact moved_decodeStep hp (by cases init <;> rfl) (by simp [loadsIndices])
  next hp =>
    exact moved_setHere (elsewhere_storeEvent s _ _ _ _ _)
      (.worked _ _ _ _ (by rw [hp]; rfl) (by simp) (by rintro _ ⟨⟩ ⟨⟩))
  next hp =>
    exact moved_setHere (elsewhere_storeEvent s _ _ _ _ _)
      (.worked _ _ _ _ (by rw [hp]; rfl) (by simp) (by rintro _ ⟨⟩ ⟨⟩))
  next hp => exact moved_ended (.rebound kind proto role init rfl hp)
  next hp => exact moved_raise hp
  all_goals exact Moved.refl

/-- The queries that load the indices (R160). -/
theorem moved_indexQuery {answer : Port → Word} (hi : check i s.cfg s.here = checkQuery s.here) :
    Moved (some i) s (microIndexQuery answer s) := by
  unfold microIndexQuery
  split
  next hp => exact hi ▸ moved_decode_loads hp
  next hp => exact moved_loadRdStep hp
  next hp => exact moved_loadWrStep hp (by simp)
  next hp => exact moved_answer _ _ _ hp
  next hp => exact moved_raise hp
  all_goals exact Moved.refl

theorem moved_wspanAcq : Moved (some .wspanAcq) s (microWspanAcq s) := by
  unfold microWspanAcq
  split
  next hp => exact moved_decode_loads hp
  next hp => exact moved_loadRdStep hp
  next hp => exact moved_loadWrStep hp (by simp)
  next hp => exact moved_ended (.acquired rfl hp)
  next hp => exact moved_raise hp
  all_goals exact Moved.refl

theorem moved_wspanCommit (dflt : Bool) : Moved (some (.wspanCommit dflt)) s (microWspanCommit dflt s) := by
  unfold microWspanCommit
  split
  next hp => exact moved_decodeStep hp rfl (by simp [loadsIndices])
  next hp => exact moved_publishStep _ _ hp
  next hp => exact moved_ended (.committed dflt rfl hp)
  next hp => exact moved_raise hp
  all_goals exact Moved.refl

theorem pushNext_ne_idle (q : Port) : pushNext q ≠ .idle := by unfold pushNext; grind

theorem popNext_ne_idle (q : Port) : popNext q ≠ .idle := by unfold popNext; grind

/-- The ring transfers (R140, R145, R171, R172). -/
theorem moved_transfer (hi : i = .push ∨ i = .pop ∨ i = .aenq ∨ i = .adeq) : Moved (some i) s (micro i s) := by
  rcases hi with rfl | rfl | rfl | rfl
  all_goals
    simp only [micro, microPush, microPop, microAenq, microAdeq, microPushBody, microPopBody]
    split
    next hp => exact moved_decode_loads hp
    next hp => exact moved_loadRdStep hp
    next hp => exact moved_loadWrStep hp (by simp [pushNext_ne_idle, popNext_ne_idle])
    next hp => exact moved_copyReadStep _ _ hp
    next hp => exact moved_copyWriteStep _ _ hp (by split <;> simp)
    next hp => exact moved_publishStep _ _ hp
    next hp => exact moved_answer _ _ _ hp
    next hp => exact moved_raise hp
    all_goals exact Moved.refl

theorem moved_penq (pidx : BitVec 8) : Moved (some (.penq pidx)) s (microPenq pidx s) := by
  unfold microPenq
  split
  next hp => exact moved_decode_loads hp
  next hp => exact moved_loadRdStep hp
  next hp => exact moved_loadWrStep hp fun q => by split <;> simp
  next k hp =>
    exact moved_setHere (elsewhere_writeEvent s _ _ _ _)
      (.worked _ _ _ _ (by rw [hp]; rfl) (by split <;> simp) (fun _ _ _ _ => by rw [hp]; rfl))
  next hp => exact moved_publishStep _ _ hp
  next hp => exact moved_answer _ _ _ hp
  next hp => exact moved_raise hp
  all_goals exact Moved.refl

theorem moved_pdeq : Moved (some .pdeq) s (microPdeq s) := by
  unfold microPdeq
  split
  next hp => exact moved_decode_loads hp
  next hp => exact moved_loadRdStep hp
  next hp => exact moved_loadWrStep hp (by unfold pdeqNext; grind)
  next k hp =>
    exact moved_setHere (elsewhere_readEvent s _ _ _ _)
      (.worked _ _ _ _ (by rw [hp]; rfl) (by split <;> simp) (fun _ _ _ _ => by rw [hp]; rfl))
  next hp => exact moved_publishStep _ _ hp
  next hp => unfold pdeqResult; split <;> exact moved_answer _ _ _ hp
  next hp => exact moved_raise hp
  all_goals exact Moved.refl

theorem moved_tableStep {k : Nat} (hi : loadsIndices i = false) (hp : s.here.pos = .tableRead k) :
    Moved (some i) s (xposeTableStep s k) := by
  unfold xposeTableStep
  refine moved_setHere (elsewhere_readEvent s _ _ _ _) (.worked _ _ _ _ (by rw [hp]; rfl) (by split <;> grind) ?_)
  rintro _ ⟨⟩ h
  simp [hi] at h

/-- The transposes (R192, R193). -/
theorem moved_transpose (hi : i = .deint ∨ i = .inter) : Moved (some i) s (micro i s) := by
  rcases hi with rfl | rfl
  all_goals
    simp only [micro, microDeint, microInter]
    split
    next hp => exact moved_decodeStep hp (by unfold xposeStart; split <;> rfl) (by simp [loadsIndices])
    next hp => exact moved_tableStep rfl hp
    next hp => exact moved_copyReadStep _ _ hp
    next hp => exact moved_copyWriteStep _ _ hp (by unfold xposeAfter; split <;> simp)
    next hp => exact moved_answer _ _ _ hp
    next hp => exact moved_raise hp
    all_goals exact Moved.refl

end

/-- One micro-step of any command, from wherever its engine stands (R93). -/
theorem moved_micro (i : Instr) (s : State) : Moved (some i) s (micro i s) := by
  cases i with
  | bind kind proto role init => exact moved_bind kind proto role init
  | wspanAcq => exact moved_wspanAcq
  | wspanCommit dflt => exact moved_wspanCommit dflt
  | penq pidx => exact moved_penq pidx
  | pdeq => exact moved_pdeq
  | nop | capacity | size => exact moved_eventless (by simp)
  | empty | full | availRead | availWrite =>
    simp only [micro, microEmpty, microFull, microAvailRead, microAvailWrite]
    exact moved_indexQuery rfl
  | push | pop | aenq | adeq => exact moved_transfer (by simp)
  | deint | inter => exact moved_transpose (by simp)

/-- The micro-step of a port, an illegal word's too (R93, R96). -/
theorem moved_portMicro (s : State) : Moved s.here.command? s (portMicro s) := by
  unfold portMicro
  split
  next i hi => exact hi ▸ moved_micro i s
  next =>
    unfold microIllegal
    split
    next hp => exact moved_setHere (Elsewhere.refl s) (.failed _ _ hp)
    next hp => exact moved_raise hp
    all_goals exact Moved.refl

/-- An idle port takes no micro-step (R93). -/
theorem PortMicro.pos_ne_idle {cfg : Config} {c : Option Instr} {q r : Port} (h : PortMicro cfg c q r) :
    q.pos ≠ .idle := by
  intro hi
  cases h <;> simp_all [EnginePos.passed]

end Sys2Proof.Machine

namespace Sys2Proof.Machine

/-! ## Sound ports (R30, R39, R112, R150, R201) -/

/-- Both ports hold the same binding, the same grant and the same command with the same operands. -/
structure Port.SameOperands (q r : Port) : Prop where
  segBase : q.segBase = r.segBase
  slots : q.slots = r.slots
  bindcfg : q.bindcfg = r.bindcfg
  bound : q.bound = r.bound
  grant : q.grant = r.grant
  grantWr : q.grantWr = r.grantWr
  grantN : q.grantN = r.grantN
  lcmd : q.lcmd = r.lcmd
  larg0 : q.larg0 = r.larg0
  larg1 : q.larg1 = r.larg1
  larg2 : q.larg2 = r.larg2
  larg3 : q.larg3 = r.larg3

/-- What the statements call base, slot count, kind, element size, protocol and role comes from the binding registers
(R10, R39). -/
theorem Port.binding_congr {q r : Port} (h1 : q.segBase = r.segBase) (h2 : q.slots = r.slots)
    (h3 : q.bindcfg = r.bindcfg) :
    q.base = r.base ∧ q.nslots = r.nslots ∧ q.kind = r.kind ∧ q.esize = r.esize ∧ q.proto = r.proto ∧
      q.role = r.role ∧ q.roleWord = r.roleWord := by
  simp only [Port.base, Port.nslots, Port.kind, Port.esize, Port.proto, Port.role, Port.roleWord, h1, h2, h3, and_self]

/-- The checks of a command ask for nothing else (R134). -/
theorem check_congr {q r : Port} (h : q.SameOperands r) (i : Instr) (cfg : Config) : check i cfg q = check i cfg r := by
  obtain ⟨-, -, -, hesize, hproto, hrole, hword⟩ := Port.binding_congr h.segBase h.slots h.bindcfg
  have hcommit : ∀ dflt, commitCount dflt q = commitCount dflt r := fun dflt => by
    simp only [commitCount, h.grantN, h.larg0]
  cases i
  all_goals
    simp only [check, checkBind, checkSize, checkQuery, checkPush, checkPop, checkWspanAcq, checkWspanCommit, checkAenq,
      checkAdeq, checkPenq, checkPdeq, checkXpose, needBound, needRole, needProto, needNoGrant, needGrant, needAligned,
      needBuffer, bufferAddr, bufferLen, ibLen, tbLen, Port.channels, hesize, hproto, hrole, hword, hcommit, h.bound,
      h.grant, h.grantN, h.lcmd, h.larg0, h.larg1, h.larg2, h.larg3]

/-- Command `i` has passed its checks on the port, and past LoadIndices its indices are valid (R93, R131). -/
def Port.Checked (cfg : Config) (i : Instr) (q : Port) : Prop :=
  check i cfg q = none ∧
    (loadsIndices i = true → q.pos.afterLoads = true → q.lrd.toNat < q.nslots ∧ q.lwr.toNat < q.nslots)

/-- What `portOk` asks, each clause by its name. -/
structure Port.Sound (cfg : Config) (q : Port) : Prop where
  status : q.status >>> 6 = 0#32
  ctrl : q.ctrl >>> 2 = 0#32
  cause : q.errCause.toNat < 15
  busy : q.busy = (q.pos != .idle)
  segment : q.bound = true → segmentOk cfg q = true
  unbound : q.bound = false → unboundOk q = true
  grant : grantOk q = true
  engine : q.pos.passed = true → ∃ i, q.command? = some i ∧ q.Checked cfg i

theorem engineOk_iff (cfg : Config) (q : Port) :
    engineOk cfg q = true ↔ (q.pos.passed = true → ∃ i, q.command? = some i ∧ q.Checked cfg i) := by
  unfold engineOk Port.Checked
  cases hp : q.pos
  all_goals cases hc : q.command?
  all_goals simp [EnginePos.passed, EnginePos.afterLoads]
  all_goals grind

theorem portOk_iff (cfg : Config) (q : Port) : portOk cfg q = true ↔ q.Sound cfg := by
  simp only [portOk, Bool.and_eq_true, beq_iff_eq, decide_eq_true_eq, engineOk_iff]
  constructor
  · rintro ⟨⟨⟨⟨⟨⟨h1, h2⟩, h3⟩, h4⟩, h5⟩, h6⟩, h7⟩
    exact ⟨h1, h2, h3, h4, fun hb => by rwa [if_pos hb] at h5, fun hb => by simpa [hb] using h5, h6, h7⟩
  · rintro ⟨h1, h2, h3, h4, h5, h6, h7, h8⟩
    refine ⟨⟨⟨⟨⟨⟨h1, h2⟩, h3⟩, h4⟩, ?_⟩, h7⟩, h8⟩
    split
    next hb => exact h5 hb
    next hb => exact h6 (Bool.eq_false_iff.mpr hb)

theorem segmentOk_congr {q r : Port} (cfg : Config) (h1 : q.segBase = r.segBase) (h2 : q.slots = r.slots)
    (h3 : q.bindcfg = r.bindcfg) : segmentOk cfg q = segmentOk cfg r := by
  obtain ⟨hbase, hslots, hkind, hesize, hproto, -, -⟩ := Port.binding_congr h1 h2 h3
  have hlen : q.segLen = r.segLen := by simp only [Port.segLen, hslots, hesize]
  simp only [segmentOk, hbase, hslots, hkind, hesize, hproto, hlen, h3]

theorem grantOk_congr {q r : Port} (h : q.SameOperands r) : grantOk q = grantOk r := by
  obtain ⟨-, hslots, -, -, -, hrole, -⟩ := Port.binding_congr h.segBase h.slots h.bindcfg
  simp only [grantOk, hrole, hslots, h.grant, h.bound, h.grantWr, h.grantN]

/-- A change of STATUS fields reaches no reserved bit (R30). -/
theorem Port.setFlag_reserved (q : Port) (f : Flag) (v : Bool) : (q.setFlag f v).status >>> 6 = q.status >>> 6 := by
  apply BitVec.eq_of_getLsbD_eq
  intro b _
  have hm : f.mask.getLsbD (6 + b) = false := by
    simp only [Flag.mask, BitVec.getLsbD_shiftLeft, BitVec.getLsbD_one]
    have hf : f.bit < 6 := by cases f <;> decide
    simp
    omega
  rw [BitVec.getLsbD_ushiftRight, BitVec.getLsbD_ushiftRight]
  cases v
  · simp [Port.setFlag, hm]
    intro h1
    have := BitVec.lt_of_getLsbD h1
    omega
  · simp [Port.setFlag, hm]

theorem Port.ending_reserved (q : Port) : q.ending.status >>> 6 = q.status >>> 6 := by
  simp only [Port.ending, Port.setFlag_reserved]

@[simp] theorem Port.bound_ending (q : Port) : q.ending.bound = q.bound := Port.flag_ending q .bound
@[simp] theorem Port.grant_ending (q : Port) : q.ending.grant = q.grant := Port.flag_ending q .grant

/-! ## BIND leaves a binding it accepts (R111, R112) -/

theorem bindcfgWord_kind (kind : BitVec 4) (e : Nat) (proto : BitVec 2) (role : Role) :
    (bindcfgWord kind e proto role).extractLsb' 0 4 = kind := by
  apply BitVec.eq_of_getLsbD_eq
  intro b hb
  simp [bindcfgWord, hb]
  grind

theorem bindcfgWord_esize (kind : BitVec 4) (e : Nat) (proto : BitVec 2) (role : Role) :
    (bindcfgWord kind e proto role).extractLsb' 4 4 = BitVec.ofNat 4 e := by
  apply BitVec.eq_of_getLsbD_eq
  intro b hb
  simp [bindcfgWord, hb]
  grind

theorem bindcfgWord_proto (kind : BitVec 4) (e : Nat) (proto : BitVec 2) (role : Role) :
    (bindcfgWord kind e proto role).extractLsb' 8 2 = proto := by
  apply BitVec.eq_of_getLsbD_eq
  intro b hb
  simp [bindcfgWord, hb]
  grind

theorem bindcfgWord_reserved (kind : BitVec 4) (e : Nat) (proto : BitVec 2) (role : Role) :
    bindcfgWord kind e proto role >>> 11 = 0#32 := by
  apply BitVec.eq_of_getLsbD_eq
  intro b hb
  simp [bindcfgWord]
  grind

/-- What the checks of BIND leave (R111). -/
structure BindChecked (kind : BitVec 4) (proto : BitVec 2) (cfg : Config) (q : Port) : Prop where
  protoLegal : proto ≠ 3#2
  grant : q.grant = false
  kindLegal : elemSize kind = some (kindSize kind)
  aligned : q.larg0.toNat % 8 = 0
  fits : q.larg0.toNat + q.larg1.toNat ≤ cfg.memSize
  length : 8 + kindSize kind ≤ q.larg1.toNat
  whole : (q.larg1.toNat - 8) % kindSize kind = 0
  slots : bindSlots q.larg1.toNat (kindSize kind) ≤ 2 ^ 31
  audio : proto = protoAudio → kind = kindF32
  param : proto = protoParam → kind = kindU8

theorem checkBind_none {kind : BitVec 4} {proto : BitVec 2} {cfg : Config} {q : Port}
    (h : checkBind kind proto cfg q = none) : BindChecked kind proto cfg q := by
  simp only [checkBind, firstError_none, List.forall_mem_cons, List.not_mem_nil, false_imp_iff, implies_true, and_true,
    beq_eq_false_iff_ne, bne_eq_false_iff_eq, fitsMem, Bool.not_eq_false', decide_eq_true_eq, Bool.or_eq_false_iff,
    Bool.and_eq_false_iff, Config.headerSize, Config.maxSlots, kindReserved] at h
  obtain ⟨hproto, hgrant, hkind, haligned, hfits, ⟨hlength, hwhole⟩, hslots, haudio, hparam⟩ := h
  refine ⟨hproto, hgrant, ?_, haligned, hfits, Nat.not_lt.mp (of_decide_eq_false hlength), hwhole,
    Nat.not_lt.mp (of_decide_eq_false hslots), fun h => haudio.resolve_left (absurd h),
    fun h => hparam.resolve_left (absurd h)⟩
  unfold kindSize
  cases hk : elemSize kind with
  | none => simp [hk] at hkind
  | some e => rfl

/-- Every element has 1 to 8 bytes (R42). -/
theorem elemSize_bounds {kind : BitVec 4} {e : Nat} (h : elemSize kind = some e) : 1 ≤ e ∧ e ≤ 8 := by
  revert h
  unfold elemSize
  split <;> simp <;> omega

/-- The binding registers after a BIND that has passed its checks (R111, R112). -/
theorem BindChecked.segmentOk {kind : BitVec 4} {proto : BitVec 2} {cfg : Config} {q : Port}
    (h : BindChecked kind proto cfg q) (role : Role) : segmentOk cfg (bindResult kind proto role q) = true := by
  obtain ⟨hpos, hle⟩ := elemSize_bounds h.kindLegal
  have hlength := h.length
  have hslots := h.slots
  have hfits := h.fits
  have hprod : bindSlots q.larg1.toNat (kindSize kind) * kindSize kind = q.larg1.toNat - 8 :=
    Nat.div_mul_cancel (Nat.dvd_of_mod_eq_zero h.whole)
  have hone : 1 ≤ bindSlots q.larg1.toNat (kindSize kind) := Nat.div_pos (by simp [Config.headerSize]; omega) hpos
  have hbase : (bindResult kind proto role q).base = q.larg0.toNat := rfl
  have hnslots : (bindResult kind proto role q).nslots = bindSlots q.larg1.toNat (kindSize kind) :=
    Nat.mod_eq_of_lt (by omega)
  have hkind : (bindResult kind proto role q).kind = kind := bindcfgWord_kind ..
  have hesize : (bindResult kind proto role q).esize = kindSize kind :=
    (congrArg BitVec.toNat (bindcfgWord_esize ..)).trans (Nat.mod_eq_of_lt (by omega))
  have hproto : (bindResult kind proto role q).proto = proto := bindcfgWord_proto ..
  have hreserved : (bindResult kind proto role q).bindcfg >>> 11 = 0#32 := bindcfgWord_reserved ..
  have hend : q.larg0.toNat + (bindResult kind proto role q).segLen ≤ cfg.memSize := by
    simp only [Port.segLen, segBytes, Config.headerSize, hnslots, hesize, hprod]
    omega
  simp only [Machine.segmentOk, hbase, hnslots, hkind, hesize, hproto, hreserved, Bool.and_eq_true, decide_eq_true_eq,
    beq_iff_eq, bne_iff_ne, Bool.or_eq_true]
  exact ⟨⟨⟨⟨⟨⟨⟨⟨h.aligned, hone⟩, hslots⟩, h.kindLegal⟩, hend⟩, h.protoLegal⟩,
    Classical.or_iff_not_imp_left.mpr fun hp => h.audio (not_not.mp hp)⟩,
    Classical.or_iff_not_imp_left.mpr fun hp => h.param (not_not.mp hp)⟩, trivial⟩

/-- WSPAN.ACQ opens its grant on a bound producer (R134, R150). -/
theorem checkWspanAcq_none {q : Port} (h : checkWspanAcq q = none) : q.bound = true ∧ q.role = .producer := by
  simp only [checkWspanAcq, firstError_none, List.forall_mem_cons, needBound, needRole, Bool.not_eq_false',
    bne_eq_false_iff_eq] at h
  exact ⟨h.1, h.2.1⟩

/-- A grant has fewer elements than the ring has slots (R130, R150). -/
theorem acqCount_lt {q : Port} (h : q.lwr.toNat < q.nslots) : acqCount q < q.nslots :=
  lt_of_le_of_lt (min_le_left _ _) (by unfold Port.writable availWrite; omega)

/-! ## Every micro-step keeps its port sound -/

theorem Port.sameOperands_setFlag (q : Port) {f : Flag} (v : Bool) (hb : f ≠ .bound) (hg : f ≠ .grant) :
    (q.setFlag f v).SameOperands q :=
  ⟨rfl, rfl, rfl, (Port.flag_setFlag q f .bound v).trans (if_neg hb),
    (Port.flag_setFlag q f .grant v).trans (if_neg hg), rfl, rfl, rfl, rfl, rfl, rfl, rfl⟩

theorem Port.sameOperands_atRest (q : Port) : q.ending.atRest.SameOperands q :=
  ⟨rfl, rfl, rfl, Port.bound_ending q, Port.grant_ending q, rfl, rfl, rfl, rfl, rfl, rfl, rfl⟩

section
variable {cfg : Config} {q r : Port}

/-- A port with the binding and the grant of a sound one is sound where its own fields are. -/
theorem Port.Sound.of_sameOperands (hq : q.Sound cfg) (h : r.SameOperands q) (hstatus : r.status >>> 6 = 0#32)
    (hctrl : r.ctrl >>> 2 = 0#32) (hcause : r.errCause.toNat < 15) (hbusy : r.busy = (r.pos != .idle))
    (hengine : r.pos.passed = true → ∃ i, r.command? = some i ∧ r.Checked cfg i) : r.Sound cfg where
  status := hstatus
  ctrl := hctrl
  cause := hcause
  busy := hbusy
  segment hb := by
    rw [segmentOk_congr cfg h.segBase h.slots h.bindcfg]
    exact hq.segment (h.bound ▸ hb)
  unbound hb := by
    rw [unboundOk, h.segBase, h.slots, h.bindcfg]
    exact hq.unbound (h.bound ▸ hb)
  grant := (grantOk_congr h).trans hq.grant
  engine := hengine

/-- A port whose engine moves on in its command. -/
theorem Port.Sound.moved {pos : EnginePos} {lrd lwr : Word} {x : List Byte} {tb : List Word} {rc : List Byte}
    (hq : q.Sound cfg) (hp : q.pos ≠ .idle) (hn : pos ≠ .idle)
    (hengine : pos.passed = true → ∃ i, q.command? = some i ∧
      Port.Checked cfg i { q with lrd := lrd, lwr := lwr, pos := pos, elem := x, table := tb, record := rc }) :
    Port.Sound cfg { q with lrd := lrd, lwr := lwr, pos := pos, elem := x, table := tb, record := rc } :=
  hq.of_sameOperands ⟨rfl, rfl, rfl, rfl, rfl, rfl, rfl, rfl, rfl, rfl, rfl, rfl⟩ hq.status hq.ctrl hq.cause
    (hq.busy.trans ((bne_iff_ne.mpr hp).trans (bne_iff_ne.mpr hn).symm)) hengine

/-- A command that ends leaves its port sound where the registers it wrote are. -/
theorem Port.sound_ending (hstatus : q.status >>> 6 = 0#32) (hctrl : q.ctrl >>> 2 = 0#32)
    (hcause : q.errCause.toNat < 15) (hsegment : q.bound = true → segmentOk cfg q = true) (hunbound : q.bound = false → unboundOk q = true)
    (hgrant : grantOk q = true) : q.ending.atRest.Sound cfg where
  status := (Port.ending_reserved q).trans hstatus
  ctrl := hctrl
  cause := hcause
  busy := Port.flag_ending q .busy
  segment hb := hsegment ((Port.bound_ending q).symm.trans hb)
  unbound hb := hunbound ((Port.bound_ending q).symm.trans hb)
  grant := (grantOk_congr q.sameOperands_atRest).trans hgrant
  engine h := by cases h

theorem ErrCode.word_lt (e : ErrCode) : e.word.toNat < 15 := by cases e <;> decide

/-- A command that has passed its checks keeps them passed, and past LoadIndices its indices valid (R93, R131). -/
theorem PortMicro.keeps_checked {c : Option Instr} (h : PortMicro cfg c q r)
    (hq : q.pos.passed = true → ∃ i, c = some i ∧ q.Checked cfg i) :
    r.pos.passed = true → ∃ i, c = some i ∧ r.Checked cfg i := by
  have hsame : ∀ (pos : EnginePos) (lrd lwr : Word) (x : List Byte) (tb : List Word) (rc : List Byte),
      Port.SameOperands { q with pos := pos, lrd := lrd, lwr := lwr, elem := x, table := tb, record := rc } q :=
    fun _ _ _ _ _ _ => ⟨rfl, rfl, rfl, rfl, rfl, rfl, rfl, rfl, rfl, rfl, rfl, rfl⟩
  cases h with
  | checked i next hc hp hk hn hl =>
    refine fun _ => ⟨i, hc, (check_congr (hsame _ _ _ _ _ _) i cfg).trans hk, fun h1 h2 => ?_⟩
    simp [hl h1] at h2
  | loadedRd w hp =>
    intro _
    obtain ⟨i, hc, hk, -⟩ := hq (by rw [hp]; rfl)
    exact ⟨i, hc, (check_congr (hsame _ _ _ _ _ _) i cfg).trans hk, by simp [EnginePos.afterLoads]⟩
  | loadedWr w next hp hn hv =>
    intro hpass
    obtain ⟨i, hc, hk, -⟩ := hq (by rw [hp]; rfl)
    exact ⟨i, hc, (check_congr (hsame _ _ _ _ _ _) i cfg).trans hk, fun _ _ => hv hpass⟩
  | worked next x tb rc hp hn hl =>
    intro _
    obtain ⟨i, hc, hk, hv⟩ := hq hp
    exact ⟨i, hc, (check_congr (hsame _ _ _ _ _ _) i cfg).trans hk, fun h1 h2 => hv h1 (hl i hc h1 h2)⟩
  | failed | raised | answered | rebound | acquired | committed => exact fun hpass => by cases hpass

/-- Every micro-step of a port's command keeps the port sound (R93). -/
theorem PortMicro.sound (h : PortMicro cfg q.command? q r) (hq : q.Sound cfg) : r.Sound cfg := by
  have hidle := h.pos_ne_idle
  have hengine := h.keeps_checked hq.engine
  cases h with
  | checked i next hc hp hk hn hl => exact hq.moved hidle (by rintro rfl; cases hn) hengine
  | failed e info hp => exact hq.moved hidle (by simp) hengine
  | loadedRd w hp => exact hq.moved hidle (by simp) hengine
  | loadedWr w next hp hn hv => exact hq.moved hidle hn hengine
  | worked next x tb rc hp hn hl => exact hq.moved hidle hn hengine
  | raised e info hp =>
    have hsame := Port.sameOperands_setFlag { q with errCause := e.word, errInfo := info, res0 := 0 } (f := .err) true
      (by decide) (by decide)
    exact Port.sound_ending ((Port.setFlag_reserved _ _ _).trans hq.status) hq.ctrl e.word_lt
      (fun h => hq.segment (hsame.bound.symm.trans h)) (fun h => hq.unbound (hsame.bound.symm.trans h))
      ((grantOk_congr hsame).trans hq.grant)
  | answered a b d hp => exact Port.sound_ending hq.status hq.ctrl hq.cause hq.segment hq.unbound hq.grant
  | rebound kind proto role init hc hp =>
    obtain ⟨i, hci, hk, -⟩ := hq.engine (by rw [hp]; rfl)
    obtain rfl : Instr.bind kind proto role init = i := Option.some.inj (hc.symm.trans hci)
    have hbind := checkBind_none hk
    have hgrant : (bindResult kind proto role q).grant = false :=
      (Port.flag_setFlag _ .bound .grant true).trans hbind.grant
    have hbound : (bindResult kind proto role q).bound = true := Port.flag_setFlag _ .bound .bound true
    exact Port.sound_ending ((Port.setFlag_reserved _ _ _).trans hq.status) hq.ctrl hq.cause
      (fun _ => hbind.segmentOk role) (fun h => by simp [hbound] at h) (by simp [grantOk, hgrant])
  | acquired hc hp =>
    obtain ⟨i, hci, hk, hv⟩ := hq.engine (by rw [hp]; rfl)
    obtain rfl : Instr.wspanAcq = i := Option.some.inj (hc.symm.trans hci)
    obtain ⟨hbound, hrole⟩ := checkWspanAcq_none hk
    obtain ⟨-, hlwr⟩ := hv rfl (by rw [hp]; rfl)
    have hb : (acqResult q).bound = q.bound := Port.flag_setFlag _ .grant .bound true
    refine Port.sound_ending ((Port.setFlag_reserved _ _ _).trans hq.status) hq.ctrl hq.cause
      (fun h => hq.segment (hb.symm.trans h)) (fun h => hq.unbound (hb.symm.trans h)) ?_
    have hn : (acqResult q).grantN.toNat < q.nslots := lt_of_le_of_lt (Nat.mod_le _ _) (acqCount_lt hlwr)
    simp only [grantOk, hb, hbound, show (acqResult q).role = .producer from hrole,
      show (acqResult q).nslots = q.nslots from rfl, show (acqResult q).grantWr = q.lwr from rfl, hlwr, hn,
      beq_self_eq_true, decide_true, Bool.and_self, Bool.or_true]
  | committed dflt hc hp =>
    have hb := Port.flag_setFlag { q with res0 := commitCount dflt q } .grant .bound false
    have hg := Port.flag_setFlag { q with res0 := commitCount dflt q } .grant .grant false
    exact Port.sound_ending ((Port.setFlag_reserved _ _ _).trans hq.status) hq.ctrl hq.cause
      (fun h => hq.segment (hb.symm.trans h)) (fun h => hq.unbound (hb.symm.trans h))
      (by simp [grantOk, Port.grant, hg])

end

/-! ## Every step keeps the ports sound -/

theorem Port.sound_reset (cfg : Config) : Port.reset.Sound cfg where
  status := rfl
  ctrl := rfl
  cause := by decide
  busy := rfl
  segment h := by cases h
  unbound _ := rfl
  grant := rfl
  engine h := by cases h

/-- An accepted command keeps the port sound: it stands at its decode step (R93). -/
theorem Port.Sound.accepted {cfg : Config} {q : Port} (h : q.Sound cfg) (w : Word) : (q.accepted w).Sound cfg := by
  have hb : (q.accepted w).bound = q.bound := Port.flag_accepted q w .bound
  have hg : (q.accepted w).grant = q.grant := Port.flag_accepted q w .grant
  have hgrant : grantOk (q.accepted w) = grantOk q := by
    simp only [grantOk, hb, hg]
    rfl
  exact {
    status := by simp only [Port.accepted, Port.setFlag_reserved]; exact h.status
    ctrl := h.ctrl
    cause := (by decide : (0 : Word).toNat < 15)
    busy := Port.flag_accepted q w .busy
    segment := fun hx => h.segment (hb.symm.trans hx)
    unbound := fun hx => h.unbound (hb.symm.trans hx)
    grant := hgrant.trans h.grant
    engine := fun hx => by cases hx }

theorem statusW1C_getLsbD (b : Nat) : statusW1C.getLsbD b = (b == 1 || b == 2 || b == 3) := by
  by_cases hb : b < 32
  · have key : ∀ b : Fin 32, statusW1C.getLsbD b = (b.val == 1 || b.val == 2 || b.val == 3) := by decide
    exact key ⟨b, hb⟩
  · rw [BitVec.getLsbD_of_ge _ _ (Nat.not_lt.mp hb)]
    have h1 : b ≠ 1 ∧ b ≠ 2 ∧ b ≠ 3 := by omega
    simp [h1]

/-- A host write to STATUS clears those of DONE, ERR and OVR whose bit is written as 1 (R31). -/
theorem Port.writeStatus_getLsbD (q : Port) (v : Word) (b : Nat) :
    (q.writeStatus v).status.getLsbD b =
      (q.status.getLsbD b && !((b == 1 || b == 2 || b == 3) && v.getLsbD b)) := by
  rw [← statusW1C_getLsbD]
  by_cases hb : b < 32
  · simp [Port.writeStatus, hb, Bool.and_comm]
  · simp [BitVec.getLsbD_of_ge _ b (Nat.not_lt.mp hb)]

theorem Port.writeStatus_flag (q : Port) (v : Word) (f : Flag) (hf : f = .busy ∨ f = .bound ∨ f = .grant) :
    (q.writeStatus v).flag f = q.flag f := by
  rw [Port.flag, Port.writeStatus_getLsbD]
  rcases hf with rfl | rfl | rfl <;> simp [Port.flag, Flag.bit]

theorem Port.writeStatus_reserved (q : Port) (v : Word) : (q.writeStatus v).status >>> 6 = q.status >>> 6 := by
  apply BitVec.eq_of_getLsbD_eq
  intro b _
  rw [BitVec.getLsbD_ushiftRight, BitVec.getLsbD_ushiftRight, Port.writeStatus_getLsbD]
  have h1 : 6 + b ≠ 1 ∧ 6 + b ≠ 2 ∧ 6 + b ≠ 3 := by omega
  simp [h1]

theorem ctrlMask_getLsbD (b : Nat) : ctrlMask.getLsbD b = (b == 0 || b == 1) := by
  by_cases hb : b < 32
  · have key : ∀ b : Fin 32, ctrlMask.getLsbD b = (b.val == 0 || b.val == 1) := by decide
    exact key ⟨b, hb⟩
  · rw [BitVec.getLsbD_of_ge _ _ (Nat.not_lt.mp hb)]
    have h1 : b ≠ 0 ∧ b ≠ 1 := by omega
    simp [h1]

/-- A host write to CTRL sets DONE_IE and ERR_IE (R32). -/
theorem Port.writeCtrl_getLsbD (q : Port) (v : Word) (b : Nat) :
    (q.writeCtrl v).ctrl.getLsbD b = ((b == 0 || b == 1) && v.getLsbD b) := by
  rw [Port.writeCtrl, BitVec.getLsbD_and, ctrlMask_getLsbD, Bool.and_comm]

theorem Port.writeCtrl_reserved (q : Port) (v : Word) : (q.writeCtrl v).ctrl >>> 2 = 0#32 := by
  apply BitVec.eq_of_getLsbD_eq
  intro b _
  rw [BitVec.getLsbD_ushiftRight, Port.writeCtrl_getLsbD]
  have h1 : 2 + b ≠ 0 ∧ 2 + b ≠ 1 := by omega
  simp [h1]

/-- A host write to a register other than CMD keeps the port sound (R31, R32, R35). -/
theorem Port.Sound.writeReg {cfg : Config} {q : Port} (h : q.Sound cfg) (off : Nat) (v : Word) :
    (q.writeReg off v).Sound cfg := by
  have hengine : ∀ r : Port, r.SameOperands q → r.pos = q.pos → r.lrd = q.lrd → r.lwr = q.lwr → r.pos.passed = true →
      ∃ i, r.command? = some i ∧ r.Checked cfg i := by
    intro r hr hp hrd hwr hpass
    obtain ⟨i, hc, hk, hv⟩ := h.engine (hp ▸ hpass)
    refine ⟨i, (Port.command?_congr hr.lcmd).trans hc, (check_congr hr i cfg).trans hk, ?_⟩
    rw [hp, hrd, hwr, Port.nslots, hr.slots]
    exact hv
  have hargs : ∀ r : Port, r.SameOperands q → r.status = q.status → r.ctrl = q.ctrl → r.errCause = q.errCause →
      r.pos = q.pos → r.lrd = q.lrd → r.lwr = q.lwr → r.Sound cfg := by
    intro r hr hs hct hca hp hrd hwr
    exact h.of_sameOperands hr (hs ▸ h.status) (hct ▸ h.ctrl) (hca ▸ h.cause)
      (by rw [hp, ← h.busy, Port.busy, Port.flag, hs]; rfl) (hengine r hr hp hrd hwr)
  unfold Port.writeReg
  split
  · have hsame : (q.writeStatus v).SameOperands q :=
      ⟨rfl, rfl, rfl, q.writeStatus_flag v .bound (by simp), q.writeStatus_flag v .grant (by simp), rfl, rfl, rfl, rfl,
        rfl, rfl, rfl⟩
    exact h.of_sameOperands hsame ((q.writeStatus_reserved v).trans h.status) h.ctrl h.cause
      ((q.writeStatus_flag v .busy (by simp)).trans h.busy) (hengine _ hsame rfl rfl rfl)
  · have hsame : (q.writeCtrl v).SameOperands q := ⟨rfl, rfl, rfl, rfl, rfl, rfl, rfl, rfl, rfl, rfl, rfl, rfl⟩
    exact h.of_sameOperands hsame h.status (q.writeCtrl_reserved v) h.cause h.busy (hengine _ hsame rfl rfl rfl)
  all_goals exact hargs _ ⟨rfl, rfl, rfl, rfl, rfl, rfl, rfl, rfl, rfl, rfl, rfl, rfl⟩ rfl rfl rfl rfl rfl rfl

/-- A CMD write to a busy port keeps it sound (R221). -/
theorem Port.Sound.setOvr {cfg : Config} {q : Port} (h : q.Sound cfg) : (q.setFlag .ovr true).Sound cfg := by
  have hsame := Port.sameOperands_setFlag q (f := .ovr) true (by decide) (by decide)
  refine h.of_sameOperands hsame ((Port.setFlag_reserved _ _ _).trans h.status) h.ctrl h.cause
    ((Port.flag_setFlag q .ovr .busy true).trans h.busy) fun hp => ?_
  obtain ⟨i, hc, hk, hv⟩ := h.engine hp
  exact ⟨i, hc, (check_congr hsame i cfg).trans hk, hv⟩

/-- The registers of each port after one is replaced; a port that does not exist is not (R26). -/
theorem State.port_setPort (s : State) (p r : Nat) (q : Port) :
    (s.setPort p q).port r = if r = p ∧ p < s.ports.length then q else s.port r := by
  by_cases hr : r = p
  · subst hr
    by_cases hl : r < s.ports.length
    · rw [if_pos ⟨rfl, hl⟩]; exact State.port_set_same s r q hl
    · rw [if_neg (by simp [hl])]
      simp only [State.port, State.setPort_ports, List.set_eq_of_length_le (Nat.not_lt.mp hl)]
  · rw [if_neg (by simp [hr])]; exact State.port_set_ne s p r q hr

theorem State.port_of_ge (s : State) {p : Nat} (h : s.ports.length ≤ p) : s.port p = Port.reset :=
  List.getD_eq_default _ _ h

theorem State.port_rst (s : State) (p : Nat) : s.rst.port p = Port.reset := by
  simp only [State.port, State.rst_ports, List.getD_eq_getElem?_getD, List.getElem?_map]
  cases s.ports[p]? <;> rfl

/-- Every port the machine has, and so every port it may be asked for, is sound. -/
theorem portsOk_iff (s : State) :
    portsOk s = true ↔ s.ports.length = s.cfg.nports ∧ ∀ p, (s.port p).Sound s.cfg := by
  simp only [portsOk, Bool.and_eq_true, beq_iff_eq, List.all_eq_true]
  refine and_congr_right fun _ => ⟨fun h p => ?_, fun h q hq => ?_⟩
  · by_cases hp : p < s.ports.length
    · have hport : s.port p = s.ports[p] := by simp [State.port, List.getD_eq_getElem?_getD, hp]
      rw [hport]
      exact (portOk_iff _ _).mp (h _ (List.getElem_mem hp))
    · rw [s.port_of_ge (Nat.not_lt.mp hp)]; exact Port.sound_reset _
  · obtain ⟨p, hp, rfl⟩ := List.mem_iff_getElem.mp hq
    have hport : s.port p = s.ports[p] := by simp [State.port, List.getD_eq_getElem?_getD, hp]
    exact (portOk_iff _ _).mpr (hport ▸ h p)

theorem portsOk_setPort {s : State} (hs : portsOk s = true) {p : Nat} {q : Port} (hq : q.Sound s.cfg) :
    portsOk (s.setPort p q) = true := by
  rw [portsOk_iff] at hs ⊢
  refine ⟨(List.length_set ..).trans hs.1, fun r => ?_⟩
  rw [State.port_setPort]
  split
  · exact hq
  · exact hs.2 r

/-- A micro-step of the executing port keeps every port sound (R93, R217). -/
theorem portsOk_portMicro {s : State} (hs : portsOk s = true) : portsOk (portMicro s) = true := by
  obtain ⟨⟨hcfg, hcur, -, -, -, hlen, hother⟩, hmoves⟩ := moved_portMicro s
  rw [portsOk_iff] at hs ⊢
  rw [hcfg, hlen]
  refine ⟨hs.1, fun p => ?_⟩
  by_cases hp : p = s.cur
  · have hhere : (portMicro s).port p = (portMicro s).here := by rw [State.here, hcur, hp]
    rw [hhere]
    rcases (Relation.reflGen_iff _ _ _).mp hmoves with heq | hstep
    · exact heq ▸ hs.2 s.cur
    · exact hstep.sound (hs.2 s.cur)
  · rw [hother p hp]; exact hs.2 p

theorem kept_portsOk : Kept (fun s => portsOk s = true) where
  aside s h t hc hp := by
    simp only [portsOk] at h ⊢
    rw [hc, hp]
    exact h
  micro _ h := portsOk_portMicro h
  dropped s p h := portsOk_setPort h (((portsOk_iff s).mp h).2 p).setOvr
  accepted s p w _ h := portsOk_setPort h ((((portsOk_iff s).mp h).2 p).accepted w)
  written s p off v h := portsOk_setPort h ((((portsOk_iff s).mp h).2 p).writeReg off v)
  rst s h := by
    rw [portsOk_iff] at h ⊢
    exact ⟨(List.length_map ..).trans h.1, fun p => (s.port_rst p).symm ▸ Port.sound_reset _⟩

/-- Settles O19: every elementary change of a step keeps each port sound. -/
theorem stepKeepsPortsSound : Obligations.StepKeepsPortsSound :=
  fun _ _ hs h => kept_portsOk.step h hs

end Sys2Proof.Machine

/-! PROOFS. What one step of the machine can do to the registers of a port (R28, R93, R217, R230), and from it what
clears the STATUS bits and what changes the binding and the spans (R30, R37 to R40, R115). -/

namespace Sys2Proof.Machine

/-! ## Micro-steps one after another -/

/-- The registers of a port before and after any number of micro-steps of its command (R93). -/
abbrev PortRun (cfg : Config) : Port → Port → Prop :=
  Relation.ReflTransGen (fun q r => PortMicro cfg q.command? q r)

theorem PortMicro.lcmd {cfg : Config} {c : Option Instr} {q r : Port} (h : PortMicro cfg c q r) : r.lcmd = q.lcmd := by
  cases h <;> rfl

/-- What every micro-step keeps, but for those of the commands `C`, a run keeps, unless the port was at work in one of
these commands before it. -/
theorem PortRun.keeps {cfg : Config} {P : Port → Prop} {C : Instr → Prop} {q r : Port}
    (hP : ∀ a b, PortMicro cfg a.command? a b → P a → P b ∨ ∃ i, a.command? = some i ∧ C i)
    (h : PortRun cfg q r) (hq : P q) : P r ∨ q.pos ≠ .idle ∧ ∃ i, q.command? = some i ∧ C i := by
  have key : q = r ∨ q.pos ≠ .idle := by
    rcases h.cases_head with h | ⟨b, hb, -⟩
    · exact .inl h
    · exact .inr hb.pos_ne_idle
  rcases key with rfl | hidle
  · exact .inl hq
  have hrun : r.lcmd = q.lcmd ∧ (P r ∨ ∃ i, q.command? = some i ∧ C i) := by
    induction h with
    | refl => exact ⟨rfl, .inl hq⟩
    | tail _ hb ih =>
      obtain ⟨hl, hstep⟩ := ih
      refine ⟨hb.lcmd.trans hl, hstep.elim (fun hp => ?_) .inr⟩
      rw [← Port.command?_congr hl]
      exact hP _ _ hb hp
  exact hrun.2.imp_right fun hC => ⟨hidle, hC⟩

/-! ## One step, as each port sees it -/

/-- The registers of port `p` before and after a step whose next move is `m`. -/
inductive PortAfter (cfg : Config) (p : Nat) (m : Option Move) (q : Port) : Port → Prop
  /-- The port took micro-steps of its command, or none (R93). -/
  | ran (r : Port) (h : PortRun cfg q r) : PortAfter cfg p m q r
  /-- The host wrote CMD of the busy port (R221). -/
  | dropped : PortAfter cfg p m q (q.setFlag .ovr true)
  /-- The host wrote CMD of the idle port (R93). -/
  | accepted (w : Word) (hb : q.busy = false) : PortAfter cfg p m q (q.accepted w)
  /-- The host issued a command to the idle port, which ran it (R102). -/
  | issued (w : Word) (r : Port) (hm : m = some (.command p w)) (hb : q.busy = false)
      (h : PortRun cfg (q.accepted w) r) : PortAfter cfg p m q r
  /-- The host wrote another register of the port (R27). -/
  | written (off : Nat) (v : Word) (hm : m = some (.regWrite (cfg.regBase + 0x100 + 0x80 * p + off) 4 v)) :
      PortAfter cfg p m q (q.writeReg off v)
  /-- RST (R230). -/
  | reset (hm : m = some .rst) : PortAfter cfg p m q Port.reset

section
variable {s t : State} {m : Option Move}

theorem PortAfter.same (cfg : Config) (p : Nat) (m : Option Move) (q : Port) : PortAfter cfg p m q q := .ran _ .refl

theorem portRun_portMicro (s : State) (p : Nat) : PortRun s.cfg (s.port p) ((portMicro s).port p) := by
  obtain ⟨⟨-, hcur, -, -, -, -, hother⟩, hmoves⟩ := moved_portMicro s
  by_cases hp : p = s.cur
  · have hhere : (portMicro s).port p = (portMicro s).here := by rw [State.here, hcur, hp]
    rw [hhere, hp]
    rcases (Relation.reflGen_iff _ _ _).mp hmoves with heq | hstep
    · exact heq ▸ .refl
    · exact .single hstep
  · rw [hother p hp]

theorem portRun_guardedMicro (h : guardedMicro s = .next t) (p : Nat) : PortRun s.cfg (s.port p) (t.port p) := by
  unfold guardedMicro at h
  split at h
  · exact absurd h (Stop.outcome_ne_next _ t)
  · cases h; exact portRun_portMicro s p

theorem portRun_runHere (h : runHere s = .next t) (p : Nat) : PortRun s.cfg (s.port p) (t.port p) := by
  unfold runHere at h
  split at h
  · exact absurd h (Stop.outcome_ne_next _ t)
  · rw [execHere_eq] at h
    cases h
    refine (runPort_induct portMicro (fun u => u.cfg = s.cfg ∧ PortRun s.cfg (s.port p) (u.port p)) ?_ _ s
      ⟨rfl, .refl⟩).2
    rintro u ⟨hc, hu⟩
    exact ⟨(moved_portMicro u).1.1.trans hc, hu.trans (hc ▸ portRun_portMicro u p)⟩

theorem State.afterRead_port (s : State) (off p : Nat) : (s.afterRead off).port p = s.port p := by
  simp only [State.port, (s.afterRead_cfg_ports off).2]

/-- A host write to an offset reaches one port at most: its CMD, or one register beside it (R26, R27). -/
theorem State.writeReg_port (s : State) (off : Nat) (v : Word) (p : Nat) :
    (s.writeReg off v).port p = s.port p ∨ p < s.ports.length ∧ ∃ r, off = 0x100 + 0x80 * p + r ∧
      (s.writeReg off v).port p = if r = 0 then (s.writeCmd p v).port p else (s.port p).writeReg r v := by
  by_cases h1 : off < portSpace
  · exact .inl (by simp only [State.writeReg, if_pos h1])
  by_cases h2 : offPort off < s.ports.length
  · by_cases hp : p = offPort off
    · subst hp
      refine .inr ⟨h2, offReg off, ?_, ?_⟩
      · simp only [offPort, offReg, portSpace, portStride] at h1 ⊢; omega
      · simp only [State.writeReg, if_neg h1, if_pos h2]
        split
        · rfl
        · rw [State.port_setPort, if_pos ⟨rfl, h2⟩]
    · refine .inl ?_
      simp only [State.writeReg, if_neg h1, if_pos h2]
      split
      · unfold State.writeCmd
        split
        all_goals exact State.port_set_ne s _ _ _ hp
      · exact State.port_set_ne s _ _ _ hp
  · exact .inl (by simp only [State.writeReg, if_neg h1, if_neg h2])

/-- A write to CMD is accepted by an idle port and dropped by a busy one (R93, R221). -/
theorem State.port_writeCmd (s : State) (p : Nat) (w : Word) (hp : p < s.ports.length) :
    (s.writeCmd p w).port p =
      if (s.port p).busy then (s.port p).setFlag .ovr true else (s.port p).accepted w := by
  unfold State.writeCmd
  split
  all_goals exact State.port_set_same s p _ hp

theorem State.port_writeCmd_ne (s : State) (p : Nat) (w : Word) {r : Nat} (hr : r ≠ p) :
    (s.writeCmd p w).port r = s.port r := by
  unfold State.writeCmd
  split
  all_goals exact State.port_set_ne s p r _ hr

theorem State.writeCmd_cfg (s : State) (p : Nat) (w : Word) : (s.writeCmd p w).cfg = s.cfg := by
  unfold State.writeCmd; split <;> rfl

theorem portAfter_writeCmd (s : State) {p : Nat} (hp : p < s.ports.length) (w : Word) (m : Option Move) :
    PortAfter s.cfg p m (s.port p) ((s.writeCmd p w).port p) := by
  rw [State.port_writeCmd s p w hp]
  split
  · exact .dropped
  next hb => exact .accepted w (Bool.eq_false_iff.mpr hb)

theorem portAfter_regWrite {addr width : Nat} {v : Word} (h : moveRegWrite s addr width v = .next t) (p : Nat) :
    PortAfter s.cfg p (some (.regWrite addr width v)) (s.port p) (t.port p) := by
  unfold moveRegWrite at h
  split at h
  · cases h
  next hspace =>
    split at h
    · cases h
    next hproper =>
      cases h
      simp only [inRegSpace, properAccess, Bool.not_eq_true', Bool.not_eq_false, Bool.and_eq_true,
        decide_eq_true_eq] at hspace hproper
      rcases s.writeReg_port (addr - s.cfg.regBase) v p with heq | ⟨hp, r, hoff, heq⟩
      · rw [heq]; exact .same _ p _ _
      · rw [heq]
        split
        · exact portAfter_writeCmd s hp v _
        · exact .written r v (by rw [hproper.1, show s.cfg.regBase + 0x100 + 0x80 * p + r = addr by omega])

theorem portAfter_absentStatus {p r : Nat} (h : moveAbsentStatus s r = .next t) : t.port p = s.port p := by
  unfold moveAbsentStatus at h
  split at h
  · cases h; exact State.afterRead_port s _ p
  · cases h

/-- A write to the place of CMD of a port that does not exist reaches no port (R26, R28). -/
theorem State.writeReg_absent (s : State) {p : Nat} (hp : s.ports.length ≤ p) (w : Word) :
    s.writeReg (portOffset p) w = s := by
  have hoff : offPort (portOffset p) = p := by simp only [offPort, portOffset, portSpace, portStride]; omega
  unfold State.writeReg
  rw [hoff, if_neg (by simp only [portOffset, portSpace]; omega), if_neg (by omega)]

theorem portAfter_command {r : Nat} {w : Word} (h : moveCommand s r w = .next t) (p : Nat) :
    PortAfter s.cfg p (some (.command r w)) (s.port p) (t.port p) := by
  unfold moveCommand at h
  split at h
  next hr =>
    split at h
    next hb =>
      cases h
      by_cases hp : p = r
      · exact hp ▸ portAfter_writeCmd s hr w _
      · rw [State.port_writeCmd_ne s r w hp]; exact .same _ p _ _
    next hb =>
      split at h
      next u hu =>
        cases h
        have hrun : PortRun s.cfg ((s.writeCmd r w).port p) (u.port p) := by
          rw [← s.writeCmd_cfg r w]; exact portRun_runHere hu p
        by_cases hp : p = r
        · subst hp
          rw [State.port_writeCmd s p w hr, if_neg hb] at hrun
          exact .issued w _ rfl (Bool.eq_false_iff.mpr hb) hrun
        · rw [State.port_writeCmd_ne s r w hp] at hrun
          exact .ran _ hrun
      · cases h
      · cases h
  next hr =>
    rw [State.writeReg_absent s (Nat.not_lt.mp hr)] at h
    rw [portAfter_absentStatus h]
    exact .same _ p _ _

theorem portAfter_portStep {r : Nat} (h : movePortStep s r = .next t) (p : Nat) :
    PortAfter s.cfg p m (s.port p) (t.port p) := by
  unfold movePortStep at h
  split at h
  · exact .ran _ (portRun_guardedMicro h p)
  · cases h; exact .same _ p m _

theorem portAfter_run {r : Nat} (h : moveRun s r = .next t) (p : Nat) :
    PortAfter s.cfg p m (s.port p) (t.port p) := by
  unfold moveRun at h
  split at h
  · exact .ran _ (portRun_runHere h p)
  · cases h; exact .same _ p m _

theorem portAfter_wait {r : Nat} (h : moveWait s r = .next t) (p : Nat) :
    PortAfter s.cfg p m (s.port p) (t.port p) := by
  unfold moveWait at h
  split at h
  · split at h
    · exact .ran _ (portRun_guardedMicro h p)
    · cases h; exact .same _ p m _
  · rw [portAfter_absentStatus h]; exact .same _ p m _

theorem portAfter_move {m : Move} (h : move s m = .next t) (p : Nat) :
    PortAfter s.cfg p (some m) (s.port p) (t.port p) := by
  cases m with
  | regRead addr width =>
    simp only [move, moveRegRead] at h
    split at h
    · cases h
    · split at h
      · cases h
      · cases h; rw [State.afterRead_port]; exact .same _ p _ _
  | regWrite addr width v => exact portAfter_regWrite h p
  | memRead addr n =>
    simp only [move, moveMemRead] at h
    split at h
    · cases h; exact .same _ p _ _
    · cases h
  | memWrite addr bs =>
    simp only [move, moveMemWrite] at h
    split at h
    · split at h
      · exact absurd h (Stop.outcome_ne_next _ t)
      · cases h; exact .same _ p _ _
    · cases h; exact .same _ p _ _
  | portStep r => exact portAfter_portStep h p
  | run r => exact portAfter_run h p
  | command r w => exact portAfter_command h p
  | wait r => exact portAfter_wait h p
  | rst => cases h; rw [State.port_rst]; exact .reset rfl

/-- What one step can do to the registers of a port (R28, R93, R217, R230). -/
theorem portAfter_step (h : step s = .next t) (p : Nat) :
    PortAfter s.cfg p s.agenda.head? (s.port p) (t.port p) := by
  unfold step act at h
  split at h
  · unfold idleMove at h
    split at h
    · exact portAfter_portStep (s := s.lookAhead) h p
    · cases h; exact .same _ p _ _
  next m rest hagenda =>
    have hhead : s.agenda.head? = some m := by rw [← s.lookAhead_agenda, hagenda]; rfl
    rw [hhead]
    exact portAfter_move (s := { s.lookAhead with agenda := rest }) h p

end

/-! ## What every step keeps, but for the commands that are there to change it -/

/-- What micro-steps keep, but for those of the commands `C`, and host writes to the port keep, a step keeps, unless it
was RST or a command of `C` was at work on the port (R93, R230). -/
theorem step_keeps {s t : State} {p : Nat} {P : Port → Prop} {C : Instr → Prop} (h : step s = .next t)
    (hmicro : ∀ a b, PortMicro s.cfg a.command? a b → P a → P b ∨ ∃ i, a.command? = some i ∧ C i)
    (hdropped : ∀ a, P a → P (a.setFlag .ovr true)) (haccepted : ∀ a w, P a → P (a.accepted w))
    (hwritten : ∀ a off v, s.agenda.head? = some (.regWrite (s.cfg.regBase + 0x100 + 0x80 * p + off) 4 v) → P a →
      P (a.writeReg off v)) (hs : P (s.port p)) :
    P (t.port p) ∨ s.agenda.head? = some .rst ∨ ∃ i, C i ∧ AtWork s p i := by
  have hafter := portAfter_step h p
  generalize t.port p = q at hafter ⊢
  cases hafter with
  | ran r hrun =>
    exact (PortRun.keeps hmicro hrun hs).imp_right fun ⟨hpos, i, hc, hC⟩ => .inr ⟨i, hC, .inl ⟨hpos, hc⟩⟩
  | dropped => exact .inl (hdropped _ hs)
  | accepted w hb => exact .inl (haccepted _ w hs)
  | issued w r hm hb hrun =>
    refine (PortRun.keeps hmicro hrun (haccepted _ w hs)).imp_right fun ⟨_, i, hc, hC⟩ =>
      .inr ⟨i, hC, .inr ⟨w, hm, ?_⟩⟩
    simp only [Port.command?, Port.accepted_lcmd] at hc
    split at hc
    next j hj => rw [hj, Option.some.inj hc]
    next => cases hc
  | written off v hm => exact .inl (hwritten _ off v hm hs)
  | reset hm => exact .inr (.inl hm)

/-- BOUND, GRANT and OVR stay set at every micro-step but the finish step of a WSPAN.COMMIT (R30, R115, R208). -/
theorem PortMicro.flag_kept {cfg : Config} {c : Option Instr} {q r : Port} {f : Flag} (h : PortMicro cfg c q r)
    (hf : f = .bound ∨ f = .grant ∨ f = .ovr) (hq : q.flag f = true) :
    r.flag f = true ∨ ∃ i, c = some i ∧ f = .grant ∧ ∃ dflt, i = .wspanCommit dflt := by
  have hne : f ≠ .busy ∧ f ≠ .done ∧ f ≠ .err := by rcases hf with rfl | rfl | rfl <;> decide
  obtain ⟨hbusy, hdone, herr⟩ := hne
  have hend : ∀ a : Port, a.ending.atRest.flag f = a.flag f := fun a => by
    rw [show a.ending.atRest.flag f = a.ending.flag f from rfl, Port.flag_ending, if_neg hbusy, if_neg hdone]
  cases h with
  | checked | failed | loadedRd | loadedWr | worked => exact .inl hq
  | raised e info hp =>
    refine .inl ((Port.flag_raised q e info f).trans ?_)
    rw [if_neg hbusy, if_neg hdone, if_neg herr]
    exact hq
  | answered a b d hp => exact .inl ((hend _).trans hq)
  | rebound kind proto role init hc hp =>
    refine .inl ((hend _).trans ((Port.flag_setFlag _ .bound f true).trans ?_))
    split
    · rfl
    · exact hq
  | acquired hc hp =>
    refine .inl ((hend _).trans ((Port.flag_setFlag _ .grant f true).trans ?_))
    split
    · rfl
    · exact hq
  | committed dflt hc hp =>
    by_cases hg : f = .grant
    · exact .inr ⟨_, hc, hg, dflt, rfl⟩
    · exact .inl ((hend _).trans ((Port.flag_setFlag _ .grant f false).trans ((if_neg (Ne.symm hg)).trans hq)))

theorem Port.setFlag_keeps {q : Port} {f : Flag} (g : Flag) (h : q.flag f = true) :
    (q.setFlag g true).flag f = true := by
  rw [Port.flag_setFlag]
  split
  · rfl
  · exact h

theorem Port.accepted_keeps {q : Port} {f : Flag} (w : Word) (hf : f = .bound ∨ f = .grant ∨ f = .ovr)
    (h : q.flag f = true) : (q.accepted w).flag f = true := by
  rw [Port.flag_accepted]
  rcases hf with rfl | rfl | rfl <;> exact h

/-- A host write to a register beside STATUS leaves STATUS as it is (R27, R31). -/
theorem Port.writeReg_status (q : Port) {off : Nat} (v : Word) (h : off ≠ 0x04) :
    (q.writeReg off v).status = q.status := by
  unfold Port.writeReg
  split
  · exact absurd rfl h
  all_goals rfl

/-- BOUND, GRANT and OVR stay set at every step but those that R30 lists. -/
theorem step_keeps_flag {s t : State} {p : Nat} {f : Flag} (h : step s = .next t)
    (hf : f = .bound ∨ f = .grant ∨ f = .ovr)
    (hw : f = .ovr → ∀ v, s.agenda.head? = some (.regWrite (s.cfg.regBase + 0x100 + 0x80 * p + 0x04) 4 v) →
      v.getLsbD 3 = false) (hs : (s.port p).flag f = true) :
    (t.port p).flag f = true ∨ s.agenda.head? = some .rst ∨
      ∃ i, (f = .grant ∧ ∃ dflt, i = .wspanCommit dflt) ∧ AtWork s p i := by
  refine step_keeps (P := fun q => q.flag f = true) (C := fun i => f = .grant ∧ ∃ dflt, i = .wspanCommit dflt) h
    (fun a b hab ha => hab.flag_kept hf ha) (fun a => Port.setFlag_keeps .ovr) (fun a w => Port.accepted_keeps w hf)
    (fun a off v hm ha => ?_) hs
  by_cases hoff : off = 0x04
  · subst hoff
    rcases hf with rfl | rfl | rfl
    · exact (a.writeStatus_flag v .bound (by simp)).trans ha
    · exact (a.writeStatus_flag v .grant (by simp)).trans ha
    · refine (Port.writeStatus_getLsbD a v 3).trans ?_
      rw [hw rfl v hm, show a.status.getLsbD 3 = true from ha]
      rfl
  · rw [Port.flag, a.writeReg_status v hoff]; exact ha

/-- Settles O24: BOUND, GRANT and OVR through every change that a step can make to a port. -/
theorem statusBitsClearedOnlyAsListed : Obligations.StatusBitsClearedOnlyAsListed := by
  intro s t p _ _ h
  refine ⟨fun hs => ?_, fun hs => ?_, fun hs => ?_⟩
  · have hkeep := step_keeps_flag h (f := .bound) (by simp) (fun hf => by cases hf) hs
    exact hkeep.imp_right fun h => h.resolve_right fun ⟨_, ⟨hf, _⟩, _⟩ => by cases hf
  · have hkeep := step_keeps_flag h (f := .grant) (by simp) (fun hf => by cases hf) hs
    exact hkeep.imp_right fun h => h.imp_right fun ⟨_, ⟨_, dflt, hi⟩, hwork⟩ => ⟨dflt, hi ▸ hwork⟩
  · by_cases hw : ∃ v, s.agenda.head? = some (.regWrite (s.cfg.regBase + 0x100 + 0x80 * p + 0x04) 4 v) ∧
        v.getLsbD 3 = true
    · exact .inr (.inr hw)
    · have hkeep := step_keeps_flag h (f := .ovr) (by simp)
        (fun _ v hm => Bool.eq_false_iff.mpr fun hv => hw ⟨v, hm, hv⟩) hs
      exact hkeep.imp_right fun h => .inl (h.resolve_right fun ⟨_, ⟨hf, _⟩, _⟩ => by cases hf)

/-- The binding registers of both ports are the same (R37 to R39). -/
def Port.SameBinding (q r : Port) : Prop := r.segBase = q.segBase ∧ r.slots = q.slots ∧ r.bindcfg = q.bindcfg

/-- The span registers and the hidden grant state of both ports are the same (R40, R41). -/
def Port.SameSpans (q r : Port) : Prop :=
  r.span0Addr = q.span0Addr ∧ r.span0Len = q.span0Len ∧ r.span1Addr = q.span1Addr ∧ r.span1Len = q.span1Len ∧
    r.grantWr = q.grantWr ∧ r.grantN = q.grantN

/-- Only the finish step of a BIND writes the binding registers (R115). -/
theorem PortMicro.sameBinding {cfg : Config} {c : Option Instr} {p q r : Port} (h : PortMicro cfg c q r)
    (hq : p.SameBinding q) :
    p.SameBinding r ∨ ∃ i, c = some i ∧ ∃ kind proto role init, i = .bind kind proto role init := by
  cases h with
  | rebound kind proto role init hc hp => exact .inr ⟨_, hc, kind, proto, role, init, rfl⟩
  | _ => exact .inl hq

/-- Only the finish step of a WSPAN.ACQ writes the spans (R40, R150). -/
theorem PortMicro.sameSpans {cfg : Config} {c : Option Instr} {p q r : Port} (h : PortMicro cfg c q r)
    (hq : p.SameSpans q) : p.SameSpans r ∨ ∃ i, c = some i ∧ i = .wspanAcq := by
  cases h with
  | acquired hc hp => exact .inr ⟨_, hc, rfl⟩
  | _ => exact .inl hq

/-- A host write to a register of the port reaches neither its binding nor its spans (R28, R37, R40). -/
theorem Port.writeReg_sameBinding_sameSpans (q : Port) (off : Nat) (v : Word) :
    q.SameBinding (q.writeReg off v) ∧ q.SameSpans (q.writeReg off v) := by
  unfold Port.writeReg
  split
  all_goals exact ⟨⟨rfl, rfl, rfl⟩, rfl, rfl, rfl, rfl, rfl, rfl⟩

/-- Settles O25: the binding and the spans through every change that a step can make to a port. -/
theorem bindingAndSpansChangeOnlyByTheirCommand : Obligations.BindingAndSpansChangeOnlyByTheirCommand := by
  intro s t p h
  constructor
  · have hkeep := step_keeps (p := p) (P := (s.port p).SameBinding) h (fun a b hab ha => hab.sameBinding ha)
      (fun _ ha => ha) (fun _ _ ha => ha) (fun a off v _ ⟨h1, h2, h3⟩ => ?_) ⟨rfl, rfl, rfl⟩
    · refine hkeep.imp_right fun h => h.imp_right ?_
      rintro ⟨_, ⟨kind, proto, role, init, rfl⟩, hwork⟩
      exact ⟨kind, proto, role, init, hwork⟩
    · obtain ⟨⟨g1, g2, g3⟩, -⟩ := a.writeReg_sameBinding_sameSpans off v
      exact ⟨g1.trans h1, g2.trans h2, g3.trans h3⟩
  · have hkeep := step_keeps (p := p) (P := (s.port p).SameSpans) h (fun a b hab ha => hab.sameSpans ha)
      (fun _ ha => ha) (fun _ _ ha => ha) (fun a off v _ ⟨h1, h2, h3, h4, h5, h6⟩ => ?_)
      ⟨rfl, rfl, rfl, rfl, rfl, rfl⟩
    · exact hkeep.imp_right fun h => h.imp_right fun ⟨_, hC, hwork⟩ => hC ▸ hwork
    · obtain ⟨-, g1, g2, g3, g4, g5, g6⟩ := a.writeReg_sameBinding_sameSpans off v
      exact ⟨g1.trans h1, g2.trans h2, g3.trans h3, g4.trans h4, g5.trans h5, g6.trans h6⟩

end Sys2Proof.Machine

/-! PROOFS. The index words through a ring command (spec R48, R133, R150, R155): what each of its micro-steps can write
to MEM, and that no step leaves an index at or above the slot count. -/

namespace Sys2Proof.Machine

/-! ## Index words in MEM -/

/-- Both index words of the segment at `b` are below `n` (R48). -/
def Memory.IndicesBelow (m : Memory) (b n : Nat) : Prop := (m.readWord (b + 4)).toNat < n ∧ (m.readWord b).toNat < n

/-- A write that touches neither index word. -/
theorem Memory.IndicesBelow.write_outside {m : Memory} {b n x : Nat} {bs : List Byte} (h : m.IndicesBelow b n)
    (hx : ∀ a, b ≤ a → a < b + 8 → ¬ (x ≤ a ∧ a < x + bs.length)) : (m.writeBytes x bs).IndicesBelow b n := by
  have hread : ∀ a, b ≤ a → a < b + 8 → (m.writeBytes x bs).read a = m.read a := fun a h1 h2 => by
    rw [Memory.read_writeBytes, if_neg (hx a h1 h2)]
  have hrd : (m.writeBytes x bs).readWord (b + 4) = m.readWord (b + 4) :=
    Memory.readWord_congr _ _ _ fun a h1 h2 => hread a (by omega) (by omega)
  have hwr : (m.writeBytes x bs).readWord b = m.readWord b :=
    Memory.readWord_congr _ _ _ fun a h1 h2 => hread a (by omega) (by omega)
  exact ⟨hrd ▸ h.1, hwr ▸ h.2⟩

/-- A store of a valid index to one of the two words. -/
theorem Memory.IndicesBelow.store {m : Memory} {b n w v : Nat} (h : m.IndicesBelow b n) (hn : n ≤ 2 ^ 32)
    (hw : w = b ∨ w = b + 4) (hv : v < n) : (m.writeBytes w (leBytes (BitVec.ofNat 32 v))).IndicesBelow b n := by
  have hstored : (BitVec.ofNat 32 v).toNat < n := by
    rw [BitVec.toNat_ofNat, Nat.mod_eq_of_lt (by omega)]; exact hv
  have hother : ∀ a, (a + 4 ≤ w ∨ w + 4 ≤ a) →
      (m.writeBytes w (leBytes (BitVec.ofNat 32 v))).readWord a = m.readWord a := fun a ha =>
    Memory.readWord_congr _ _ _ fun x h1 h2 =>
      Memory.read_writeBytes_outside _ _ _ _ (by rw [leBytes_length]; omega)
  rcases hw with rfl | rfl
  · exact ⟨by rw [hother _ (by omega)]; exact h.1, by rw [Memory.readWord_writeBytes]; exact hstored⟩
  · exact ⟨by rw [Memory.readWord_writeBytes]; exact hstored, by rw [hother _ (by omega)]; exact h.2⟩

/-! ## The races of an agent with its own commands -/

theorem Order.dataRacy_loaded_false (o : Order) (a x m : Nat) (h : o.dataRacy a m = false) :
    (o.loaded a x).dataRacy a m = false := by
  have hrecord : (o.record a .load x 4).dataRacy a m = false := (Order.dataRacy_record_self ..).trans h
  unfold Order.loaded
  split
  · exact Order.dataRacy_acquire_false _ _ _ _ hrecord
  · exact hrecord

theorem State.decodeStep_order (s : State) (r : Option (ErrCode × Word)) (pos : EnginePos) :
    (s.decodeStep r pos).order = s.order := by
  unfold State.decodeStep; split <;> rfl

theorem State.decodeStep_mem (s : State) (r : Option (ErrCode × Word)) (pos : EnginePos) :
    (s.decodeStep r pos).mem = s.mem := by
  unfold State.decodeStep; split <;> rfl

/-- A command's own events bring no data write that its stores would race with (R74 edge 1, R77). -/
theorem micro_dataRacy (i : Instr) (s : State) {m : Nat} (h : s.order.dataRacy s.agent m = false) :
    (micro i s).order.dataRacy s.agent m = false := by
  cases i
  all_goals
    simp only [micro, microNop, microBind, microSize, microEmpty, microFull, microCapacity, microAvailRead,
      microAvailWrite, microIndexQuery, microPush, microPop, microAenq, microAdeq, microPushBody, microPopBody,
      microWspanAcq, microWspanCommit, microPenq, microPdeq, microDeint, microInter, xposeTableStep]
    split
  all_goals
    simp only [State.decodeStep_order, State.loadRdStep_order, State.loadWrStep_order, State.copyReadStep_order,
      State.copyWriteStep_order, State.publishStep_order, State.finishStep_order, State.raise_order, State.goto_order,
      State.setHere_order, State.readEvent_order, State.writeEvent_order, State.storeEvent_order,
      Order.publish_dataRacy, Order.overwrite_dataRacy, Order.finish_dataRacy, Order.dataRacy_record_self,
      Order.dataRacy_loaded_false _ _ _ _ h, h]

/-! ## The registers a command keeps -/

/-- Both ports are bound alike, and hold the same buffer operands (R100). -/
structure Port.SameRing (q r : Port) : Prop where
  binding : q.SameBinding r
  bound : r.bound = q.bound
  larg0 : r.larg0 = q.larg0
  larg1 : r.larg1 = q.larg1
  larg2 : r.larg2 = q.larg2

theorem Port.SameRing.refl (q : Port) : q.SameRing q := ⟨⟨rfl, rfl, rfl⟩, rfl, rfl, rfl, rfl⟩

theorem Port.SameRing.sameSegment {q r : Port} (h : q.SameRing r) : r.SameSegment q := by
  obtain ⟨⟨hbase, hslots, hcfg⟩, hbound, -, -, -⟩ := h
  obtain ⟨h1, h2, -, h4, -⟩ := Port.binding_congr hbase hslots hcfg
  exact ⟨hbound, h1, h2, h4⟩

/-- A ring command keeps the binding of its port, and its operands (R100, R115). -/
theorem PortMicro.sameRing {cfg : Config} {i : Instr} {q r : Port} (h : PortMicro cfg (some i) q r)
    (hi : ringCommand i = true) : q.SameRing r := by
  cases h with
  | checked | failed | loadedRd | loadedWr | worked => exact ⟨⟨rfl, rfl, rfl⟩, rfl, rfl, rfl, rfl⟩
  | raised e info hp => exact ⟨⟨rfl, rfl, rfl⟩, Port.flag_raised q e info .bound, rfl, rfl, rfl⟩
  | answered a b d hp => exact ⟨⟨rfl, rfl, rfl⟩, Port.bound_ending _, rfl, rfl, rfl⟩
  | rebound kind proto role init hc hp => cases hc; cases hi
  | acquired hc hp =>
    exact ⟨⟨rfl, rfl, rfl⟩, (Port.bound_ending _).trans (Port.flag_setFlag _ .grant .bound true), rfl, rfl, rfl⟩
  | committed dflt hc hp =>
    exact ⟨⟨rfl, rfl, rfl⟩, (Port.bound_ending _).trans (Port.flag_setFlag _ .grant .bound false), rfl, rfl, rfl⟩

theorem micro_sameRing {i : Instr} (hi : ringCommand i = true) (s : State) : s.here.SameRing (micro i s).here := by
  rcases (Relation.reflGen_iff _ _ _).mp (moved_micro i s).2 with heq | hstep
  · exact heq ▸ Port.SameRing.refl _
  · exact hstep.sameRing hi

theorem micro_keeps_checked {i : Instr} {s : State}
    (h : s.here.pos.passed = true → ∃ j, some i = some j ∧ s.here.Checked s.cfg j) :
    (micro i s).here.pos.passed = true → ∃ j, some i = some j ∧ (micro i s).here.Checked s.cfg j := by
  rcases (Relation.reflGen_iff _ _ _).mp (moved_micro i s).2 with heq | hstep
  · exact heq ▸ h
  · exact hstep.keeps_checked h

/-! ## Which bytes a ring command writes -/

/-- The copies of a POP or an ADEQ that are still to come exist, and the engine holds an element of `e` bytes between a
read event and its write event (R145). -/
def PopInside (e : Nat) (q : Port) : Prop :=
  match q.pos with
  | .copyRead k => k < popCount q
  | .copyWrite k => k < popCount q ∧ q.elem.length = e
  | .idle | .decode | .initWr | .initRd | .loadRd | .loadWr | .tableRead _ | .recordWrite _ | .recordRead _ | .publish
  | .finish | .raising _ _ => True

theorem popInside_micro {s : State} (hc : s.cur < s.ports.length) (failed : Option (ErrCode × Word)) (e off : Nat)
    (h : PopInside e s.here) : PopInside e (microPopBody failed e off s).here := by
  unfold microPopBody
  split
  next =>
    unfold State.decodeStep
    split
    all_goals
      rw [State.here_goto s _ hc]
      trivial
  next => rw [State.here_loadRdStep s hc]; trivial
  next =>
    rw [State.here_loadWrStep s _ hc]
    unfold State.afterLoads
    split
    · trivial
    · unfold popNext
      split
      · trivial
      · split
        · trivial
        next hn => exact Nat.pos_of_ne_zero hn
  next k hp =>
    rw [State.here_copyReadStep s _ _ _ hc]
    simp only [PopInside, hp] at h
    exact ⟨h, State.seenBytes_length ..⟩
  next k hp =>
    rw [State.here_copyWriteStep s _ _ _ hc]
    split
    next hk => exact hk
    · trivial
  next => rw [State.here_publishStep s _ _ hc]; trivial
  next => rw [State.here_finishStep s _ hc]; trivial
  next => rw [State.here_raise s _ _ hc]; trivial
  all_goals exact h

/-- What holds at every micro-step of the ring command `i`: its port's segment is one a BIND accepts and meets neither
its buffer nor another segment in its index words, no data write races with its stores of these, and both are valid. -/
structure RingSafe (i : Instr) (s : State) : Prop where
  exists_here : s.cur < s.ports.length
  segment : s.here.bound = true → segmentOk s.cfg s.here = true
  checked : s.here.pos.passed = true → ∃ j, some i = some j ∧ s.here.Checked s.cfg j
  popInside : i = .pop ∨ i = .adeq → PopInside (copyBytes i s.here) s.here
  apart : BufferApart s s.here.esize s.here.larg2.toNat ∧ BufferApart s s.here.esize 0
  settled : ∀ a, s.here.base ≤ a → a < s.here.base + 8 →
    s.foreign a = false ∧ s.order.dataRacy s.agent a = false
  valid : s.mem.IndicesBelow s.here.base s.here.nslots

section
variable {s : State}

/-- The index a command publishes is below S, wherever the ring stands (R130). -/
theorem RingSafe.publish {i : Instr} (h : RingSafe i s) {w : Nat} (hw : w = s.here.wiAddr ∨ w = s.here.riAddr)
    (k n : Nat) : (s.publishStep w (advance s.here.nslots k n)).mem.IndicesBelow s.here.base s.here.nslots := by
  have hpos : 0 < s.here.nslots := Nat.zero_lt_of_lt h.valid.1
  have hquiet : ∀ j, j < (leBytes (BitVec.ofNat 32 (advance s.here.nslots k n))).length →
      (s.foreign (w + j) || s.order.dataRacy s.agent (w + j)) = false := by
    intro j hj
    rw [leBytes_length] at hj
    have hin : s.here.base ≤ w + j ∧ w + j < s.here.base + 8 := by
      rcases hw with rfl | rfl
      all_goals simp only [Port.wiAddr, Port.riAddr]; omega
    obtain ⟨hforeign, hracy⟩ := h.settled _ hin.1 hin.2
    rw [hforeign, hracy]
    rfl
  rw [State.publishStep_mem, State.landedBytes_quiet _ _ _ _ hquiet]
  exact h.valid.store (Nat.le_of_lt s.here.slots.isLt) hw (Nat.mod_lt _ hpos)

/-- A write to a slot touches no index word (R47). -/
theorem RingSafe.write_slot {i : Instr} (h : RingSafe i s) (e k : Nat) (bs : List Byte) :
    (s.mem.writeBytes (slotAddr s.here.base e k) bs).IndicesBelow s.here.base s.here.nslots :=
  h.valid.write_outside fun a _ h2 => by unfold slotAddr Config.headerSize; omega

/-- A write to an element of the buffer touches no index word where the buffer lies off the segment (R146). -/
theorem RingSafe.write_buffer {i : Instr} (h : RingSafe i s) {e off k : Nat} {bs : List Byte}
    (hbuffer : BufferApart s e off) (hk : k < popCount s.here) (hlen : bs.length = e) :
    (s.mem.writeBytes (bufferAddr s.here e (off + k)) bs).IndicesBelow s.here.base s.here.nslots := by
  refine h.valid.write_outside fun a h1 h2 => ?_
  have hend : k * e + e ≤ s.here.larg1.toNat * e := mul_add_le_mul _ _ e (lt_of_lt_of_le hk (min_le_right _ _))
  have hseg : 8 ≤ s.here.segLen := Nat.le_add_right 8 _
  simp only [BufferApart, State.meetsOwn, rangesMeet, Bool.and_eq_false_iff, decide_eq_false_iff_not] at hbuffer
  rw [bufferAddr, Nat.add_mul, hlen]
  omega

/-- A port that passes the check for AUDIO has elements of four bytes (R170). -/
theorem esize_of_checkAdeq {cfg : Config} {q : Port} (hcheck : checkAdeq cfg q = none)
    (hsegment : q.bound = true → segmentOk cfg q = true) : q.esize = sampleSize := by
  simp only [checkAdeq, firstError_none, List.forall_mem_cons, needBound, needProto, Bool.not_eq_false',
    bne_eq_false_iff_eq] at hcheck
  obtain ⟨hbound, -, hproto, -⟩ := hcheck
  have hok := hsegment hbound
  simp only [segmentOk, Bool.and_eq_true, Bool.or_eq_true, beq_iff_eq, bne_iff_ne] at hok
  obtain ⟨⟨⟨⟨⟨⟨-, hsize⟩, -⟩, -⟩, haudio⟩, -⟩, -⟩ := hok
  have hkind : q.kind = kindF32 := haudio.resolve_left (absurd hproto)
  rw [hkind] at hsize
  exact (Option.some.inj hsize).symm

/-- The commands that only load the indices, or not even these, write nothing to MEM (R160, R150). -/
theorem RingSafe.micro_query {i : Instr} (h : RingSafe i s)
    (hi : i = .empty ∨ i = .full ∨ i = .capacity ∨ i = .availRead ∨ i = .availWrite ∨ i = .wspanAcq) :
    (micro i s).mem.IndicesBelow s.here.base s.here.nslots := by
  have hmem : (micro i s).mem = s.mem := by
    rcases hi with rfl | rfl | rfl | rfl | rfl | rfl
    all_goals
      simp only [micro, microEmpty, microFull, microCapacity, microAvailRead, microAvailWrite, microIndexQuery,
        microWspanAcq]
      split
    all_goals
      simp only [State.decodeStep_mem, State.loadRdStep_mem, State.loadWrStep_mem, State.finishStep_mem,
        State.raise_mem]
  exact hmem ▸ h.valid

/-- A producer transfer writes to slots and publishes write_index (R140). -/
theorem RingSafe.micro_push {i : Instr} (h : RingSafe i s) (failed : Option (ErrCode × Word)) (e off : Nat) :
    (microPushBody failed e off s).mem.IndicesBelow s.here.base s.here.nslots := by
  unfold microPushBody
  split
  next => rw [State.decodeStep_mem]; exact h.valid
  next => exact h.valid
  next => rw [State.loadWrStep_mem]; exact h.valid
  next => exact h.valid
  next => exact h.write_slot _ _ _
  next => exact h.publish (.inl rfl) _ _
  all_goals exact h.valid

/-- A consumer transfer writes to its buffer and publishes read_index (R145). -/
theorem RingSafe.micro_pop {i : Instr} (h : RingSafe i s) (failed : Option (ErrCode × Word)) {e off : Nat}
    (hinside : PopInside e s.here) (hbuffer : s.here.pos.passed = true → BufferApart s e off) :
    (microPopBody failed e off s).mem.IndicesBelow s.here.base s.here.nslots := by
  unfold microPopBody
  split
  next => rw [State.decodeStep_mem]; exact h.valid
  next => exact h.valid
  next => rw [State.loadWrStep_mem]; exact h.valid
  next => exact h.valid
  next k hp =>
    simp only [PopInside, hp] at hinside
    exact h.write_buffer (hbuffer (by rw [hp]; rfl)) hinside.1 ((State.landedBytes_length ..).trans hinside.2)
  next => exact h.publish (.inr rfl) _ _
  all_goals exact h.valid

theorem RingSafe.micro_penq {pidx : BitVec 8} (h : RingSafe (.penq pidx) s) :
    (microPenq pidx s).mem.IndicesBelow s.here.base s.here.nslots := by
  unfold microPenq
  split
  next => rw [State.decodeStep_mem]; exact h.valid
  next => exact h.valid
  next => rw [State.loadWrStep_mem]; exact h.valid
  next => exact h.write_slot _ _ _
  next => exact h.publish (.inl rfl) _ _
  all_goals exact h.valid

theorem RingSafe.micro_pdeq (h : RingSafe .pdeq s) :
    (microPdeq s).mem.IndicesBelow s.here.base s.here.nslots := by
  unfold microPdeq
  split
  next => rw [State.decodeStep_mem]; exact h.valid
  next => exact h.valid
  next => rw [State.loadWrStep_mem]; exact h.valid
  next => exact h.valid
  next => exact h.publish (.inr rfl) _ _
  all_goals exact h.valid

theorem RingSafe.micro_wspanCommit {dflt : Bool} (h : RingSafe (.wspanCommit dflt) s) :
    (microWspanCommit dflt s).mem.IndicesBelow s.here.base s.here.nslots := by
  unfold microWspanCommit
  split
  next => rw [State.decodeStep_mem]; exact h.valid
  next => exact h.publish (.inl rfl) _ _
  all_goals exact h.valid

/-- No micro-step of a ring command leaves an index at or above S (R48, R133). -/
theorem RingSafe.micro_valid {i : Instr} (hi : ringCommand i = true) (h : RingSafe i s) :
    (micro i s).mem.IndicesBelow s.here.base s.here.nslots := by
  cases i with
  | nop | bind | size | deint | inter => cases hi
  | empty | full | capacity | availRead | availWrite | wspanAcq => exact h.micro_query (by simp)
  | push | aenq => exact h.micro_push _ _ _
  | pop => exact h.micro_pop _ (h.popInside (by simp)) fun _ => h.apart.1
  | adeq =>
    refine h.micro_pop _ (h.popInside (by simp)) fun hpass => ?_
    obtain ⟨_, hj, hcheck, -⟩ := h.checked hpass
    cases hj
    exact esize_of_checkAdeq hcheck h.segment ▸ h.apart.2
  | penq pidx => exact h.micro_penq
  | pdeq => exact h.micro_pdeq
  | wspanCommit dflt => exact h.micro_wspanCommit

end

theorem RingSafe.micro_popInside {i : Instr} {s : State} (h : RingSafe i s) (hi : i = .pop ∨ i = .adeq) :
    PopInside (copyBytes i s.here) (micro i s).here := by
  rcases hi with rfl | rfl
  all_goals exact popInside_micro h.exists_here _ _ _ (h.popInside (by simp))

/-- Every micro-step of a ring command keeps `RingSafe`. -/
theorem ringSafe_micro {i : Instr} (hi : ringCommand i = true) {s : State} (h : RingSafe i s) :
    RingSafe i (micro i s) := by
  have hsame := micro_sameRing hi s
  have hseg := hsame.sameSegment
  have ⟨hbound, hbase, hslots, hesize⟩ := hseg
  have helse := (moved_micro i s).1
  refine ⟨helse.exists h.exists_here, fun hb => ?_, ?_, fun hpop => ?_, ?_, fun a h1 h2 => ?_, ?_⟩
  · obtain ⟨h1, h2, h3⟩ := hsame.binding
    rw [helse.1, segmentOk_congr s.cfg h1 h2 h3]
    exact h.segment (hbound ▸ hb)
  · rw [helse.1]; exact micro_keeps_checked h.checked
  · have hbytes : copyBytes i (micro i s).here = copyBytes i s.here := by
      rcases hpop with rfl | rfl
      · exact hesize
      · rfl
    exact hbytes ▸ h.micro_popInside hpop
  · simp only [BufferApart, helse.meetsOwn hseg, hsame.larg0, hsame.larg1, hsame.larg2, hesize]
    exact h.apart
  · rw [hbase] at h1 h2
    obtain ⟨hforeign, hracy⟩ := h.settled a h1 h2
    rw [helse.foreign hseg, helse.agent]
    exact ⟨hforeign, micro_dataRacy i s hracy⟩
  · rw [hbase, hslots]; exact h.micro_valid hi

/-- Settles O58: `RingSafe` holds at the decode step and every micro-step keeps it. -/
theorem ringCommandsKeepIndicesValid : Obligations.RingCommandsKeepIndicesValid := by
  intro i s t hready hi hport hvalid hwr hrd hbuffer hbuffer0 hexec
  rw [exec_runPort] at hexec
  cases hexec
  obtain ⟨hcur, hpos⟩ := hready
  have hstart : RingSafe i s := by
    refine ⟨hcur, ((portOk_iff _ _).mp hport).segment, fun hpass => ?_, fun _ => ?_, ⟨hbuffer, hbuffer0⟩,
      fun a h1 h2 => ?_, hvalid⟩
    · rw [hpos] at hpass; cases hpass
    · simp only [PopInside, hpos]
    · by_cases ha : a < s.here.base + 4
      · have := hwr (a - s.here.base) (by omega)
        rwa [Nat.add_sub_cancel' h1] at this
      · have := hrd (a - (s.here.base + 4)) (by omega)
        rwa [Nat.add_sub_cancel' (by omega)] at this
  exact (runPort_induct (micro i) (RingSafe i) (fun u hu => ringSafe_micro hi hu) _ s hstart).valid

end Sys2Proof.Machine

/-! PROOFS. The register block as the host reads and writes it (spec R22 to R36, R93, R207, R221). -/

namespace Sys2Proof.Machine

/-! ## Where a register lies (R22, R26) -/

section
variable (s : State) {off : Nat}

theorem inRegSpace_inside (hlt : off < 0x1000) : inRegSpace s.cfg (s.cfg.regBase + off) = true := by
  simp [inRegSpace, regSpace, hlt]

theorem properAccess_inside (hbase : s.cfg.regBase % 4 = 0) (hoff : off % 4 = 0) :
    properAccess (s.cfg.regBase + off) 4 = true := by
  simp [properAccess]; omega

/-- An aligned read of a word of the register block completes (R28). -/
theorem moveRegRead_inside (hbase : s.cfg.regBase % 4 = 0) (hlt : off < 0x1000) (hoff : off % 4 = 0) :
    moveRegRead s (s.cfg.regBase + off) 4 = .next (s.afterRead off) := by
  simp [moveRegRead, inRegSpace_inside s hlt, properAccess_inside s hbase hoff]

/-- An aligned write of a word of the register block completes (R28). -/
theorem moveRegWrite_inside (v : Word) (hbase : s.cfg.regBase % 4 = 0) (hlt : off < 0x1000) (hoff : off % 4 = 0) :
    moveRegWrite s (s.cfg.regBase + off) 4 v = .next (s.writeReg off v) := by
  simp [moveRegWrite, inRegSpace_inside s hlt, properAccess_inside s hbase hoff]

theorem offPort_eq (p : Nat) {r : Nat} (hr : r < 0x80) : offPort (0x100 + 0x80 * p + r) = p := by
  simp only [offPort, portSpace, portStride]; omega

theorem offReg_eq (p : Nat) {r : Nat} (hr : r < 0x80) : offReg (0x100 + 0x80 * p + r) = r := by
  simp only [offReg, portSpace, portStride]; omega

theorem State.readReg_port {p r : Nat} (hp : p < s.ports.length) (hr : r < 0x80) :
    s.readReg (0x100 + 0x80 * p + r) = (s.port p).readReg r := by
  unfold State.readReg
  rw [offPort_eq p hr, offReg_eq p hr, if_neg (by simp only [portSpace]; omega), if_pos hp]

theorem State.writeReg_cmd {p : Nat} (w : Word) (hp : p < s.ports.length) :
    s.writeReg (0x100 + 0x80 * p) w = s.writeCmd p w := by
  have hport := offPort_eq p (r := 0) (by decide)
  have hreg := offReg_eq p (r := 0) (by decide)
  rw [Nat.add_zero] at hport hreg
  rw [State.writeReg, hport, hreg, if_neg (by simp only [portSpace]; omega), if_pos hp, if_pos rfl]

/-- A write beside CMD writes one port's register (R27). -/
theorem State.writeReg_reg {p r : Nat} (v : Word) (hp : p < s.ports.length) (hr : r < 0x80) (h0 : r ≠ 0) :
    s.writeReg (0x100 + 0x80 * p + r) v = s.setPort p ((s.port p).writeReg r v) := by
  rw [State.writeReg, offPort_eq p hr, offReg_eq p hr, if_neg (by simp only [portSpace]; omega), if_pos hp, if_neg h0]

/-- The offset is no port's: it lies below the ports' registers, or above those of the last port (R22, R26). -/
def State.OutsidePorts (off : Nat) : Prop := off < portSpace ∨ s.ports.length ≤ offPort off

theorem State.afterRead_outside (h : s.OutsidePorts off) : s.afterRead off = { s with regData := s.readReg off } := by
  rw [State.afterRead, if_neg]
  rintro ⟨h1, h2, -⟩
  rcases h with h | h <;> omega

/-- A write outside the ports' registers is ignored (R28). -/
theorem State.writeReg_outside (v : Word) (h : s.OutsidePorts off) : s.writeReg off v = s := by
  unfold State.writeReg
  split
  · rfl
  · rw [if_neg (by rcases h with h | h <;> omega)]

theorem State.outsidePorts_above (hlt : 0x100 + 0x80 * s.ports.length ≤ off) : s.OutsidePorts off := by
  refine .inr ?_
  simp only [offPort, portSpace, portStride]; omega

theorem State.afterRead_mem (off : Nat) : (s.afterRead off).mem = s.mem := by
  unfold State.afterRead State.seeStatus
  split
  · split <;> rfl
  · rfl

theorem State.setPort_port (p : Nat) : s.setPort p (s.port p) = s := by
  have hset : s.ports.set p (s.port p) = s.ports := by
    by_cases hp : p < s.ports.length
    · simp [State.port, List.getD_eq_getElem?_getD, hp]
    · exact List.set_eq_of_length_le (Nat.not_lt.mp hp)
  rw [State.setPort, hset]

end

/-! ## Port registers (R27) -/

section
variable {s : State} {p : Nat} (hbase : s.cfg.regBase % 4 = 0) (hlen : s.ports.length ≤ 16) (hp : p < s.ports.length)
include hbase hlen hp

/-- A host read of a word of port `p` returns it and changes no port (R28). -/
theorem regRead_port {r : Nat} (hr : r < 0x80) (h4 : r % 4 = 0) :
    ∃ t, moveRegRead s (s.cfg.regBase + 0x100 + 0x80 * p + r) 4 = .next t ∧ t.regData = (s.port p).readReg r ∧
      t.ports = s.ports ∧ t.mem = s.mem := by
  refine ⟨s.afterRead (0x100 + 0x80 * p + r), ?_, s.readReg_port hp hr, (s.afterRead_cfg_ports _).2,
    s.afterRead_mem _⟩
  rw [← moveRegRead_inside s hbase (off := 0x100 + 0x80 * p + r) (by omega) (by omega)]
  congr 1
  omega

theorem regWrite_port {r : Nat} (v : Word) (hr : r < 0x80) (h4 : r % 4 = 0) :
    moveRegWrite s (s.cfg.regBase + 0x100 + 0x80 * p + r) 4 v = .next (s.writeReg (0x100 + 0x80 * p + r) v) := by
  rw [← moveRegWrite_inside s v hbase (off := 0x100 + 0x80 * p + r) (by omega) (by omega)]
  congr 1
  omega

/-- A host write to a word of port `p` beside CMD (R27). -/
theorem regWrite_reg {r : Nat} (v : Word) (hr : r < 0x80) (h4 : r % 4 = 0) (h0 : r ≠ 0) :
    moveRegWrite s (s.cfg.regBase + 0x100 + 0x80 * p + r) 4 v = .next (s.setPort p ((s.port p).writeReg r v)) := by
  rw [regWrite_port hbase hlen hp v hr h4, s.writeReg_reg v hp hr h0]

theorem regWrite_cmd (w : Word) :
    moveRegWrite s (s.cfg.regBase + 0x100 + 0x80 * p) 4 w = .next (s.writeCmd p w) := by
  rw [← s.writeReg_cmd w hp]
  exact regWrite_port hbase hlen hp (r := 0) w (by decide) rfl

end

/-- Settles O8: each register at its offset, and 0 at the offsets of none. -/
theorem portRegisterReads : Obligations.PortRegisterReads := by
  intro s p hbase hlen hp
  refine ⟨fun x hx => ?_, fun k h1 h2 => ?_⟩
  · have hreg : x.1 < 0x80 ∧ x.1 % 4 = 0 ∧ (s.port p).readReg x.1 = x.2 := by
      revert x
      simp [Port.readReg]
    obtain ⟨hlt, h4, hval⟩ := hreg
    exact hval ▸ regRead_port hbase hlen hp hlt h4
  · have hzero : (s.port p).readReg (4 * k) = 0 := by
      have hk : 0x13 ≤ k := by omega
      have hk' : k < 0x20 := by omega
      interval_cases k <;> rfl
    exact hzero ▸ regRead_port hbase hlen hp h2 (by omega)

/-! ## Global registers (R22 to R25) -/

theorem cfgWord_eq (c : Config) (h : c.nports ≤ 16) :
    cfgWord c = BitVec.ofNat 32 (c.nports + 256 * (if c.hasXpose then 1 else 0)) := by
  have key : ∀ n : Fin 17, ∀ x : Bool, cfgWord ⟨n, x, 0, 0, []⟩ = BitVec.ofNat 32 (n + 256 * (if x then 1 else 0)) := by
    decide
  exact key ⟨c.nports, Nat.lt_succ_of_le h⟩ c.hasXpose

theorem Config.ok_iff (c : Config) :
    c.ok = true ↔ 2 ≤ c.nports ∧ c.nports ≤ 16 ∧ 1 ≤ c.memSize ∧ c.memSize ≤ 2 ^ 32 ∧ c.regBase % 4 = 0 := by
  simp only [Config.ok, Bool.and_eq_true, decide_eq_true_eq, and_assoc]

/-- A host read of a word outside the ports' registers changes nothing but what the read returned (R22, R28). -/
theorem regRead_outside {s : State} {off : Nat} (hbase : s.cfg.regBase % 4 = 0) (hlt : off < 0x1000) (h4 : off % 4 = 0)
    (h : s.OutsidePorts off) : moveRegRead s (s.cfg.regBase + off) 4 = .next { s with regData := s.readReg off } := by
  rw [moveRegRead_inside s hbase hlt h4, s.afterRead_outside h]

theorem regWrite_outside {s : State} {off : Nat} (v : Word) (hbase : s.cfg.regBase % 4 = 0) (hlt : off < 0x1000)
    (h4 : off % 4 = 0) (h : s.OutsidePorts off) : moveRegWrite s (s.cfg.regBase + off) 4 v = .next s := by
  rw [moveRegWrite_inside s v hbase hlt h4, s.writeReg_outside v h]

/-- A reserved offset reads 0 (R28). -/
theorem State.readReg_reserved {s : State} {off : Nat} (h : s.OutsidePorts off) (hoff : 0x10 ≤ off) :
    s.readReg off = 0 := by
  unfold State.readReg
  split
  · split
    iterate 4 · omega
    · rfl
  · rw [if_neg (by rcases h with h | h <;> omega)]

/-- Settles O9: the three constants, and the offsets outside the ports' registers. -/
theorem globalRegisterReads : Obligations.GlobalRegisterReads := by
  intro s hok hlen
  obtain ⟨-, hnports, -, -, hbase⟩ := (Config.ok_iff _).mp hok
  have houtside : ∀ off, off < 0x100 ∨ 0x100 + 0x80 * s.cfg.nports ≤ off → s.OutsidePorts off := fun off h =>
    h.elim .inl fun h => s.outsidePorts_above (hlen ▸ h)
  refine ⟨?_, fun k hk => ?_, fun k v hk => ?_⟩
  · simp only [List.forall_mem_cons, List.not_mem_nil, false_imp_iff, implies_true, and_true]
    refine ⟨?_, ?_, ?_⟩
    · exact regRead_outside hbase (by decide) rfl (.inl (by decide))
    · rw [← cfgWord_eq s.cfg hnports]
      exact regRead_outside hbase (by decide) rfl (.inl (by decide))
    · exact regRead_outside hbase (by decide) rfl (.inl (by decide))
  · have hout := houtside (4 * k) (by omega)
    rw [regRead_outside hbase (by omega) (by omega) hout, State.readReg_reserved hout (by omega)]
  · exact regWrite_outside v hbase (by omega) (by omega) (houtside (4 * k) (by omega))

/-- Bit `b` of IRQ_STATUS from port `p` on (R25). -/
theorem irqBits_getLsbD (ports : List Port) (p b : Nat) (h : p + ports.length ≤ 32) :
    (irqBits ports p).getLsbD b = (decide (p ≤ b) && (ports.getD (b - p) Port.reset).irq) := by
  induction ports generalizing p with
  | nil => simp [irqBits, show Port.reset.irq = false from rfl]
  | cons q rest ih =>
    rw [List.length_cons] at h
    have hbit : (if q.irq then 1#32 <<< p else 0).getLsbD b = (decide (b = p) && q.irq) := by
      cases q.irq
      · simp
      · simp only [if_true, BitVec.getLsbD_shiftLeft, BitVec.getLsbD_one]
        grind
    rw [irqBits, BitVec.getLsbD_or, hbit, ih (p + 1) (by omega)]
    rcases Nat.lt_trichotomy b p with hlt | rfl | hgt
    · simp [Nat.not_le.mpr hlt, Nat.ne_of_lt hlt]
      omega
    · simp
    · obtain ⟨d, rfl⟩ := Nat.exists_eq_add_of_lt hgt
      have hd : p + d + 1 - p = d + 1 := by omega
      have hd' : p + d + 1 - (p + 1) = d := by omega
      have hne : p + d + 1 ≠ p := by omega
      have hle : p ≤ p + d + 1 := by omega
      simp [hd, hd', hne, hle]

/-- Settles O10: the word is built bit by bit from the lines of the ports. -/
theorem irqStatusReads : Obligations.IrqStatusReads := by
  intro s hok hlen
  obtain ⟨-, hnports, -, -, hbase⟩ := (Config.ok_iff _).mp hok
  refine ⟨⟨s.irqStatus, regRead_outside hbase (by decide) rfl (.inl (by decide)), fun p => ?_⟩,
    fun v => regWrite_outside v hbase (by decide) rfl (.inl (by decide))⟩
  have hbit : s.irqStatus.getLsbD p = (s.port p).irq := by
    rw [State.irqStatus, irqBits_getLsbD _ _ _ (by omega)]
    simp [State.port]
  rw [hbit]
  by_cases hp : p < s.cfg.nports
  · rw [decide_eq_true hp, Bool.true_and]; rfl
  · rw [decide_eq_false hp, Bool.false_and, s.port_of_ge (by omega)]; rfl

/-! ## Host writes to a port's registers (R27 to R35, R93, R221) -/

/-- STATUS after a port accepts a command (R93). -/
theorem Port.status_accepted (q : Port) (w : Word) : (q.accepted w).status = (q.status &&& ~~~0x6#32) ||| 0x1#32 := by
  have hmask : ~~~(0x6#32) = ~~~(0x2#32) &&& ~~~(0x4#32) := by decide
  rw [hmask, ← BitVec.and_assoc]
  rfl

/-- Settles O11: the idle port accepts the word, the busy one drops it. -/
theorem cmdWrites : Obligations.CmdWrites := by
  intro s p w hbase hlen hp
  refine ⟨fun hb => ⟨s.writeCmd p w, regWrite_cmd hbase hlen hp w, ?_, ?_, ?_⟩, fun hb => ?_⟩
  · rw [s.port_writeCmd p w hp, if_neg (by rw [show (s.port p).busy = false from hb]; simp),
      ← Port.status_accepted _ w]
    rfl
  · exact fun r hr => s.port_writeCmd_ne p w hr
  · have hbusy : (s.port p).busy = false := hb
    simp [State.writeCmd, hbusy]
  · refine (regWrite_cmd hbase hlen hp w).trans ?_
    rw [State.writeCmd, if_pos (show (s.port p).busy = true from hb)]
    rfl

/-- Settles O12: each of the two registers, bit by bit. -/
theorem statusAndCtrlWrites : Obligations.StatusAndCtrlWrites := by
  intro s p v hbase hlen hp
  exact ⟨⟨_, regWrite_reg hbase hlen hp (r := 0x04) v (by decide) rfl (by decide), (s.port p).writeStatus_getLsbD v⟩,
    ⟨_, regWrite_reg hbase hlen hp (r := 0x08) v (by decide) rfl (by decide), (s.port p).writeCtrl_getLsbD v⟩⟩

/-- A write to a read-only or reserved offset of a port is ignored (R28). -/
theorem Port.writeReg_readOnly (q : Port) {off : Nat} (v : Word)
    (h : off = 0x0C ∨ off = 0x10 ∨ 0x24 ≤ off) : q.writeReg off v = q := by
  unfold Port.writeReg
  split
  iterate 6 · omega
  · rfl

/-- Settles O13: the four operand registers, and the offsets that ignore a write. -/
theorem operandAndReadOnlyWrites : Obligations.OperandAndReadOnlyWrites := by
  intro s p v hbase hlen hp
  refine ⟨regWrite_reg hbase hlen hp (r := 0x14) v (by decide) rfl (by decide),
    regWrite_reg hbase hlen hp (r := 0x18) v (by decide) rfl (by decide),
    regWrite_reg hbase hlen hp (r := 0x1C) v (by decide) rfl (by decide),
    regWrite_reg hbase hlen hp (r := 0x20) v (by decide) rfl (by decide), fun k hk => ?_⟩
  refine (regWrite_reg hbase hlen hp (r := 4 * k) v (by omega) (by omega) (by omega)).trans ?_
  rw [(s.port p).writeReg_readOnly v (by omega), s.setPort_port p]

/-- Settles O5: the table of R42, row by row. -/
theorem elementKinds : Obligations.ElementKinds := by
  unfold Obligations.ElementKinds
  decide

end Sys2Proof.Machine

/-! PROOFS. How a step runs a command (spec R21, R93, R102), and what the model refuses of the host's duties (R28, R85,
R218, R245). -/

namespace Sys2Proof.Machine

/-! ## A step runs the command (R93, R102) -/

theorem Port.command?_accepted (q : Port) {w : Word} {i : Instr} (h : decode w = .ok i) :
    (q.accepted w).command? = some i := by
  simp only [Port.command?, Port.accepted_lcmd, h]

/-- An issued command stands at its decode step on its port (R93). -/
theorem State.issued_here {s : State} {p : Nat} (w : Word) (hp : p < s.ports.length) (hb : (s.port p).busy = false) :
    (s.issued p w).here = (s.port p).accepted w :=
  (s.port_writeCmd p w hp).trans (if_neg (by simp [hb]))

/-- The next move of the agenda, on a machine that has looked ahead (R217). -/
theorem step_eq_move {s : State} {m : Move} {rest : List Move} (h : s.agenda = m :: rest) :
    step s = move { s.lookAhead with agenda := rest } m := by
  simp only [step, act, State.lookAhead_agenda, h]

/-- The host issues a command, the port runs it, and the host sees it end (R93, R102). -/
theorem moveCommand_runs {s t : State} {p : Nat} {w : Word} {i : Instr} (hp : p < s.ports.length)
    (hb : (s.port p).busy = false) (hw : decode w = .ok i)
    (hstop : runStop (stepBound i (s.issued p w).here) (s.issued p w) = none)
    (hexec : exec i (s.issued p w) = .next t) : moveCommand s p w = .next (t.seenIdle p) := by
  have hcommand : (s.issued p w).here.command? = some i :=
    (congrArg Port.command? (State.issued_here w hp hb)).trans (Port.command?_accepted _ hw)
  have hrun : runHere (s.issued p w) = .next t := by
    simp only [runHere, execHere, Port.bound?, hcommand, hstop, hexec]
  rw [moveCommand, if_pos hp, if_neg (by simp [hb]), hrun]

/-- A micro-step that the host contract does not stop (R93). -/
theorem movePortStep_micro {s : State} {p : Nat} {i : Instr} (hp : p < s.ports.length)
    (hc : (s.port p).command? = some i)
    (hstop : portStop { s with cur := p } (micro i { s with cur := p }) = none) :
    movePortStep s p = .next (micro i { s with cur := p }) := by
  have hmicro : portMicro { s with cur := p } = micro i { s with cur := p } := by
    have hu : ({ s with cur := p } : State).here.command? = some i := hc
    simp only [portMicro, hu]
  rw [movePortStep, if_pos hp]
  simp only [guardedMicro, hmicro, hstop]

/-- With every port idle and no move planned the run is over. -/
theorem firstBusy_none {ports : List Port} (h : ∀ q ∈ ports, q.busy = false) (p : Nat) : firstBusy ports p = none := by
  induction ports generalizing p with
  | nil => rfl
  | cons q rest ih =>
    rw [List.forall_mem_cons] at h
    simp only [firstBusy, h.1, Bool.false_eq_true, if_false]
    exact ih h.2 (p + 1)

theorem drain_of_idle {t : State} (h : ∀ p, (t.port p).busy = false) (k : Nat) : drain k t = t := by
  have hidle : firstBusy t.ports 0 = none := by
    refine firstBusy_none (fun q hq => ?_) 0
    obtain ⟨p, hp, rfl⟩ := List.mem_iff_getElem.mp hq
    have := h p
    simpa [State.port, List.getD_eq_getElem?_getD, hp] using this
  cases k with
  | zero => rfl
  | succ k => simp only [drain, hidle]

/-- A move that no `wait` is, whole, is the move (R102). -/
theorem wholeMove_next {s t : State} {m : Move} (hw : ∀ p, m ≠ .wait p) (h : move s m = .next t) :
    wholeMove s m = (t, true) := by
  cases m with
  | wait p => exact absurd rfl (hw p)
  | _ => simp only [wholeMove, h, lastOf]

/-- The events that one agent makes race with nothing later of its own (R74 edge 1). -/
theorem lateReads_of_grows {s : State} {l : List LateRead} {a k : Nat} (h : Grows a k s (planEnd s l)) :
    lateReads s l = [] := by
  obtain ⟨⟨es, htrace, -, hagent⟩, -⟩ := h
  have hnew : newEvents s (planEnd s l) = es := by simp [newEvents, htrace]
  have hlate : ∀ r, r ∉ lateReads s l := fun r hr => by
    have hin := ((mem_lateReads s l r).mp hr).1
    rw [hnew, lateIn_one_agent _ a es hagent] at hin
    cases hin
  exact List.eq_nil_iff_forall_not_mem.mpr hlate

/-- One planned move that leaves every port idle makes events of one agent alone. -/
theorem lateReads_of_one_move {s t : State} {m : Move} (hagenda : s.agenda = [m]) (hw : ∀ p, m ≠ .wait p)
    (hact : act (s.foreseeing []) = .next t) (hidle : ∀ p, (t.port p).busy = false) : lateReads s [] = [] := by
  by_cases hrst : m = .rst
  · have hend : planEnd s [] = s.foreseeing [] := by simp only [planEnd, hagenda, runPlan, hrst, if_true]
    exact lateReads_of_grows (a := 0) (k := 0) (hend ▸ Grows.same rfl rfl)
  · have hmove : move { s.foreseeing [] with agenda := [] } m = .next t := by
      simpa only [act, State.foreseeing_agenda, hagenda] using hact
    have hend : planEnd s [] = t := by
      simp only [planEnd, hagenda, runPlan, if_neg hrst, wholeMove_next hw hmove, drain_of_idle hidle]
    have hgrows : Grows m.agent (2 ^ 42) s t := grows_move (s := { s.foreseeing [] with agenda := [] }) hrst hmove
    exact lateReads_of_grows (hend ▸ hgrows)

/-- Settles O26: the moves `command` and `portStep`, and the look-ahead of a plan without late reads. -/
theorem stepRunsTheCommand : Obligations.StepRunsTheCommand := by
  refine ⟨?_, ?_, ?_, fun _ _ _ => rfl⟩
  · intro s t p w i rest hagenda hp hb hw u hstop hexec
    rw [step_eq_move hagenda]
    exact moveCommand_runs (s := { s.lookAhead with agenda := rest }) hp hb hw hstop hexec
  · intro s p i rest hagenda hp hcommand u hstop
    rw [step_eq_move hagenda]
    exact movePortStep_micro (s := { s.lookAhead with agenda := rest }) hp hcommand hstop
  · intro s hplan hlate
    have hnone : lateReads s [] = [] := by
      rcases hlate with h | ⟨m, t, hagenda, hw, hact, hidle⟩
      · exact h
      · exact lateReads_of_one_move hagenda hw hact hidle
    have hplanned := planned_eq_nil s hplan hnone
    rw [State.lookAhead_foreseen, State.lookAhead_plan, foresee, hplanned]
    exact ⟨rfl, rfl⟩

/-! ## The host contract (R28, R85, R218, R245) -/

/-- An access that is not an aligned word of the register block is refused (R28). -/
theorem regAccess_refused (s : State) (addr width : Nat) (v : Word) (h1 : s.cfg.regBase ≤ addr)
    (h2 : addr < s.cfg.regBase + 0x1000) (h : width ≠ 4 ∨ addr % 4 ≠ 0) :
    moveRegRead s addr width = .refused (.registerAccess addr width) ∧
      moveRegWrite s addr width v = .refused (.registerAccess addr width) := by
  have hspace : inRegSpace s.cfg addr = true := by simp [inRegSpace, regSpace, h1, h2]
  have hproper : properAccess addr width = false := by
    simp only [properAccess, Bool.and_eq_false_iff, decide_eq_false_iff_not]
    exact h
  simp [moveRegRead, moveRegWrite, hspace, hproper]

/-- A host write that touches an index word is refused (R85). -/
theorem memWrite_refused (s : State) (a : Nat) (bs : List Byte) (hmem : a + bs.length ≤ s.cfg.memSize)
    (ht : touchesIndex s hostAgent a bs.length = true) : moveMemWrite s a bs = .refused (.indexOwnership a) := by
  have hin : inMem s.cfg a bs.length = true := by simp [inMem, fitsMem, hmem]
  simp [moveMemWrite, newEvent, State.writeEvent, eventStop, hin, ht, Stop.outcome]

/-- Two of the ports hold one role at base `b` (R218), position by position. -/
theorem doubled_iff (b : Nat) (ports : List Port) :
    doubled b ports = true ↔ ∃ j k, j < k ∧ k < ports.length ∧ (ports.getD j Port.reset).at b = true ∧
      (ports.getD k Port.reset).at b = true ∧ (ports.getD k Port.reset).role = (ports.getD j Port.reset).role := by
  induction ports with
  | nil => simp [doubled]
  | cons q rest ih =>
    have hany : rest.any (fun r => r.at b && r.role == q.role) = true ↔ ∃ k, k < rest.length ∧
        (rest.getD k Port.reset).at b = true ∧ (rest.getD k Port.reset).role = q.role := by
      simp only [List.any_eq_true, Bool.and_eq_true, beq_iff_eq]
      constructor
      · rintro ⟨r, hr, h⟩
        obtain ⟨k, hk, rfl⟩ := List.mem_iff_getElem.mp hr
        exact ⟨k, hk, by simpa [List.getD_eq_getElem?_getD, hk] using h⟩
      · rintro ⟨k, hk, h⟩
        exact ⟨rest[k], List.getElem_mem hk, by simpa [List.getD_eq_getElem?_getD, hk] using h⟩
    simp only [doubled, Bool.or_eq_true, Bool.and_eq_true, hany, ih]
    constructor
    · rintro (⟨hq, k, hk, hat, hrole⟩ | ⟨j, k, hjk, hk, h⟩)
      · exact ⟨0, k + 1, by omega, by simpa using hk, hq, hat, hrole⟩
      · exact ⟨j + 1, k + 1, by omega, by simpa using hk, h⟩
    · rintro ⟨j, k, hjk, hk, hj, hat, hrole⟩
      obtain ⟨k, rfl⟩ := Nat.exists_eq_add_of_lt hjk
      have hlen : j + k < rest.length := by simpa using hk
      cases j with
      | zero => exact .inl ⟨hj, 0 + k, hlen, hat, hrole⟩
      | succ j => exact .inr ⟨j, j + 1 + k, by omega, hlen, hj, hat, hrole⟩

theorem Port.at_iff (q : Port) (b : Nat) : q.at b = true ↔ q.bound = true ∧ q.base = b := by
  simp [Port.at]

/-- Two ports of one role at base `b`, in either order (R218). -/
theorem doubled_of_ne {b : Nat} {ports : List Port} {j k : Nat} (hne : j ≠ k) (hj : j < ports.length)
    (hk : k < ports.length) (hatj : (ports.getD j Port.reset).at b = true)
    (hatk : (ports.getD k Port.reset).at b = true)
    (hrole : (ports.getD j Port.reset).role = (ports.getD k Port.reset).role) : doubled b ports = true := by
  rw [doubled_iff]
  rcases Nat.lt_or_gt_of_ne hne with h | h
  · exact ⟨j, k, h, hk, hatj, hatk, hrole.symm⟩
  · exact ⟨k, j, h, hj, hatk, hatj, hrole⟩

theorem State.others_getD (s : State) (j : Nat) :
    s.others.getD j Port.reset = s.port (if j < s.cur then j else j + 1) := by
  simp only [State.others, State.port, List.getD_eq_getElem?_getD, List.getElem?_eraseIdx]
  split <;> rfl

/-- Two ports beside the executing one hold one role at base `b` (R218). -/
theorem doubled_others_iff {s : State} (hc : s.cur < s.ports.length) (b : Nat) :
    doubled b s.others = true ↔ ∃ r q, r < s.ports.length ∧ q < s.ports.length ∧ r ≠ s.cur ∧ q ≠ s.cur ∧ r ≠ q ∧
      (s.port r).at b = true ∧ (s.port q).at b = true ∧ (s.port r).role = (s.port q).role := by
  have hlen : s.others.length = s.ports.length - 1 := by simp [State.others, List.length_eraseIdx, hc]
  constructor
  · intro h
    obtain ⟨j, k, hjk, hk, hatj, hatk, hrole⟩ := (doubled_iff b _).mp h
    rw [State.others_getD] at hatj hatk hrole
    rw [State.others_getD] at hrole
    exact ⟨_, _, by split <;> omega, by split <;> omega, by split <;> omega, by split <;> omega,
      by split <;> split <;> omega, hatj, hatk, hrole.symm⟩
  · rintro ⟨r, q, hr, hq, hrc, hqc, hne, hatr, hatq, hrole⟩
    have hplace : ∀ x, x ≠ s.cur → s.others.getD (if x < s.cur then x else x - 1) Port.reset = s.port x := by
      intro x hx
      rw [State.others_getD]
      rcases Nat.lt_or_gt_of_ne hx with h | h
      · rw [if_pos h, if_pos h]
      · rw [if_neg (show ¬ x < s.cur by omega), if_neg (show ¬ x - 1 < s.cur by omega), Nat.sub_add_cancel (by omega)]
    exact doubled_of_ne (j := if r < s.cur then r else r - 1) (k := if q < s.cur then q else q - 1)
      (by split <;> split <;> omega) (by split <;> omega) (by split <;> omega) (by rwa [hplace r hrc])
      (by rwa [hplace q hqc]) (by rwa [hplace r hrc, hplace q hqc])

/-- Both ports were brought idle before the first of their rebindings (R218). -/
theorem bothIdle_iff (s : State) (r : Nat) :
    bothIdle s r = true ↔ s.order.knows s.agent s.cur = .idle ∧ (s.order.knows s.agent r = .idle ∨
      s.order.knows s.agent r = .rebinding ∧ s.order.knows (portAgent r) s.cur ≠ .no) := by
  simp only [bothIdle, Order.broughtIdle, Bool.and_eq_true, beq_iff_eq]
  refine and_congr_right fun _ => ?_
  rw [show s.order.knows (portAgent s.cur) r = s.order.knows s.agent r from rfl]
  cases s.order.knows s.agent r <;> simp

/-- Where the finish step of a BIND breaks R218 (U1, U2). -/
theorem badBind_iff {s : State} {kind : BitVec 4} {proto : BitVec 2} {role : Role} {init : Bool}
    (hpos : s.here.pos = .finish) (hcommand : s.here.command? = some (.bind kind proto role init)) :
    badBind s = true ↔ doubled s.here.larg0.toNat s.others = true ∨
      ∃ r, r < s.ports.length ∧ r ≠ s.cur ∧ breaksPairing s s.here.larg0.toNat role r = true := by
  simp [badBind, hpos, hcommand]

/-- A change of roles needs both ports brought idle; any other BIND needs a base without a port of its role (R218). -/
theorem breaksPairing_iff (s : State) (b : Nat) (role : Role) (r : Nat) :
    breaksPairing s b role r = true ↔ (s.port r).at b = true ∧
      if s.here.bound = true ∧ s.here.base = b ∧ s.here.role ≠ role then ¬ bothIdle s r = true
      else (s.port r).role = role := by
  simp only [breaksPairing, Port.at, Bool.and_eq_true, beq_iff_eq, bne_iff_ne, and_assoc]
  refine and_congr_right fun _ => and_congr_right fun _ => ?_
  split <;> simp

/-- A pairing is refused where `badPairing` or `badBind` says so, and nowhere else (R218, R245). -/
theorem movePortStep_pairing_iff {s : State} {p : Nat} (hp : p < s.ports.length) :
    movePortStep s p = .refused (.pairing p) ↔
      badPairing { s with cur := p } = true ∨ badBind { s with cur := p } = true := by
  rw [movePortStep, if_pos hp, guardedMicro, portStop, ← Bool.or_eq_true]
  cases badPairing { s with cur := p } || badBind { s with cur := p } with
  | true => simp [Stop.outcome]
  | false =>
    simp only [Bool.false_eq_true, if_false, iff_false]
    split
    next t ht =>
      split at ht
      · cases ht; simp [Stop.outcome]
      · split at ht
        · unfold eventStop at ht
          split at ht
          · cases ht; simp [Stop.outcome]
          · split at ht
            · cases ht; simp [Stop.outcome]
            · split at ht
              · cases ht; simp [Stop.outcome]
              · cases ht
        · cases ht
    · simp

/-- A BIND is no ring command, so only `badBind` stops its finish step for pairing. -/
theorem badPairing_of_bind {s : State} {kind : BitVec 4} {proto : BitVec 2} {role : Role} {init : Bool}
    (h : s.here.command? = some (.bind kind proto role init)) : badPairing s = false := by
  simp [badPairing, Port.inRing, h, ringCommand]

/-- The finish step of a BIND is refused for pairing where two other ports hold one role at its base, or where one other
port there stands against it (R218). -/
theorem bind_refused_iff {s : State} {p : Nat} {kind : BitVec 4} {proto : BitVec 2} {role : Role} {init : Bool}
    (hp : p < s.ports.length) (hpos : (s.port p).pos = .finish)
    (hcommand : (s.port p).command? = some (.bind kind proto role init)) :
    movePortStep s p = .refused (.pairing p) ↔
      (∃ r q, r < s.ports.length ∧ q < s.ports.length ∧ r ≠ p ∧ q ≠ p ∧ r ≠ q ∧
        (s.port r).at (s.port p).larg0.toNat = true ∧ (s.port q).at (s.port p).larg0.toNat = true ∧
        (s.port r).role = (s.port q).role) ∨
      ∃ r, r < s.ports.length ∧ r ≠ p ∧ (s.port r).at (s.port p).larg0.toNat = true ∧
        if (s.port p).bound = true ∧ (s.port p).base = (s.port p).larg0.toNat ∧ (s.port p).role ≠ role then
          ¬ (s.order.knows (portAgent p) p = .idle ∧ (s.order.knows (portAgent p) r = .idle ∨
            s.order.knows (portAgent p) r = .rebinding ∧ s.order.knows (portAgent r) p ≠ .no))
        else (s.port r).role = role := by
  have hbind := badBind_iff (s := { s with cur := p }) hpos hcommand
  have hring := badPairing_of_bind (s := { s with cur := p }) hcommand
  rw [movePortStep_pairing_iff hp, hring, hbind, doubled_others_iff (s := { s with cur := p }) hp]
  simp only [breaksPairing_iff, bothIdle_iff, Bool.false_eq_true, false_or]
  rfl

/-- Settles O59: the refusals one by one, each from what `bind_refused_iff`, `badPairing` or the access itself asks. -/
theorem contractRefusals : Obligations.ContractRefusals := by
  refine ⟨regAccess_refused, memWrite_refused, ?_, ?_, ?_, ?_⟩
  · intro s p r kind proto role init hp hr hne hpos hcommand hbound hbase hbreak
    refine (bind_refused_iff hp hpos hcommand).mpr
      (.inr ⟨r, hr, hne, (Port.at_iff _ _).mpr ⟨hbound, hbase⟩, ?_⟩)
    split at hbreak
    next hchange =>
      rw [if_pos hchange]
      rintro ⟨hown, hknown⟩
      rcases hbreak with h | h | ⟨h, hno⟩
      · exact h hown
      · simp [h] at hknown
      · simp [h, hno] at hknown
    next hchange => rw [if_neg hchange]; exact hbreak
  · intro s p r q kind proto role init hp hr hq hrp hqp hrq hpos hcommand hrbound hqbound hrbase hqbase hrole
    exact (bind_refused_iff hp hpos hcommand).mpr (.inl ⟨r, q, hr, hq, hrp, hqp, hrq,
      (Port.at_iff _ _).mpr ⟨hrbound, hrbase⟩, (Port.at_iff _ _).mpr ⟨hqbound, hqbase⟩, hrole⟩)
  · intro s p kind proto role init hp hpos hcommand hbound hbase hrole hown hothers hrefused
    rcases (bind_refused_iff hp hpos hcommand).mp hrefused with
      ⟨r, q, hr, hq, hrp, hqp, hrq, hatr, hatq, hsame⟩ | ⟨r, hr, hne, hatr, hnot⟩
    · obtain ⟨hrbound, hrbase⟩ := (Port.at_iff _ _).mp hatr
      obtain ⟨hqbound, hqbase⟩ := (Port.at_iff _ _).mp hatq
      exact (hothers r hr hrp hrbound (hrbase.trans hbase.symm)).2 q hq hqp (Ne.symm hrq) hqbound
        (hqbase.trans hbase.symm) hsame
    · obtain ⟨hrbound, hrbase⟩ := (Port.at_iff _ _).mp hatr
      rw [if_pos ⟨hbound, hbase, hrole⟩] at hnot
      exact hnot ⟨hown, (hothers r hr hne hrbound (hrbase.trans hbase.symm)).1⟩
  · intro s p r q i hp hr hq hrq hcommand hring hpos hbound hrbound hqbound hrbase hqbase hrole
    have hdoubled : doubled (s.port p).base s.ports = true :=
      doubled_of_ne hrq hr hq ((Port.at_iff _ _).mpr ⟨hrbound, hrbase⟩) ((Port.at_iff _ _).mpr ⟨hqbound, hqbase⟩) hrole
    have hin : (s.port p).inRing = true := by simp [Port.inRing, hpos, hcommand, hring]
    refine (movePortStep_pairing_iff hp).mpr (.inl ?_)
    rw [badPairing, show ({ s with cur := p } : State).here = s.port p from rfl, hin, hbound, hdoubled]
    rfl

end Sys2Proof.Machine

/-! PROOFS. The memory event of one micro-step (spec R68, R93): what it does to MEM and to the ordering record, and that
it lies in MEM (R70). From it what every step keeps of MEM and of the record (R60, R66, R67, R74). -/

namespace Sys2Proof.Machine

/-! ## What the checks of a command leave (R134, R191) -/

section
variable {cfg : Config} {q : Port} {i : Instr}

/-- A command past its decode step has passed its checks (R93). -/
theorem Port.Sound.checked (h : q.Sound cfg) (hc : q.command? = some i) (hp : q.pos.passed = true) :
    q.Checked cfg i := by
  obtain ⟨j, hj, hchecked⟩ := h.engine hp
  cases hc.symm.trans hj
  exact hchecked

/-- Every ring command asks for a bound port (R134, R160). -/
theorem bound_of_check (hi : ringCommand i = true) (h : check i cfg q = none) : q.bound = true := by
  cases i
  case nop | bind | size | deint | inter => cases hi
  all_goals
    simp only [check, checkQuery, checkPush, checkPop, checkWspanAcq, checkWspanCommit, checkAenq, checkAdeq, checkPenq,
      checkPdeq, needBound, firstError_none, List.forall_mem_cons, Bool.not_eq_false'] at h
    exact h.1

/-- A bound segment lies in MEM, and its elements have at least a byte (R42, R111). -/
theorem Port.Sound.segment_inside (h : q.Sound cfg) (hb : q.bound = true) :
    1 ≤ q.esize ∧ q.base + q.segLen ≤ cfg.memSize := by
  have hok := h.segment hb
  simp only [segmentOk, Bool.and_eq_true, decide_eq_true_eq, beq_iff_eq] at hok
  obtain ⟨⟨⟨⟨⟨⟨-, hsize⟩, hend⟩, -⟩, -⟩, -⟩, -⟩ := hok
  exact ⟨(elemSize_bounds hsize).1, hend⟩

/-- A port bound AUDIO has elements of four bytes (R170). -/
theorem Port.Sound.esize_of_audio (h : q.Sound cfg) (hb : q.bound = true) (hproto : q.proto = protoAudio) :
    q.esize = sampleSize := by
  have hok := h.segment hb
  simp only [segmentOk, Bool.and_eq_true, Bool.or_eq_true, beq_iff_eq, bne_iff_ne] at hok
  obtain ⟨⟨⟨⟨⟨⟨-, hsize⟩, -⟩, -⟩, haudio⟩, -⟩, -⟩ := hok
  rw [haudio.resolve_left (absurd hproto)] at hsize
  exact (Option.some.inj hsize).symm

/-- The offset of a transfer's buffer, in elements (R100, R171). -/
def copyOffset (i : Instr) (q : Port) : Nat :=
  match i with
  | .push | .pop => q.larg2.toNat
  | .nop | .bind _ _ _ _ | .size _ | .empty | .full | .capacity | .availRead | .availWrite | .wspanAcq
  | .wspanCommit _ | .aenq | .adeq | .penq _ | .pdeq | .deint | .inter => 0

/-- What the checks of a ring transfer leave: its elements are the ring's, and its buffer is in range (R70, R134). -/
theorem transfer_checked (hi : i = .push ∨ i = .pop ∨ i = .aenq ∨ i = .adeq) (hs : q.Sound cfg)
    (h : check i cfg q = none) : copyBytes i q = q.esize ∧
      inMem cfg (bufferAddr q (copyBytes i q) (copyOffset i q)) (bufferLen q (copyBytes i q)) = true := by
  have hb : q.bound = true := bound_of_check (by rcases hi with rfl | rfl | rfl | rfl <;> rfl) h
  rcases hi with rfl | rfl | rfl | rfl
  all_goals
    simp only [check, checkPush, checkPop, checkAenq, checkAdeq, needBuffer, needProto, firstError_none,
      List.forall_mem_cons, Bool.not_eq_false', bne_eq_false_iff_eq] at h
  · obtain ⟨-, -, -, -, hbuffer, -⟩ := h
    exact ⟨rfl, hbuffer⟩
  · obtain ⟨-, -, -, hbuffer, -⟩ := h
    exact ⟨rfl, hbuffer⟩
  · obtain ⟨-, -, hproto, -, -, hbuffer, -⟩ := h
    exact ⟨(hs.esize_of_audio hb hproto).symm, hbuffer⟩
  · obtain ⟨-, -, hproto, -, hbuffer, -⟩ := h
    exact ⟨(hs.esize_of_audio hb hproto).symm, hbuffer⟩

/-- A range is in range where it is empty or lies in MEM (R70). -/
theorem inMem_iff (cfg : Config) (a n : Nat) : inMem cfg a n = true ↔ n = 0 ∨ a + n ≤ cfg.memSize := by
  simp [inMem, fitsMem]

/-- Element `k` of a buffer in range lies in MEM (R70, R100). -/
theorem bufferAddr_inside {e off k : Nat} (h : inMem cfg (bufferAddr q e off) (bufferLen q e) = true) (he : 1 ≤ e)
    (hk : k < q.larg1.toNat) : bufferAddr q e (off + k) + e ≤ cfg.memSize := by
  have hlast := mul_add_le_mul k q.larg1.toNat e hk
  have hpos : bufferLen q e ≠ 0 := Nat.mul_ne_zero (by omega) (by omega)
  have hend := ((inMem_iff _ _ _).mp h).resolve_left hpos
  simp only [bufferAddr, bufferLen, Nat.add_mul] at hend ⊢
  omega

/-- The operands of a transpose that has passed its checks (R191). -/
theorem checkXpose_none (h : checkXpose cfg q = none) : q.larg1.toNat = q.channels * Config.blockFrames ∧
    q.larg0.toNat + ibLen q ≤ cfg.memSize ∧ q.larg2.toNat + tbLen q ≤ cfg.memSize := by
  simp only [checkXpose, firstError_none, List.forall_mem_cons, Bool.not_eq_false', bne_eq_false_iff_eq, fitsMem,
    decide_eq_true_eq] at h
  obtain ⟨-, hlen, -, hib, -, htb, -⟩ := h
  exact ⟨hlen, hib, htb⟩

end

/-! ## Where a memory event may reach (R70) -/

/-- Where the executing port is sound and its engine stands inside its command, the bytes [x, x+n) lie in MEM. -/
def State.Reaches (s : State) (x n : Nat) : Prop :=
  s.here.Sound s.cfg → engineInside s.cfg s.here = true → x + n ≤ s.cfg.memSize

section
variable {s : State} {i : Instr}

/-- The index words of a ring command's segment lie in MEM (R47). -/
theorem reaches_indexWord (hi : ringCommand i = true) (hc : s.here.command? = some i) (hp : s.here.pos.passed = true)
    {x : Nat} (hx : x = s.here.wiAddr ∨ x = s.here.riAddr) : s.Reaches x 4 := by
  intro hs _
  obtain ⟨-, hend⟩ := hs.segment_inside (bound_of_check hi (hs.checked hc hp).1)
  simp only [Port.segLen, segBytes, Config.headerSize] at hend
  rcases hx with rfl | rfl
  all_goals simp only [Port.wiAddr, Port.riAddr]; omega

/-- The index words that a BIND with INIT clears lie in its segment (R111, R113). -/
theorem reaches_init {kind : BitVec 4} {proto : BitVec 2} {role : Role} {init : Bool}
    (hc : s.here.command? = some (.bind kind proto role init)) (hp : s.here.pos.passed = true) :
    s.Reaches s.here.larg0.toNat 4 ∧ s.Reaches (s.here.larg0.toNat + 4) 4 := by
  have key : s.here.Sound s.cfg → s.here.larg0.toNat + 8 ≤ s.cfg.memSize := fun hs => by
    have hbind := checkBind_none (hs.checked hc hp).1
    have hfits := hbind.fits
    have hlen := hbind.length
    omega
  exact ⟨fun hs _ => by have := key hs; omega, fun hs _ => key hs⟩

/-- A valid slot lies in the segment, and so in MEM (R47, R111). -/
theorem slot_inside {cfg : Config} {q : Port} (hs : q.Sound cfg) (hb : q.bound = true) {x n : Nat}
    (hx : x < q.nslots) (hn : n ≤ q.esize) : slotAddr q.base q.esize x + n ≤ cfg.memSize := by
  obtain ⟨-, hend⟩ := hs.segment_inside hb
  have hslot := (slotAddr_inside q.base q.esize q.nslots x hx).2
  simp only [Port.segLen] at hend
  omega

/-- The slot of element `k` of a transfer is one of the ring's (R132). -/
theorem splitSlot_lt {S i n k : Nat} (hi : i < S) (hn : n ≤ S - 1) (hk : k < n) : splitSlot S i n k < S := by
  rw [splitSlot_eq_mod S i n k hi hn hk]
  exact Nat.mod_lt _ (by omega)

theorem availRead_lt {S rd wr : Nat} (h : 0 < S) : availRead S rd wr < S := Nat.mod_lt _ h

/-- No transfer moves more elements than the ring can hold (R130). -/
theorem pushCount_le (q : Port) : pushCount q ≤ q.nslots - 1 :=
  (min_le_left _ _).trans (by unfold Port.writable availWrite; omega)

theorem popCount_le {q : Port} (h : 0 < q.nslots) : popCount q ≤ q.nslots - 1 :=
  (min_le_left _ _).trans (Nat.le_sub_one_of_lt (availRead_lt h))

theorem pushCount_le_len (q : Port) : pushCount q ≤ q.larg1.toNat := min_le_right _ _

theorem popCount_le_len (q : Port) : popCount q ≤ q.larg1.toNat := min_le_right _ _

/-- Where the engine stands at a copy, the copy exists, and between its two events the engine holds its bytes (R9). -/
theorem engineInside_copy {cfg : Config} {q : Port} {k : Nat} (hc : q.command? = some i)
    (h : engineInside cfg q = true) :
    (q.pos = .copyRead k → k < copyCount i q) ∧
      (q.pos = .copyWrite k → k < copyCount i q ∧ q.elem.length = copyBytes i q) ∧
      (q.pos = .copyRead k ∨ q.pos = .copyWrite k → readsTable i = true → tableOk cfg q q.channels = true) := by
  refine ⟨fun hp => ?_, fun hp => ?_, fun hp hr => ?_⟩
  · simp only [engineInside, hp, hc, Bool.and_eq_true, decide_eq_true_eq] at h
    exact h.1
  · simp only [engineInside, hp, hc, Bool.and_eq_true, decide_eq_true_eq, beq_iff_eq] at h
    exact ⟨h.1.1, h.2⟩
  · rcases hp with hp | hp
    all_goals
      simp only [engineInside, hp, hc, hr, Bool.and_eq_true, Bool.not_true, Bool.false_or] at h
    · exact h.2
    · exact h.1.2

/-- The slot of copy `k` of a producer transfer (R140). -/
theorem pushSlot_inside {cfg : Config} {q : Port} {k : Nat} (hi : i = .push ∨ i = .aenq) (hs : q.Sound cfg)
    (hc : q.command? = some i) (hp : q.pos = .copyWrite k) (hk : k < pushCount q) :
    pushSlot q (copyBytes i q) k + copyBytes i q ≤ cfg.memSize := by
  have hring : ringCommand i = true ∧ loadsIndices i = true := by rcases hi with rfl | rfl <;> exact ⟨rfl, rfl⟩
  obtain ⟨hcheck, hvalid⟩ := hs.checked hc (by rw [hp]; rfl)
  obtain ⟨-, hlwr⟩ := hvalid hring.2 (by rw [hp]; rfl)
  obtain ⟨hbytes, -⟩ := transfer_checked (by tauto) hs hcheck
  rw [hbytes]
  exact slot_inside hs (bound_of_check hring.1 hcheck) (splitSlot_lt hlwr (pushCount_le q) hk) le_rfl

/-- The slot of copy `k` of a consumer transfer (R145). -/
theorem popSlot_inside {cfg : Config} {q : Port} {k : Nat} (hi : i = .pop ∨ i = .adeq) (hs : q.Sound cfg)
    (hc : q.command? = some i) (hp : q.pos = .copyRead k) (hk : k < popCount q) :
    popSlot q (copyBytes i q) k + copyBytes i q ≤ cfg.memSize := by
  have hring : ringCommand i = true ∧ loadsIndices i = true := by rcases hi with rfl | rfl <;> exact ⟨rfl, rfl⟩
  obtain ⟨hcheck, hvalid⟩ := hs.checked hc (by rw [hp]; rfl)
  obtain ⟨hlrd, -⟩ := hvalid hring.2 (by rw [hp]; rfl)
  obtain ⟨hbytes, -⟩ := transfer_checked (by tauto) hs hcheck
  rw [hbytes]
  exact slot_inside hs (bound_of_check hring.1 hcheck)
    (splitSlot_lt hlrd (popCount_le (Nat.zero_lt_of_lt hlrd)) hk) le_rfl

/-- Element `k` of the buffer of a ring transfer (R100). -/
theorem buffer_inside {cfg : Config} {q : Port} {k : Nat} (hi : i = .push ∨ i = .pop ∨ i = .aenq ∨ i = .adeq)
    (hs : q.Sound cfg) (hc : q.command? = some i) (hp : q.pos.passed = true) (hk : k < q.larg1.toNat) :
    bufferAddr q (copyBytes i q) (copyOffset i q + k) + copyBytes i q ≤ cfg.memSize := by
  have hring : ringCommand i = true := by rcases hi with rfl | rfl | rfl | rfl <;> rfl
  obtain ⟨hcheck, -⟩ := hs.checked hc hp
  obtain ⟨hbytes, hbuffer⟩ := transfer_checked hi hs hcheck
  have hpos := (hs.segment_inside (bound_of_check hring hcheck)).1
  exact bufferAddr_inside hbuffer (hbytes ▸ hpos) hk

/-- Byte `k` of a record that starts at a valid index of a ring with at least five of them free or filled (R180). -/
theorem recordSlot_inside {cfg : Config} {q : Port} {x k : Nat} (hs : q.Sound cfg) (hb : q.bound = true)
    (hx : x < q.nslots) (hn : Config.recordSize ≤ q.nslots - 1) (hk : k < Config.recordSize) :
    recordSlot q x k + 1 ≤ cfg.memSize :=
  slot_inside hs hb (splitSlot_lt hx hn hk) (hs.segment_inside hb).1

theorem reaches_recordWrite {pidx : BitVec 8} {k : Nat} (hc : s.here.command? = some (.penq pidx))
    (hp : s.here.pos = .recordWrite k) : s.Reaches (recordSlot s.here s.here.lwr.toNat k) 1 := by
  intro hs hin
  obtain ⟨hcheck, hvalid⟩ := hs.checked hc (by rw [hp]; rfl)
  obtain ⟨-, hlwr⟩ := hvalid rfl (by rw [hp]; rfl)
  simp only [engineInside, hp, Bool.and_eq_true, decide_eq_true_eq] at hin
  exact recordSlot_inside hs (bound_of_check rfl hcheck) hlwr
    (hin.2.trans (by unfold Port.writable availWrite; omega)) hin.1

theorem reaches_recordRead {k : Nat} (hc : s.here.command? = some .pdeq)
    (hp : s.here.pos = .recordRead k) : s.Reaches (recordSlot s.here s.here.lrd.toNat k) 1 := by
  intro hs hin
  obtain ⟨hcheck, hvalid⟩ := hs.checked hc (by rw [hp]; rfl)
  obtain ⟨hlrd, -⟩ := hvalid rfl (by rw [hp]; rfl)
  simp only [engineInside, hp, Bool.and_eq_true, decide_eq_true_eq] at hin
  obtain ⟨⟨hk, havail⟩, -⟩ := hin
  exact recordSlot_inside hs (bound_of_check rfl hcheck) hlrd
    (havail.trans (Nat.le_sub_one_of_lt (availRead_lt (Nat.zero_lt_of_lt hlrd)))) hk

/-- The table of a transpose lies in MEM (R191). -/
theorem reaches_table {c : Nat} (hi : check i s.cfg s.here = checkXpose s.cfg s.here)
    (hc : s.here.command? = some i) (hp : s.here.pos = .tableRead c) : s.Reaches (tableAddr s.here c) 4 := by
  intro hs hin
  obtain ⟨-, -, htable⟩ := checkXpose_none (hi ▸ (hs.checked hc (by rw [hp]; rfl)).1)
  simp only [engineInside, hp, Bool.and_eq_true, decide_eq_true_eq] at hin
  simp only [tbLen] at htable
  simp only [tableAddr]
  omega

/-- A sample of the interleaved buffer lies in MEM (R191). -/
theorem interleaved_inside {cfg : Config} {q : Port} {j c : Nat} (h : checkXpose cfg q = none)
    (hj : j < Config.blockFrames) (hc : c < q.channels) : interleavedAddr q j c + 4 ≤ cfg.memSize := by
  obtain ⟨hlen, hib, -⟩ := checkXpose_none h
  have hrow := mul_add_le_mul j Config.blockFrames q.channels hj
  rw [Nat.mul_comm Config.blockFrames] at hrow
  simp only [ibLen] at hib
  simp only [interleavedAddr]
  omega

/-- A sample of a channel whose pointer has passed its checks lies in MEM (R191). -/
theorem planar_inside {cfg : Config} {q : Port} {j c : Nat} (h : tableOk cfg q q.channels = true)
    (hj : j < Config.blockFrames) (hc : c < q.channels) : planarAddr q j c + 4 ≤ cfg.memSize := by
  simp only [tableOk, Bool.and_eq_true, beq_iff_eq, List.all_eq_true, Option.isNone_iff_eq_none] at h
  obtain ⟨hlen, hall⟩ := h
  have hmem : q.table.getD c 0 ∈ q.table := by
    rw [List.getD_eq_getElem?_getD, List.getElem?_eq_getElem (hlen ▸ hc), Option.getD_some]
    exact List.getElem_mem _
  have hfits := ((checkPointer_none cfg _).mp (hall _ hmem)).2
  simp only [planarAddr, Port.pointer]
  simp only [Config.blockFrames] at hj
  omega

end

/-! ## What a micro-step does to MEM and to the record (R66 to R68, R74) -/

/-- MEM and the ordering record after one micro-step of the executing port: it makes no memory event, or one, and the
event lies in MEM (R68, R70). -/
inductive MicroEffect (s : State) : Memory → Order → Prop
  /-- No memory event: a check, or nothing. -/
  | none : MicroEffect s s.mem s.order
  /-- The command ended (R94, R203). -/
  | ended : MicroEffect s s.mem (s.order.finish s.cur)
  /-- A data read (R67), a table read (R191). -/
  | read (kind : EventKind) (x n : Nat) (hk : kind.isWrite = false) (hx : s.Reaches x n) :
      MicroEffect s s.mem (s.order.record s.agent kind x n)
  /-- An AtomicLoad32 (R66). -/
  | load (x : Nat) (hx : s.Reaches x 4) : MicroEffect s s.mem (s.order.loaded s.agent x)
  /-- A data write (R67). -/
  | write (x : Nat) (bs : List Byte) (hx : s.Reaches x bs.length) :
      MicroEffect s (s.mem.writeBytes x bs) ((s.order.record s.agent .write x bs.length).overwrite x bs.length)
  /-- An AtomicStore32 (R66, R113). -/
  | store (kind : EventKind) (x : Nat) (bs : List Byte) (hb : bs.length = 4) (hx : s.Reaches x 4) :
      MicroEffect s (s.mem.writeBytes x bs) ((s.order.record s.agent kind x 4).publish s.agent x)

/-- From `s` to `t` MEM and the record change as one micro-step of the executing port of `s` changes them. -/
abbrev Affects (s t : State) : Prop := MicroEffect s t.mem t.order

section
variable {s : State} {i : Instr}

theorem affects_decodeStep (r : Option (ErrCode × Word)) (pos : EnginePos) : Affects s (s.decodeStep r pos) := by
  rw [Affects, State.decodeStep_mem, State.decodeStep_order]
  exact .none

theorem affects_finishStep (q : Port) : Affects s (s.finishStep q) := .ended

theorem affects_raise (e : ErrCode) (info : Word) : Affects s (s.raise e info) := .ended

theorem affects_loadRdStep (hx : s.Reaches s.here.riAddr 4) : Affects s s.loadRdStep := .load _ hx

theorem affects_loadWrStep {next : Port → EnginePos} (hx : s.Reaches s.here.wiAddr 4) :
    Affects s (s.loadWrStep next) := by
  rw [Affects, State.loadWrStep_mem, State.loadWrStep_order]
  exact .load _ hx

theorem affects_copyReadStep {x n : Nat} {pos : EnginePos} (hx : s.Reaches x n) :
    Affects s (s.copyReadStep x n pos) := .read .read _ _ rfl hx

theorem affects_writeEvent {x : Nat} {f : Nat → Bool} {bs : List Byte} (hx : s.Reaches x bs.length) :
    Affects s (s.writeEvent s.agent x f bs) := by
  have h := MicroEffect.write (s := s) x (s.landedBytes x (fun m => f m || s.order.racy s.agent m) bs)
    (by rw [State.landedBytes_length]; exact hx)
  rwa [State.landedBytes_length] at h

theorem affects_copyWriteStep {x : Nat} {f : Nat → Bool} {pos : EnginePos} (hx : s.Reaches x s.here.elem.length) :
    Affects s (s.copyWriteStep x f pos) := affects_writeEvent hx

theorem affects_storeEvent {x : Nat} {kind : EventKind} {f : Nat → Bool} {v : Word} (hx : s.Reaches x 4) :
    Affects s (s.storeEvent s.agent x kind f v) := .store kind x _ (State.landedBytes_length ..) hx

theorem affects_publishStep {x v : Nat} (hx : s.Reaches x 4) : Affects s (s.publishStep x v) := affects_storeEvent hx

/-! ## Every command's micro-steps (R93) -/

theorem affects_eventless (hi : i = .nop ∨ i = .capacity ∨ ∃ kind, i = .size kind) : Affects s (micro i s) := by
  rcases hi with rfl | rfl | ⟨kind, rfl⟩
  all_goals
    simp only [micro, microNop, microCapacity, microSize]
    split
    next => exact affects_decodeStep _ _
    next => exact affects_finishStep _
    next => exact affects_raise _ _
    all_goals exact .none

theorem affects_bind {kind : BitVec 4} {proto : BitVec 2} {role : Role} {init : Bool}
    (hc : s.here.command? = some (.bind kind proto role init)) : Affects s (microBind kind proto role init s) := by
  unfold microBind
  split
  next => exact affects_decodeStep _ _
  next hp => exact affects_storeEvent (reaches_init hc (by rw [hp]; rfl)).1
  next hp => exact affects_storeEvent (reaches_init hc (by rw [hp]; rfl)).2
  next => exact affects_finishStep _
  next => exact affects_raise _ _
  all_goals exact .none

/-- The commands that load the indices and then finish (R150, R160). -/
theorem affects_loadAndFinish (hi : i = .empty ∨ i = .full ∨ i = .availRead ∨ i = .availWrite ∨ i = .wspanAcq)
    (hc : s.here.command? = some i) : Affects s (micro i s) := by
  have hring : ringCommand i = true := by rcases hi with rfl | rfl | rfl | rfl | rfl <;> rfl
  have hword := fun hp x => reaches_indexWord (x := x) hring hc hp
  rcases hi with rfl | rfl | rfl | rfl | rfl
  all_goals
    simp only [micro, microEmpty, microFull, microAvailRead, microAvailWrite, microIndexQuery, microWspanAcq]
    split
    next => exact affects_decodeStep _ _
    next hp => exact affects_loadRdStep (hword (by rw [hp]; rfl) _ (.inr rfl))
    next hp => exact affects_loadWrStep (hword (by rw [hp]; rfl) _ (.inl rfl))
    next => exact affects_finishStep _
    next => exact affects_raise _ _
    all_goals exact .none

theorem affects_wspanCommit {dflt : Bool} (hc : s.here.command? = some (.wspanCommit dflt)) :
    Affects s (microWspanCommit dflt s) := by
  unfold microWspanCommit
  split
  next => exact affects_decodeStep _ _
  next hp => exact affects_publishStep (reaches_indexWord rfl hc (by rw [hp]; rfl) (.inl rfl))
  next => exact affects_finishStep _
  next => exact affects_raise _ _
  all_goals exact .none

/-- The producer transfers read their buffer and write slots (R140, R171). -/
theorem affects_push (hi : i = .push ∨ i = .aenq) (hc : s.here.command? = some i) (failed : Option (ErrCode × Word)) :
    Affects s (microPushBody failed (copyBytes i s.here) (copyOffset i s.here) s) := by
  have hring : ringCommand i = true := by rcases hi with rfl | rfl <;> rfl
  have hcount : copyCount i s.here = pushCount s.here := by rcases hi with rfl | rfl <;> rfl
  have hword := fun hp x => reaches_indexWord (x := x) hring hc hp
  unfold microPushBody
  split
  next => exact affects_decodeStep _ _
  next hp => exact affects_loadRdStep (hword (by rw [hp]; rfl) _ (.inr rfl))
  next hp => exact affects_loadWrStep (hword (by rw [hp]; rfl) _ (.inl rfl))
  next k hp =>
    refine affects_copyReadStep fun hs hin => ?_
    have hk := (engineInside_copy hc hin).1 hp
    exact buffer_inside (by tauto) hs hc (by rw [hp]; rfl) (lt_of_lt_of_le (hcount ▸ hk) (pushCount_le_len _))
  next k hp =>
    refine affects_copyWriteStep fun hs hin => ?_
    obtain ⟨hk, hlen⟩ := (engineInside_copy hc hin).2.1 hp
    rw [hlen]
    exact pushSlot_inside hi hs hc hp (hcount ▸ hk)
  next hp => exact affects_publishStep (hword (by rw [hp]; rfl) _ (.inl rfl))
  next => exact affects_finishStep _
  next => exact affects_raise _ _
  all_goals exact .none

/-- The consumer transfers read slots and write their buffer (R145, R172). -/
theorem affects_pop (hi : i = .pop ∨ i = .adeq) (hc : s.here.command? = some i) (failed : Option (ErrCode × Word)) :
    Affects s (microPopBody failed (copyBytes i s.here) (copyOffset i s.here) s) := by
  have hring : ringCommand i = true := by rcases hi with rfl | rfl <;> rfl
  have hcount : copyCount i s.here = popCount s.here := by rcases hi with rfl | rfl <;> rfl
  have hword := fun hp x => reaches_indexWord (x := x) hring hc hp
  unfold microPopBody
  split
  next => exact affects_decodeStep _ _
  next hp => exact affects_loadRdStep (hword (by rw [hp]; rfl) _ (.inr rfl))
  next hp => exact affects_loadWrStep (hword (by rw [hp]; rfl) _ (.inl rfl))
  next k hp =>
    refine affects_copyReadStep fun hs hin => ?_
    have hk := (engineInside_copy hc hin).1 hp
    exact popSlot_inside hi hs hc hp (hcount ▸ hk)
  next k hp =>
    refine affects_copyWriteStep fun hs hin => ?_
    obtain ⟨hk, hlen⟩ := (engineInside_copy hc hin).2.1 hp
    rw [hlen]
    exact buffer_inside (by tauto) hs hc (by rw [hp]; rfl) (lt_of_lt_of_le (hcount ▸ hk) (popCount_le_len _))
  next hp => exact affects_publishStep (hword (by rw [hp]; rfl) _ (.inr rfl))
  next => exact affects_finishStep _
  next => exact affects_raise _ _
  all_goals exact .none

theorem affects_penq {pidx : BitVec 8} (hc : s.here.command? = some (.penq pidx)) : Affects s (microPenq pidx s) := by
  have hword := fun hp x => reaches_indexWord (x := x) rfl hc hp
  unfold microPenq
  split
  next => exact affects_decodeStep _ _
  next hp => exact affects_loadRdStep (hword (by rw [hp]; rfl) _ (.inr rfl))
  next hp => exact affects_loadWrStep (hword (by rw [hp]; rfl) _ (.inl rfl))
  next hp => exact affects_writeEvent (reaches_recordWrite hc hp)
  next hp => exact affects_publishStep (hword (by rw [hp]; rfl) _ (.inl rfl))
  next => exact affects_finishStep _
  next => exact affects_raise _ _
  all_goals exact .none

theorem affects_pdeq (hc : s.here.command? = some .pdeq) : Affects s (microPdeq s) := by
  have hword := fun hp x => reaches_indexWord (x := x) rfl hc hp
  unfold microPdeq
  split
  next => exact affects_decodeStep _ _
  next hp => exact affects_loadRdStep (hword (by rw [hp]; rfl) _ (.inr rfl))
  next hp => exact affects_loadWrStep (hword (by rw [hp]; rfl) _ (.inl rfl))
  next hp => exact .read .read _ _ rfl (reaches_recordRead hc hp)
  next hp => exact affects_publishStep (hword (by rw [hp]; rfl) _ (.inr rfl))
  next => exact affects_finishStep _
  next => exact affects_raise _ _
  all_goals exact .none

/-- The places of copy `k` of a transpose exist: DEINT goes channel by channel, INTER frame by frame (R192, R193). -/
theorem xposeCopy_inside {k n : Nat} (h : k < Config.blockFrames * n) :
    (k % Config.blockFrames < Config.blockFrames ∧ k / Config.blockFrames < n) ∧
      k / n < Config.blockFrames ∧ k % n < n := by
  have hn : 0 < n := Nat.pos_of_mul_pos_left (Nat.zero_lt_of_lt h)
  exact ⟨⟨Nat.mod_lt _ (by decide), Nat.div_lt_of_lt_mul h⟩, Nat.div_lt_of_lt_mul (by rwa [Nat.mul_comm]),
    Nat.mod_lt _ hn⟩

theorem affects_deint (hc : s.here.command? = some .deint) : Affects s (microDeint s) := by
  unfold microDeint
  split
  next => exact affects_decodeStep _ _
  next hp => exact .read .table _ _ rfl (reaches_table rfl hc hp)
  next k hp =>
    refine affects_copyReadStep fun hs hin => ?_
    obtain ⟨⟨hj, hk⟩, -⟩ := xposeCopy_inside ((engineInside_copy hc hin).1 hp)
    exact interleaved_inside (hs.checked hc (by rw [hp]; rfl)).1 hj hk
  next k hp =>
    refine affects_copyWriteStep fun hs hin => ?_
    obtain ⟨hcount, hlen⟩ := (engineInside_copy hc hin).2.1 hp
    obtain ⟨⟨hj, hk⟩, -⟩ := xposeCopy_inside hcount
    rw [hlen]
    exact planar_inside ((engineInside_copy hc hin).2.2 (.inr hp) rfl) hj hk
  next => exact affects_finishStep _
  next => exact affects_raise _ _
  all_goals exact .none

theorem affects_inter (hc : s.here.command? = some .inter) : Affects s (microInter s) := by
  unfold microInter
  split
  next => exact affects_decodeStep _ _
  next hp => exact .read .table _ _ rfl (reaches_table rfl hc hp)
  next k hp =>
    refine affects_copyReadStep fun hs hin => ?_
    obtain ⟨-, hj, hk⟩ := xposeCopy_inside ((engineInside_copy hc hin).1 hp)
    exact planar_inside ((engineInside_copy hc hin).2.2 (.inl hp) rfl) hj hk
  next k hp =>
    refine affects_copyWriteStep fun hs hin => ?_
    obtain ⟨hcount, hlen⟩ := (engineInside_copy hc hin).2.1 hp
    obtain ⟨-, hj, hk⟩ := xposeCopy_inside hcount
    rw [hlen]
    exact interleaved_inside (hs.checked hc (by rw [hp]; rfl)).1 hj hk
  next => exact affects_finishStep _
  next => exact affects_raise _ _
  all_goals exact .none

/-- One micro-step of the port's command, from wherever its engine stands (R93). -/
theorem affects_micro (hc : s.here.command? = some i) : Affects s (micro i s) := by
  cases i with
  | nop | capacity | size => exact affects_eventless (by simp)
  | bind kind proto role init => exact affects_bind hc
  | empty | full | availRead | availWrite | wspanAcq => exact affects_loadAndFinish (by simp) hc
  | push => exact affects_push (by simp) hc _
  | aenq => exact affects_push (by simp) hc _
  | pop => exact affects_pop (by simp) hc _
  | adeq => exact affects_pop (by simp) hc _
  | wspanCommit dflt => exact affects_wspanCommit hc
  | penq pidx => exact affects_penq hc
  | pdeq => exact affects_pdeq hc
  | deint => exact affects_deint hc
  | inter => exact affects_inter hc

end

/-- One micro-step of a port, an illegal word's too (R93, R96). -/
theorem affects_portMicro (s : State) : Affects s (portMicro s) := by
  unfold portMicro
  split
  next hc => exact affects_micro hc
  next =>
    unfold microIllegal
    split
    next => exact affects_decodeStep _ _
    next => exact affects_raise _ _
    all_goals exact .none

/-! ## No event of a port leaves MEM (R46, R70, R72) -/

/-- The newest memory event, where there is one. -/
theorem newEvent_of_cons {s t : State} {f : MemEvent} (h : t.order.trace = f :: s.order.trace) :
    newEvent s t = some f := by
  simp [newEvent, h]

theorem newEvent_of_same {s t : State} (h : t.order.trace = s.order.trace) : newEvent s t = none := by
  unfold newEvent
  rw [h]
  cases s.order.trace <;> simp

/-- A micro-step makes an event inside MEM and writes inside MEM, where the port is sound (R70). -/
theorem Affects.inside {s t : State} (h : Affects s t) (hs : s.here.Sound s.cfg)
    (hin : engineInside s.cfg s.here = true) :
    (∀ e, newEvent s t = some e → e.addr + e.len ≤ s.cfg.memSize) ∧
      ∀ a, s.cfg.memSize ≤ a → t.mem.read a = s.mem.read a := by
  have hwritten : ∀ x bs, x + bs.length ≤ s.cfg.memSize → ∀ a, s.cfg.memSize ≤ a →
      (s.mem.writeBytes x bs).read a = s.mem.read a := fun x bs hx a ha =>
    Memory.read_writeBytes_outside _ _ _ _ (.inr (hx.trans ha))
  have hevent : ∀ f : MemEvent, t.order.trace = f :: s.order.trace → f.addr + f.len ≤ s.cfg.memSize →
      ∀ e, newEvent s t = some e → e.addr + e.len ≤ s.cfg.memSize := fun f hf hx e he => by
    cases (newEvent_of_cons hf).symm.trans he
    exact hx
  have hquiet : t.order.trace = s.order.trace → ∀ e, newEvent s t = some e → e.addr + e.len ≤ s.cfg.memSize :=
    fun hf e he => by cases (newEvent_of_same hf).symm.trans he
  unfold Affects at h
  generalize hm : t.mem = m at h ⊢
  generalize ho : t.order = o at h
  cases h with
  | none => exact ⟨hquiet (by rw [ho]), fun _ _ => rfl⟩
  | ended => exact ⟨hquiet (by rw [ho]; rfl), fun _ _ => rfl⟩
  | read kind x n hk hx => exact ⟨hevent _ (by rw [ho]; rfl) (hx hs hin), fun _ _ => rfl⟩
  | load x hx => exact ⟨hevent _ (by rw [ho, Order.loaded_trace]; rfl) (hx hs hin), fun _ _ => rfl⟩
  | write x bs hx => exact ⟨hevent _ (by rw [ho]; rfl) (hx hs hin), hwritten x bs (hx hs hin)⟩
  | store kind x bs hb hx => exact ⟨hevent _ (by rw [ho]; rfl) (hx hs hin), hwritten x bs (hb ▸ hx hs hin)⟩

/-- Settles O23: the address of every memory event, command by command. -/
theorem portsStayInsideMem : Obligations.PortsStayInsideMem := by
  intro s hports hengines _
  obtain ⟨-, hsound⟩ := (portsOk_iff s).mp hports
  exact (affects_portMicro s).inside (hsound s.cur) ((enginesSound_of_portsOk hports hengines).port s.cur).1

/-! ## The changes of MEM and of the record that every step is made of -/

/-- Both records are the same but for what is foreseen (R77). -/
def Order.SameRecord (o o' : Order) : Prop := ∃ f l, o' = { o with foreseen := f, plan := l }

theorem Order.SameRecord.refl (o : Order) : o.SameRecord o := ⟨o.foreseen, o.plan, rfl⟩

/-- `P` speaks of MEM, the ordering record and the number of ports, and each elementary change of these keeps it: a
micro-step of a port, an access of the host to MEM, an accepted CMD write, a read of STATUS with BUSY = 0, and RST. -/
structure KeptRecord (P : State → Prop) : Prop where
  aside : ∀ s, P s → ∀ t : State, t.mem = s.mem → s.order.SameRecord t.order → t.ports.length = s.ports.length → P t
  micro : ∀ s, s.cur < s.ports.length → P s → P (portMicro s)
  hostRead : ∀ s x n, P s → P (s.readEvent hostAgent .read x n)
  hostWrite : ∀ s x f bs, P s → P (s.writeEvent hostAgent x f bs)
  accepted : ∀ s p b, P s → P { s with order := s.order.accept p b }
  seen : ∀ s p, P s → P { s with order := s.order.seen p }
  rst : ∀ s, P s → P s.rst

section
variable {P : State → Prop} {s t : State}

theorem KeptRecord.port (K : KeptRecord P) {u : State} (hs : P s) (hm : u.mem = s.mem) (ho : u.order = s.order)
    (hl : u.ports.length = s.ports.length) : P u :=
  K.aside s hs u hm (ho ▸ Order.SameRecord.refl _) hl

theorem KeptRecord.guardedMicro (K : KeptRecord P) (hc : s.cur < s.ports.length) (h : guardedMicro s = .next t)
    (hs : P s) : P t := by
  unfold Machine.guardedMicro at h
  split at h
  · exact absurd h (Stop.outcome_ne_next _ t)
  · cases h; exact K.micro s hc hs

theorem KeptRecord.runHere (K : KeptRecord P) (hc : s.cur < s.ports.length) (h : runHere s = .next t) (hs : P s) :
    P t := by
  unfold Machine.runHere at h
  split at h
  · exact absurd h (Stop.outcome_ne_next _ t)
  · rw [execHere_eq] at h
    cases h
    refine (runPort_induct portMicro (fun u => u.cur < u.ports.length ∧ P u) ?_ _ s ⟨hc, hs⟩).2
    rintro u ⟨hcu, hu⟩
    exact ⟨(moved_portMicro u).1.exists hcu, K.micro u hcu hu⟩

theorem KeptRecord.writeCmd (K : KeptRecord P) (hs : P s) (p : Nat) (w : Word) : P (s.writeCmd p w) := by
  unfold State.writeCmd
  split
  · exact K.port hs rfl rfl (List.length_set ..)
  · exact K.accepted _ p _ (K.port hs (u := s.setPort p _) rfl rfl (List.length_set ..))

theorem KeptRecord.writeReg (K : KeptRecord P) (hs : P s) (off : Nat) (v : Word) : P (s.writeReg off v) := by
  unfold State.writeReg
  split
  · exact hs
  · split
    · split
      · exact K.writeCmd hs _ v
      · exact K.port hs rfl rfl (List.length_set ..)
    · exact hs

theorem KeptRecord.afterRead (K : KeptRecord P) (hs : P s) (off : Nat) : P (s.afterRead off) := by
  unfold State.afterRead
  refine K.port (s := if _ then _ else _) ?_ rfl rfl rfl
  split
  · unfold State.seeStatus
    split
    · exact hs
    · exact K.seen s _ hs
  · exact hs

theorem KeptRecord.seenIdle (K : KeptRecord P) (hs : P s) (p : Nat) : P (s.seenIdle p) :=
  K.port (K.seen s p hs) rfl rfl rfl

theorem KeptRecord.moveAbsentStatus (K : KeptRecord P) {p : Nat} (h : moveAbsentStatus s p = .next t) (hs : P s) :
    P t := by
  unfold Machine.moveAbsentStatus at h
  split at h
  · cases h; exact K.afterRead hs _
  · cases h

theorem KeptRecord.moveRegRead (K : KeptRecord P) {addr width : Nat} (h : moveRegRead s addr width = .next t)
    (hs : P s) : P t := by
  unfold Machine.moveRegRead at h
  split at h
  · cases h
  · split at h
    · cases h
    · cases h; exact K.afterRead hs _

theorem KeptRecord.moveRegWrite (K : KeptRecord P) {addr width : Nat} {v : Word}
    (h : moveRegWrite s addr width v = .next t) (hs : P s) : P t := by
  unfold Machine.moveRegWrite at h
  split at h
  · cases h
  · split at h
    · cases h
    · cases h; exact K.writeReg hs _ v

theorem KeptRecord.moveMemRead (K : KeptRecord P) {addr n : Nat} (h : moveMemRead s addr n = .next t) (hs : P s) :
    P t := by
  unfold Machine.moveMemRead at h
  split at h
  · cases h; exact K.port (K.hostRead s addr n hs) rfl rfl rfl
  · cases h

/-- A host write that completes is its event (R62). -/
theorem moveMemWrite_next {addr : Nat} {bs : List Byte} (h : moveMemWrite s addr bs = .next t) :
    t = s.writeEvent hostAgent addr (hostOpen s) bs := by
  unfold moveMemWrite at h
  simp only at h
  split at h
  · split at h
    · exact absurd h (Stop.outcome_ne_next _ t)
    · cases h; rfl
  · cases h; rfl

theorem KeptRecord.movePortStep (K : KeptRecord P) {p : Nat} (h : movePortStep s p = .next t) (hs : P s) : P t := by
  unfold Machine.movePortStep at h
  split at h
  next hp => exact K.guardedMicro (s := { s with cur := p }) hp h (K.port hs rfl rfl rfl)
  · cases h; exact hs

theorem KeptRecord.moveRun (K : KeptRecord P) {p : Nat} (h : moveRun s p = .next t) (hs : P s) : P t := by
  unfold Machine.moveRun at h
  split at h
  next hp => exact K.runHere (s := { s with cur := p }) hp h (K.port hs rfl rfl rfl)
  · cases h; exact hs

theorem State.writeCmd_length (s : State) (p : Nat) (w : Word) : (s.writeCmd p w).ports.length = s.ports.length := by
  unfold State.writeCmd
  split
  all_goals exact List.length_set ..

theorem KeptRecord.moveCommand (K : KeptRecord P) {p : Nat} {w : Word} (h : moveCommand s p w = .next t) (hs : P s) :
    P t := by
  unfold Machine.moveCommand at h
  split at h
  next hp =>
    split at h
    · cases h; exact K.writeCmd hs p w
    · have hissued : P (s.issued p w) := K.port (K.writeCmd hs p w) rfl rfl rfl
      split at h
      next u hu => cases h; exact K.seenIdle (K.runHere (by rwa [← s.writeCmd_length p w] at hp) hu hissued) p
      · cases h
      · cases h
  · exact K.moveAbsentStatus h (K.writeReg hs _ w)

theorem KeptRecord.moveWait (K : KeptRecord P) {p : Nat} (h : moveWait s p = .next t) (hs : P s) : P t := by
  unfold Machine.moveWait at h
  split at h
  next hp =>
    split at h
    · exact K.guardedMicro (s := { s with cur := p, agenda := .wait p :: s.agenda }) hp h (K.port hs rfl rfl rfl)
    · cases h; exact K.seenIdle hs p
  · exact K.moveAbsentStatus h hs

theorem KeptRecord.move (K : KeptRecord P) {m : Move} (h : move s m = .next t) (hs : P s) : P t := by
  cases m with
  | regRead addr width => exact K.moveRegRead h hs
  | regWrite addr width v => exact K.moveRegWrite h hs
  | memRead addr n => exact K.moveMemRead h hs
  | memWrite addr bs => exact moveMemWrite_next h ▸ K.hostWrite s addr _ bs hs
  | portStep p => exact K.movePortStep h hs
  | run p => exact K.moveRun h hs
  | command p w => exact K.moveCommand h hs
  | wait p => exact K.moveWait h hs
  | rst => cases h; exact K.rst s hs

/-- What every elementary change keeps, every step of the machine keeps. -/
theorem KeptRecord.step (K : KeptRecord P) (h : step s = .next t) (hs : P s) : P t := by
  have hl : P s.lookAhead := K.aside s hs _ rfl ⟨_, _, rfl⟩ rfl
  unfold Machine.step act at h
  split at h
  · unfold idleMove at h
    split at h
    · exact K.movePortStep h hl
    · cases h; exact hl
  · exact K.move h (K.port hl rfl rfl rfl)

end

/-! ## The canonical form of MEM (R60, R66, R67) -/

theorem Affects.wf {s t : State} (h : Affects s t) (hs : s.mem.wf = true) : t.mem.wf = true := by
  unfold Affects at h
  generalize t.mem = m at h ⊢
  generalize t.order = o at h
  cases h with
  | none | ended | read | load => exact hs
  | write | store => exact Memory.wf_writeBytes _ _ _ hs

theorem keptRecord_memoryForm : KeptRecord (fun s => s.mem.wf = true) where
  aside _ h _ hm _ _ := hm ▸ h
  micro s _ h := (affects_portMicro s).wf h
  hostRead _ _ _ h := h
  hostWrite _ _ _ _ h := Memory.wf_writeBytes _ _ _ h
  accepted _ _ _ h := h
  seen _ _ h := h
  rst _ h := h

/-- Settles O18: every byte that a step writes goes through `Memory.write`. -/
theorem stepKeepsMemoryForm : Obligations.StepKeepsMemoryForm :=
  fun _ _ hs h => keptRecord_memoryForm.step h hs

/-! ## The soundness of the ordering record (R68, R74, R218) -/

/-- A clock of `n` entries that is ahead of no agent's `count` of its own events (R74). -/
structure Clock.Within (count : Nat → Nat) (n : Nat) (c : Clock) : Prop where
  length : c.length = n
  le : ∀ b, b < n → c.getD b 0 ≤ count b

/-- A clock of `n` entries that is ahead of no agent's own count in `o` (R74). -/
abbrev Order.Within (o : Order) (n : Nat) (c : Clock) : Prop := Clock.Within (fun b => o.time b b) n c

/-- What `orderOk` asks of the record of a machine with `n` agents, each clause by its name. -/
structure Order.Sound (n : Nat) (o : Order) : Prop where
  clocksLength : o.clocks.length = n
  finishedLength : o.finished.length = n - 1
  knownLength : o.known.length = n
  known : ∀ k ∈ o.known, k.length = n - 1
  counted : ∀ e ∈ o.trace, e.agent < n ∧ e.time ≤ o.time e.agent e.agent
  clocks : ∀ c ∈ o.clocks, o.Within n c
  finished : ∀ c ∈ o.finished, o.Within n c
  released : ∀ r ∈ o.released, o.Within n r.2

theorem orderOk_iff (s : State) : orderOk s = true ↔ s.order.Sound (s.ports.length + 1) := by
  simp only [orderOk, Bool.and_eq_true, beq_iff_eq, List.all_eq_true, decide_eq_true_eq, List.mem_range]
  constructor
  · rintro ⟨⟨⟨⟨⟨⟨⟨⟨h1, h2⟩, h3⟩, h4⟩, h5⟩, h6⟩, h7⟩, h8⟩, h9⟩
    exact ⟨h1, h3, h6, h7, h8, fun c hc => ⟨h2 c hc, fun b hb => (h9 b hb).1.1 c hc⟩,
      fun c hc => ⟨h4 c hc, fun b hb => (h9 b hb).1.2 c hc⟩, fun r hr => ⟨h5 r hr, fun b hb => (h9 b hb).2 r hr⟩⟩
  · rintro ⟨h1, h3, h6, h7, h8, hc, hf, hr⟩
    exact ⟨⟨⟨⟨⟨⟨⟨⟨h1, fun c h => (hc c h).length⟩, h3⟩, fun c h => (hf c h).length⟩, fun r h => (hr r h).length⟩, h6⟩,
      h7⟩, h8⟩, fun b hb => ⟨⟨fun c h => (hc c h).le b hb, fun c h => (hf c h).le b hb⟩, fun r h => (hr r h).le b hb⟩⟩

theorem Clock.join_length (c d : Clock) : (Clock.join c d).length = max c.length d.length := by
  induction c generalizing d with
  | nil => simp [Clock.join]
  | cons x xs ih =>
    cases d with
    | nil => simp [Clock.join]
    | cons y ys => simp only [Clock.join, List.length_cons, ih]; omega

section
variable {o o' : Order} {n a : Nat} {c d : Clock}

/-- What one clock may hold, another moment's record allows too, if no agent's count went back. -/
theorem Order.Within.mono (h : o.Within n c) (ht : ∀ b, b < n → o.time b b ≤ o'.time b b) : o'.Within n c :=
  ⟨h.length, fun b hb => (h.le b hb).trans (ht b hb)⟩

theorem Order.Within.join (hc : o.Within n c) (hd : d = [] ∨ o.Within n d) : o.Within n (Clock.join c d) := by
  rcases hd with rfl | hd
  · rwa [show Clock.join c [] = c by cases c <;> rfl]
  · refine ⟨by rw [Clock.join_length, hc.length, hd.length, max_self], fun b hb => ?_⟩
    rw [Clock.join_getD]
    exact max_le (hc.le b hb) (hd.le b hb)

theorem Order.Sound.clock (h : o.Sound n) (ha : a < n) : o.Within n (o.clock a) := by
  rw [Order.clock, List.getD_eq_getElem?_getD, List.getElem?_eq_getElem (h.clocksLength ▸ ha)]
  exact h.clocks _ (List.getElem_mem _)

/-- No agent knows more of another than the other's own count (R74). -/
theorem Order.Sound.time_le (h : o.Sound n) (ha : a < n) {b : Nat} (hb : b < n) : o.time a b ≤ o.time b b :=
  (h.clock ha).le b hb

theorem Order.Sound.release (h : o.Sound n) (x : Nat) : o.release x = [] ∨ o.Within n (o.release x) := by
  unfold Order.release
  cases hl : o.released.lookup x with
  | none => exact .inl rfl
  | some c =>
    obtain ⟨r, hr, rfl⟩ : ∃ r ∈ o.released, r.2 = c := by
      obtain ⟨l₁, l₂, h1, -⟩ := List.lookup_eq_some_iff.mp hl
      exact ⟨(x, c), by rw [h1]; simp, rfl⟩
    exact .inr (h.released r hr)

/-! Each change of the record (R66, R68, R74). -/

theorem Order.Sound.record (h : o.Sound n) (ha : a < n) (kind : EventKind) (x k : Nat) :
    (o.record a kind x k).Sound n := by
  have htime : ∀ b, (o.record a kind x k).time b b = if b = a then o.time a a + 1 else o.time b b := fun b => by
    rw [Order.time_record]
    have hlen := h.clocksLength
    have hclock := (h.clock ha).length
    by_cases hb : b = a
    · subst hb; rw [if_pos ⟨rfl, by omega, rfl, by omega⟩, if_pos rfl]
    · rw [if_neg (by tauto), if_neg hb]
  have hmono : ∀ b, b < n → o.time b b ≤ (o.record a kind x k).time b b := fun b _ => by
    rw [htime]; split
    · subst_vars; omega
    · exact le_rfl
  refine ⟨(List.length_set ..).trans h.clocksLength, h.finishedLength, h.knownLength, h.known, ?_, fun c hc => ?_,
    fun c hc => (h.finished c hc).mono hmono, fun r hr => (h.released r hr).mono hmono⟩
  · rw [Order.record_trace, List.forall_mem_cons]
    refine ⟨⟨ha, ?_⟩, fun e he => ⟨(h.counted e he).1, (h.counted e he).2.trans (hmono _ (h.counted e he).1)⟩⟩
    show o.time a a + 1 ≤ (o.record a kind x k).time a a
    rw [htime, if_pos rfl]
  · rcases List.mem_or_eq_of_mem_set hc with hc | rfl
    · exact (h.clocks c hc).mono hmono
    · refine ⟨(List.length_set ..).trans (h.clock ha).length, fun b hb => ?_⟩
      rw [htime, List.getD_eq_getElem?_getD, List.getElem?_set]
      split
      next hab =>
        subst hab
        rw [if_pos ((h.clock ha).length.symm ▸ hb), if_pos rfl]
        exact le_rfl
      next hab =>
        rw [if_neg (Ne.symm hab), ← List.getD_eq_getElem?_getD]
        exact h.time_le ha hb

theorem Order.Sound.learn (h : o.Sound n) (ha : a < n) (hc : c = [] ∨ o.Within n c) : (o.learn a c).Sound n := by
  have hmono : ∀ b, b < n → o.time b b ≤ (o.learn a c).time b b := fun b _ => Order.time_learn_le o a c b b
  refine ⟨(List.length_set ..).trans h.clocksLength, h.finishedLength, h.knownLength, h.known,
    fun e he => ⟨(h.counted e he).1, (h.counted e he).2.trans (hmono _ (h.counted e he).1)⟩, fun d hd => ?_,
    fun d hd => (h.finished d hd).mono hmono, fun r hr => (h.released r hr).mono hmono⟩
  rcases List.mem_or_eq_of_mem_set hd with hd | rfl
  · exact (h.clocks d hd).mono hmono
  · exact ((h.clock ha).join hc).mono hmono

theorem Order.Sound.acquire (h : o.Sound n) (ha : a < n) (x : Nat) : (o.acquire a x).Sound n :=
  h.learn ha (h.release x)

theorem Order.Sound.loaded (h : o.Sound n) (ha : a < n) (x : Nat) : (o.loaded a x).Sound n := by
  unfold Order.loaded
  split
  · exact (h.record ha _ _ _).acquire ha x
  · exact h.record ha _ _ _

theorem Order.Sound.publish (h : o.Sound n) (ha : a < n) (x : Nat) : (o.publish a x).Sound n :=
  { h with
    released := by
      rintro r hr
      rcases List.mem_cons.mp hr with rfl | hr
      · exact h.clock ha
      · exact h.released r (List.mem_filter.mp hr).1 }

theorem Order.Sound.overwrite (h : o.Sound n) (x k : Nat) : (o.overwrite x k).Sound n :=
  { h with released := fun r hr => h.released r (List.mem_filter.mp hr).1 }

theorem Order.Sound.finish (h : o.Sound n) {p : Nat} (hp : portAgent p < n) : (o.finish p).Sound n :=
  { h with
    finishedLength := (List.length_set ..).trans h.finishedLength
    finished := fun d hd => (List.mem_or_eq_of_mem_set hd).elim (h.finished d) fun hd => hd ▸ h.clock hp }

/-- Only what is known of the ports' being idle changes (R218). -/
theorem Order.Sound.knowing (h : o.Sound n) {k : List (List Known)} (hl : k.length = n) (hk : ∀ l ∈ k, l.length = n - 1) :
    Order.Sound n { o with known := k } :=
  { h with knownLength := hl, known := hk }

theorem Order.Sound.host_known (h : o.Sound n) (hn : 0 < n) : (o.known.getD hostAgent []).length = n - 1 := by
  rw [List.getD_eq_getElem?_getD, List.getElem?_eq_getElem (h.knownLength ▸ hn)]
  exact h.known _ (List.getElem_mem _)

theorem Order.Sound.accept (h : o.Sound n) (hn : 0 < n) (p : Nat) (bind : Bool) : (o.accept p bind).Sound n := by
  have hlearn : (o.learn (portAgent p) (o.clock hostAgent)).Sound n := by
    by_cases hp : portAgent p < n
    · exact h.learn hp (.inr (h.clock hn))
    · have hsame : o.learn (portAgent p) (o.clock hostAgent) = o := by
        rw [Order.learn, List.set_eq_of_length_le (h.clocksLength ▸ Nat.not_lt.mp hp)]
      rwa [hsame]
  refine hlearn.knowing (by simp [h.knownLength]) fun l hl => ?_
  rcases List.mem_or_eq_of_mem_set hl with hl | rfl
  · obtain ⟨k, hk, rfl⟩ := List.mem_map.mp hl
    exact (List.length_set ..).trans (h.known k hk)
  · exact h.host_known hn

theorem Order.Sound.seen (h : o.Sound n) (hn : 0 < n) (p : Nat) : (o.seen p).Sound n := by
  have hfinished : o.finished.getD p [] = [] ∨ o.Within n (o.finished.getD p []) := by
    by_cases hp : p < o.finished.length
    · rw [List.getD_eq_getElem?_getD, List.getElem?_eq_getElem hp]
      exact .inr (h.finished _ (List.getElem_mem _))
    · exact .inl (List.getD_eq_default _ _ (Nat.not_lt.mp hp))
  refine (h.learn hn hfinished).knowing ((List.length_set ..).trans h.knownLength) fun l hl => ?_
  rcases List.mem_or_eq_of_mem_set hl with hl | rfl
  · exact h.known l hl
  · exact (List.length_set ..).trans (h.host_known hn)

theorem Order.sound_start (nports : Nat) : (Order.start nports).Sound (nports + 1) := by
  have hzero : ∀ b, b < nports + 1 → (List.replicate (nports + 1) 0).getD b 0 ≤ (Order.start nports).time b b :=
    fun b hb => by simp [List.getD_eq_getElem?_getD, hb]
  have hwithin : ∀ m, ∀ c ∈ List.replicate m (List.replicate (nports + 1) 0),
      (Order.start nports).Within (nports + 1) c :=
    fun m c hc => List.eq_of_mem_replicate hc ▸ ⟨List.length_replicate, hzero⟩
  refine ⟨List.length_replicate, List.length_replicate, List.length_replicate, fun k hk => ?_, fun e he => ?_,
    hwithin _, hwithin _, fun r hr => ?_⟩
  · exact List.eq_of_mem_replicate hk ▸ List.length_replicate
  · cases he
  · cases hr

theorem Order.Sound.of_same (h : o.Sound n) (hs : o.SameRecord o') : o'.Sound n := by
  obtain ⟨f, l, rfl⟩ := hs
  exact { h with }

end

/-- A micro-step keeps the record sound (R68, R74). -/
theorem Affects.orderSound {s t : State} {n : Nat} (h : Affects s t) (hc : s.agent < n) (hs : s.order.Sound n) :
    t.order.Sound n := by
  unfold Affects at h
  generalize t.mem = m at h
  generalize t.order = o at h ⊢
  cases h with
  | none => exact hs
  | ended => exact hs.finish hc
  | read kind x n hk hx => exact hs.record hc kind x n
  | load x hx => exact hs.loaded hc x
  | write x bs hx => exact (hs.record hc _ _ _).overwrite _ _
  | store kind x bs hb hx => exact (hs.record hc _ _ _).publish hc _

theorem keptRecord_orderSound : KeptRecord (fun s => s.order.Sound (s.ports.length + 1)) where
  aside s h t _ ho hl := by rw [hl]; exact h.of_same ho
  micro s hc h := by
    rw [(moved_portMicro s).1.2.2.2.2.2.1]
    exact (affects_portMicro s).orderSound (Nat.succ_lt_succ hc) h
  hostRead s x n h := h.record (Nat.succ_pos _) _ _ _
  hostWrite s x f bs h := (h.record (Nat.succ_pos _) _ _ _).overwrite _ _
  accepted s p b h := h.accept (Nat.succ_pos _) p b
  seen s p h := h.seen (Nat.succ_pos _) p
  rst s h := by
    rw [State.rst_ports, List.length_map]
    exact Order.sound_start _

/-- Settles O21: no change of the record takes a clock ahead of what its agent has counted. -/
theorem stepKeepsOrderSound : Obligations.StepKeepsOrderSound := by
  intro s t hs h
  rw [orderOk_iff] at hs ⊢
  exact keptRecord_orderSound.step h hs

end Sys2Proof.Machine

/-! PROOFS. What the host's own accesses and its reads of STATUS may rely on (spec R60, R62, R74, R79, R80, R151). -/

namespace Sys2Proof.Machine

/-! ## The host's accesses to MEM (R60, R62) -/

/-- The bytes just written are the bytes read (R60). -/
theorem Memory.readBytes_writeBytes (m : Memory) (a : Nat) (bs : List Byte) :
    (m.writeBytes a bs).readBytes a bs.length = bs := by
  apply List.ext_getElem (Memory.readBytes_length ..)
  intro j _ hj
  simp only [Memory.readBytes, List.getElem_map, List.getElem_range]
  rw [Memory.read_writeBytes, if_pos (by omega), Nat.add_sub_cancel_left, List.getD_eq_getElem?_getD,
    List.getElem?_eq_getElem hj]
  rfl

/-- A data write inside MEM that touches no index word of another is within the contract (R70, R85). -/
theorem eventStop_of_write {s : State} {e : MemEvent} (hin : inMem s.cfg e.addr e.len = true) (hk : e.kind = .write)
    (hindex : touchesIndex s e.agent e.addr e.len = false) : eventStop s e = none := by
  simp [eventStop, hin, hk, hindex]

/-- A host write inside MEM that touches no index word completes (R62, R85). -/
theorem moveMemWrite_completes {s : State} {a : Nat} {bs : List Byte} (hmem : a + bs.length ≤ s.cfg.memSize)
    (hindex : touchesIndex s hostAgent a bs.length = false) :
    moveMemWrite s a bs = .next (s.writeEvent hostAgent a (hostOpen s) bs) := by
  simp only [moveMemWrite, newEvent_of_cons (s := s) (t := s.writeEvent hostAgent a (hostOpen s) bs) rfl]
  rw [eventStop_of_write]
  · exact (inMem_iff _ _ _).mpr (.inr hmem)
  · rfl
  · exact hindex

/-- Settles O15: the write leaves its own bytes, and the host's read of them is in no race. -/
theorem hostReadsBackWhatItWrote : Obligations.HostReadsBackWhatItWrote := by
  intro s a bs hmem hindex hopen hquiet
  have hracy : ∀ j, j < bs.length → s.order.racy hostAgent (a + j) = false := fun j hj =>
    ((Order.mayRace_eq_false _ _ _).mp (hquiet j hj)).1
  have hlanded : s.landedBytes a (fun m => hostOpen s m || s.order.racy hostAgent m) bs = bs :=
    State.landedBytes_quiet _ _ _ _ fun j hj => by rw [hopen j hj, hracy j hj]; rfl
  have hwritten : (s.writeEvent hostAgent a (hostOpen s) bs).mem = s.mem.writeBytes a bs := by
    rw [State.writeEvent_mem, hlanded]
  have hread : (s.writeEvent hostAgent a (hostOpen s) bs).seenBytes hostAgent a bs.length = bs := by
    rw [State.seenBytes_quiet, hwritten, Memory.readBytes_writeBytes]
    refine fun j hj => Order.readOpen_of_mayRace _ _ _ ?_
    rw [← hquiet j hj, ← Order.mayRace_record_self s.order hostAgent .write a bs.length (a + j)]
    rfl
  refine ⟨_, _, moveMemWrite_completes hmem hindex, rfl, rfl, fun x hx => State.writeEvent_read _ _ _ _ _ _ hx,
    if_pos ((inMem_iff _ _ _).mpr (.inr hmem)), hread, rfl, rfl⟩

/-! ## What an agent may read after it has learned another's clock (R74 edges 2 to 4) -/

/-- What agent `a` may read without a race, agent `b` may too, once its clock holds all that the clock of `a` held. -/
theorem Order.Sound.racy_handover {o o' : Order} {n a b m : Nat} (h : o.Sound n)
    (htrace : ∀ e ∈ o'.trace, e.kind.isWrite = true → e ∈ o.trace) (htime : ∀ c, o.time a c ≤ o'.time b c)
    (hracy : o.racy a m = false) : o'.racy b m = false := by
  rw [Order.racy_eq_false] at hracy ⊢
  intro e he hw ht
  have he := htrace e he hw
  rcases hracy e he hw ht with rfl | hcovered
  · exact .inr ((h.counted e he).2.trans (htime _))
  · exact .inr (hcovered.trans (htime _))

/-- An agent that has learned a clock has it (R74). -/
theorem Order.le_time_learn (o : Order) {a : Nat} (c : Clock) (ha : a < o.clocks.length) (b : Nat) :
    c.getD b 0 ≤ (o.learn a c).time a b := by
  rw [Order.time_learn, if_pos ⟨rfl, ha⟩]
  exact le_max_right _ _

/-- The accepted CMD write orders the host's steps before the port's (R74 edge 3, R79). -/
theorem racy_writeCmd {s : State} {p m : Nat} (w : Word) (hs : s.order.Sound (s.ports.length + 1))
    (hp : p < s.ports.length) (hb : (s.port p).busy = false) (hracy : s.order.racy hostAgent m = false) :
    (s.writeCmd p w).order.racy (portAgent p) m = false := by
  have hlen : portAgent p < s.order.clocks.length := by rw [hs.clocksLength]; exact Nat.succ_lt_succ hp
  have hlearn : (s.order.learn (portAgent p) (s.order.clock hostAgent)).racy (portAgent p) m = false :=
    hs.racy_handover (fun _ he _ => he) (s.order.le_time_learn _ hlen) hracy
  rw [State.writeCmd, if_neg (by simp [hb])]
  exact hlearn

/-- The read of BUSY = 0 orders the ended command before the host's steps (R74 edge 4, R80). -/
theorem racy_seen_finish {s : State} {p m : Nat} (hs : s.order.Sound (s.ports.length + 1)) (hp : p < s.ports.length)
    (hracy : s.order.racy (portAgent p) m = false) : ((s.order.finish p).seen p).racy hostAgent m = false := by
  have hlast : (s.order.finish p).finished.getD p [] = s.order.clock (portAgent p) := by
    have hlen : p < s.order.finished.length := by rw [hs.finishedLength]; exact hp
    simp [Order.finish, List.getD_eq_getElem?_getD, hlen]
  have hhost : hostAgent < (s.order.finish p).clocks.length := by
    rw [Order.finish_clocks, hs.clocksLength]; exact Nat.succ_pos _
  have hlearn : ((s.order.finish p).learn hostAgent (s.order.clock (portAgent p))).racy hostAgent m = false :=
    hs.racy_handover (fun _ he _ => he) (Order.le_time_learn _ _ hhost) hracy
  rw [← hlast] at hlearn
  exact hlearn

/-- The two ends of a command leave the port idle, and the command ordered before a later read of BUSY = 0 (R94,
R203). -/
theorem ended_order {s u : State} (hc : s.cur < s.ports.length)
    (h : (∃ q, u = s.finishStep q) ∨ ∃ e info, u = s.raise e info) :
    u.order = s.order.finish s.cur ∧ u.ports.length = s.ports.length ∧ (u.port s.cur).busy = false := by
  rcases h with ⟨q, rfl⟩ | ⟨e, info, rfl⟩
  · refine ⟨rfl, List.length_set .., ?_⟩
    rw [show (s.finishStep q).port s.cur = q.ending.atRest from State.here_finishStep s q hc]
    exact Port.flag_ending q .busy
  · refine ⟨rfl, List.length_set .., ?_⟩
    rw [show (s.raise e info).port s.cur = (s.here.raised e info).atRest from State.here_raise s e info hc]
    exact Port.flag_raised s.here e info .busy

/-- A host read of STATUS of an idle port sees it idle (R80). -/
theorem State.afterRead_status {u : State} {p : Nat} (hp : p < u.ports.length) (hb : (u.port p).busy = false) :
    (u.afterRead (0x100 + 0x80 * p + 0x04)).order = u.order.seen p := by
  rw [State.afterRead, offPort_eq p (by decide), offReg_eq p (by decide),
    if_pos ⟨by simp only [portSpace]; omega, hp, rfl⟩, State.seeStatus, if_neg (by simp [hb])]

/-- Settles O56: each agent learns the clock of the one it follows. -/
theorem issueAndFinishOrder : Obligations.IssueAndFinishOrder := by
  intro s p m hs hp
  have hsound := (orderOk_iff s).mp hs
  refine ⟨fun w hb hracy => racy_writeCmd w hsound hp hb hracy, fun u hcur hend hracy => ?_⟩
  subst hcur
  obtain ⟨horder, hlen, hidle⟩ := ended_order hp hend
  have hseen := racy_seen_finish hsound hp hracy
  rw [← horder] at hseen
  refine ⟨hseen, ?_⟩
  rw [State.afterRead_status (hlen ▸ hp) hidle]
  exact hseen

end Sys2Proof.Machine

/-! PROOFS. A command that fails its decode checks (spec R93, R134, R203): ALIGN and BUS of the ring transfers. -/

namespace Sys2Proof.Machine

/-- The decode step of a command whose check fails goes to `raise` (R93). -/
theorem micro_failed {i : Instr} {s : State} {e : ErrCode} {info : Word} (hp : s.here.pos = .decode)
    (hk : check i s.cfg s.here = some (e, info)) : micro i s = s.goto (.raising e info) := by
  cases i
  case nop => cases hk
  all_goals
    simp only [check] at hk
    simp only [micro, microBind, microSize, microEmpty, microFull, microCapacity, microAvailRead, microAvailWrite,
      microIndexQuery, microPush, microPop, microAenq, microAdeq, microPushBody, microPopBody, microWspanAcq,
      microWspanCommit, microPenq, microPdeq, microDeint, microInter, hp, hk, State.decodeStep_some]

/-- Every command's `raise` step is the one of R203. -/
theorem micro_raising {i : Instr} {s : State} {e : ErrCode} {info : Word} (hp : s.here.pos = .raising e info) :
    micro i s = s.raise e info := by
  cases i
  all_goals
    simp only [micro, microNop, microBind, microSize, microEmpty, microFull, microCapacity, microAvailRead,
      microAvailWrite, microIndexQuery, microPush, microPop, microAenq, microAdeq, microPushBody, microPopBody,
      microWspanAcq, microWspanCommit, microPenq, microPdeq, microDeint, microInter, hp]

/-- The registers `raise` leaves (R203). -/
theorem State.here_raise_failed (s : State) (e : ErrCode) (info : Word) (h : s.cur < s.ports.length) :
    (s.raise e info).here = s.here.failed e.word info := by
  have hstatus : (s.here.raised e info).status = errorStatus s.here.status := by
    rw [Port.status_raised, BitVec.or_assoc]; rfl
  rw [State.here_raise s e info h]
  simp only [Port.failed, Port.atRest, ← hstatus]
  rfl

theorem two_le_stepBound (i : Instr) (q : Port) : 2 ≤ stepBound i q := by
  cases i with
  | bind kind proto role init => cases init <;> simp [stepBound, bindSteps]
  | push | pop | aenq | adeq => simp only [stepBound, transferSteps]; omega
  | deint | inter => simp only [stepBound, xposeSteps]; omega
  | _ => simp [stepBound]

/-- A command ends with the first of its checks that fails, before any memory event (R93, R203, R205). -/
theorem fails_of_check {i : Instr} {s : State} {e : ErrCode} {info : Word} (hs : Ready s)
    (hk : check i s.cfg s.here = some (e, info)) : Fails i s e.word info := by
  obtain ⟨hc, hp⟩ := hs
  obtain ⟨fuel, hfuel⟩ := Nat.exists_eq_add_of_le' (two_le_stepBound i s.here)
  have hgoto : (s.goto (.raising e info)).here = { s.here with pos := .raising e info } := State.here_goto s _ hc
  have hcur : (s.goto (.raising e info)).cur < (s.goto (.raising e info)).ports.length :=
    (elsewhere_goto s _).exists hc
  have hpos : (s.goto (.raising e info)).here.pos = .raising e info := by rw [hgoto]
  have hrun : runPort (micro i) (fuel + 2) s = (s.goto (.raising e info)).raise e info := by
    rw [runPort_succ _ _ _ (by rw [hp]; simp), micro_failed hp hk]
    exact runPort_raise _ _ e info fuel hcur hpos (micro_raising hpos)
  refine ⟨(s.goto (.raising e info)).raise e info, ?_, ?_, (elsewhere_goto s _).trans (elsewhere_raise _ e info),
    rfl, rfl⟩
  · rw [exec_runPort, hfuel, hrun]
  · rw [State.here_raise_failed _ e info hcur, hgoto]; rfl

/-- The checks of a ring transfer up to its buffer: they pass on a bound port of the right role and protocol that holds
no grant, and what is left are those of LARG0 and of the buffer (R134). -/
theorem check_transfer {i : Instr} {cfg : Config} {q : Port} {e off : Nat} (hb : q.bound = true)
    (h : (i = .push ∧ q.role = .producer ∧ q.grant = false ∧ e = q.esize ∧ off = q.larg2.toNat) ∨
      (i = .pop ∧ q.role = .consumer ∧ e = q.esize ∧ off = q.larg2.toNat) ∨
      (i = .aenq ∧ q.role = .producer ∧ q.proto = 1#2 ∧ q.grant = false ∧ e = 4 ∧ off = 0) ∨
      (i = .adeq ∧ q.role = .consumer ∧ q.proto = 1#2 ∧ e = 4 ∧ off = 0)) :
    check i cfg q = firstError [needAligned q e, needBuffer cfg q e off] := by
  rcases h with ⟨rfl, hrole, hgrant, rfl, rfl⟩ | ⟨rfl, hrole, rfl, rfl⟩ | ⟨rfl, hrole, hproto, hgrant, he, rfl⟩ |
    ⟨rfl, hrole, hproto, he, rfl⟩
  · simp [check, checkPush, firstError, needBound, needRole, needNoGrant, hb, hrole, hgrant]
  · simp [check, checkPop, firstError, needBound, needRole, hb, hrole]
  · obtain rfl : e = sampleSize := he
    simp [check, checkAenq, firstError, needBound, needRole, needProto, needNoGrant, protoAudio, hb, hrole, hproto,
      hgrant]
  · obtain rfl : e = sampleSize := he
    simp [check, checkAdeq, firstError, needBound, needRole, needProto, protoAudio, hb, hrole, hproto]

/-- Settles O36: both checks, in their order. -/
theorem transferAddressErrors : Obligations.TransferAddressErrors := by
  intro i s e off hs hb hcase
  have hcheck := check_transfer (cfg := s.cfg) hb hcase
  refine ⟨fun halign => fails_of_check (e := .align) hs ?_, fun halign hlen hbus => fails_of_check (e := .bus) hs ?_⟩
  · rw [hcheck]
    simp [firstError, needAligned, halign]
  · have hpos : e ≠ 0 := by
      rintro rfl
      rw [Nat.mod_zero] at halign
      omega
    have hout : inMem s.cfg (bufferAddr s.here e off) (bufferLen s.here e) = false := by
      have hne : s.here.larg1.toNat * e ≠ 0 := Nat.mul_ne_zero (by omega) hpos
      rw [Nat.add_mul] at hbus
      rw [Bool.eq_false_iff, ne_eq, inMem_iff, bufferAddr, bufferLen]
      omega
    rw [hcheck]
    simp [firstError, needAligned, needBuffer, halign, hout]

end Sys2Proof.Machine

/-! PROOFS. Late races (spec R74, R77, R242, R245): what the look-ahead foresees, what a foreseen read returns, and a
host write that races with the source read of a PUSH. -/

namespace Sys2Proof.Machine

/-! ## What is foreseen (R77) -/

/-- Every read of the planned run that a later write of it races with, in a byte of MEM, is planned for (R77). -/
theorem mem_planned {s : State} {r : LateRead} {e w : MemEvent} {later between before : List MemEvent}
    (hrun : newEvents s (planEnd s (planned s)) = later ++ w :: (between ++ e :: before))
    (hrace : e.racesWith w = true) (he : e.touches r.byte = true) (hw : w.touches r.byte = true)
    (hevent : r.event = s.order.trace.length + before.length) (hbyte : r.byte < s.cfg.memSize) : r ∈ planned s :=
  planned_closed s ((mem_lateReads _ _ _).mpr
    ⟨(mem_lateIn _ _ _).mpr ⟨later, w, between, e, before, hrun, hevent, hrace, he, hw⟩, hbyte⟩)

/-- The planned reads that are events of the step are foreseen in it (R77). -/
theorem mem_foreseen {s t : State} {r : LateRead} (hact : act (s.foreseeing (planned s)) = .next t)
    (hr : r ∈ planned s) (hevent : r.event < t.order.trace.length) : r ∈ s.lookAhead.order.foreseen := by
  rw [State.lookAhead_foreseen, foresee, inStep_next _ _ _ hact]
  exact List.mem_filter.mpr ⟨hr, decide_eq_true hevent⟩

/-! ## What an open read returns (R66, R67, R77) -/

/-- A foreseen byte of the next data read is a free value (R77). -/
theorem seenBytes_foreseen {s : State} {x n j : Nat} (a : Nat) (hj : j < n)
    (h : { event := s.order.trace.length, byte := x + j } ∈ s.order.foreseen) :
    (s.seenBytes a x n).getD j 0 = Config.freeByte (s.free + j) := by
  have hforesees : s.order.foresees (x + j) = true := by rwa [Order.foresees, List.contains_iff_mem]
  exact State.seenBytes_open s a x n j hj (by rw [Order.readOpen, hforesees, Bool.or_true])

/-- Byte `j` of a little-endian word (R61). -/
theorem leWord_extract (bs : List Byte) {j : Nat} (hj : j < 4) : (leWord bs).extractLsb' (8 * j) 8 = bs.getD j 0 := by
  apply BitVec.eq_of_getLsbD_eq
  intro b hb
  simp only [leWord, BitVec.getLsbD_extractLsb', hb, decide_true, Bool.true_and, BitVec.getLsbD_append]
  interval_cases j
  all_goals grind

/-- An open byte of an AtomicLoad32 is a free value, and such a load learns nothing (R74 edge 2, R77). -/
theorem loadedWord_open {s : State} {a x j : Nat} (hj : j < 4)
    (h : (s.order.acquire a x).loadOpen a (x + j) = true) :
    (s.loadedWord a x).extractLsb' (8 * j) 8 = Config.freeByte (s.free + j) ∧
      (s.loadEvent a x).order.clocks = (s.order.record a .load x 4).clocks := by
  have hclean : s.order.loadClean a x = false := by
    by_contra hc
    rw [(Order.loadClean_iff _ _ _).mp (by simpa using hc) j hj] at h
    cases h
  have hopen := Order.loadOpen_beforeLoad s.order a x (x + j) h
  constructor
  · rw [State.loadedWord, leWord_extract _ hj]
    simp [State.drawnBytes, List.getD_eq_getElem?_getD, hj, hopen]
  · rw [State.loadEvent_order, Order.loaded_open _ _ _ hclean]

/-! ## A host write that races with the source read of a PUSH (R242) -/

/-- The machine with port `p` executing, the moves `ms` to come, the reads `f` foreseen and the reads `l` planned for. -/
def State.looking (s : State) (p : Nat) (ms : List Move) (f l : List LateRead) : State :=
  { s with cur := p, agenda := ms, order := { s.order with foreseen := f, plan := l } }

theorem newEvents_append {s t : State} {es : List MemEvent} (h : t.order.trace = es ++ s.order.trace) :
    newEvents s t = es := by
  simp [newEvents, h]

/-- The host owns no index word (R85). -/
theorem ownsIndex_host (s : State) (b : Nat) (r : Role) : ownsIndex s hostAgent b r = false := by
  simp [ownsIndex, portAgent, hostAgent]

/-- Which bytes of index words the host touches depends on the bindings alone (R85). -/
theorem touchesIndex_host (s : State) (x n : Nat) : touchesIndex s hostAgent x n =
    s.ports.any (fun q => q.bound && (rangesMeet x n q.wiAddr 4 || rangesMeet x n q.riAddr 4)) := by
  simp [touchesIndex, ownsIndex_host]

/-- The address of source element `k` of a PUSH (R100, R140). -/
def pushSource (q : Port) (k : Nat) : Nat := bufferAddr q q.esize (q.larg2.toNat + k)

/-- The micro-step in which a PUSH reads source element `k` (R140). -/
theorem portMicro_pushRead {s : State} {k : Nat} (hc : s.here.command? = some .push) (hpos : s.here.pos = .copyRead k) :
    portMicro s = s.copyReadStep (pushSource s.here k) s.here.esize (.copyWrite k) := by
  simp only [portMicro, hc, micro, microPush, microPushBody, hpos, pushSource]

/-- Where a step stops that makes the memory event `e` (R245). -/
theorem portStop_of_event {s t : State} {e : MemEvent} (h : t.order.trace = e :: s.order.trace) :
    portStop s t = if badPairing s || badBind s then some (.refused (.pairing s.cur))
      else if badInit s then some (.refused (.initInUse s.cur)) else eventStop s e := by
  simp only [portStop, newEvent_of_cons h]

section
variable {s : State} {p k : Nat} {ms : List Move} {f l : List LateRead}

/-- The state after port `p` has read source element `k` of its PUSH. -/
def State.pushRead (s : State) (p k : Nat) (ms : List Move) (f l : List LateRead) : State :=
  (s.looking p ms f l).copyReadStep (pushSource (s.port p) k) (s.port p).esize (.copyWrite k)

/-- What the host contract stops does not depend on the moves to come or on what is foreseen (R245). -/
theorem guardedMicro_pushRead (hc : (s.port p).command? = some .push) (hpos : (s.port p).pos = .copyRead k)
    (hstop : portStop { s with cur := p } (portMicro { s with cur := p }) = none) :
    guardedMicro (s.looking p ms f l) = .next (s.pushRead p k ms f l) := by
  have hmicro : portMicro (s.looking p ms f l) = s.pushRead p k ms f l := portMicro_pushRead hc hpos
  have hstop' : portStop (s.looking p ms f l) (s.pushRead p k ms f l) = none := by
    rw [portMicro_pushRead (s := { s with cur := p }) hc hpos, portStop_of_event rfl] at hstop
    rw [portStop_of_event rfl]
    exact hstop
  rw [guardedMicro, hmicro]
  simp only [hstop']

theorem movePortStep_pushRead (hc : (s.port p).command? = some .push) (hpos : (s.port p).pos = .copyRead k)
    (hp : p < s.ports.length)
    (hstop : portStop { s with cur := p } (portMicro { s with cur := p }) = none) (x : Nat) :
    movePortStep (s.looking x ms f l) p = .next (s.pushRead p k ms f l) :=
  (if_pos hp).trans (guardedMicro_pushRead (s := s) hc hpos hstop)

/-- The read event of the PUSH. -/
def State.pushReadEvent (s : State) (p k : Nat) : MemEvent where
  agent := portAgent p
  time := s.order.time (portAgent p) (portAgent p) + 1
  kind := .read
  addr := pushSource (s.port p) k
  len := (s.port p).esize
  seen := s.order.clock (portAgent p)

theorem State.pushRead_trace : (s.pushRead p k ms f l).order.trace = s.pushReadEvent p k :: s.order.trace := rfl

/-- The host's write event after the read of the PUSH. -/
def State.lateWriteEvent (s : State) (p k m : Nat) : MemEvent where
  agent := hostAgent
  time := (s.pushRead p k [] [] []).order.time hostAgent hostAgent + 1
  kind := .write
  addr := m
  len := 1
  seen := (s.pushRead p k [] [] []).order.clock hostAgent

/-- The host has not learned of the port's read (R74): the two race. -/
theorem pushRead_racesWith (hs : s.order.Sound (s.ports.length + 1)) (hp : p < s.ports.length) (m : Nat) :
    (s.pushReadEvent p k).racesWith (s.lateWriteEvent p k m) = true := by
  have hne : portAgent p ≠ hostAgent := Nat.succ_ne_zero p
  have htime : (s.pushRead p k [] [] []).order.time hostAgent (portAgent p) = s.order.time hostAgent (portAgent p) :=
    (Order.time_record _ _ _ _ _ _ _).trans (if_neg (by tauto))
  have hle : s.order.time hostAgent (portAgent p) ≤ s.order.time (portAgent p) (portAgent p) :=
    hs.time_le (Nat.succ_pos _) (Nat.succ_lt_succ hp)
  have hbefore : (s.pushReadEvent p k).before (s.lateWriteEvent p k m) = false := by
    simp only [MemEvent.before, Bool.or_eq_false_iff, beq_eq_false_iff_ne, decide_eq_false_iff_not]
    exact ⟨hne, fun h => absurd (h.trans (htime.trans_le hle)) (Nat.not_succ_le_self _)⟩
  simp only [MemEvent.racesWith, hbefore]
  rfl

/-- The port's read leaves the host's write of an unowned byte within the contract (R85, R245). -/
theorem moveMemWrite_pushRead {m : Nat} {v : Byte} (hp : p < s.ports.length) (hm : m + 1 ≤ s.cfg.memSize)
    (hindex : touchesIndex s hostAgent m 1 = false) :
    moveMemWrite (s.pushRead p k ms f l) m [v] = .next ((s.pushRead p k ms f l).writeEvent hostAgent m
      (hostOpen (s.pushRead p k ms f l)) [v]) := by
  refine moveMemWrite_completes hm ?_
  have helse : Elsewhere (s.looking p ms f l) (s.pushRead p k ms f l) := elsewhere_copyReadStep _ _ _ _
  rw [touchesIndex_host] at hindex ⊢
  rw [← hindex]
  refine helse.any_ports _ ?_
  rw [State.pushRead, State.here_copyReadStep _ _ _ _ hp]
  rfl

/-- The planned run makes the read of the PUSH, then the write of the host, and then what else it makes. -/
theorem newEvents_planEnd {m : Nat} {v : Byte} (hagenda : s.agenda = [.portStep p, .memWrite m [v]])
    (hc : (s.port p).command? = some .push) (hpos : (s.port p).pos = .copyRead k) (hp : p < s.ports.length)
    (hstop : portStop { s with cur := p } (portMicro { s with cur := p }) = none) (hm : m + 1 ≤ s.cfg.memSize)
    (hindex : touchesIndex s hostAgent m 1 = false) :
    ∃ later, newEvents s (planEnd s f) = later ++ s.lateWriteEvent p k m :: ([] ++ s.pushReadEvent p k :: []) := by
  let t := s.pushRead p k [.memWrite m [v]] f s.order.plan
  let u := (s.pushRead p k [] f s.order.plan).writeEvent hostAgent m (hostOpen (s.pushRead p k [] f s.order.plan)) [v]
  have hread : wholeMove { s.foreseeing f with agenda := [.memWrite m [v]] } (.portStep p) = (t, true) :=
    wholeMove_next (by simp) (movePortStep_pushRead hc hpos hp hstop s.cur)
  have hwrite : wholeMove { t with agenda := [] } (.memWrite m [v]) = (u, true) :=
    wholeMove_next (by simp) (moveMemWrite_pushRead (k := k) (ms := []) (f := f) (l := s.order.plan) hp hm hindex)
  have hend : planEnd s f = drain u.ports.length u := by
    simp only [planEnd, hagenda, runPlan, reduceCtorEq, if_false, hread, hwrite]
  obtain ⟨⟨later, htrace, -⟩, -⟩ := grows_drain u.ports.length u
  refine ⟨later, newEvents_append ?_⟩
  rw [hend, htrace, List.append_assoc]
  rfl

end

/-- Settles O60: the plan is closed, an open byte is a free value, and the planned run holds the race of the PUSH's read
with the host's write. -/
theorem lateRaceLeavesAnyValue : Obligations.LateRaceLeavesAnyValue := by
  refine ⟨fun s r e w later between before hrun hrace he hw hevent hbyte => mem_planned hrun hrace he hw hevent hbyte,
    fun s t r hact hr hevent => mem_foreseen hact hr hevent, fun s a x n j hj h => seenBytes_foreseen a hj h,
    fun s a x j hj h => loadedWord_open hj h, ?_⟩
  intro s p k m v horder _ _ hp hagenda hc hpos hm hindex src hle hlt u hstop
  have hmove : ∀ f l x, movePortStep (s.looking x [.memWrite m [v]] f l) p =
      .next (s.pushRead p k [.memWrite m [v]] f l) := fun f l x => movePortStep_pushRead hc hpos hp hstop x
  have hplanned : { event := s.order.trace.length, byte := m } ∈ planned s := by
    obtain ⟨later, hrun⟩ := newEvents_planEnd (f := planned s) hagenda hc hpos hp hstop hm hindex
    refine mem_planned hrun (pushRead_racesWith ((orderOk_iff s).mp horder) hp m) ?_ ?_ rfl hm
    · simp only [MemEvent.touches, Bool.and_eq_true, decide_eq_true_eq]
      exact ⟨hle, hlt⟩
    · simp [MemEvent.touches, State.lateWriteEvent]
  have hforeseen : { event := s.order.trace.length, byte := m } ∈ s.lookAhead.order.foreseen := by
    have hact : act (s.foreseeing (planned s)) = .next (s.pushRead p k [.memWrite m [v]] (planned s) s.order.plan) := by
      simp only [act, State.foreseeing_agenda, hagenda]
      exact hmove _ _ s.cur
    exact mem_foreseen hact hplanned (by rw [State.pushRead_trace, List.length_cons]; exact Nat.lt_succ_self _)
  refine ⟨s.pushRead p k [.memWrite m [v]] (foresee s) (planned s), ?_, ?_⟩
  · rw [step_eq_move hagenda]
    exact hmove _ _ s.cur
  · have hport : (s.pushRead p k [.memWrite m [v]] (foresee s) (planned s)).port p =
        (s.pushRead p k [.memWrite m [v]] (foresee s) (planned s)).here := rfl
    rw [hport, State.pushRead, State.here_copyReadStep _ _ _ _ hp]
    refine seenBytes_foreseen (portAgent p) (Nat.sub_lt_left_of_lt_add hle hlt) ?_
    rw [show pushSource (s.port p) k + (m - src) = m from Nat.add_sub_cancel' hle]
    exact hforeseen

end Sys2Proof.Machine

/-! PROOFS. A ring transfer from its decode step to its end (spec R131, R140, R145): its loads, its copies, the store that
publishes its index, and the finish step. From it a PUSH and a POP of its elements (R74 edge 2, R75). -/

namespace Sys2Proof.Machine

/-! ## The steps of a transfer (R131, R140, R145) -/

/-- The copy loop of a command is that of any later moment of it. -/
theorem CopyLoop.later {f : State → State} {s u : State} {q : Port} {n e : Nat} {src dst : Nat → Nat}
    {isOpen : Nat → Nat → Bool} {last : EnginePos} (C : CopyLoop f s q n e src dst isOpen last) (hu : Elsewhere s u) :
    CopyLoop f u q n e src dst isOpen last :=
  ⟨fun v k x hv => C.read v k x (hu.trans hv), fun v k x hv => C.write v k x (hu.trans hv)⟩

/-- What one copy of a transfer does to the ordering record: its read event, then its write event (R9, R68). -/
def CopyRecorded (a n e : Nat) (src dst : Nat → Nat) (o o' : Order) : Prop :=
  ∃ k < n, o' = ((o.record a .read (src k) e).record a .write (dst k) e).overwrite (dst k) e

section
variable {f : State → State} {s : State} {q : Port} {n e : Nat} {src dst : Nat → Nat} {isOpen : Nat → Nat → Bool}
  {last : EnginePos}

theorem CopyLoop.one_recorded (C : CopyLoop f s q n e src dst isOpen last) (hc : s.cur < s.ports.length) {u : State}
    {k : Nat} {x : List Byte} (hu : Elsewhere s u) (hq : u.here = q.copying (.copyRead k) x) (hk : k < n) :
    CopyRecorded s.agent n e src dst u.order (runPort f 2 u).order := by
  have hread := C.read u k x hu hq hk
  have hu1 : Elsewhere s (u.copyReadStep (src k) e (.copyWrite k)) := hu.trans (elsewhere_copyReadStep u _ _ _)
  have hq1 : (u.copyReadStep (src k) e (.copyWrite k)).here =
      q.copying (.copyWrite k) (u.seenBytes s.agent (src k) e) := by
    rw [State.here_copyReadStep _ _ _ _ (hu.exists hc), hq, hu.agent]; rfl
  have hlen : (u.copyReadStep (src k) e (.copyWrite k)).here.elem.length = e := by
    rw [hq1]; simp [Port.copying, State.seenBytes_length]
  refine ⟨k, hk, ?_⟩
  rw [runPort_succ f 1 u (by rw [hq]; simp [Port.copying]), hread,
    runPort_succ f 0 _ (by rw [hq1]; simp [Port.copying]), runPort_zero, C.write _ k _ hu1 hq1 hk,
    State.copyWriteStep_order, hlen, hu1.agent, State.copyReadStep_order, hu.agent]

/-- The copies of a transfer change the ordering record one after another. -/
theorem CopyLoop.run_recorded (C : CopyLoop f s q n e src dst isOpen last) (hc : s.cur < s.ports.length) (m : Nat) :
    ∀ (u : State) (k : Nat) (x : List Byte), Elsewhere s u → u.here = q.copying (.copyRead k) x → k + (m + 1) = n →
      Relation.ReflTransGen (CopyRecorded s.agent n e src dst) u.order (runPort f (2 * (m + 1)) u).order := by
  induction m with
  | zero => exact fun u k x hu hq hk => .single (C.one_recorded hc hu hq (by omega))
  | succ m ih =>
    intro u k x hu hq hk
    obtain ⟨t, y, hrun, ht, hqt, -⟩ := (C.later hu).one (hu.exists hc) u k x (Elsewhere.refl u) hq (by omega)
      ⟨fun _ => rfl, rfl⟩ 0
    rw [if_pos (by omega)] at hqt
    have hone := C.one_recorded hc hu hq (by omega)
    rw [show 2 = 0 + 2 from rfl, hrun, runPort_zero] at hone
    rw [show 2 * (m + 1 + 1) = 0 + 2 + 2 * (m + 1) by omega, runPort_add, hrun, runPort_zero]
    exact .head hone (ih t (k + 1) y (hu.trans ht) hqt (by omega))

/-- What the micro-steps `f` of a ring transfer of `n` elements do: LoadIndices, the copies, the publishing store of `v`
at `w`, and the finish step that writes the registers `result`. -/
structure Transfer (f : State → State) (s : State) (next : Port → EnginePos) (n e : Nat) (src dst : Nat → Nat)
    (isOpen : Nat → Nat → Bool) (w v : Nat) (result : Port → Port) : Prop extends
    LoadPhase f s next, CopyLoop f s s.loaded n e src dst isOpen .publish where
  publish : ∀ u x, Elsewhere s u → u.here = s.loaded.copying .publish x → f u = u.publishStep w v
  finish : ∀ u x, Elsewhere s u → u.here = s.loaded.copying .finish x → f u = u.finishStep (result u.here)

/-- The state after a transfer: `u` is the one after its copies, whose engine holds `x`. -/
def transferEnd (s u : State) (w v : Nat) (result : Port → Port) (x : List Byte) : State :=
  (u.publishStep w v).finishStep (result (s.loaded.copying .finish x))

/-- The state `u` after the loads and the copies of a transfer from `s`: what they did to the port, to MEM and to the
record. -/
structure CopiesDone (s u : State) (n e : Nat) (src dst : Nat → Nat) (isOpen : Nat → Nat → Bool) (x : List Byte) :
    Prop where
  elsewhere : Elsewhere s u
  here : u.here = s.loaded.copying .publish x
  recorded : Relation.ReflTransGen (CopyRecorded s.agent n e src dst) s.orderLoaded u.order
  copied : Copied { s with order := s.orderLoaded } s u 0 n e src dst isOpen

/-- A transfer of at least one element, from its decode step to its end. -/
theorem Transfer.run {next : Port → EnginePos} {w v : Nat} {result : Port → Port}
    (T : Transfer f s next n e src dst isOpen w v result) (hs : Ready s) (hi : IndicesLoad s)
    (hnext : next { s.loaded with pos := .loadWr } = .copyRead 0) (hn : 0 < n) (fuel : Nat) :
    ∃ u x, runPort f (fuel + (5 + 2 * n)) s = transferEnd s u w v result x ∧ CopiesDone s u n e src dst isOpen x := by
  obtain ⟨hvalid, hquiet⟩ := hi
  obtain ⟨u0, hrun0, hu0, hq0, hm0, ho0, -⟩ := T.toLoadPhase.run hs hquiet (fuel + 2 + 2 * n)
  rw [State.indexPos_valid s next hvalid, hnext] at hq0
  obtain ⟨m, rfl⟩ : ∃ m, n = m + 1 := ⟨n - 1, by omega⟩
  have hc0 := hu0.exists hs.1
  have C := T.toCopyLoop.later hu0
  have hq0' : u0.here = s.loaded.copying (.copyRead 0) s.here.elem := hq0
  obtain ⟨u1, x, hrun1, hu1, hq1, -, -, hcopied⟩ :=
    C.run hc0 m u0 0 _ (Elsewhere.refl u0) hq0' (by omega) ⟨fun _ => rfl, rfl⟩ 0
  have hcopies := C.run_recorded hc0 m u0 0 _ (Elsewhere.refl u0) hq0' (by omega)
  have hu := hu0.trans hu1
  have hc := hu.exists hs.1
  rw [Nat.zero_add, runPort_zero] at hrun1
  rw [hrun1, ho0, hu0.agent] at hcopies
  have hpub := T.publish u1 x hu hq1
  have hq2 : (u1.publishStep w v).here = s.loaded.copying .finish x := by
    rw [State.here_publishStep _ _ _ hc, hq1]; rfl
  have hu2 := hu.trans (elsewhere_publishStep u1 w v)
  have hfin := T.finish _ x hu2 hq2
  refine ⟨u1, x, ?_, hu, hq1, hcopies, ?_⟩
  · rw [show fuel + (5 + 2 * (m + 1)) = fuel + 2 + 2 * (m + 1) + 3 by omega, hrun0,
      show fuel + 2 + 2 * (m + 1) = 2 * (m + 1) + (fuel + 2) by omega, runPort_add, hrun1,
      runPort_succ f _ u1 (by rw [hq1]; simp [Port.copying]), hpub,
      runPort_finish f _ _ fuel (hu2.exists hs.1) (by rw [hq2]; rfl) hfin, hq2, transferEnd]
  · simp only [Copied, ho0, hm0, hu0.agent] at hcopied ⊢
    exact hcopied

end

/-! ## PUSH and POP as transfers -/

/-- The checks of a transfer pass where its buffer is aligned and in range (R134). -/
theorem check_transfer_none {cfg : Config} {q : Port} {e off : Nat} (halign : q.larg0.toNat % e = 0)
    (hbuffer : q.larg1.toNat = 0 ∨ q.larg0.toNat + (off + q.larg1.toNat) * e ≤ cfg.memSize) :
    firstError [needAligned q e, needBuffer cfg q e off] = none := by
  have hin : inMem cfg (bufferAddr q e off) (bufferLen q e) = true := by
    rw [inMem_iff, bufferAddr, bufferLen]
    rcases hbuffer with h | h
    · exact .inl (by rw [h, Nat.zero_mul])
    · rw [Nat.add_mul] at h
      exact .inr (by omega)
  simp [firstError, needAligned, needBuffer, halign, hin]

/-- What a transfer asks of its port before it starts (R134): its buffer is aligned and in range, and its loads go
through. -/
structure TransferReady (s : State) : Prop where
  ready : Ready s
  bound : s.here.bound = true
  aligned : s.here.larg0.toNat % s.here.esize = 0
  inMem : BufferInMem s s.here.esize s.here.larg2.toNat
  loads : IndicesLoad s

section
variable {s : State} (h : TransferReady s)
include h

theorem TransferReady.push (hrole : s.here.role = .producer) (hgrant : s.here.grant = false) :
    Transfer (micro .push) s pushNext (pushCount s.loaded) s.here.esize
      (fun k => bufferAddr s.here s.here.esize (s.here.larg2.toNat + k)) (pushSlot s.loaded s.here.esize)
      (fun _ => pushOpen s.here.esize s.here.larg2.toNat s) s.here.base
      (advance s.here.nslots s.wrIndex.toNat (pushCount s.loaded))
      (fun q => { q with res0 := BitVec.ofNat 32 (pushCount q) }) where
  decode := by
    have hcheck : checkPush s.cfg s.here = none :=
      (check_transfer (i := .push) h.bound (.inl ⟨rfl, hrole, hgrant, rfl, rfl⟩)).trans
        (check_transfer_none h.aligned h.inMem)
    simp only [micro, microPush, microPushBody, h.ready.2, hcheck, State.decodeStep_none]
  loadRd u _ hq := by simp only [micro, microPush, microPushBody, hq]
  loadWr u w _ hq := by simp only [micro, microPush, microPushBody, hq]
  read u k x hu hq _ := by
    simp only [micro, microPush, microPushBody, hq, Port.copying]
    rfl
  write u k x hu hq _ := by
    have hsame : u.here.SameSegment s.here := by rw [hq]; exact ⟨rfl, rfl, rfl, rfl⟩
    have hopen : pushOpen s.here.esize s.here.larg2.toNat u = pushOpen s.here.esize s.here.larg2.toNat s := by
      funext m
      simp only [pushOpen, hu.foreign hsame, hu.meetsOwn hsame, hq]
      rfl
    rw [← hopen]
    simp only [micro, microPush, microPushBody, hq, Port.copying]
    rfl
  publish u x _ hq := by
    simp only [micro, microPush, microPushBody, hq, Port.copying]
    rfl
  finish u x _ hq := by simp only [micro, microPush, microPushBody, hq, Port.copying]

theorem TransferReady.pop (hrole : s.here.role = .consumer) :
    Transfer (micro .pop) s popNext (popCount s.loaded) s.here.esize (popSlot s.loaded s.here.esize)
      (fun k => bufferAddr s.here s.here.esize (s.here.larg2.toNat + k))
      (fun _ => popOpen s.here.esize s.here.larg2.toNat s) (s.here.base + 4)
      (advance s.here.nslots s.rdIndex.toNat (popCount s.loaded))
      (fun q => { q with res0 := BitVec.ofNat 32 (popCount q) }) where
  decode := by
    have hcheck : checkPop s.cfg s.here = none :=
      (check_transfer (i := .pop) h.bound (.inr (.inl ⟨rfl, hrole, rfl, rfl⟩))).trans
        (check_transfer_none h.aligned h.inMem)
    simp only [micro, microPop, microPopBody, h.ready.2, hcheck, State.decodeStep_none]
  loadRd u _ hq := by simp only [micro, microPop, microPopBody, hq]
  loadWr u w _ hq := by simp only [micro, microPop, microPopBody, hq]
  read u k x hu hq _ := by
    simp only [micro, microPop, microPopBody, hq, Port.copying]
    rfl
  write u k x hu hq _ := by
    have hsame : u.here.SameSegment s.here := by rw [hq]; exact ⟨rfl, rfl, rfl, rfl⟩
    have hopen : popOpen s.here.esize s.here.larg2.toNat u = popOpen s.here.esize s.here.larg2.toNat s := by
      funext m
      simp only [popOpen, hu.inSegment hsame, hu.meetsOwn hsame, hq]
      rfl
    rw [← hopen]
    simp only [micro, microPop, microPopBody, hq, Port.copying]
    rfl
  publish u x _ hq := by
    simp only [micro, microPop, microPopBody, hq, Port.copying]
    rfl
  finish u x _ hq := by simp only [micro, microPop, microPopBody, hq, Port.copying]

end

/-! ## The record along a PUSH (R68, R74) -/

/-- An index word keeps the store whose value it holds where a data write does not touch it (R74 edge 2). -/
theorem Order.release_overwrite (o : Order) {x n y : Nat} (h : x + n ≤ y ∨ y + 4 ≤ x) :
    (o.overwrite x n).release y = o.release y := by
  simp only [Order.release, Order.overwrite]
  congr 1
  induction o.released with
  | nil => rfl
  | cons r rest ih =>
    obtain ⟨z, c⟩ := r
    by_cases hz : y = z
    · subst hz
      have hkeep : (decide (x < y + 4) && decide (y < x + n)) = false := by
        rw [Bool.and_eq_false_iff, decide_eq_false_iff_not, decide_eq_false_iff_not]
        omega
      simp only [List.filter_cons, hkeep, Bool.not_false, if_true, List.lookup_cons, beq_self_eq_true]
    · have hne : (y == z) = false := beq_eq_false_iff_ne.mpr hz
      simp only [List.filter_cons, List.lookup_cons, hne]
      split
      · rw [List.lookup_cons, hne]; exact ih
      · exact ih

/-- A memory event of the producer of the segment [b, b+n): it writes into the segment alone, and with data into the
slots alone (R85, R140). -/
def ProducerEvent (b n : Nat) (e : MemEvent) : Prop :=
  e.kind.isWrite = true → b ≤ e.addr ∧ e.addr + e.len ≤ b + n ∧ (e.kind = .write → b + 8 ≤ e.addr)

/-- From `o` to `o'` agent `a`, the producer of the segment [b, b+n), has made memory events, and it alone has learned
anything. -/
structure Order.Trail (a b n : Nat) (o o' : Order) : Prop where
  events : ∀ e ∈ o'.trace, e ∈ o.trace ∨ ProducerEvent b n e
  others : ∀ c, c ≠ a → o'.clock c = o.clock c
  own : ∀ d, o.time a d ≤ o'.time a d
  foreseen : o'.foreseen = o.foreseen
  release : o'.release (b + 4) = o.release (b + 4)
  sound : ∀ m, a < m → o.Sound m → o'.Sound m
  racy : ∀ m, o.racy a m = false → o'.racy a m = false
  dataRacy : ∀ m, o.dataRacy a m = false → o'.dataRacy a m = false

section
variable {a b n : Nat} {o o' o'' : Order}

theorem Order.Trail.refl : Order.Trail a b n o o :=
  ⟨fun _ he => .inl he, fun _ _ => rfl, fun _ => le_rfl, rfl, rfl, fun _ _ h => h, fun _ h => h, fun _ h => h⟩

theorem Order.Trail.trans (h : Order.Trail a b n o o') (k : Order.Trail a b n o' o'') : Order.Trail a b n o o'' where
  events e he := (k.events e he).elim (h.events e) .inr
  others c hc := (k.others c hc).trans (h.others c hc)
  own d := (h.own d).trans (k.own d)
  foreseen := k.foreseen.trans h.foreseen
  release := k.release.trans h.release
  sound m ha hs := k.sound m ha (h.sound m ha hs)
  racy m hm := k.racy m (h.racy m hm)
  dataRacy m hm := k.dataRacy m (h.dataRacy m hm)

/-- An event of the producer that leaves the stores of the index words as they were. -/
theorem Order.trail_record {kind : EventKind} {x k : Nat}
    (h : kind.isWrite = true → b ≤ x ∧ x + k ≤ b + n ∧ (kind = .write → b + 8 ≤ x)) :
    Order.Trail a b n o (o.record a kind x k) where
  events e he := (List.mem_cons.mp he).elim (fun he => .inr (he ▸ h)) .inl
  others c hc := (Order.clock_set o a _ c).trans (if_neg fun hh => hc hh.1.symm)
  own d := by
    rw [Order.time_record]
    split
    next hd => rw [← hd.2.2.1]; exact Nat.le_succ _
    · exact le_rfl
  foreseen := rfl
  release := rfl
  sound m ha hs := hs.record ha kind x k
  racy m hm := (Order.racy_record_self ..).trans hm
  dataRacy m hm := (Order.dataRacy_record_self ..).trans hm

theorem Order.trail_acquire (x : Nat) : Order.Trail a b n o (o.acquire a x) where
  events _ he := .inl he
  others c hc := (Order.clock_set o a _ c).trans (if_neg fun hh => hc hh.1.symm)
  own d := Order.time_learn_le o a _ a d
  foreseen := rfl
  release := rfl
  sound _ ha hs := hs.acquire ha x
  racy m hm := Order.racy_acquire_false o a x m hm
  dataRacy m hm := Order.dataRacy_acquire_false o a x m hm

/-- A data write to slots overwrites no index word (R47). -/
theorem Order.trail_overwrite {x k : Nat} (h : b + 8 ≤ x) : Order.Trail a b n o (o.overwrite x k) where
  events _ he := .inl he
  others _ _ := rfl
  own _ := le_rfl
  foreseen := rfl
  release := Order.release_overwrite o (.inr h)
  sound _ _ hs := hs.overwrite x k
  racy _ hm := hm
  dataRacy _ hm := hm

theorem Order.trail_publish : Order.Trail a b n o (o.publish a b) where
  events _ he := .inl he
  others _ _ := rfl
  own _ := le_rfl
  foreseen := rfl
  release := (Order.release_publish o a b (b + 4)).trans (if_neg (by omega))
  sound _ ha hs := hs.publish ha b
  racy _ hm := hm
  dataRacy _ hm := hm

theorem Order.trail_finish {p : Nat} (hp : portAgent p = a) : Order.Trail a b n o (o.finish p) where
  events _ he := .inl he
  others _ _ := rfl
  own _ := le_rfl
  foreseen := rfl
  release := rfl
  sound _ ha hs := hs.finish (hp ▸ ha)
  racy _ hm := hm
  dataRacy _ hm := hm

/-- The copies of a transfer to slots (R140). -/
theorem Order.trail_copies {m e : Nat} {src dst : Nat → Nat} (h : ∀ k, k < m → b + 8 ≤ dst k ∧ dst k + e ≤ b + n)
    (hr : Relation.ReflTransGen (CopyRecorded a m e src dst) o o') : Order.Trail a b n o o' := by
  induction hr with
  | refl => exact .refl
  | tail _ hstep ih =>
    obtain ⟨k, hk, rfl⟩ := hstep
    obtain ⟨hlow, hhigh⟩ := h k hk
    exact ih.trans ((Order.trail_record (by simp [EventKind.isWrite])).trans
      ((Order.trail_record fun _ => ⟨by omega, hhigh, fun _ => hlow⟩).trans (Order.trail_overwrite hlow)))

end

/-- LoadIndices (R131). -/
theorem State.trail_orderLoaded (s : State) (b n : Nat) : Order.Trail s.agent b n s.order s.orderLoaded :=
  (Order.trail_record (by simp [EventKind.isWrite])).trans ((Order.trail_acquire _).trans
    ((Order.trail_record (by simp [EventKind.isWrite])).trans (Order.trail_acquire _)))

/-! ## Where the elements of a transfer lie (R47, R100, R132) -/

theorem rangesMeet_eq_false (a n b m : Nat) :
    rangesMeet a n b m = false ↔ n = 0 ∨ m = 0 ∨ b + m ≤ a ∨ a + n ≤ b := by
  simp only [rangesMeet, Bool.and_eq_false_iff, decide_eq_false_iff_not]
  omega

theorem bufferAddr_between {q : Port} {e off k : Nat} (hk : k < q.larg1.toNat) :
    q.larg0.toNat + off * e ≤ bufferAddr q e (off + k) ∧
      bufferAddr q e (off + k) + e ≤ q.larg0.toNat + off * e + q.larg1.toNat * e := by
  have hlast := mul_add_le_mul k q.larg1.toNat e hk
  simp only [bufferAddr, Nat.add_mul]
  omega

theorem bufferAddr_apart (q : Port) (e off : Nat) {k l : Nat} (h : k ≠ l) :
    bufferAddr q e (off + k) + e ≤ bufferAddr q e (off + l) ∨
      bufferAddr q e (off + l) + e ≤ bufferAddr q e (off + k) := by
  unfold bufferAddr
  rcases Nat.lt_or_gt_of_ne h with h | h
  · have := mul_add_le_mul (off + k) (off + l) e (by omega); omega
  · have := mul_add_le_mul (off + l) (off + k) e (by omega); omega

/-- Different elements of a transfer lie in different slots (R132). -/
theorem splitSlot_apart (b e : Nat) {S i n k l : Nat} (hi : i < S) (hn : n ≤ S - 1) (hk : k < n) (hl : l < n)
    (h : k ≠ l) : slotAddr b e (splitSlot S i n k) + e ≤ slotAddr b e (splitSlot S i n l) ∨
      slotAddr b e (splitSlot S i n l) + e ≤ slotAddr b e (splitSlot S i n k) := by
  apply slotAddr_apart
  rw [splitSlot_eq_mod S i n k hi hn hk, splitSlot_eq_mod S i n l hi hn hl]
  exact ring_place_ne S i k l hi (by omega) (by omega) h

/-- The slot of an element of a transfer lies past the index words, in the segment (R47). -/
theorem splitSlot_between (b e : Nat) {S i n k : Nat} (hi : i < S) (hn : n ≤ S - 1) (hk : k < n) :
    b + 8 ≤ slotAddr b e (splitSlot S i n k) ∧ slotAddr b e (splitSlot S i n k) + e ≤ b + segBytes S e :=
  slotAddr_inside b e S _ (splitSlot_lt hi hn hk)

/-- A ring whose indices are equal holds nothing (R130). -/
theorem availRead_self (S i : Nat) : availRead S i i = 0 := by
  rw [availRead, Nat.add_sub_cancel_left, Nat.mod_self]

/-- A ring whose write_index is `n` places on holds `n` elements (R130). -/
theorem availRead_advance {S i n : Nat} (hi : i < S) (hn : n < S) : availRead S i ((i + n) % S) = n := by
  have hlt : (i + n) % S < S := Nat.mod_lt _ (by omega)
  rw [availRead_eq S i _ hi hlt, ring_mod S i n hi (by omega)]
  split <;> split <;> omega

/-! ## The end of a transfer -/

section
variable {s u : State} {n e : Nat} {src dst : Nat → Nat} {isOpen : Nat → Nat → Bool} {x : List Byte}
  {result : Port → Port} {w v : Nat}

theorem transferEnd_elsewhere (hu : Elsewhere s u) : Elsewhere s (transferEnd s u w v result x) :=
  hu.trans ((elsewhere_publishStep u w v).trans (elsewhere_finishStep _ _))

theorem transferEnd_here (hu : Elsewhere s u) (hc : s.cur < s.ports.length) :
    (transferEnd s u w v result x).here = (result (s.loaded.copying .finish x)).ending.atRest :=
  State.here_finishStep _ _ ((hu.trans (elsewhere_publishStep u w v)).exists hc)

theorem transferEnd_read {a : Nat} (h : a < w ∨ w + 4 ≤ a) :
    (transferEnd s u w v result x).mem.read a = u.mem.read a := State.publishStep_read u w v a h

end

/-- The steps of a transfer of at most as many elements as asked for and as the ring can hold (R251). -/
theorem transferSteps_enough {q : Port} {n : Nat} (h1 : n ≤ q.larg1.toNat) (h2 : n ≤ q.nslots - 1) :
    ∃ fuel, transferSteps q = fuel + (5 + 2 * n) := by
  refine ⟨2 * (min q.larg1.toNat (q.nslots - 1) - n), ?_⟩
  have : n ≤ min q.larg1.toNat (q.nslots - 1) := le_min h1 h2
  unfold transferSteps
  omega

/-! ## A PUSH to an empty ring (R140) -/

/-- The state `t` after a PUSH of LARG1 elements from `s` to an empty ring: both index words and the slots in MEM, and
what the record says of them. -/
structure Published (s t : State) : Prop where
  elsewhere : Elsewhere s t
  segment : t.here.SameSegment s.here
  trail : Order.Trail s.agent s.here.base s.here.segLen s.order t.order
  release : t.order.release s.here.base = t.order.clock s.agent
  learned : ∀ d, (s.order.release s.here.base).getD d 0 ≤ t.order.time s.agent d
  slots : ∀ m, s.orderLoaded.racy s.agent m = false → t.order.racy s.agent m = false
  rdIndex : t.mem.readWord (s.here.base + 4) = s.rdIndex
  wrIndex : t.mem.readWord s.here.base =
    BitVec.ofNat 32 ((s.wrIndex.toNat + s.here.larg1.toNat) % s.here.nslots)
  elements : ∀ k j, k < s.here.larg1.toNat → j < s.here.esize →
    t.mem.read (pushSlot s.loaded s.here.esize k + j) =
      s.mem.read (bufferAddr s.here s.here.esize (s.here.larg2.toNat + k) + j)

/-- What a PUSH from `s` needs to publish LARG1 elements in an empty ring (R71, R77, R140): they fit, and the segment, its
index words, its slots and the buffer are apart and free of races. -/
structure PushReady (s : State) : Prop extends TransferReady s where
  role : s.here.role = .producer
  grant : s.here.grant = false
  empty : s.rdIndex = s.wrIndex
  fit : s.here.larg1.toNat < s.here.nslots
  some : 0 < s.here.larg1.toNat
  segmentApart : SegmentApart s
  settled : IndexSettled s s.orderLoaded s.here.base
  slotsQuiet : SlotsQuiet s
  bufferApart : BufferApart s s.here.esize s.here.larg2.toNat
  bufferQuiet : BufferQuiet s s.here.esize s.here.larg2.toNat

/-- The state after a PUSH from `s`, the one after its copies being `u`. -/
def pushEnd (s u : State) (x : List Byte) : State :=
  transferEnd s u s.here.base (advance s.here.nslots s.wrIndex.toNat s.here.larg1.toNat)
    (fun q => { q with res0 := BitVec.ofNat 32 (pushCount q) }) x

/-- The state after the copies of a PUSH of LARG1 elements. -/
abbrev PushCopied (s u : State) (x : List Byte) : Prop :=
  CopiesDone s u s.here.larg1.toNat s.here.esize
    (fun k => bufferAddr s.here s.here.esize (s.here.larg2.toNat + k)) (pushSlot s.loaded s.here.esize)
    (fun _ => pushOpen s.here.esize s.here.larg2.toNat s) x

section
variable {s u : State} {x : List Byte}

/-- A PUSH to an empty ring moves every element asked for, where they fit (R130, R140). -/
theorem PushReady.count (h : PushReady s) : pushCount s.loaded = s.here.larg1.toNat := by
  have hread : s.loaded.readable = 0 :=
    (congrArg (fun i => availRead s.here.nslots i s.wrIndex.toNat) (congrArg BitVec.toNat h.empty)).trans
      (availRead_self _ _)
  have hwrite : s.loaded.writable = s.here.nslots - 1 - s.loaded.readable := rfl
  have hcount : pushCount s.loaded = min s.loaded.writable s.here.larg1.toNat := rfl
  have hfit := h.fit
  omega

/-- An empty ring with room for an element is not full (R130). -/
theorem PushReady.next (h : PushReady s) : pushNext { s.loaded with pos := .loadWr } = .copyRead 0 := by
  have hfit := h.fit
  have hsome := h.some
  have hfull : s.loaded.fullNow = false := by
    have hdef : s.loaded.fullNow = isFull s.here.nslots s.rdIndex.toNat s.wrIndex.toNat := rfl
    rw [hdef, h.empty, isFull_eq _ _ _ h.loads.1.2]
    refine decide_eq_false ?_
    split <;> omega
  have hcount : pushCount s.loaded ≠ 0 := by rw [h.count]; omega
  exact (if_neg (Bool.eq_false_iff.mp hfull)).trans (if_neg hcount)

theorem PushReady.run (h : PushReady s) : ∃ u x, exec .push s = .next (pushEnd s u x) ∧ PushCopied s u x := by
  have T := h.toTransferReady.push h.role h.grant
  rw [h.count] at T
  obtain ⟨fuel, hfuel⟩ := transferSteps_enough (q := s.here) le_rfl (Nat.le_sub_one_of_lt h.fit)
  obtain ⟨u, x, hrun, hdone⟩ := T.run h.ready h.loads h.next h.some fuel
  refine ⟨u, x, ?_, hdone⟩
  rw [exec_runPort, stepBound, hfuel, hrun, pushEnd]

/-! The places of its elements. -/

theorem PushReady.slot_between (h : PushReady s) {k : Nat} (hk : k < s.here.larg1.toNat) :
    s.here.base + 8 ≤ pushSlot s.loaded s.here.esize k ∧
      pushSlot s.loaded s.here.esize k + s.here.esize ≤ s.here.base + s.here.segLen :=
  splitSlot_between s.here.base s.here.esize h.loads.1.2 (pushCount_le s.loaded) (h.count ▸ hk)

theorem PushReady.slot_apart (h : PushReady s) {i j : Nat} (hi : i < s.here.larg1.toNat) (hj : j < s.here.larg1.toNat)
    (hne : i ≠ j) : pushSlot s.loaded s.here.esize i + s.here.esize ≤ pushSlot s.loaded s.here.esize j ∨
      pushSlot s.loaded s.here.esize j + s.here.esize ≤ pushSlot s.loaded s.here.esize i :=
  splitSlot_apart s.here.base s.here.esize h.loads.1.2 (pushCount_le s.loaded) (h.count ▸ hi) (h.count ▸ hj) hne

theorem PushReady.slot_off_buffer (h : PushReady s) {i j : Nat} (hi : i < s.here.larg1.toNat)
    (hj : j < s.here.larg1.toNat) : pushSlot s.loaded s.here.esize i + s.here.esize ≤
        bufferAddr s.here s.here.esize (s.here.larg2.toNat + j) ∨
      bufferAddr s.here s.here.esize (s.here.larg2.toNat + j) + s.here.esize ≤ pushSlot s.loaded s.here.esize i := by
  have hslot := h.slot_between hi
  have hbuffer := bufferAddr_between (q := s.here) (e := s.here.esize) (off := s.here.larg2.toNat) hj
  have hapart := (rangesMeet_eq_false _ _ _ _).mp h.bufferApart
  omega

/-- No byte of a slot of the segment is left to any value (R71, R77, R141). -/
theorem PushReady.slot_settled (h : PushReady s) {m : Nat} (h1 : s.here.base + 8 ≤ m)
    (h2 : m < s.here.base + s.here.segLen) : pushOpen s.here.esize s.here.larg2.toNat s m = false ∧
      s.orderLoaded.mayRace s.agent m = false := by
  obtain ⟨j, rfl⟩ := Nat.exists_eq_add_of_le h1
  have hlen : s.here.segLen = 8 + s.here.nslots * s.here.esize := rfl
  refine ⟨?_, h.slotsQuiet j (by omega)⟩
  have hforeign : s.foreign (s.here.base + 8 + j) = false := by
    rw [Nat.add_assoc]
    exact h.segmentApart _ (by omega)
  exact Bool.or_eq_false_iff.mpr ⟨hforeign, h.bufferApart⟩

/-! What its end leaves. -/

theorem pushEnd_order (hu : Elsewhere s u) : (pushEnd s u x).order =
    ((u.order.record s.agent .store s.here.base 4).publish s.agent s.here.base).finish s.cur := by
  rw [← hu.agent, ← hu.cur]
  rfl

/-- The publishing store carries the producer's clock (R74 edge 2). -/
theorem pushEnd_release (hu : Elsewhere s u) :
    (pushEnd s u x).order.release s.here.base = (pushEnd s u x).order.clock s.agent := by
  rw [pushEnd_order hu]
  exact (Order.release_publish (u.order.record s.agent .store s.here.base 4) _ _ _).trans (if_pos rfl)

/-- A transfer ends on the segment it ran on (R94). -/
theorem Port.sameSegment_transferred (q : Port) (rd wr w : Word) (pos : EnginePos) (x : List Byte) :
    ({ Port.copying { q with lrd := rd, lwr := wr } pos x with res0 := w }).ending.atRest.SameSegment q :=
  ⟨Port.bound_ending _, rfl, rfl, rfl⟩

theorem pushEnd_segment (hu : Elsewhere s u) (hc : s.cur < s.ports.length) :
    (pushEnd s u x).here.SameSegment s.here := by
  rw [pushEnd, transferEnd_here hu hc]
  exact Port.sameSegment_transferred s.here s.rdIndex s.wrIndex _ .finish x

/-- LoadIndices learns what the last store of write_index published (R74 edge 2). -/
theorem State.release_le_orderLoaded (hs : s.order.Sound (s.ports.length + 1)) (hc : s.cur < s.ports.length) (d : Nat) :
    (s.order.release s.here.base).getD d 0 ≤ s.orderLoaded.time s.agent d := by
  have hlen := hs.clocksLength
  have hrelease : (s.orderRd.record s.agent .load s.here.base 4).release s.here.base = s.order.release s.here.base := rfl
  rw [← hrelease, State.orderLoaded, Order.acquire]
  apply Order.le_time_learn
  simp only [State.orderRd, Order.record, Order.acquire, Order.learn, List.length_set, State.agent, portAgent]
  omega

theorem PushReady.trail (h : PushReady s) (hu : PushCopied s u x) :
    Order.Trail s.agent s.here.base s.here.segLen s.orderLoaded u.order ∧
      Order.Trail s.agent s.here.base s.here.segLen s.orderLoaded (pushEnd s u x).order := by
  have hcopies := Order.trail_copies (fun k hk => h.slot_between hk) hu.recorded
  rw [pushEnd_order hu.elsewhere]
  refine ⟨hcopies, hcopies.trans ((Order.trail_record fun _ => ⟨le_rfl, ?_, by simp⟩).trans
    (Order.trail_publish.trans (Order.trail_finish rfl)))⟩
  simp only [Port.segLen, segBytes, Config.headerSize]
  omega

/-- The element that copy `k` took from the buffer stands in its slot (R140). -/
theorem PushReady.elements (h : PushReady s) (hu : PushCopied s u x) {k j : Nat} (hk : k < s.here.larg1.toNat)
    (hj : j < s.here.esize) : (pushEnd s u x).mem.read (pushSlot s.loaded s.here.esize k + j) =
      s.mem.read (bufferAddr s.here s.here.esize (s.here.larg2.toNat + k) + j) := by
  obtain ⟨hlow, hhigh⟩ := h.slot_between hk
  obtain ⟨hopen, hrace⟩ := h.slot_settled (m := pushSlot s.loaded s.here.esize k + j) (by omega) (by omega)
  obtain ⟨hstart, hlast⟩ := bufferAddr_between (q := s.here) (e := s.here.esize) (off := s.here.larg2.toNat) hk
  have hsource : s.orderLoaded.mayRace s.agent
      (bufferAddr s.here s.here.esize (s.here.larg2.toNat + k) + j) = false := by
    have := h.bufferQuiet (bufferAddr s.here s.here.esize (s.here.larg2.toNat + k) + j -
      (s.here.larg0.toNat + s.here.larg2.toNat * s.here.esize)) (by omega)
    rwa [Nat.add_sub_cancel' (by omega)] at this
  rw [pushEnd, transferEnd_read (by omega)]
  exact hu.copied.2 (fun _ _ => h.slot_off_buffer) (fun _ _ => h.slot_apart) k j (Nat.zero_le _) hk hj hopen hsource
    ((Order.mayRace_eq_false _ _ _).mp hrace).1

/-- The copies of a PUSH leave both index words as they are (R47). -/
theorem PushReady.copies_indices (h : PushReady s) (hu : PushCopied s u x) {a : Nat} (ha : a < s.here.base + 8) :
    u.mem.read a = s.mem.read a :=
  hu.copied.1 a fun i _ hi => by have := (h.slot_between hi).1; omega

theorem PushReady.rdIndex (h : PushReady s) (hu : PushCopied s u x) :
    (pushEnd s u x).mem.readWord (s.here.base + 4) = s.rdIndex :=
  Memory.readWord_congr _ _ _ fun a h1 h2 => by
    rw [pushEnd, transferEnd_read (by omega), h.copies_indices hu (by omega)]

/-- The published index stands in MEM (R66, R71, R77). -/
theorem PushReady.wrIndex (h : PushReady s) (hu : PushCopied s u x) : (pushEnd s u x).mem.readWord s.here.base =
    BitVec.ofNat 32 ((s.wrIndex.toNat + s.here.larg1.toNat) % s.here.nslots) := by
  have hsame : u.here.SameSegment s.here := by rw [hu.here]; exact ⟨rfl, rfl, rfl, rfl⟩
  have hquiet : ∀ j, j < 4 → (u.foreign (s.here.base + j) || u.order.dataRacy u.agent (s.here.base + j)) = false := by
    intro j hj
    obtain ⟨hforeign, hracy⟩ := h.settled j hj
    rw [hu.elsewhere.foreign hsame, hu.elsewhere.agent, hforeign, (h.trail hu).1.dataRacy _ hracy]
    rfl
  have hmem : (pushEnd s u x).mem = u.mem.writeBytes s.here.base
      (leBytes (BitVec.ofNat 32 (advance s.here.nslots s.wrIndex.toNat s.here.larg1.toNat))) := by
    rw [← State.landedBytes_quiet u s.here.base (fun m => u.foreign m || u.order.dataRacy u.agent m) (leBytes _) hquiet]
    rfl
  rw [hmem, Memory.readWord_writeBytes]
  rfl

/-- A PUSH of elements that fit an empty ring publishes them. -/
theorem PushReady.published (h : PushReady s) (hs : s.order.Sound (s.ports.length + 1)) :
    ∃ t, exec .push s = .next t ∧ Published s t := by
  obtain ⟨u, x, hexec, hu⟩ := h.run
  obtain ⟨-, htrail⟩ := h.trail hu
  have hloaded := s.trail_orderLoaded s.here.base s.here.segLen
  exact ⟨_, hexec, transferEnd_elsewhere hu.elsewhere, pushEnd_segment hu.elsewhere h.ready.1, hloaded.trans htrail,
    pushEnd_release hu.elsewhere, fun d => (State.release_le_orderLoaded hs h.ready.1 d).trans (htrail.own d), htrail.racy,
    h.rdIndex hu, h.wrIndex hu, fun k j hk hj => h.elements hu hk hj⟩

end

/-! ## A POP of the elements of a ring (R145) -/

/-- What a POP from `s` needs to take `n` elements out of the ring intact (R71, R77, R145): it finds them, its buffer lies
off every bound segment, and the buffer and the slots are free of races. -/
structure PopReady (s : State) (n : Nat) : Prop extends TransferReady s where
  role : s.here.role = .consumer
  count : popCount s.loaded = n
  some : 0 < n
  buffer : s.meetsBound (bufferAddr s.here s.here.esize s.here.larg2.toNat) (bufferLen s.here s.here.esize) = false
  bufferQuiet : BufferQuiet s s.here.esize s.here.larg2.toNat
  slotsQuiet : SlotsQuiet s

/-- A range that meets no bound segment is apart from each. -/
theorem State.rangesMeet_of_meetsBound {s : State} {a n p : Nat} (h : s.meetsBound a n = false)
    (hp : p < s.ports.length) (hb : (s.port p).bound = true) :
    rangesMeet a n (s.port p).base (s.port p).segLen = false := by
  by_contra hmeet
  have hsome : s.meetsBound a n = true := (s.any_ports _).mpr ⟨p, hp, by simp [hb, eq_true_of_ne_false hmeet]⟩
  rw [h] at hsome
  cases hsome

/-- No byte of a range that meets no bound segment lies in one. -/
theorem State.inSegment_of_meetsBound {s : State} {a n m : Nat} (h : s.meetsBound a n = false) (h1 : a ≤ m)
    (h2 : m < a + n) : s.inSegment m = false := by
  by_contra hin
  obtain ⟨p, hp, hport⟩ := (s.any_ports _).mp (eq_true_of_ne_false hin)
  simp only [inRange, Bool.and_eq_true, decide_eq_true_eq] at hport
  obtain ⟨hb, hlow, hhigh⟩ := hport
  have := (rangesMeet_eq_false _ _ _ _).mp (s.rangesMeet_of_meetsBound h hp hb)
  omega

section
variable {s u : State} {n : Nat} {x : List Byte}

theorem PopReady.le (h : PopReady s n) : n ≤ s.here.larg1.toNat ∧ n ≤ s.here.nslots - 1 := by
  rw [← h.count]
  exact ⟨popCount_le_len s.loaded, popCount_le (q := s.loaded) (Nat.zero_lt_of_lt h.loads.1.1)⟩

/-- A ring with an element to take is not empty (R130). -/
theorem PopReady.next (h : PopReady s n) : popNext { s.loaded with pos := .loadWr } = .copyRead 0 := by
  have hcount : popCount s.loaded ≠ 0 := by rw [h.count]; exact h.some.ne'
  have hempty : s.loaded.emptyNow = false := by
    refine decide_eq_false fun heq => hcount ?_
    have hread : s.loaded.readable = 0 := (congrArg (availRead s.loaded.nslots s.loaded.lrd.toNat) heq).trans
      (availRead_self _ _)
    rw [popCount, hread, Nat.zero_min]
  exact (if_neg (Bool.eq_false_iff.mp hempty)).trans (if_neg hcount)

/-- The state after a POP from `s`, the one after its copies being `u`. -/
def popEnd (s u : State) (n : Nat) (x : List Byte) : State :=
  transferEnd s u (s.here.base + 4) (advance s.here.nslots s.rdIndex.toNat n)
    (fun q => { q with res0 := BitVec.ofNat 32 (popCount q) }) x

/-- The state after the copies of a POP of `n` elements. -/
abbrev PopCopied (s u : State) (n : Nat) (x : List Byte) : Prop :=
  CopiesDone s u n s.here.esize (popSlot s.loaded s.here.esize)
    (fun k => bufferAddr s.here s.here.esize (s.here.larg2.toNat + k))
    (fun _ => popOpen s.here.esize s.here.larg2.toNat s) x

theorem PopReady.run (h : PopReady s n) : ∃ u x, exec .pop s = .next (popEnd s u n x) ∧ PopCopied s u n x := by
  have T := h.toTransferReady.pop h.role
  rw [h.count] at T
  obtain ⟨fuel, hfuel⟩ := transferSteps_enough h.le.1 h.le.2
  obtain ⟨u, x, hrun, hdone⟩ := T.run h.ready h.loads h.next h.some fuel
  refine ⟨u, x, ?_, hdone⟩
  rw [exec_runPort, stepBound, hfuel, hrun, popEnd]

theorem PopReady.slot_between (h : PopReady s n) {k : Nat} (hk : k < n) :
    s.here.base + 8 ≤ popSlot s.loaded s.here.esize k ∧
      popSlot s.loaded s.here.esize k + s.here.esize ≤ s.here.base + s.here.segLen :=
  splitSlot_between s.here.base s.here.esize h.loads.1.1 (h.count ▸ h.le.2) (h.count ▸ hk)

/-- The buffer lies off the port's own segment too. -/
theorem PopReady.bufferApart (h : PopReady s n) : BufferApart s s.here.esize s.here.larg2.toNat :=
  s.rangesMeet_of_meetsBound h.buffer h.ready.1 h.bound

theorem PopReady.buffer_off_segment (h : PopReady s n) (he : 0 < s.here.esize) {k : Nat} (hk : k < n) :
    bufferAddr s.here s.here.esize (s.here.larg2.toNat + k) + s.here.esize ≤ s.here.base ∨
      s.here.base + s.here.segLen ≤ bufferAddr s.here s.here.esize (s.here.larg2.toNat + k) := by
  have hbuffer := bufferAddr_between (q := s.here) (e := s.here.esize) (off := s.here.larg2.toNat)
    (hk.trans_le h.le.1)
  have hapart := (rangesMeet_eq_false _ _ _ _).mp h.bufferApart
  have hlen : s.here.segLen = 8 + s.here.nslots * s.here.esize := rfl
  omega

theorem PopReady.buffer_off_slot (h : PopReady s n) (he : 0 < s.here.esize) {i k : Nat} (hi : i < n) (hk : k < n) :
    bufferAddr s.here s.here.esize (s.here.larg2.toNat + i) + s.here.esize ≤ popSlot s.loaded s.here.esize k ∨
      popSlot s.loaded s.here.esize k + s.here.esize ≤ bufferAddr s.here s.here.esize (s.here.larg2.toNat + i) := by
  have := h.buffer_off_segment he hi
  have := h.slot_between hk
  omega

/-- The element that copy `k` took from its slot stands in the buffer (R145). -/
theorem PopReady.elements (h : PopReady s n) (hu : PopCopied s u n x) {k j : Nat} (hk : k < n) (hj : j < s.here.esize) :
    (popEnd s u n x).mem.read (bufferAddr s.here s.here.esize (s.here.larg2.toNat + k) + j) =
      s.mem.read (popSlot s.loaded s.here.esize k + j) := by
  obtain ⟨hstart, hlast⟩ := bufferAddr_between (q := s.here) (e := s.here.esize) (off := s.here.larg2.toNat)
    (hk.trans_le h.le.1)
  obtain ⟨hlow, hhigh⟩ := h.slot_between hk
  have hlen : s.here.segLen = 8 + s.here.nslots * s.here.esize := rfl
  have hopen : popOpen s.here.esize s.here.larg2.toNat s
      (bufferAddr s.here s.here.esize (s.here.larg2.toNat + k) + j) = false :=
    Bool.or_eq_false_iff.mpr ⟨s.inSegment_of_meetsBound h.buffer (by unfold bufferAddr at *; omega)
      (by unfold bufferAddr bufferLen at *; omega), h.bufferApart⟩
  have hsource : s.orderLoaded.mayRace s.agent (popSlot s.loaded s.here.esize k + j) = false := by
    have := h.slotsQuiet (popSlot s.loaded s.here.esize k + j - (s.here.base + 8)) (by omega)
    rwa [Nat.add_sub_cancel' (by omega)] at this
  have hdest : s.orderLoaded.mayRace s.agent
      (bufferAddr s.here s.here.esize (s.here.larg2.toNat + k) + j) = false := by
    have := h.bufferQuiet (bufferAddr s.here s.here.esize (s.here.larg2.toNat + k) + j -
      (s.here.larg0.toNat + s.here.larg2.toNat * s.here.esize)) (by omega)
    rwa [Nat.add_sub_cancel' (by omega)] at this
  have he : 0 < s.here.esize := Nat.zero_lt_of_lt hj
  have hoff := h.buffer_off_segment he hk
  rw [popEnd, transferEnd_read (by omega)]
  exact hu.copied.2 (fun _ _ => h.buffer_off_slot he) (fun _ _ _ _ => bufferAddr_apart _ _ _) k j (Nat.zero_le _) hk hj
    hopen hsource ((Order.mayRace_eq_false _ _ _).mp hdest).1

/-- A POP takes the elements out of the ring, and its RES0 says how many (R145). -/
theorem PopReady.popped (h : PopReady s n) : ∃ t, exec .pop s = .next t ∧ Elsewhere s t ∧
    t.here.res0 = BitVec.ofNat 32 n ∧ ∀ k j, k < n → j < s.here.esize →
      t.mem.read (bufferAddr s.here s.here.esize (s.here.larg2.toNat + k) + j) =
        s.mem.read (popSlot s.loaded s.here.esize k + j) := by
  obtain ⟨u, x, hexec, hu⟩ := h.run
  refine ⟨_, hexec, transferEnd_elsewhere hu.elsewhere, ?_, fun k j hk hj => h.elements hu hk hj⟩
  rw [popEnd, transferEnd_here hu.elsewhere h.ready.1, ← h.count]
  rfl

end

/-! ## What another port has learned since (R74 edge 2) -/

/-- Where agent `a` stands in `o'` against `o`: nothing it had learned is lost, the same reads are foreseen to race, and
every event that `W` asks for was there already. -/
structure Order.NoLess (a : Nat) (W : MemEvent → Prop) (o o' : Order) : Prop where
  inside : a < o'.clocks.length
  time : ∀ d, d ≠ a → o.time a d ≤ o'.time a d
  foreseen : o'.foreseen = o.foreseen
  events : ∀ e ∈ o'.trace, W e → e ∈ o.trace

section
variable {a m : Nat} {W : MemEvent → Prop} {o o' : Order}

theorem Order.NoLess.covers (h : Order.NoLess a W o o') {e : MemEvent} (he : o.covers a e = true) :
    o'.covers a e = true := by
  rw [Order.covers_iff] at he ⊢
  by_cases hown : e.agent = a
  · exact .inl hown
  · exact .inr ((he.resolve_left hown).trans (h.time _ hown))

/-- The agent's own load adds nothing that is asked for. -/
theorem Order.NoLess.load (h : Order.NoLess a W o o') (x : Nat) (hW : ∀ e, W e → e.kind ≠ .load) :
    Order.NoLess a W (o.record a .load x 4) (o'.record a .load x 4) where
  inside := (List.length_set ..).symm ▸ h.inside
  time d hd := by
    rw [Order.time_record, Order.time_record, if_neg fun hh => hd hh.2.2.1.symm, if_neg fun hh => hd hh.2.2.1.symm]
    exact h.time d hd
  foreseen := h.foreseen
  events e he hwe := by
    rcases List.mem_cons.mp he with rfl | he
    · exact absurd rfl (hW _ hwe)
    · exact List.mem_cons_of_mem _ (h.events e he hwe)

/-- Nor is anything lost against an agent that learns of a store that carries no more. -/
theorem Order.NoLess.acquire (h : Order.NoLess a W o o') (x : Nat)
    (hrelease : ∀ d, (o.release x).getD d 0 ≤ (o'.release x).getD d 0) :
    Order.NoLess a W (o.acquire a x) (o'.acquire a x) where
  inside := (List.length_set ..).symm ▸ h.inside
  time d hd := by
    have hlearns : a = a ∧ a < o'.clocks.length := ⟨rfl, h.inside⟩
    rw [Order.acquire, Order.acquire, Order.time_learn, Order.time_learn o', if_pos hlearns]
    split
    · exact max_le_max (h.time d hd) (hrelease d)
    · exact (h.time d hd).trans (le_max_left _ _)
  foreseen := h.foreseen
  events := h.events

theorem Order.NoLess.lateAt (h : Order.NoLess a W o o') : o'.lateAt m = o.lateAt m := by
  rw [Order.lateAt, Order.lateAt, h.foreseen]

/-- A byte that nothing further was written to is in no more races than before. -/
theorem Order.NoLess.mayRace (h : Order.NoLess a (fun e => e.kind.isWrite = true ∧ e.touches m = true) o o')
    (hm : o.mayRace a m = false) : o'.mayRace a m = false := by
  rw [Order.mayRace_eq_false] at hm ⊢
  obtain ⟨hracy, hlate⟩ := hm
  refine ⟨?_, h.lateAt.trans hlate⟩
  simp only [Order.racy, List.any_eq_false, Bool.and_eq_true, Bool.not_eq_true', not_and, Bool.not_eq_false] at hracy ⊢
  exact fun e he hw => h.covers (hracy e (h.events e he hw) hw)

/-- The load of a byte that nothing further was written to with data, in no race before and in none to come, is in no
race. -/
theorem Order.NoLess.loadOpen (h : Order.NoLess a (fun e => e.kind = .write ∧ e.touches m = true) o o')
    (hlate : o.lateAt m = false) (hm : o.loadOpen a m = false) : o'.loadOpen a m = false := by
  obtain ⟨hracy, -⟩ := Bool.or_eq_false_iff.mp hm
  refine Bool.or_eq_false_iff.mpr ⟨?_, ?_⟩
  · simp only [Order.dataRacy, List.any_eq_false, Bool.and_eq_true, Bool.not_eq_true', not_and, Bool.not_eq_false,
      beq_iff_eq] at hracy ⊢
    exact fun e he hw => h.covers (hracy e (h.events e he hw) hw)
  · by_contra hforeseen
    have := o'.lateAt_of_foresees m (eq_true_of_ne_false hforeseen)
    rw [h.lateAt, hlate] at this
    cases this

end

/-! ## The two ports of a segment (R74 edge 2, R75) -/

/-- The machine, port `c` being the one that executes next. -/
abbrev State.turn (s : State) (c : Nat) : State := { s with cur := c }

/-- What port `c`, another port of the segment that the PUSH from `s` runs on, needs to take its elements out of it
intact: it knows of no race at its index words and none at its buffer, which lies off every bound segment. -/
structure TakerReady (s : State) (c : Nat) : Prop where
  ready : Ready (s.turn c)
  other : c ≠ s.cur
  segment : (s.port c).SameSegment s.here
  bound : (s.port c).bound = true
  role : (s.port c).role = .consumer
  aligned : (s.port c).larg0.toNat % (s.port c).esize = 0
  enough : s.here.larg1.toNat ≤ (s.port c).larg1.toNat
  indicesQuiet : IndicesQuiet (s.turn c)
  late : ∀ j, j < 8 → s.order.lateAt (s.here.base + j) = false
  inMem : BufferInMem (s.turn c) (s.port c).esize (s.port c).larg2.toNat
  buffer : (s.turn c).meetsBound ((s.port c).larg0.toNat + (s.port c).larg2.toNat * (s.port c).esize)
    ((s.port c).larg1.toNat * (s.port c).esize) = false
  bufferQuiet : BufferQuiet (s.turn c) (s.port c).esize (s.port c).larg2.toNat

section
variable {s t : State} {c : Nat} {W : MemEvent → Prop}

theorem State.turn_orderRd (s : State) (c : Nat) : (s.turn c).orderRd =
    (s.order.record (portAgent c) .load ((s.port c).base + 4) 4).acquire (portAgent c) ((s.port c).base + 4) := rfl

theorem State.turn_orderLoaded (s : State) (c : Nat) : (s.turn c).orderLoaded =
    ((s.turn c).orderRd.record (portAgent c) .load (s.port c).base 4).acquire (portAgent c) (s.port c).base := rfl

/-- A data write to an index word is none of the producer's (R47). -/
theorem not_producerEvent_index {b n m : Nat} {e : MemEvent} (hm : m < b + 8) (hp : ProducerEvent b n e) :
    ¬ (e.kind = .write ∧ e.touches m = true) := by
  rintro ⟨hk, ht⟩
  obtain ⟨-, -, hslots⟩ := hp (by rw [hk]; rfl)
  have hstart := hslots hk
  simp only [MemEvent.touches, Bool.and_eq_true, decide_eq_true_eq] at ht
  omega

/-- Nor is a write outside the segment. -/
theorem not_producerEvent_outside {b n m : Nat} {e : MemEvent} (hm : m < b ∨ b + n ≤ m) (hp : ProducerEvent b n e) :
    ¬ (e.kind.isWrite = true ∧ e.touches m = true) := by
  rintro ⟨hk, ht⟩
  obtain ⟨hlow, hhigh, -⟩ := hp hk
  simp only [MemEvent.touches, Bool.and_eq_true, decide_eq_true_eq] at ht
  omega

/-- The ports of a machine in which port `s.cur` has published to port `c` the elements of its PUSH. -/
structure Handover (s t : State) (c : Nat) : Prop extends Published s t where
  sound : s.order.Sound (s.ports.length + 1)
  push : PushReady s
  taker : TakerReady s c

/-! What the other port finds (R131). -/

theorem Handover.port (H : Handover s t c) : t.port c = s.port c := H.elsewhere.2.2.2.2.2.2 c H.taker.other

theorem Handover.length (H : Handover s t c) : t.ports.length = s.ports.length := H.elsewhere.2.2.2.2.2.1

theorem Handover.rdIndex_turn (H : Handover s t c) : (t.turn c).rdIndex = s.rdIndex := by
  have hread : (t.turn c).rdIndex = t.mem.readWord ((t.port c).base + 4) := rfl
  rw [hread, H.port, H.taker.segment.2.1, H.rdIndex]

theorem Handover.wrIndex_turn (H : Handover s t c) :
    (t.turn c).wrIndex.toNat = (s.wrIndex.toNat + s.here.larg1.toNat) % s.here.nslots := by
  have hread : (t.turn c).wrIndex = t.mem.readWord (t.port c).base := rfl
  have hlt : (s.wrIndex.toNat + s.here.larg1.toNat) % s.here.nslots < s.here.nslots :=
    Nat.mod_lt _ (Nat.zero_lt_of_lt H.push.fit)
  have hslots : s.here.nslots < 2 ^ 32 := s.here.slots.isLt
  rw [hread, H.port, H.taker.segment.2.1, H.wrIndex, BitVec.toNat_ofNat, Nat.mod_eq_of_lt (hlt.trans hslots)]

theorem Handover.count (H : Handover s t c) : popCount (t.turn c).loaded = s.here.larg1.toNat := by
  have hcount : popCount (t.turn c).loaded = min (availRead (t.port c).nslots (t.turn c).rdIndex.toNat
    (t.turn c).wrIndex.toNat) (t.port c).larg1.toNat := rfl
  rw [hcount, H.rdIndex_turn, H.wrIndex_turn, H.port, H.taker.segment.2.2.1, H.push.empty,
    availRead_advance H.push.loads.1.2 H.push.fit]
  exact min_eq_left H.taker.enough

/-- The slots it reads are the slots the elements were written to (R132). -/
theorem Handover.slots_eq (H : Handover s t c) (k : Nat) :
    popSlot (t.turn c).loaded (t.port c).esize k = pushSlot s.loaded s.here.esize k := by
  have hpop : popSlot (t.turn c).loaded (t.port c).esize k = slotAddr (t.port c).base (t.port c).esize
    (splitSlot (t.port c).nslots (t.turn c).rdIndex.toNat (popCount (t.turn c).loaded) k) := rfl
  have hpush : pushSlot s.loaded s.here.esize k = slotAddr s.here.base s.here.esize
    (splitSlot s.here.nslots s.wrIndex.toNat (pushCount s.loaded) k) := rfl
  obtain ⟨-, hbase, hslots, hsize⟩ := H.taker.segment
  rw [hpop, hpush, H.count, H.push.count, H.rdIndex_turn, H.push.empty, H.port, hbase, hslots, hsize]

/-! What it knows of the record. -/

/-- A PUSH takes nothing from what another port has learned. -/
theorem Handover.noLess (H : Handover s t c) (hW : ∀ e, ProducerEvent s.here.base s.here.segLen e → ¬ W e) :
    Order.NoLess (portAgent c) W s.order t.order where
  inside := by
    rw [(H.trail.sound _ (Nat.succ_lt_succ H.push.ready.1) H.sound).clocksLength]
    exact Nat.succ_lt_succ H.taker.ready.1
  time d _ := by
    have hne : portAgent c ≠ s.agent := fun h => H.taker.other (Nat.succ.inj h)
    rw [Order.time, Order.time, H.trail.others _ hne]
  foreseen := H.trail.foreseen
  events e he hwe := (H.trail.events e he).resolve_right fun hp => hW e hp hwe

theorem Handover.noLess_orderRd (H : Handover s t c) (hW : ∀ e, ProducerEvent s.here.base s.here.segLen e → ¬ W e)
    (hload : ∀ e, W e → e.kind ≠ .load) : Order.NoLess (portAgent c) W (s.turn c).orderRd (t.turn c).orderRd := by
  rw [State.turn_orderRd, State.turn_orderRd, H.port, H.taker.segment.2.1]
  exact ((H.noLess hW).load _ hload).acquire _
    fun d => le_of_eq (congrArg (fun clock => List.getD clock d 0) H.trail.release.symm)

/-- The store that published the index carries no less than the one before it. -/
theorem Handover.release_le (H : Handover s t c) (d : Nat) :
    (s.order.release s.here.base).getD d 0 ≤ (t.order.release s.here.base).getD d 0 := by
  rw [H.release]
  exact H.learned d

theorem Handover.noLess_orderLoaded (H : Handover s t c)
    (hW : ∀ e, ProducerEvent s.here.base s.here.segLen e → ¬ W e) (hload : ∀ e, W e → e.kind ≠ .load) :
    Order.NoLess (portAgent c) W (s.turn c).orderLoaded (t.turn c).orderLoaded := by
  rw [State.turn_orderLoaded, State.turn_orderLoaded, H.port, H.taker.segment.2.1]
  exact ((H.noLess_orderRd hW hload).load _ hload).acquire _ H.release_le

/-! What it may read and write without a race. -/

theorem Handover.here (H : Handover s t c) : (t.turn c).here = s.port c := H.port

/-- Both loads go through: nothing but the publishing store was written to an index word. -/
theorem Handover.indicesQuiet (H : Handover s t c) : IndicesQuiet (t.turn c) := by
  obtain ⟨hrd, hwr⟩ := H.taker.indicesQuiet
  have hload : ∀ (m : Nat) (e : MemEvent), e.kind = .write ∧ e.touches m = true → e.kind ≠ .load := fun m e hw => by
    rw [hw.1]; decide
  have hstart : (s.turn c).here.base = s.here.base := H.taker.segment.2.1
  rw [hstart] at hrd hwr
  rw [IndicesQuiet, H.here, H.taker.segment.2.1]
  refine ⟨fun j hj => ?_, fun j hj => ?_⟩
  · have hlate : s.order.lateAt (s.here.base + 4 + j) = false := by
      rw [Nat.add_assoc]; exact H.taker.late _ (by omega)
    exact ((H.noLess fun e => not_producerEvent_index (by omega)).acquire _
      fun d => le_of_eq (congrArg (fun clock => List.getD clock d 0) H.trail.release.symm)).loadOpen hlate (hrd j hj)
  · exact ((H.noLess_orderRd (fun e => not_producerEvent_index (by omega)) (hload _)).acquire _
      H.release_le).loadOpen (H.taker.late _ (by omega)) (hwr j hj)

/-- The buffer is in no race: the PUSH wrote to the segment alone. -/
theorem Handover.bufferQuiet (H : Handover s t c) :
    BufferQuiet (t.turn c) (t.turn c).here.esize (t.turn c).here.larg2.toNat := by
  rw [BufferQuiet, Quiet, H.here]
  intro j hj
  have hapart := (rangesMeet_eq_false _ _ _ _).mp
    ((s.turn c).rangesMeet_of_meetsBound H.taker.buffer H.taker.ready.1 H.taker.bound)
  have hport : (s.turn c).port c = s.port c := rfl
  have hlen : (s.port c).segLen = 8 + (s.port c).nslots * (s.port c).esize := rfl
  have hown : s.here.segLen = 8 + s.here.nslots * s.here.esize := rfl
  obtain ⟨-, hbase, hslots, hsize⟩ := H.taker.segment
  rw [hport, hlen, hbase, hslots] at hapart
  rw [← hsize] at hown
  exact (H.noLess_orderLoaded (fun e => not_producerEvent_outside (by omega))
    (fun e hw => by rintro hk; rw [hk] at hw; cases hw.1)).mayRace (H.taker.bufferQuiet j hj)

/-- The slots are in no race: the load of write_index has learned all that the producer knew (R74 edge 2). -/
theorem Handover.slotsQuiet (H : Handover s t c) : SlotsQuiet (t.turn c) := by
  obtain ⟨-, hbase, hslots, hsize⟩ := H.taker.segment
  rw [SlotsQuiet, Quiet, H.here, hbase, hslots, hsize]
  intro j hj
  obtain ⟨hracy, hlate⟩ := (Order.mayRace_eq_false _ _ _).mp (H.push.slotsQuiet j hj)
  have hsound := H.trail.sound _ (Nat.succ_lt_succ H.push.ready.1) H.sound
  have htime : ∀ d, t.order.time s.agent d ≤ (t.turn c).orderLoaded.time (portAgent c) d := fun d => by
    have hlearned := (t.turn c).release_le_orderLoaded (H.length ▸ hsound) (H.length ▸ H.taker.ready.1) d
    rwa [H.here, hbase, show (t.turn c).order = t.order from rfl, H.release] at hlearned
  have htrace : ∀ e ∈ (t.turn c).orderLoaded.trace, e.kind.isWrite = true → e ∈ t.order.trace := by
    intro e he hw
    rw [State.turn_orderLoaded, State.turn_orderRd] at he
    rcases List.mem_cons.mp he with rfl | he
    · cases hw
    rcases List.mem_cons.mp he with rfl | he
    · cases hw
    exact he
  refine (Order.mayRace_eq_false _ _ _).mpr
    ⟨hsound.racy_handover htrace htime (H.slots _ hracy), ?_⟩
  have hforeseen : (t.turn c).orderLoaded.foreseen = s.orderLoaded.foreseen := H.trail.foreseen
  rw [Order.lateAt, hforeseen]
  exact hlate

/-- The other port's POP finds what it needs. -/
theorem Handover.popReady (H : Handover s t c) : PopReady (t.turn c) s.here.larg1.toNat where
  ready := ⟨H.length ▸ H.taker.ready.1, (congrArg Port.pos H.here).trans H.taker.ready.2⟩
  bound := (congrArg Port.bound H.here).trans H.taker.bound
  aligned := by rw [H.here]; exact H.taker.aligned
  inMem := by
    have hcfg : (t.turn c).cfg = s.cfg := H.elsewhere.1
    rw [BufferInMem, H.here, hcfg]; exact H.taker.inMem
  loads := by
    refine ⟨?_, H.indicesQuiet⟩
    rw [ValidIndices, H.rdIndex_turn, H.wrIndex_turn, H.here, H.taker.segment.2.2.1]
    exact ⟨H.push.loads.1.1, Nat.mod_lt _ (Nat.zero_lt_of_lt H.push.fit)⟩
  role := (congrArg Port.role H.here).trans H.taker.role
  count := H.count
  some := H.push.some
  buffer := by
    rw [H.here]
    exact (H.elsewhere.meetsBound H.segment _ _).trans H.taker.buffer
  bufferQuiet := H.bufferQuiet
  slotsQuiet := H.slotsQuiet

/-- The elements of the PUSH arrive in the other port's buffer. -/
theorem Handover.arrives (H : Handover s t c) : ∃ u, exec .pop (t.turn c) = .next u ∧
    (u.port c).res0 = s.here.larg1 ∧ ∀ k j, k < s.here.larg1.toNat → j < s.here.esize →
      u.mem.read (bufferAddr (s.port c) s.here.esize ((s.port c).larg2.toNat + k) + j) =
        s.mem.read (bufferAddr s.here s.here.esize (s.here.larg2.toNat + k) + j) := by
  obtain ⟨u, hexec, helsewhere, hres, hbytes⟩ := H.popReady.popped
  refine ⟨u, hexec, ?_, fun k j hk hj => ?_⟩
  · have hcur : u.here = u.port c := congrArg u.port helsewhere.cur
    rw [← hcur, hres, BitVec.ofNat_toNat, BitVec.setWidth_eq]
  · have hsize := H.taker.segment.2.2.2
    have hmoved := hbytes k j hk (by rw [H.here, hsize]; exact hj)
    rw [H.here, ← H.port, H.slots_eq, H.port, hsize] at hmoved
    exact hmoved.trans (H.elements k j hk hj)

end

/-- Settles O57: the store that publishes write_index carries what the producer knew to the port that loads it. -/
theorem publishedElementsArriveIntact : Obligations.PublishedElementsArriveIntact := by
  intro s c hs hready hc hother hpos hbound hboundC hrole hroleC hbase hslots hsize hgrant haligned halignedC hloads
    hempty hfit hsome henough hapart hsettled hslotsQuiet hinMem hbufferApart hbufferQuiet s2 hindices hlate hinMemC
    hbufferC hbufferQuietC
  rw [← hsize] at halignedC hinMemC hbufferC hbufferQuietC
  have hsound := (orderOk_iff s).mp hs
  have hpush : PushReady s := ⟨⟨hready, hbound, haligned, hinMem, hloads⟩, hrole, hgrant, hempty, hfit, hsome, hapart,
    hsettled, hslotsQuiet, hbufferApart, hbufferQuiet⟩
  have hsame : (s.port c).SameSegment s.here :=
    ⟨hboundC.trans hbound.symm, congrArg BitVec.toNat hbase, congrArg BitVec.toNat hslots, hsize⟩
  have htaker : TakerReady s c := ⟨⟨hc, hpos⟩, hother, hsame, hboundC, hroleC, halignedC, henough, hindices, hlate,
    hinMemC, hbufferC, hbufferQuietC⟩
  obtain ⟨t, hexec, hpublished⟩ := hpush.published hsound
  obtain ⟨u, hexecC, hres, hbytes⟩ := Handover.arrives ⟨hpublished, hsound, hpush, htaker⟩
  exact ⟨t, u, hexec, hexecC, hres, hbytes⟩

end Sys2Proof.Machine

/-! PROOFS. The decoder and the encoder (spec R90 to R99, R104): which row a word selects, and from it that the two are
inverse to each other, and which words are no command and why. -/

namespace Sys2Proof

/-! ## The rows of the opcode map (R92, R95, R97) -/

theorem Op.mem_all (o : Op) : o ∈ Op.all := by cases o <;> decide

/-- No two rows share an opcode: the first row with the opcode of `o` is `o`. -/
theorem Op.find?_opc (o : Op) : Op.all.find? (fun p => p.opc == o.opc) = some o := by cases o <;> rfl

theorem Op.opc_injective : Function.Injective Op.opc := fun o p h =>
  Option.some.inj (by rw [← o.find?_opc, h, p.find?_opc])

/-- The opcodes that R97 reserves. -/
abbrev ReservedOpcode (n : Nat) : Prop :=
  (0x08 ≤ n ∧ n ≤ 0x0F) ∨ (0x14 ≤ n ∧ n ≤ 0x1F) ∨ (0x22 ≤ n ∧ n ≤ 0x2F) ∨ (0x32 ≤ n ∧ n ≤ 0x3F) ∨ 0x42 ≤ n

/-- R97 reserves the opcodes that no row has. -/
theorem reservedOpcode_iff : ∀ b : BitVec 8, ReservedOpcode b.toNat ↔ ∀ o ∈ Op.all, b ≠ o.opc := by decide

/-- The bits that the row's format marks "must be 0" (R91). -/
def Op.mustBe0 (o : Op) : Word := o.mask &&& 0x00FFFFFF#32

/-- The marked bits by opcode: those of formats B, K, C and P, and all of 23:0 in format N (R91). -/
theorem Op.mustBe0_eq (o : Op) : o.mustBe0 =
    if o.opc.toNat = 0x01 then 0x0000FFFF#32 else if o.opc.toNat = 0x02 then 0x000FFFFF#32
      else if o.opc.toNat = 0x13 then 0x00FEFFFF#32 else if o.opc.toNat = 0x30 then 0x00FFFF00#32
      else 0x00FFFFFF#32 := by
  cases o <;> rfl

/-- A row fixes the opcode and the bits its format marks (R95). -/
theorem Op.mask_eq (o : Op) : o.mask = 0xFF000000#32 ||| o.mustBe0 := by cases o <;> rfl

@[simp] theorem Op.op_build (o : Op) (w : Word) : (o.build w).op = o := by cases o <;> rfl

/-- PROTO = 3 of a BIND is all that can be wrong with the fields of a word (R98). -/
theorem Op.wellFormed_build (o : Op) (w : Word) :
    (o.build w).wellFormed = false ↔ o = .bind ∧ fieldProto w = 3#2 := by
  cases o <;> simp [Op.build, Instr.wellFormed]

theorem Op.eq_bind_iff (o : Op) : o = .bind ↔ o.opc.toNat = 1 := by
  cases o <;> decide

/-! ## Which row a word selects (R95) -/

/-- A field that the row fixes as a whole has the row's value. -/
theorem Op.extract_of_selects {o : Op} {w : Word} (h : o.selects w = true) {k n : Nat}
    (hmask : o.mask.extractLsb' k n = BitVec.allOnes n) : w.extractLsb' k n = o.pattern.extractLsb' k n := by
  have hfixed : w &&& o.mask = o.pattern := beq_iff_eq.mp h
  rw [← hfixed, BitVec.extractLsb'_and, hmask, BitVec.and_allOnes]

theorem Op.fieldOpc_of_selects {o : Op} {w : Word} (h : o.selects w = true) : fieldOpc w = o.opc := by
  have hmask : o.mask.extractLsb' 24 8 = BitVec.allOnes 8 := by cases o <;> rfl
  exact (o.extract_of_selects h hmask).trans BitVec.extractLsb'_append_eq_left

/-- A word is its opcode over bits 23:0 (R91). -/
theorem word_eq_append (w : Word) : w = fieldOpc w ++ w.extractLsb' 0 24 := by
  have h := BitVec.extractLsb'_append_extractLsb'_eq_extractLsb' (x := w) (start₂ := 24) (len₂ := 8)
    (start₁ := 0) (len₁ := 24) rfl
  exact (h.trans BitVec.extractLsb'_eq_self).symm

/-- A word selects its opcode's row if no bit marked "must be 0" is 1 (R95). -/
theorem Op.selects_iff (o : Op) (w : Word) :
    o.selects w = true ↔ fieldOpc w = o.opc ∧ w &&& o.mustBe0 = 0#32 := by
  constructor
  · intro h
    refine ⟨o.fieldOpc_of_selects h, ?_⟩
    have hfixed : w &&& o.mask = o.pattern := beq_iff_eq.mp h
    rw [Op.mustBe0, ← BitVec.and_assoc, hfixed]
    cases o <;> rfl
  · rintro ⟨hopc, hzero⟩
    have hhigh : w &&& 0xFF000000#32 = o.pattern := by
      conv_lhs => rw [word_eq_append w, hopc, show 0xFF000000#32 = 0xFF#8 ++ 0#24 from rfl]
      rw [BitVec.and_append, BitVec.and_zero, Op.pattern]
      exact congrArg (· ++ 0#24) BitVec.and_allOnes
    refine beq_iff_eq.mpr ?_
    rw [o.mask_eq, BitVec.and_or_distrib_left, hhigh, hzero, BitVec.or_zero]

theorem selects_of_selectRow {w : Word} {o : Op} (h : selectRow w = some o) : o.selects w = true :=
  List.find?_some (p := fun o : Op => o.selects w) h

/-- At most one row is selected, so the order of the table does not matter. -/
theorem selectRow_eq_some_iff (w : Word) (o : Op) : selectRow w = some o ↔ o.selects w = true := by
  refine ⟨selects_of_selectRow, fun h => ?_⟩
  cases hrow : selectRow w with
  | none => exact absurd h (List.find?_eq_none.mp hrow o o.mem_all)
  | some p =>
    have hp := selects_of_selectRow hrow
    exact congrArg some (Op.opc_injective ((p.fieldOpc_of_selects hp).symm.trans (o.fieldOpc_of_selects h)))

theorem selectRow_eq_none_iff (w : Word) : selectRow w = none ↔ ∀ o : Op, o.selects w = false := by
  simp [selectRow, List.find?_eq_none, Op.mem_all]

/-! ## What decoding a word gives (R95 to R98) -/

theorem decode_of_selects {o : Op} {w : Word} (h : o.selects w = true) :
    decode w = if (o.build w).wellFormed then .ok (o.build w) else .error (.reservedProto w) := by
  simp only [decode, (selectRow_eq_some_iff w o).mpr h]

theorem decode_of_reservedBits {o : Op} {w : Word} (hopc : fieldOpc w = o.opc) (h : o.selects w = false) :
    decode w = .error (.reservedBits w) := by
  have hnone : selectRow w = none := (selectRow_eq_none_iff w).mpr fun p => by
    refine Bool.eq_false_iff.mpr fun hp => ?_
    obtain rfl : o = p := Op.opc_injective (hopc.symm.trans (p.fieldOpc_of_selects hp))
    rw [h] at hp
    cases hp
  have hany : Op.all.any (fun p => p.opc == fieldOpc w) = true :=
    List.any_eq_true.mpr ⟨o, o.mem_all, beq_iff_eq.mpr hopc.symm⟩
  simp only [decode, hnone, hany, if_true]

theorem decode_of_reservedOpcode {w : Word} (h : ∀ o ∈ Op.all, fieldOpc w ≠ o.opc) :
    decode w = .error (.reservedOpcode (fieldOpc w)) := by
  have hnone : selectRow w = none := (selectRow_eq_none_iff w).mpr fun p =>
    Bool.eq_false_iff.mpr fun hp => h p p.mem_all (p.fieldOpc_of_selects hp)
  have hany : Op.all.any (fun p => p.opc == fieldOpc w) = false :=
    List.any_eq_false.mpr fun p hp heq => h p hp (beq_iff_eq.mp heq).symm
  simp [decode, hnone, hany]

/-- A word decodes to the well-formed command that its own row builds from it. -/
theorem decode_eq_ok_iff (w : Word) (i : Instr) :
    decode w = .ok i ↔ i.wellFormed = true ∧ i.op.selects w = true ∧ i.op.build w = i := by
  constructor
  · intro h
    cases hrow : selectRow w with
    | none =>
      simp only [decode, hrow] at h
      split at h <;> cases h
    | some o =>
      have hsel := (selectRow_eq_some_iff w o).mp hrow
      rw [decode_of_selects hsel] at h
      split at h
      next hwf =>
        obtain rfl : o.build w = i := Except.ok.inj h
        rw [o.op_build]
        exact ⟨hwf, hsel, rfl⟩
      next => cases h
  · rintro ⟨hwf, hsel, hbuild⟩
    rw [decode_of_selects hsel, hbuild, if_pos hwf]

/-! ## Decoding what was encoded (R91, R95, R99) -/

/-- The word of every command lies in its row and gives its fields back (R91, R95, R99). -/
theorem encode_inRow (i : Instr) : Laws.InRow.Statement i := by
  cases i with
  | nop => exact Laws.InRow.nop
  | bind kind proto role init => exact Laws.InRow.bind kind proto role init
  | size kind => exact Laws.InRow.size kind
  | empty => exact Laws.InRow.empty
  | full => exact Laws.InRow.full
  | capacity => exact Laws.InRow.capacity
  | availRead => exact Laws.InRow.availRead
  | availWrite => exact Laws.InRow.availWrite
  | push => exact Laws.InRow.push
  | pop => exact Laws.InRow.pop
  | wspanAcq => exact Laws.InRow.wspanAcq
  | wspanCommit dflt => exact Laws.InRow.wspanCommit dflt
  | aenq => exact Laws.InRow.aenq
  | adeq => exact Laws.InRow.adeq
  | penq pidx => exact Laws.InRow.penq pidx
  | pdeq => exact Laws.InRow.pdeq
  | deint => exact Laws.InRow.deint
  | inter => exact Laws.InRow.inter

/-- Settles O1: the word lies in the command's row, and the row builds the command from it. -/
theorem decodeOfEncode : Obligations.DecodeOfEncode := fun i hwf =>
  (decode_eq_ok_iff (encode i) i).mpr ⟨hwf, encode_inRow i⟩

/-! ## Encoding what was decoded (R91, R95) -/

theorem extractLsb'_one (w : Word) (k : Nat) : w.extractLsb' k 1 = BitVec.ofBool (w.getLsbD k) := by
  refine BitVec.eq_of_getLsbD_eq fun j hj => ?_
  obtain rfl : j = 0 := by omega
  simp

theorem bit_fieldRole (w : Word) : (fieldRole w).bit = w.extractLsb' 17 1 := by
  rw [fieldRole, extractLsb'_one]
  cases w.getLsbD 17 <;> rfl

theorem ofBool_fieldBit16 (w : Word) : BitVec.ofBool (fieldBit16 w) = w.extractLsb' 16 1 :=
  (extractLsb'_one w 16).symm

/-- Bits 23:0 of the command a word stands for are those of the word: the fields side by side, and zeros where the
format marks "must be 0". -/
theorem Op.low24_build {o : Op} {w : Word} (h : o.selects w = true) :
    (o.build w).low24 = w.extractLsb' 0 24 := by
  cases o with
  | bind =>
    have hlow : w.extractLsb' 0 16 = 0#16 := Op.extract_of_selects h rfl
    simp only [Op.build, Instr.low24, fieldKind, fieldProto, bit_fieldRole, ofBool_fieldBit16, ← hlow]
    rw [BitVec.extractLsb'_append_extractLsb'_eq_extractLsb' (show 20 = 18 + 2 from rfl),
      BitVec.extractLsb'_append_extractLsb'_eq_extractLsb' (show 18 = 17 + 1 from rfl),
      BitVec.extractLsb'_append_extractLsb'_eq_extractLsb' (show 17 = 16 + 1 from rfl),
      BitVec.extractLsb'_append_extractLsb'_eq_extractLsb' (show 16 = 0 + 16 from rfl)]
  | size =>
    have hlow : w.extractLsb' 0 20 = 0#20 := Op.extract_of_selects h rfl
    exact (congrArg (fieldKind w ++ ·) hlow.symm).trans
      (BitVec.extractLsb'_append_extractLsb'_eq_extractLsb' rfl)
  | wspanCommit =>
    have hhigh : w.extractLsb' 17 7 = 0#7 := Op.extract_of_selects h rfl
    have hlow : w.extractLsb' 0 16 = 0#16 := Op.extract_of_selects h rfl
    simp only [Op.build, Instr.low24, ofBool_fieldBit16, ← hlow, ← hhigh]
    rw [BitVec.extractLsb'_append_extractLsb'_eq_extractLsb' (show 17 = 16 + 1 from rfl),
      BitVec.extractLsb'_append_extractLsb'_eq_extractLsb' (show 16 = 0 + 16 from rfl)]
  | penq =>
    have hhigh : w.extractLsb' 8 16 = 0#16 := Op.extract_of_selects h rfl
    exact (congrArg (· ++ fieldPidx w) hhigh.symm).trans
      (BitVec.extractLsb'_append_extractLsb'_eq_extractLsb' rfl)
  | _ => exact (Op.extract_of_selects h (k := 0) (n := 24) rfl).symm

/-- Settles O2: the opcode is the row's, and bits 23:0 are the fields. -/
theorem encodeOfDecode : Obligations.EncodeOfDecode := by
  intro w i h
  obtain ⟨hwf, hsel, hbuild⟩ := (decode_eq_ok_iff w i).mp h
  have hlow : i.low24 = w.extractLsb' 0 24 := by rw [← Op.low24_build hsel, hbuild]
  refine ⟨hwf, ?_⟩
  rw [encode, hlow, ← Op.fieldOpc_of_selects hsel]
  exact (word_eq_append w).symm

/-! ## Which words are no command (R95 to R98) -/

theorem fieldOpc_toNat (w : Word) : (fieldOpc w).toNat = w.toNat / 2 ^ 24 := by
  have := w.isLt
  rw [fieldOpc, BitVec.extractLsb'_toNat, Nat.shiftRight_eq_div_pow]
  omega

theorem fieldProto_toNat (w : Word) : (fieldProto w).toNat = w.toNat / 2 ^ 18 % 4 := by
  rw [fieldProto, BitVec.extractLsb'_toNat, Nat.shiftRight_eq_div_pow]

/-- Settles O3: the opcode names a row or is reserved; in a row, the marked bits decide first, then PROTO. -/
theorem decodeErrors : Obligations.DecodeErrors := by
  intro w
  simp only [← fieldOpc_toNat, ← fieldProto_toNat, BitVec.ofNat_toNat, BitVec.setWidth_eq]
  refine ⟨fun hres => decode_of_reservedOpcode ((reservedOpcode_iff _).mp hres), ?_⟩
  by_cases hres : ReservedOpcode (fieldOpc w).toNat
  · exact ⟨fun h => absurd hres h, fun h => absurd hres h, fun h => absurd hres h⟩
  have hrow := mt (reservedOpcode_iff _).mpr hres
  push Not at hrow
  obtain ⟨o, -, hopc⟩ := hrow
  rw [hopc, ← o.mustBe0_eq, ← o.eq_bind_iff]
  have hselects : w &&& o.mustBe0 = 0#32 → o.selects w = true := fun hzero => (o.selects_iff w).mpr ⟨hopc, hzero⟩
  have hproto : (o.build w).wellFormed = false ↔ o = .bind ∧ (fieldProto w).toNat = 3 :=
    (o.wellFormed_build w).trans (and_congr_right' BitVec.toNat_inj.symm)
  refine ⟨fun _ hset => ?_, fun _ hzero hbind hthree => ?_, fun _ hzero hnot => ?_⟩
  · exact decode_of_reservedBits hopc (Bool.eq_false_iff.mpr fun hsel => hset ((o.selects_iff w).mp hsel).2)
  · rw [decode_of_selects (hselects hzero), hproto.mpr ⟨hbind, hthree⟩]
    rfl
  · have hwf : (o.build w).wellFormed = true := by
      rw [← Bool.not_eq_false, hproto]; exact hnot
    exact ⟨o.build w, by rw [decode_of_selects (hselects hzero), if_pos hwf], trivial⟩

/-- Settles O4: the encodings are evaluated, and decoding gives each command back. -/
theorem workedEncodings : Obligations.WorkedEncodings := by
  intro x hx
  have hencode : x.2.wellFormed = true ∧ encode x.2 = x.1 := by
    revert x
    decide
  obtain ⟨hwf, hword⟩ := hencode
  exact ⟨hword ▸ decodeOfEncode x.2 hwf, hword⟩

end Sys2Proof

/-! PROOFS. The decode step that fails (spec R93, R96 to R98, R203): a command's checks, and a word that is no command. -/

namespace Sys2Proof.Machine

/-- Settles O30: `fails_of_check`, which takes the two micro-steps. -/
theorem failedCheckRaises : Obligations.FailedCheckRaises := fun _ _ _ _ => fails_of_check

/-- A word that is no command takes a decode step and a `raise` step (R96). -/
theorem runPort_microIllegal {s : State} (hs : Ready s) :
    runPort microIllegal 2 s = (s.goto (.raising .illegalCmd s.here.lcmd)).raise .illegalCmd s.here.lcmd := by
  obtain ⟨hc, hp⟩ := hs
  have hhere := State.here_goto s (.raising .illegalCmd s.here.lcmd) hc
  have hcur := (elsewhere_goto s (.raising .illegalCmd s.here.lcmd)).exists hc
  have hdecode : microIllegal s = s.goto (.raising .illegalCmd s.here.lcmd) := by
    simp only [microIllegal, hp, State.decodeStep_some]
  rw [runPort_succ _ _ _ (by rw [hp]; simp), hdecode]
  exact runPort_raise _ _ _ _ 0 hcur (by rw [hhere]) (by simp only [microIllegal, hhere])

/-- Settles O33: the two micro-steps of a word that is no command, and what `raise` leaves. -/
theorem illegalWordsEnd : Obligations.IllegalWordsEnd := by
  intro s err hs herr
  have hnone : s.here.command? = none := by simp only [Port.command?, herr]
  have hcur := (elsewhere_goto s (.raising .illegalCmd s.here.lcmd)).exists hs.1
  refine ⟨_, by simp only [execHere, hnone, runPort_microIllegal hs]; rfl, ?_,
    (elsewhere_goto s _).trans (elsewhere_raise _ .illegalCmd s.here.lcmd), rfl, rfl⟩
  rw [State.here_raise_failed _ _ _ hcur, State.here_goto s _ hs.1]
  rfl

end Sys2Proof.Machine

/-! PROOFS. The control commands NOP, BIND and SIZE (spec R110 to R121): a command that ends in its finish step, what a
BIND writes and when it fails, and what SIZE returns. -/

namespace Sys2Proof.Machine

/-! ## Running a command to its finish step (R94) -/

/-- A command that reaches its finish step in `u`, after `k` steps, ends there with no further memory event. -/
theorem answers_of_finish {i : Instr} {s u : State} {q : Port} {k : Nat} (hs : Ready s) (hu : Elsewhere s u)
    (hpos : u.here.pos = .finish) (hfinish : micro i u = u.finishStep q) (hk : k + 1 ≤ stepBound i s.here)
    (hrun : ∀ fuel, runPort (micro i) (fuel + k) s = runPort (micro i) fuel u) :
    Answers i s q.finished (fun t => t.mem = u.mem ∧ t.order.trace = u.order.trace) := by
  have hc := hu.exists hs.1
  obtain ⟨fuel, hfuel⟩ := Nat.exists_eq_add_of_le' hk
  refine ⟨u.finishStep q, ?_, State.here_finish_eq u q hc, hu.trans (elsewhere_finishStep u q), rfl, rfl⟩
  rw [exec_runPort, hfuel, show fuel + (k + 1) = fuel + 1 + k by omega, hrun, runPort_finish _ u q fuel hc hpos hfinish]

/-- A command whose decode step leads to its finish step makes no memory event (R93, R94). -/
theorem answers_of_decode {i : Instr} {s : State} {q : Port} (hs : Ready s) (hdecode : micro i s = s.goto .finish)
    (hfinish : ∀ u, u.here = { s.here with pos := .finish } → micro i u = u.finishStep q) :
    Answers i s q.finished (NoEvent s) := by
  have hhere := State.here_goto s .finish hs.1
  refine answers_of_finish (u := s.goto .finish) (k := 1) hs (elsewhere_goto s .finish) (by rw [hhere])
    (hfinish _ hhere) (two_le_stepBound i s.here) fun fuel => ?_
  rw [runPort_succ _ fuel s (by rw [hs.2]; simp), hdecode]

/-- `exec` has one answer. -/
theorem Answers.of_exec {i : Instr} {s t : State} {q : Port} {post : State → Prop} (h : Answers i s q post)
    (ht : exec i s = .next t) : t.here = q ∧ Elsewhere s t ∧ post t := by
  obtain ⟨u, hu, hq⟩ := h
  obtain rfl : u = t := by simpa [hu] using ht
  exact hq

/-- Settles O41: a decode step that checks nothing, then the finish step. -/
theorem nopResult : Obligations.NopResult := by
  intro s hs
  refine answers_of_decode (q := { s.here with pos := .finish }) hs ?_ fun u hu => ?_
  · simp only [micro, microNop, hs.2, State.decodeStep_none]
  · simp only [micro, microNop, hu]

/-! ## The fields of STATUS at the end of a command (R94) -/

/-- The finish step changes BUSY and DONE alone (R94). -/
theorem Port.flag_finished (q : Port) {f : Flag} (hbusy : f ≠ .busy) (hdone : f ≠ .done) :
    q.finished.flag f = q.flag f := by
  have h := Port.flag_ending q f
  rwa [if_neg hbusy, if_neg hdone] at h

/-- `raise` changes BUSY, DONE and ERR alone (R203). -/
theorem Port.flag_failed (q : Port) (code info : Word) {f : Flag} (hbusy : f ≠ .busy) (hdone : f ≠ .done)
    (herr : f ≠ .err) : (q.failed code info).flag f = q.flag f := by
  have hstatus : (q.failed code info).status = (q.raised .illegalCmd info).status := by
    rw [Port.status_raised, BitVec.or_assoc]; rfl
  have h := Port.flag_raised q .illegalCmd info f
  rw [if_neg hbusy, if_neg hdone, if_neg herr] at h
  rwa [Port.flag, hstatus]

/-- A successful BIND changes BOUND, BUSY and DONE alone (R111). -/
theorem bindResult_flag (kind : BitVec 4) (proto : BitVec 2) (role : Role) (q : Port) {f : Flag} (hbusy : f ≠ .busy)
    (hdone : f ≠ .done) :
    (bindResult kind proto role q).finished.flag f = if .bound = f then true else q.flag f := by
  rw [Port.flag_finished _ hbusy hdone, bindResult, Port.flag_setFlag]
  rfl

/-! ## The checks of a command, one after another (R205) -/

/-- The check at the head of a list decides where it fails (R205). -/
theorem firstError_head {b : Bool} {r : ErrCode × Word} {rest : List (Bool × ErrCode × Word)} (h : b = true) :
    firstError ((b, r) :: rest) = some r := if_pos h

/-- A check that passes leaves the rest of the list (R205). -/
theorem firstError_tail {b : Bool} {r : ErrCode × Word} {rest : List (Bool × ErrCode × Word)} (h : b = false) :
    firstError ((b, r) :: rest) = firstError rest := if_neg (by simp [h])

/-- A command whose checks come down to a list that fails at its head ends with that error (R205). -/
theorem fails_of_head {i : Instr} {s : State} {b : Bool} {e : ErrCode} {info : Word}
    {rest : List (Bool × ErrCode × Word)} (hs : Ready s)
    (hcheck : check i s.cfg s.here = firstError ((b, e, info) :: rest)) (h : b = true) : Fails i s e.word info :=
  fails_of_check hs (hcheck.trans (firstError_head h))

/-! ## The checks of BIND (R111) -/

theorem kindSize_eq {kind : BitVec 4} {e : Nat} (h : elemSize kind = some e) : kindSize kind = e := by
  simp only [kindSize, h, Option.getD_some]

theorem kindReserved_eq {kind : BitVec 4} {e : Nat} (h : elemSize kind = some e) : kindReserved kind = false := by
  simp only [kindReserved, h, Option.isNone_some]

/-- N is not 8 plus a whole positive number of elements (R111). -/
theorem badLength_iff {n e : Nat} : (decide (n < Config.headerSize + e) || (n - Config.headerSize) % e != 0) = true ↔
    n < 8 + e ∨ (n - 8) % e ≠ 0 := by
  rw [Bool.or_eq_true, decide_eq_true_iff, bne_iff_ne]
  rfl

/-- What the checks of BIND ask for is all they ask for (R111). -/
theorem BindChecked.check {kind : BitVec 4} {proto : BitVec 2} {cfg : Config} {q : Port}
    (h : BindChecked kind proto cfg q) : checkBind kind proto cfg q = none := by
  simp only [checkBind, firstError_none, List.forall_mem_cons, List.not_mem_nil, false_imp_iff, implies_true, and_true,
    beq_eq_false_iff_ne, bne_eq_false_iff_eq, fitsMem, Bool.not_eq_false', decide_eq_true_eq, Bool.or_eq_false_iff,
    Bool.and_eq_false_iff]
  exact ⟨h.protoLegal, h.grant, kindReserved_eq h.kindLegal, h.aligned, h.fits,
    ⟨decide_eq_false (Nat.not_lt.mpr h.length), h.whole⟩, decide_eq_false (Nat.not_lt.mpr h.slots),
    Decidable.not_or_of_imp h.audio, Decidable.not_or_of_imp h.param⟩

/-- Settles O38: check by check, each after the ones before it have passed. -/
theorem bindErrors : Obligations.BindErrors := by
  refine ⟨fun kind s hs hkind => ?_, fun kind proto role init s hs => ?_⟩
  · have hfirst : check (.size kind) s.cfg s.here = firstError _ := rfl
    rw [BitVec.ofNat_toNat]
    exact fails_of_head hs hfirst (by simp [kindReserved, hkind])
  simp only [BitVec.ofNat_toNat]
  have hrest : check (.bind kind proto role init) s.cfg s.here = firstError _ := rfl
  split
  next hproto => exact fails_of_head hs hrest (by simp [hproto])
  next hproto =>
  replace hrest := hrest.trans (firstError_tail (by simp [hproto]))
  split
  next hgrant => exact fails_of_head hs hrest hgrant
  next hgrant =>
  replace hrest := hrest.trans (firstError_tail (Bool.eq_false_iff.mpr hgrant))
  split
  next hkind => exact fails_of_head hs hrest (by simp [kindReserved, hkind])
  next e hkind =>
  replace hrest := hrest.trans (firstError_tail (kindReserved_eq hkind))
  simp only [kindSize_eq hkind] at hrest
  split
  next halign => exact fails_of_head hs hrest (by simp [halign])
  next halign =>
  replace hrest := hrest.trans (firstError_tail (by simpa using halign))
  split
  next hbus => exact fails_of_head hs hrest (by simp [fitsMem, hbus])
  next hbus =>
  replace hrest := hrest.trans (firstError_tail (by simpa [fitsMem] using hbus))
  split
  next hbytes => exact fails_of_head hs hrest (badLength_iff.mpr hbytes)
  next hbytes =>
  replace hrest := hrest.trans (firstError_tail (Bool.eq_false_iff.mpr (mt badLength_iff.mp hbytes)))
  split
  next hslots => exact fails_of_head hs hrest (decide_eq_true hslots)
  next hslots =>
  replace hrest := hrest.trans (firstError_tail (decide_eq_false hslots))
  refine ⟨fun haudio hk => ?_, fun hparam hk => ?_⟩
  · exact fails_of_head hs hrest (by simp [haudio, protoAudio, kindF32, hk])
  · replace hrest := hrest.trans (firstError_tail (by simp [hparam, protoAudio]))
    exact fails_of_head hs hrest (by simp [hparam, protoParam, kindU8, hk])

/-! ## What a BIND does to MEM (R113) -/

/-- The index store of a BIND with INIT to the word at `w` (R113). -/
def State.initStep (s : State) (kind : BitVec 4) (w : Nat) (next : EnginePos) : State :=
  (s.storeEvent s.agent w .init (bindForeign kind s) 0).goto next

/-- The state in which a BIND whose checks pass comes to its finish step (R111, R113). -/
def State.bindBody (s : State) (kind : BitVec 4) (init : Bool) : State :=
  if init then
    ((s.goto .initWr).initStep kind s.here.larg0.toNat .initRd).initStep kind (s.here.larg0.toNat + 4) .finish
  else s.goto .finish

section
variable {s : State} {kind : BitVec 4} {w : Nat} {next : EnginePos}

theorem elsewhere_initStep : Elsewhere s (s.initStep kind w next) :=
  (elsewhere_storeEvent s _ _ _ _ _).trans (elsewhere_goto _ _)

theorem State.here_initStep (hc : s.cur < s.ports.length) :
    (s.initStep kind w next).here = { s.here with pos := next } :=
  State.here_goto (s.storeEvent s.agent w .init (bindForeign kind s) 0) next hc

/-- The segment that a BIND binds to overlaps the others' as it did when the BIND began (R71). -/
theorem Elsewhere.bindForeign {t : State} (h : Elsewhere s t) (hbase : t.here.larg0 = s.here.larg0)
    (hbytes : t.here.larg1 = s.here.larg1) : bindForeign kind t = bindForeign kind s := by
  funext m
  simp only [Machine.bindForeign, State.foreignTo, h.others, hbase, hbytes]

theorem State.initStep_trace : (s.initStep kind w next).order.trace.map (fun ev => (ev.kind, ev.addr)) =
    (.init, w) :: s.order.trace.map (fun ev => (ev.kind, ev.addr)) := rfl

theorem State.initStep_dataRacy (m : Nat) :
    (s.initStep kind w next).order.dataRacy s.agent m = s.order.dataRacy s.agent m :=
  Order.dataRacy_record_self ..

theorem State.initStep_read {a : Nat} (h : ¬ (w ≤ a ∧ a < w + 4)) :
    (s.initStep kind w next).mem.read a = s.mem.read a :=
  State.storeEvent_read s s.agent w .init (bindForeign kind s) 0 a (by omega)

/-- The word reads 0 where neither an overlap nor an unordered data write leaves it to any value (R71, R77). -/
theorem State.initStep_readWord
    (h : ∀ j, j < 4 → bindForeign kind s (w + j) = false ∧ s.order.dataRacy s.agent (w + j) = false) :
    (s.initStep kind w next).mem.readWord w = 0 := by
  have hquiet : ∀ j, j < (leBytes 0).length →
      (bindForeign kind s (w + j) || s.order.dataRacy s.agent (w + j)) = false := fun j hj => by
    rw [(h j hj).1, (h j hj).2]
    rfl
  have hmem : (s.initStep kind w next).mem = s.mem.writeBytes w (leBytes 0) := by
    rw [← State.landedBytes_quiet s w (fun m => bindForeign kind s m || s.order.dataRacy s.agent m) _ hquiet]
    rfl
  rw [hmem, Memory.readWord_writeBytes]

end

section
variable {s : State} (hc : s.cur < s.ports.length) (kind : BitVec 4) (init : Bool)

theorem elsewhere_bindBody : Elsewhere s (s.bindBody kind init) := by
  unfold State.bindBody
  split
  · exact ((elsewhere_goto s _).trans elsewhere_initStep).trans elsewhere_initStep
  · exact elsewhere_goto s _

include hc in
theorem State.here_bindBody : (s.bindBody kind init).here = { s.here with pos := .finish } := by
  have hwr := elsewhere_goto s .initWr
  unfold State.bindBody
  split
  · rw [State.here_initStep ((hwr.trans elsewhere_initStep).exists hc), State.here_initStep (hwr.exists hc),
      State.here_goto s _ hc]
  · exact State.here_goto s _ hc

/-- Without INIT a BIND makes no memory event (R113). -/
theorem State.noEvent_bindBody : NoEvent s (s.bindBody kind false) := ⟨rfl, rfl⟩

/-- With INIT it stores to write_index, then to read_index (R113). -/
theorem State.bindBody_trace : (s.bindBody kind true).order.trace.map (fun ev => (ev.kind, ev.addr)) =
    (.init, s.here.larg0.toNat + 4) :: (.init, s.here.larg0.toNat) ::
      s.order.trace.map (fun ev => (ev.kind, ev.addr)) := rfl

theorem State.bindBody_read {a : Nat} (h : ¬ (s.here.larg0.toNat ≤ a ∧ a < s.here.larg0.toNat + 8)) :
    (s.bindBody kind true).mem.read a = s.mem.read a :=
  (State.initStep_read (by omega)).trans (State.initStep_read (by omega))

include hc in
/-- Each index word that nothing leaves to any value is 0 after the two stores (R71, R77, R113). -/
theorem State.bindBody_readWord {w : Nat} (hw : w = s.here.larg0.toNat ∨ w = s.here.larg0.toNat + 4)
    (h : ∀ j, j < 4 → bindForeign kind s (w + j) = false ∧ s.order.dataRacy s.agent (w + j) = false) :
    (s.bindBody kind true).mem.readWord w = 0 := by
  have hwr := elsewhere_goto s .initWr
  have hhere := State.here_goto s .initWr hc
  have hforeign := hwr.bindForeign (kind := kind) (by rw [hhere]) (by rw [hhere])
  rcases hw with rfl | rfl
  · calc (s.bindBody kind true).mem.readWord s.here.larg0.toNat
        = ((s.goto .initWr).initStep kind s.here.larg0.toNat .initRd).mem.readWord s.here.larg0.toNat :=
          Memory.readWord_congr _ _ _ fun a _ _ => State.initStep_read (by omega)
      _ = 0 := State.initStep_readWord fun j hj => ⟨by rw [hforeign]; exact (h j hj).1, (h j hj).2⟩
  · have hstore := hwr.trans (elsewhere_initStep (kind := kind) (w := s.here.larg0.toNat) (next := .initRd))
    have hhere' := State.here_initStep (kind := kind) (w := s.here.larg0.toNat) (next := .initRd) (hwr.exists hc)
    rw [hhere] at hhere'
    refine State.initStep_readWord fun j hj => ⟨?_, ?_⟩
    · rw [hstore.bindForeign (by rw [hhere']) (by rw [hhere'])]
      exact (h j hj).1
    · rw [hstore.agent]
      exact (State.initStep_dataRacy _).trans (h j hj).2

end

/-! ## A BIND from its decode step to its end (R111) -/

/-- The steps of a BIND whose checks pass, up to its finish step: decode, and with INIT the two stores (R93, R113). -/
theorem runPort_bind {kind : BitVec 4} {proto : BitVec 2} {role : Role} {s : State} (hs : Ready s)
    (hcheck : checkBind kind proto s.cfg s.here = none) (init : Bool) (fuel : Nat) :
    runPort (micro (.bind kind proto role init)) (fuel + if init then 3 else 1) s =
      runPort (micro (.bind kind proto role init)) fuel (s.bindBody kind init) := by
  obtain ⟨hc, hp⟩ := hs
  have hstart : s.here.pos ≠ .idle := by rw [hp]; simp
  have hdecode : micro (.bind kind proto role init) s = s.goto (if init then .initWr else .finish) := by
    simp only [micro, microBind, hp, hcheck, State.decodeStep_none]
  cases init
  case false => exact (runPort_succ _ fuel s hstart).trans (by rw [hdecode]; rfl)
  case true =>
    have hhere1 := State.here_goto s .initWr hc
    have hhere2 := State.here_initStep (kind := kind) (w := s.here.larg0.toNat) (next := .initRd)
      ((elsewhere_goto s .initWr).exists hc)
    rw [hhere1] at hhere2
    have hinitWr : micro (.bind kind proto role true) (s.goto .initWr) =
        (s.goto .initWr).initStep kind s.here.larg0.toNat .initRd := by
      simp only [micro, microBind, hhere1]
      rfl
    have hinitRd : micro (.bind kind proto role true) ((s.goto .initWr).initStep kind s.here.larg0.toNat .initRd) =
        s.bindBody kind true := by
      simp only [micro, microBind, hhere2]
      rfl
    exact (runPort_succ _ (fuel + 2) s hstart).trans (by
      rw [hdecode, if_pos rfl, runPort_succ _ _ _ (by rw [hhere1]; simp), hinitWr,
        runPort_succ _ _ _ (by rw [hhere2]; simp), hinitRd])

/-- A BIND whose checks pass completes with the registers of R111, and what it did to MEM and to the record is what its
stores did. -/
theorem bind_answers {kind : BitVec 4} {proto : BitVec 2} {role : Role} {init : Bool} {s : State} (hs : Ready s)
    (hcheck : checkBind kind proto s.cfg s.here = none) :
    Answers (.bind kind proto role init) s (bindResult kind proto role s.here).finished
      (fun t => t.mem = (s.bindBody kind init).mem ∧ t.order.trace = (s.bindBody kind init).order.trace) := by
  have hhere := State.here_bindBody hs.1 kind init
  have hfinish : micro (.bind kind proto role init) (s.bindBody kind init) =
      (s.bindBody kind init).finishStep (bindResult kind proto role { s.here with pos := .finish }) := by
    simp only [micro, microBind, hhere]
  exact answers_of_finish hs (elsewhere_bindBody kind init) (by rw [hhere]) hfinish (by cases init <;> exact le_rfl)
    (runPort_bind hs hcheck init)

/-- Settles O32: a BIND that passes its checks leaves ERR as it was, so one of them has failed, and `raise` writes no
binding register. -/
theorem failedBindChangesNoBinding : Obligations.FailedBindChangesNoBinding := by
  intro kind proto role init s t hs herr hexec herr'
  cases hcheck : checkBind kind proto s.cfg s.here with
  | none =>
    obtain ⟨hhere, -, -⟩ := (bind_answers hs hcheck).of_exec hexec
    have hflag : t.here.flag .err = s.here.flag .err := by
      rw [hhere, bindResult_flag kind proto role s.here (by decide) (by decide), if_neg (by decide)]
    exact absurd (herr'.symm.trans (hflag.trans herr)) (by decide)
  | some r =>
    obtain ⟨hhere, -, hevent⟩ :=
      (fails_of_check (i := .bind kind proto role init) (e := r.1) (info := r.2) hs hcheck).of_exec hexec
    have hflag {f : Flag} (hbusy : f ≠ .busy) (hdone : f ≠ .done) (herr : f ≠ .err) : t.here.flag f = s.here.flag f :=
      (congrArg (Port.flag · f) hhere).trans (Port.flag_failed _ _ _ hbusy hdone herr)
    refine ⟨?_, ?_, ?_, hflag (f := .bound) (by decide) (by decide) (by decide),
      hflag (f := .grant) (by decide) (by decide) (by decide), ?_, ?_, ?_, ?_, ?_, ?_, hevent⟩
    all_goals rw [hhere]; rfl

/-! ## What a BIND writes (R39, R111) -/

theorem toNat_append_eq_add {m n : Nat} (x : BitVec m) (y : BitVec n) :
    (x ++ y).toNat = x.toNat * 2 ^ n + y.toNat := by
  rw [BitVec.toNat_append, ← Nat.shiftLeft_add_eq_or_of_lt y.isLt, Nat.shiftLeft_eq]

theorem Role.toNat_bit (role : Role) : role.bit.toNat = if role = .consumer then 1 else 0 := by
  cases role <;> rfl

/-- The fields of BINDCFG side by side are their weighted sum (R39). -/
theorem bindcfgWord_eq (kind : BitVec 4) {e : Nat} (he : e < 16) (proto : BitVec 2) (role : Role) :
    bindcfgWord kind e proto role =
      BitVec.ofNat 32 (kind.toNat + 16 * e + 256 * proto.toNat + (if role = .consumer then 1024 else 0)) := by
  have hkind := kind.isLt
  have hproto := proto.isLt
  apply BitVec.eq_of_toNat_eq
  simp only [bindcfgWord, toNat_append_eq_add, BitVec.toNat_ofNat, Role.toNat_bit]
  split <;> omega

/-- The registers of R111, with the element size of the kind. -/
theorem bindResult_eq {kind : BitVec 4} {e : Nat} (hkind : elemSize kind = some e) (proto : BitVec 2) (role : Role)
    (q : Port) : bindResult kind proto role q =
      { q with
        segBase := q.larg0
        slots := BitVec.ofNat 32 ((q.larg1.toNat - 8) / e)
        bindcfg := BitVec.ofNat 32 (kind.toNat + 16 * e + 256 * proto.toNat + (if role = .consumer then 1024 else 0))
        res0 := BitVec.ofNat 32 ((q.larg1.toNat - 8) / e - 1)
        status := q.status ||| 0x10#32 } := by
  have he := (elemSize_bounds hkind).2
  rw [← bindcfgWord_eq kind (by omega) proto role, bindResult, kindSize_eq hkind]
  rfl

/-- Settles O42 (`bindResult` is the model's own name for the registers of R111): the finish step writes the registers,
and the two stores of INIT are all that reaches MEM. -/
theorem bindResultHolds : Obligations.BindResult := by
  intro kind proto role init s e hs b n hproto hgrant hkind halign hfits hlength hwhole hslots haudio hparam
  have hsize := kindSize_eq hkind
  have hcheck : checkBind kind proto s.cfg s.here = none := BindChecked.check
    { protoLegal := hproto, grant := hgrant, kindLegal := by rw [hsize, hkind], aligned := halign, fits := hfits
      length := by rwa [hsize], whole := by rwa [hsize], slots := by rwa [hsize], audio := haudio, param := hparam }
  obtain ⟨t, hexec, hhere, helse, hmem, htrace⟩ := bind_answers (role := role) (init := init) hs hcheck
  rw [bindResult_eq hkind] at hhere
  refine ⟨t, hexec, hhere, helse, ?_, ?_⟩
  · rintro rfl
    obtain ⟨hmem', htrace'⟩ := State.noEvent_bindBody (s := s) kind
    exact ⟨hmem.trans hmem', htrace.trans htrace'⟩
  · rintro rfl
    rw [hmem, htrace]
    refine ⟨State.bindBody_trace kind, fun a ha => State.bindBody_read kind ha, fun w hw hquiet => ?_⟩
    refine State.bindBody_readWord hs.1 kind hw fun j hj => ⟨?_, (hquiet j hj).2⟩
    rw [bindForeign, hsize]
    exact (hquiet j hj).1

/-! ## SIZE (R120, R121) -/

/-- The checks of SIZE of a concrete kind: the two ways to overflow (R121). -/
theorem checkSize_eq {kind : BitVec 4} {e : Nat} (hkind : elemSize kind = some e) (q : Port) : checkSize kind q =
    if 2 ^ 31 < q.larg0.toNat + 1 ∨ 2 ^ 32 - 1 < 8 + (q.larg0.toNat + 1) * e then some (.sizeOverflow, q.larg0)
    else none := by
  have hrest : checkSize kind q = firstError _ := firstError_tail (kindReserved_eq hkind)
  rw [kindSize_eq hkind] at hrest
  by_cases hslots : 2 ^ 31 < q.larg0.toNat + 1
  · rw [if_pos (.inl hslots)]
    exact hrest.trans (firstError_head (decide_eq_true hslots))
  replace hrest := hrest.trans (firstError_tail (decide_eq_false hslots))
  by_cases hbytes : 2 ^ 32 - 1 < 8 + (q.larg0.toNat + 1) * e
  · rw [if_pos (.inr hbytes)]
    exact hrest.trans (firstError_head (decide_eq_true hbytes))
  · rw [if_neg (not_or.mpr ⟨hslots, hbytes⟩)]
    exact hrest.trans (firstError_tail (decide_eq_false hbytes))

/-- A SIZE that does not overflow returns the bytes of the segment (R120). -/
theorem size_answers {kind : BitVec 4} {s : State} {e : Nat} (hs : Ready s) (hkind : elemSize kind = some e)
    (hslots : s.here.larg0.toNat + 1 ≤ 2 ^ 31) (hbytes : 8 + (s.here.larg0.toNat + 1) * e ≤ 2 ^ 32 - 1) :
    Answers (.size kind) s
      ({ s.here with res0 := BitVec.ofNat 32 (8 + (s.here.larg0.toNat + 1) * e) } : Port).finished (NoEvent s) := by
  have hcheck : checkSize kind s.here = none := by
    rw [checkSize_eq hkind, if_neg (by omega)]
  refine answers_of_decode hs (q := { s.here with
    res0 := BitVec.ofNat 32 (8 + (s.here.larg0.toNat + 1) * e), pos := .finish }) ?_ fun u hu => ?_
  · simp only [micro, microSize, hs.2, hcheck, State.decodeStep_none]
  · simp only [micro, microSize, hu, kindSize_eq hkind]
    rfl

/-- A segment of the size that SIZE returns has one slot more than the capacity (R111, R120). -/
theorem slots_of_size (cap : Nat) {e : Nat} (he : 1 ≤ e) : (8 + (cap + 1) * e - 8) / e = cap + 1 := by
  rw [Nat.add_sub_cancel_left, Nat.mul_div_cancel _ he]

/-- The table of R121: each capacity is the largest that SIZE of its element size accepts. -/
theorem largestCapacities : ∀ x ∈ ([(1, 0x7FFFFFFF, 0x80000008), (2, 0x7FFFFFFA, 0xFFFFFFFE),
      (4, 0x3FFFFFFC, 0xFFFFFFFC), (8, 0x1FFFFFFD, 0xFFFFFFF8)] : List (Nat × Nat × Nat)),
    x.2.1 + 1 ≤ 2 ^ 31 ∧ 8 + (x.2.1 + 1) * x.1 = x.2.2 ∧ x.2.2 ≤ 2 ^ 32 - 1 ∧
    (2 ^ 31 < x.2.1 + 2 ∨ 2 ^ 32 - 1 < 8 + (x.2.1 + 2) * x.1) ∧ (2 ≤ x.1 → x.2.1 = (2 ^ 32 - 9) / x.1 - 1) := by
  decide

/-- Settles O43: SIZE overflows where its check says so, the table is evaluated, and BIND takes the result because it is
8 plus a whole number of elements. -/
theorem sizeResult : Obligations.SizeResult := by
  refine ⟨fun kind s e hs hkind => ⟨fun hover => ?_, size_answers hs hkind⟩, largestCapacities, ?_⟩
  · exact fails_of_check (e := .sizeOverflow) hs ((checkSize_eq hkind s.here).trans (if_pos hover))
  intro kind proto role init s u e cap hu hkind hslots hbytes hs hcap hres halign hfits hgrant herr hproto haudio hparam
  subst hcap
  obtain ⟨t, hsize, hhere, -, -⟩ := size_answers hs hkind hslots hbytes
  have hlarg1 : u.here.larg1.toNat = 8 + (s.here.larg0.toNat + 1) * e := by
    rw [hres t hsize, hhere]
    exact Nat.mod_eq_of_lt (by omega)
  have hpos := (elemSize_bounds hkind).1
  have hone : e ≤ (s.here.larg0.toNat + 1) * e := Nat.le_mul_of_pos_left e (Nat.succ_pos _)
  have hcount := slots_of_size s.here.larg0.toNat hpos
  obtain ⟨v, hexec, hv, -, -⟩ := bindResultHolds kind proto role init u e hu hproto hgrant hkind halign
    (by rw [hlarg1]; exact hfits) (by omega) (by rw [hlarg1, Nat.add_sub_cancel_left, Nat.mul_mod_left])
    (by rw [hlarg1, hcount]; exact hslots) haudio hparam
  have hflag {f : Flag} (hbusy : f ≠ .busy) (hdone : f ≠ .done) :
      v.here.flag f = if .bound = f then true else u.here.flag f := by
    rw [hv, ← bindResult_eq hkind]
    exact bindResult_flag kind proto role u.here hbusy hdone
  have hres0 : v.here.res0 = BitVec.ofNat 32 ((u.here.larg1.toNat - 8) / e - 1) := by rw [hv]; rfl
  have hslotsWord : v.here.slots = BitVec.ofNat 32 ((u.here.larg1.toNat - 8) / e) := by rw [hv]; rfl
  rw [hlarg1, hcount] at hres0 hslotsWord
  exact ⟨v, hexec, (hflag (f := .err) (by decide) (by decide)).trans herr,
    hflag (f := .bound) (by decide) (by decide), hres0, hslotsWord⟩

end Sys2Proof.Machine

/-! PROOFS. The counts of a ring, and the slots of a transfer (spec R112, R130, R132, R133). -/

namespace Sys2Proof.Machine

/-! ## What is to read and what is free (R130) -/

section
variable {S rd wr n : Nat}

theorem advance_lt (i n : Nat) (h : 0 < S) : advance S i n < S := Nat.mod_lt _ h

/-- One slot of the ring always stays free (R130). -/
theorem availRead_add_availWrite (h : 0 < S) : availRead S rd wr + availWrite S rd wr = S - 1 := by
  have hread := availRead_lt (rd := rd) (wr := wr) h
  unfold availWrite
  omega

theorem isEmpty_iff_availRead (hr : rd < S) (hw : wr < S) : isEmpty rd wr = true ↔ availRead S rd wr = 0 := by
  rw [isEmpty, decide_eq_true_iff, availRead_eq S rd wr hr hw]
  split <;> omega

theorem isFull_iff_availWrite (hr : rd < S) (hw : wr < S) : isFull S rd wr = true ↔ availWrite S rd wr = 0 := by
  rw [isFull_eq S rd wr hw, decide_eq_true_iff, availWrite, availRead_eq S rd wr hr hw]
  split <;> split <;> omega

/-- A producer that publishes `n` free slots raises what is to read by `n` (R133). -/
theorem availRead_advance_write (hr : rd < S) (hw : wr < S) (hn : n ≤ availWrite S rd wr) :
    availRead S rd (advance S wr n) = availRead S rd wr + n := by
  have hlt := advance_lt wr n (Nat.zero_lt_of_lt hw)
  rw [availWrite, availRead_eq S rd wr hr hw] at hn
  rw [availRead_eq S rd _ hr hlt, availRead_eq S rd wr hr hw, advance, ring_mod S wr n hw (by omega)]
  grind

/-- A consumer that publishes `n` elements read lowers what is to read by `n` (R133). -/
theorem availRead_advance_read (hr : rd < S) (hw : wr < S) (hn : n ≤ availRead S rd wr) :
    availRead S (advance S rd n) wr = availRead S rd wr - n := by
  have hlt := advance_lt rd n (Nat.zero_lt_of_lt hr)
  rw [availRead_eq S rd wr hr hw] at hn
  rw [availRead_eq S _ wr hlt hw, availRead_eq S rd wr hr hw, advance, ring_mod S rd n hr (by grind)]
  grind

end

/-- Settles O6: each count by cases on where the indices stand. -/
theorem ringCounts : Obligations.RingCounts := by
  intro S rd wr hS hr hw
  have hsum := availRead_add_availWrite (rd := rd) (wr := wr) hS
  refine ⟨availRead_lt hS, by omega, hsum, isEmpty_iff_availRead hr hw, isFull_iff_availWrite hr hw,
    fun n hn => ⟨advance_lt wr n hS, availRead_advance_write hr hw hn⟩,
    fun n hn => ⟨advance_lt rd n hS, availRead_advance_read hr hw hn⟩, fun hmax => ⟨by omega, fun n hn => by omega⟩⟩

/-! ## The two parts of a transfer (R132) -/

section
variable {S i n k : Nat}

/-- The first part runs from `i` towards the physical end. -/
theorem splitSlot_first (hk : k < splitFirst S i n) : splitSlot S i n k = i + k := if_pos hk

/-- The second part runs from slot 0. -/
theorem splitSlot_second (S i n k : Nat) : splitSlot S i n (splitFirst S i n + k) = k := by
  rw [splitSlot, if_neg (by omega), Nat.add_sub_cancel_left]

/-- Where there is a second part, the first fills the ring to its end, and the second stops short of slot `i`. -/
theorem splitSecond_pos (hn : n ≤ S - 1) (h : 0 < splitSecond S i n) :
    splitFirst S i n = S - i ∧ splitSecond S i n = n - (S - i) ∧ splitSecond S i n ≤ i - 1 := by
  unfold splitSecond splitFirst at *
  omega

end

/-- Settles O7: element `k` lies `k` places on in ring order (`splitSlot_eq_mod`), and so each in a slot of its own. -/
theorem splitCoversTheRun : Obligations.SplitCoversTheRun := by
  intro S i n hi hn
  refine ⟨by omega, rfl, rfl, fun k hk => splitSlot_first hk, fun k _ => splitSlot_second S i n k,
    fun k hk => ⟨splitSlot_eq_mod S i n k hi hn hk, splitSlot_lt hi hn hk⟩, splitSecond_pos hn, fun k l hk hl heq => ?_⟩
  rw [splitSlot_eq_mod S i n k hi hn hk, splitSlot_eq_mod S i n l hi hn hl] at heq
  by_contra hne
  exact ring_place_ne S i k l hi (by omega) (by omega) hne heq

end Sys2Proof.Machine

/-! PROOFS. The checks of a ring command (spec R134, R155, R160): bound, role, protocol and grant, in their order. -/

namespace Sys2Proof.Machine

/-- The first check of every ring command is that its port is bound (R134, R160). -/
theorem check_bound_first {i : Instr} (hi : ringCommand i = true) (cfg : Config) (q : Port) :
    ∃ rest, check i cfg q = firstError (needBound q :: rest) := by
  cases i
  case nop | bind | size | deint | inter => cases hi
  all_goals exact ⟨_, rfl⟩

/-- A ring command on an unbound port ends with NOT_BOUND (R134, R160). -/
theorem fails_notBound {i : Instr} {s : State} (hs : Ready s) (hi : ringCommand i = true) (hb : s.here.bound = false) :
    Fails i s ErrCode.notBound.word 0 := by
  obtain ⟨rest, hcheck⟩ := check_bound_first hi s.cfg s.here
  exact fails_of_head hs hcheck (by rw [hb]; rfl)

section
variable {i : Instr} {s : State} {r : Role} {rest : List (Bool × ErrCode × Word)} (hs : Ready s)
  (hb : s.here.bound = true)
include hs hb

/-- A command that needs the other role ends with ROLE, ERR_INFO the port's own (R134, R202). -/
theorem fails_role (hcheck : check i s.cfg s.here = firstError (needBound s.here :: needRole s.here r :: rest))
    (hr : s.here.role ≠ r) : Fails i s ErrCode.role.word s.here.roleWord :=
  fails_of_head hs (hcheck.trans (firstError_tail (by simp [hb]))) (by simp [hr])

/-- On a bound port of the right role the check that comes next decides (R134, R205). -/
theorem fails_after_role {b : Bool} {e : ErrCode} {info : Word}
    (hcheck : check i s.cfg s.here = firstError (needBound s.here :: needRole s.here r :: (b, e, info) :: rest))
    (hr : s.here.role = r) (h : b = true) : Fails i s e.word info :=
  fails_of_head hs ((hcheck.trans (firstError_tail (by simp [hb]))).trans (firstError_tail (by simp [hr]))) h

/-- And past a check that passes, the one after it (R134, R205). -/
theorem fails_after_third {c : Bool × ErrCode × Word} {b : Bool} {e : ErrCode} {info : Word}
    (hcheck : check i s.cfg s.here = firstError (needBound s.here :: needRole s.here r :: c :: (b, e, info) :: rest))
    (hr : s.here.role = r) (hc : c.1 = false) (h : b = true) : Fails i s e.word info :=
  fails_of_head hs (((hcheck.trans (firstError_tail (by simp [hb]))).trans (firstError_tail (by simp [hr]))).trans
    (firstError_tail hc)) h

end

theorem Port.role_eq (q : Port) : q.role = if q.bindcfg.getLsbD 10 then .consumer else .producer := rfl

/-- BINDCFG.PROTO as a number (R39). -/
theorem Port.toNat_proto (q : Port) : q.proto.toNat = q.bindcfg.toNat / 256 % 4 := by
  rw [Port.proto, BitVec.extractLsb'_toNat, Nat.shiftRight_eq_div_pow]

/-- BINDCFG.PROTO as ERR_INFO shows it (R202). -/
theorem Port.proto_setWidth (q : Port) : q.proto.setWidth 32 = BitVec.ofNat 32 (q.bindcfg.toNat / 256 % 4) := by
  rw [← q.toNat_proto, BitVec.ofNat_toNat]

theorem Port.proto_eq_iff (q : Port) (pr : BitVec 2) : q.proto = pr ↔ q.bindcfg.toNat / 256 % 4 = pr.toNat := by
  rw [← q.toNat_proto, BitVec.toNat_inj]

/-- Settles O34: the first two checks of R134. -/
theorem notBoundAndRole : Obligations.NotBoundAndRole := by
  intro i s hs
  refine ⟨fun hi hb => fails_notBound hs hi hb, fun hb hrole hi => ?_, fun hb hrole hi => ?_⟩
  · have hne : s.here.role ≠ .producer := by rw [Port.role_eq, if_pos hrole]; decide
    have hword : s.here.roleWord = 1 := if_pos hrole
    rw [← hword]
    rcases hi with rfl | rfl | ⟨d, rfl⟩ | rfl | ⟨x, rfl⟩
    all_goals exact fails_role hs hb rfl hne
  · have hne : s.here.role ≠ .consumer := by rw [Port.role_eq, if_neg (Bool.eq_false_iff.mp hrole)]; decide
    have hword : s.here.roleWord = 0 := if_neg (Bool.eq_false_iff.mp hrole)
    rw [← hword]
    rcases hi with rfl | rfl | rfl
    all_goals exact fails_role hs hb rfl hne

/-- Settles O35: the check that fails is the third of R134's, or the fourth after a protocol or a grant that passes. -/
theorem protocolAndGrantErrors : Obligations.ProtocolAndGrantErrors := by
  intro i s hs hb consumer proto grant
  have hproducer (h : consumer = false) : s.here.role = .producer := by
    rw [Port.role_eq, if_neg (Bool.eq_false_iff.mp h)]
  have hconsumer (h : consumer = true) : s.here.role = .consumer := by rw [Port.role_eq, if_pos h]
  have hwrong {pr : BitVec 2} (h : proto ≠ pr.toNat) : (s.here.proto != pr) = true :=
    bne_iff_ne.mpr (mt (s.here.proto_eq_iff pr).mp h)
  have hright {pr : BitVec 2} (h : proto = pr.toNat) : (s.here.proto != pr) = false :=
    bne_eq_false_iff_eq.mpr ((s.here.proto_eq_iff pr).mpr h)
  have hinfo : BitVec.ofNat 32 proto = s.here.proto.setWidth 32 := s.here.proto_setWidth.symm
  rw [hinfo]
  refine ⟨?_, ?_, ?_, ?_, ?_, ?_, ?_⟩
  · rintro hrole rfl hp
    exact fails_after_role (e := .proto) hs hb rfl (hproducer hrole) (hwrong (pr := protoAudio) hp)
  · rintro hrole rfl hp
    exact fails_after_role (e := .proto) hs hb rfl (hconsumer hrole) (hwrong (pr := protoAudio) hp)
  · rintro hrole ⟨x, rfl⟩ hp
    exact fails_after_role (e := .proto) hs hb rfl (hproducer hrole) (hwrong (pr := protoParam) hp)
  · rintro hrole rfl hp
    exact fails_after_role (e := .proto) hs hb rfl (hconsumer hrole) (hwrong (pr := protoParam) hp)
  · rintro hrole hgrant (rfl | rfl | ⟨rfl, hp⟩ | ⟨⟨x, rfl⟩, hp⟩)
    · exact fails_after_role (e := .grantPending) hs hb rfl (hproducer hrole) hgrant
    · exact fails_after_role (e := .grantPending) hs hb rfl (hproducer hrole) hgrant
    · exact fails_after_third (e := .grantPending) hs hb rfl (hproducer hrole) (hright (pr := protoAudio) hp) hgrant
    · exact fails_after_third (e := .grantPending) hs hb rfl (hproducer hrole) (hright (pr := protoParam) hp) hgrant
  · rintro hrole hgrant ⟨d, rfl⟩
    exact fails_after_role (e := .noGrant) hs hb rfl (hproducer hrole) (congrArg (!·) hgrant)
  · rintro hrole hgrant rfl hcount
    exact fails_after_third (e := .commitRange) hs hb rfl (hproducer hrole) (congrArg (!·) hgrant) (decide_eq_true hcount)

end Sys2Proof.Machine

/-! PROOFS. The commands that load the indices (spec R131): what they do up to their checked indices, what an index out of
range ends them with, and from it WSPAN.ACQ (R150). WSPAN.COMMIT, which loads none, publishes its grant (R155). -/

namespace Sys2Proof.Machine

/-! ## LoadIndices in every command that has it (R131) -/

/-- Where command `i` goes on from indices in range (R131). -/
def loadNext (i : Instr) : Port → EnginePos :=
  match i with
  | .push | .aenq => pushNext
  | .pop | .adeq => popNext
  | .penq _ => fun q => if penqFull q then .finish else .recordWrite 0
  | .pdeq => pdeqNext
  | .nop | .bind _ _ _ _ | .size _ | .empty | .full | .capacity | .availRead | .availWrite | .wspanAcq
  | .wspanCommit _ | .deint | .inter => fun _ => .finish

section
variable {i : Instr} {s : State} (hi : loadsIndices i = true)
include hi

/-- A command whose decode checks pass goes through LoadIndices (R131). -/
theorem loadPhase_of_check (hp : s.here.pos = .decode) (hk : check i s.cfg s.here = none) :
    LoadPhase (micro i) s (loadNext i) := by
  cases i
  case capacity | wspanCommit | nop | bind | size | deint | inter => cases hi
  all_goals
    simp only [check] at hk
    refine ⟨?_, fun u _ hq => ?_, fun u w _ hq => ?_⟩
    all_goals
      simp only [micro, microEmpty, microFull, microAvailRead, microAvailWrite, microIndexQuery, microPush, microPop,
        microAenq, microAdeq, microPushBody, microPopBody, microWspanAcq, microPenq, microPdeq, loadNext,
        State.decodeStep_none, *]

theorem four_le_stepBound (q : Port) : 4 ≤ stepBound i q := by
  cases i with
  | capacity | wspanCommit | nop | bind | size | deint | inter => cases hi
  | push | pop | aenq | adeq => simp only [stepBound, transferSteps]; omega
  | _ => simp [stepBound]

end

/-! ## Where LoadIndices leads (R131) -/

section
variable {i : Instr} {s : State} {next : Port → EnginePos}

/-- Running a port on from the state it comes to after `k` steps. -/
theorem runPort_after {f : State → State} {k : Nat} {s u : State} (h : runPort f k s = u) (fuel : Nat) :
    runPort f (fuel + k) s = runPort f fuel u := by
  rw [Nat.add_comm, runPort_add, h]

/-- What follows from what is known of the state after a command is known of it too. -/
theorem Answers.imp {q : Port} {P Q : State → Prop} (h : Answers i s q P) (hPQ : ∀ t, P t → Q t) : Answers i s q Q := by
  obtain ⟨t, hexec, hhere, helse, hP⟩ := h
  exact ⟨t, hexec, hhere, helse, hPQ t hP⟩

/-- The decode step and the two loads, as the state after three steps. -/
theorem LoadPhase.after {f : State → State} (L : LoadPhase f s next) (hs : Ready s) (hq : IndicesQuiet s) :
    ∃ u, runPort f 3 s = u ∧ Elsewhere s u ∧ u.here = { s.loaded with pos := s.indexPos next } ∧ u.mem = s.mem ∧
      u.order = s.orderLoaded ∧ u.order.trace.length = s.order.trace.length + 2 := by
  obtain ⟨u, hrun, hu⟩ := L.run hs hq 0
  exact ⟨u, hrun, hu⟩

/-- read_index is checked first (R131, R205). -/
theorem State.indexPos_rdRange (h : s.here.nslots ≤ s.rdIndex.toNat) :
    s.indexPos next = .raising .indexRange s.rdIndex := by
  have herror : ({ s.loaded with pos := .loadWr } : Port).indexError = some (.indexRange, s.rdIndex) :=
    firstError_head (decide_eq_true h)
  simp only [State.indexPos, herror]

/-- Then write_index (R131, R205). -/
theorem State.indexPos_wrRange (hrd : s.rdIndex.toNat < s.here.nslots) (h : s.here.nslots ≤ s.wrIndex.toNat) :
    s.indexPos next = .raising .indexRange s.wrIndex := by
  have herror : ({ s.loaded with pos := .loadWr } : Port).indexError = some (.indexRange, s.wrIndex) :=
    (firstError_tail (decide_eq_false (Nat.not_le.mpr hrd))).trans (firstError_head (decide_eq_true h))
  simp only [State.indexPos, herror]

/-- A command that LoadIndices leads to `raise` ends there, its two loads its only memory events (R131, R203). -/
theorem LoadPhase.answers_raise {e : ErrCode} {info : Word} (L : LoadPhase (micro i) s next) (hs : Ready s)
    (hq : IndicesQuiet s) (hpos : s.indexPos next = .raising e info) (hbound : 4 ≤ stepBound i s.here) :
    Answers i s (s.loaded.failed e.word info) (OnlyReads 2 s) := by
  obtain ⟨u, hrun, hu, hhere, hmem, -, hlen⟩ := L.after hs hq
  have hc := hu.exists hs.1
  have hraise : u.here.pos = .raising e info := by rw [hhere, hpos]
  obtain ⟨fuel, hfuel⟩ := Nat.exists_eq_add_of_le' hbound
  refine ⟨u.raise e info, ?_, ?_, hu.trans (elsewhere_raise u e info), hmem, hlen⟩
  · rw [exec_runPort, hfuel, show fuel + 4 = fuel + 1 + 3 from rfl, runPort_after hrun,
      runPort_raise _ u e info fuel hc hraise (micro_raising hraise)]
  · rw [State.here_raise_failed u e info hc, hhere]
    rfl

/-- A command that LoadIndices leads to its finish step ends there, its two loads its only memory events (R94, R131). -/
theorem LoadPhase.answers_finish {q : Port} (L : LoadPhase (micro i) s next) (hs : Ready s) (hi : IndicesLoad s)
    (hnext : next { s.loaded with pos := .loadWr } = .finish)
    (hfinish : ∀ u, Elsewhere s u → u.here = { s.loaded with pos := .finish } → micro i u = u.finishStep q)
    (hbound : 4 ≤ stepBound i s.here) : Answers i s q.finished (OnlyReads 2 s) := by
  obtain ⟨u, hrun, hu, hhere, hmem, -, hlen⟩ := L.after hs hi.2
  rw [State.indexPos_valid s next hi.1, hnext] at hhere
  exact (answers_of_finish hs hu (by rw [hhere]) (hfinish u hu hhere) hbound (runPort_after hrun)).imp
    fun t ⟨hmem', htrace⟩ => ⟨hmem'.trans hmem, htrace ▸ hlen⟩

end

/-- Settles O37: LoadIndices leads to `raise`, whatever the command. -/
theorem indexOutOfRange : Obligations.IndexOutOfRange := by
  intro i s hs hi hk hq
  have L := loadPhase_of_check hi hs.2 hk
  have hbound := four_le_stepBound hi s.here
  exact ⟨fun hrd => L.answers_raise (e := .indexRange) hs hq (State.indexPos_rdRange hrd) hbound,
    fun hrd hwr => L.answers_raise (e := .indexRange) hs hq (State.indexPos_wrRange hrd hwr) hbound⟩

/-! ## WSPAN.ACQ (R150) -/

/-- The registers of R150, with the spans written out: the first at SLOT(write_index), the second at SLOT(0). -/
theorem acqResult_eq (q : Port) : acqResult q =
    { q with
      span0Addr := BitVec.ofNat 32 (q.base + 8 + q.lwr.toNat * q.esize)
      span0Len := BitVec.ofNat 32 (min (q.nslots - q.lwr.toNat) (acqCount q))
      span1Addr := BitVec.ofNat 32 (q.base + 8)
      span1Len := BitVec.ofNat 32 (acqCount q - min (q.nslots - q.lwr.toNat) (acqCount q))
      grantWr := q.lwr
      grantN := BitVec.ofNat 32 (acqCount q)
      res0 := BitVec.ofNat 32 (acqCount q)
      status := q.status ||| 0x20#32 } := by
  have hslot0 : slotAddr q.base q.esize 0 = q.base + 8 := by
    rw [slotAddr, Nat.zero_mul, Nat.add_zero, Config.headerSize]
  simp only [acqResult, hslot0]
  rfl

/-- Settles O49 (`acqResult` is the model's own name for the registers of R150): LoadIndices leads to the
finish step, which writes them. -/
theorem acqResultHolds : Obligations.AcqResult := by
  intro s hs hb hrole hgrant hi wr n first
  have hcheck : check .wspanAcq s.cfg s.here = none := by
    simp [check, checkWspanAcq, firstError, needBound, needRole, needNoGrant, hb, hrole, hgrant]
  have hanswers := (loadPhase_of_check rfl hs.2 hcheck).answers_finish (q := acqResult { s.loaded with pos := .finish })
    hs hi rfl (fun u _ hu => by simp only [micro, microWspanAcq, hu]) le_rfl
  rw [acqResult_eq] at hanswers
  exact hanswers

/-! ## The store that publishes an index (R66) -/

section
variable {s : State} {w v : Nat}

/-- The published value stands where no overlap and no unordered data write leaves it to any value (R71, R77). -/
theorem State.publishStep_readWord
    (h : ∀ j, j < 4 → s.foreign (w + j) = false ∧ s.order.dataRacy s.agent (w + j) = false) :
    (s.publishStep w v).mem.readWord w = BitVec.ofNat 32 v := by
  have hquiet : ∀ j, j < (leBytes (BitVec.ofNat 32 v)).length →
      (s.foreign (w + j) || s.order.dataRacy s.agent (w + j)) = false := fun j hj => by
    rw [(h j hj).1, (h j hj).2]
    rfl
  rw [State.publishStep_mem, State.landedBytes_quiet _ _ _ _ hquiet, Memory.readWord_writeBytes]

end

/-! ## WSPAN.COMMIT (R155) -/

/-- A WSPAN.COMMIT of at most the granted count passes its checks (R134, R155). -/
theorem checkWspanCommit_none {dflt : Bool} {q : Port} (hb : q.bound = true) (hrole : q.role = .producer)
    (hgrant : q.grant = true) (hcount : (commitCount dflt q).toNat ≤ q.grantN.toNat) :
    checkWspanCommit dflt q = none := by
  simp [checkWspanCommit, firstError, needBound, needRole, needGrant, hb, hrole, hgrant, Nat.not_lt.mpr hcount]

/-- The state in which a WSPAN.COMMIT of `c` elements comes to its finish step (R155). -/
def State.commitBody (s : State) (c : Word) : State :=
  (s.goto .publish).publishStep s.here.base ((s.here.grantWr.toNat + c.toNat) % s.here.nslots)

section
variable {s : State} (c : Word)

theorem elsewhere_commitBody : Elsewhere s (s.commitBody c) :=
  (elsewhere_goto s .publish).trans (elsewhere_publishStep _ _ _)

theorem State.here_commitBody (hc : s.cur < s.ports.length) :
    (s.commitBody c).here = { s.here with pos := .finish } := by
  rw [State.commitBody, State.here_publishStep _ _ _ ((elsewhere_goto s _).exists hc), State.here_goto s _ hc]

theorem State.commitBody_read {a : Nat} (h : ¬ (s.here.base ≤ a ∧ a < s.here.base + 4)) :
    (s.commitBody c).mem.read a = s.mem.read a :=
  State.publishStep_read (s.goto .publish) _ _ a (by omega)

/-- write_index is `c` past GRANT_WR (R155). -/
theorem State.commitBody_readWord (hc : s.cur < s.ports.length) (h : IndexSettled s s.order s.here.base) :
    (s.commitBody c).mem.readWord s.here.base =
      BitVec.ofNat 32 ((s.here.grantWr.toNat + c.toNat) % s.here.nslots) := by
  have hsame : (s.goto .publish).here.SameSegment s.here := by
    rw [State.here_goto s _ hc]
    exact ⟨rfl, rfl, rfl, rfl⟩
  refine State.publishStep_readWord fun j hj => ⟨?_, (h j hj).2⟩
  rw [(elsewhere_goto s .publish).foreign hsame]
  exact (h j hj).1

/-- The decode step of a WSPAN.COMMIT whose checks pass, and its store (R93, R155). -/
theorem runPort_commit {dflt : Bool} (hs : Ready s) (hcheck : checkWspanCommit dflt s.here = none) :
    runPort (micro (.wspanCommit dflt)) 2 s = s.commitBody (commitCount dflt s.here) := by
  have hgoto := State.here_goto s .publish hs.1
  have hdecode : micro (.wspanCommit dflt) s = s.goto .publish := by
    simp only [micro, microWspanCommit, hs.2, hcheck, State.decodeStep_none]
  rw [runPort_succ _ _ _ (by rw [hs.2]; simp), hdecode, runPort_succ _ _ _ (by rw [hgoto]; simp), runPort_zero]
  simp only [micro, microWspanCommit, hgoto]
  rfl

end

/-- Settles O50: the decode step, the store, and the finish step that closes the grant. -/
theorem commitResult : Obligations.CommitResult := by
  intro dflt s hs hb hrole hgrant c hcount
  have hhere := State.here_commitBody c hs.1
  have hfinish : micro (.wspanCommit dflt) (s.commitBody c) =
      (s.commitBody c).finishStep (({ s.here with pos := .finish, res0 := c } : Port).setFlag .grant false) := by
    simp only [micro, microWspanCommit, hhere]
    rfl
  refine (answers_of_finish hs (elsewhere_commitBody c) (by rw [hhere]) hfinish le_rfl
    (runPort_after (runPort_commit hs (checkWspanCommit_none hb hrole hgrant hcount)))).imp ?_
  rintro t ⟨hmem, htrace⟩
  rw [hmem, htrace]
  exact ⟨fun a ha => State.commitBody_read c ha, State.commitBody_readWord c hs.1, rfl⟩

end Sys2Proof.Machine

/-! PROOFS. What a ring transfer does to MEM (spec R140, R141, R145, R146): its copies and the store that publishes its
index, for any number of elements, and from it PUSH and POP. -/

namespace Sys2Proof.Machine

/-! ## A transfer from its decode step to its end (R131, R140, R145) -/

section
variable {i : Instr} {f : State → State} {s u : State} {next : Port → EnginePos} {n e : Nat} {src dst : Nat → Nat}
  {isOpen : Nat → Nat → Bool} {w v : Nat} {result : Port → Port} {q : Port} {x : List Byte}

/-- The loads and the copies of a transfer, with the memory events counted (R68). -/
theorem Transfer.copies (T : Transfer f s next n e src dst isOpen w v result) (hs : Ready s) (hi : IndicesLoad s)
    (hnext : next { s.loaded with pos := .loadWr } = if n = 0 then .publish else .copyRead 0) :
    ∃ u x, runPort f (2 * n + 3) s = u ∧ CopiesDone s u n e src dst isOpen x ∧
      u.order.trace.length = s.order.trace.length + 2 + 2 * n := by
  obtain ⟨u0, hrun0, hu0, hq0, hm0, ho0, hlen0⟩ := T.toLoadPhase.after hs hi.2
  rw [State.indexPos_valid s next hi.1, hnext] at hq0
  cases n with
  | zero =>
    exact ⟨u0, s.here.elem, hrun0, ⟨hu0, hq0, ho0 ▸ .refl,
      fun a _ => by rw [hm0], fun _ _ i _ _ hi => absurd hi (Nat.not_lt_zero i)⟩, hlen0⟩
  | succ m =>
    have C := T.toCopyLoop.later hu0
    have hc0 := hu0.exists hs.1
    have hq0' : u0.here = s.loaded.copying (.copyRead 0) s.here.elem := hq0
    obtain ⟨u1, x, hrun1, hu1, hq1, -, hlen1, hcopied⟩ :=
      C.run hc0 m u0 0 _ (Elsewhere.refl u0) hq0' (by omega) ⟨fun _ => rfl, rfl⟩ 0
    have hcopies := C.run_recorded hc0 m u0 0 _ (Elsewhere.refl u0) hq0' (by omega)
    rw [Nat.zero_add, runPort_zero] at hrun1
    rw [hrun1, ho0, hu0.agent] at hcopies
    refine ⟨u1, x, (runPort_after hrun0 _).trans hrun1, ⟨hu0.trans hu1, hq1, hcopies, ?_⟩, by omega⟩
    simp only [Copied, ho0, hm0, hu0.agent] at hcopied ⊢
    exact hcopied

/-- A transfer that publishes completes: its copies, the store of its index, and the finish step (R94, R140, R145). -/
theorem Transfer.answers (T : Transfer (micro i) s next n e src dst isOpen w v result) (hs : Ready s)
    (hi : IndicesLoad s) (hnext : next { s.loaded with pos := .loadWr } = if n = 0 then .publish else .copyRead 0)
    (hq : ∀ x, (result (s.loaded.copying .finish x)).finished = q) (hbound : 5 + 2 * n ≤ stepBound i s.here) :
    ∃ u x, CopiesDone s u n e src dst isOpen x ∧ Answers i s q (fun t => t.mem = (u.publishStep w v).mem ∧
      t.order.trace.length = s.order.trace.length + (3 + 2 * n)) := by
  obtain ⟨u, x, hrun, hu, hlen⟩ := T.copies hs hi hnext
  have hpublish := T.publish u x hu.elsewhere hu.here
  have hu' := hu.elsewhere.trans (elsewhere_publishStep u w v)
  have hhere : (u.publishStep w v).here = s.loaded.copying .finish x := by
    rw [State.here_publishStep _ _ _ (hu.elsewhere.exists hs.1), hu.here]
    rfl
  have hfinish := T.finish _ x hu' hhere
  rw [hhere] at hfinish
  refine ⟨u, x, hu, hq x ▸ (answers_of_finish hs hu' (by rw [hhere]; rfl) hfinish (k := 2 * n + 4) (by omega)
    fun fuel => ?_).imp fun t ⟨hmem, htrace⟩ => ⟨hmem, ?_⟩⟩
  · rw [show fuel + (2 * n + 4) = fuel + 1 + (2 * n + 3) by omega, runPort_after hrun,
      runPort_succ _ _ _ (by rw [hu.here]; simp [Port.copying]), hpublish]
  · rw [htrace, State.publishStep_order, Order.publish_trace, Order.record_trace, List.length_cons]
    omega

/-- A transfer with nothing to publish completes after its loads (R140, R145). -/
theorem Transfer.answers_unpublished (T : Transfer (micro i) s next n e src dst isOpen w v result) (hs : Ready s)
    (hi : IndicesLoad s) (hnext : next { s.loaded with pos := .loadWr } = .finish)
    (hq : ∀ x, (result (s.loaded.copying .finish x)).finished = q) (hbound : 4 ≤ stepBound i s.here) :
    Answers i s q (OnlyReads 2 s) := by
  rw [← hq s.here.elem]
  exact T.toLoadPhase.answers_finish hs hi hnext
    (fun u hu hhere => by rw [T.finish u s.here.elem hu hhere, hhere]; rfl) hbound

/-- A transfer in a ring that has `avail` elements to give or to take: where there is none it ends with its loads, and
otherwise it publishes (R140, R145). `P` is what either leaves in MEM. -/
theorem Transfer.answers_available {avail : Nat} {P : State → Prop}
    (T : Transfer (micro i) s next n e src dst isOpen w v result) (hs : Ready s) (hi : IndicesLoad s)
    (hnext : next { s.loaded with pos := .loadWr } =
      if avail = 0 then .finish else if n = 0 then .publish else .copyRead 0)
    (hq : ∀ x, (result (s.loaded.copying .finish x)).finished = q) (hbound : 5 + 2 * n ≤ stepBound i s.here)
    (hunchanged : avail = 0 → ∀ t : State, t.mem = s.mem → P t)
    (hpublished : ∀ u x t, CopiesDone s u n e src dst isOpen x → t.mem = (u.publishStep w v).mem → P t) :
    Answers i s q (fun t => P t ∧ (avail = 0 → t.mem = s.mem) ∧
      t.order.trace.length = s.order.trace.length + (if avail = 0 then 2 else 3 + 2 * n)) := by
  by_cases hzero : avail = 0
  · rw [if_pos hzero] at hnext ⊢
    exact (T.answers_unpublished hs hi hnext hq (by omega)).imp
      fun t ⟨hmem, hlen⟩ => ⟨hunchanged hzero t hmem, fun _ => hmem, hlen⟩
  · rw [if_neg hzero] at hnext ⊢
    obtain ⟨u, x, hu, hanswers⟩ := T.answers hs hi hnext hq hbound
    exact hanswers.imp fun t ⟨hmem, hlen⟩ => ⟨hpublished u x t hu hmem, fun h => absurd h hzero, hlen⟩

/-! What it leaves in MEM. -/

theorem CopyRecorded.dataRacy {a m : Nat} {o o' : Order} (h : CopyRecorded a n e src dst o o') :
    o'.dataRacy a m = o.dataRacy a m := by
  obtain ⟨k, -, rfl⟩ := h
  rw [Order.overwrite_dataRacy, Order.dataRacy_record_self, Order.dataRacy_record_self]

/-- The copies bring no data write that the port's own store would race with (R74 edge 1, R77). -/
theorem CopiesDone.dataRacy (h : CopiesDone s u n e src dst isOpen x) (m : Nat) :
    u.order.dataRacy s.agent m = s.orderLoaded.dataRacy s.agent m := by
  have hrecorded := h.recorded
  generalize u.order = o at hrecorded ⊢
  induction hrecorded with
  | refl => rfl
  | tail _ hstep ih => exact hstep.dataRacy.trans ih

theorem CopiesDone.sameSegment (h : CopiesDone s u n e src dst isOpen x) : u.here.SameSegment s.here := by
  rw [h.here]
  exact ⟨rfl, rfl, rfl, rfl⟩

/-- A byte off the index word and off every destination stays as it was. -/
theorem CopiesDone.read_outside (h : CopiesDone s u n e src dst isOpen x) {a : Nat} (hw : a < w ∨ w + 4 ≤ a)
    (hdst : ∀ k, k < n → ¬ (dst k ≤ a ∧ a < dst k + e)) : (u.publishStep w v).mem.read a = s.mem.read a := by
  rw [State.publishStep_read u w v a hw, h.copied.1 a fun k _ hk => hdst k hk]

/-- The published index stands in MEM where neither an overlap nor an unordered data write leaves it open (R71, R77). -/
theorem CopiesDone.readWord (h : CopiesDone s u n e src dst isOpen x) (hw : IndexSettled s s.orderLoaded w) :
    (u.publishStep w v).mem.readWord w = BitVec.ofNat 32 v := by
  refine State.publishStep_readWord fun j hj => ?_
  obtain ⟨hforeign, hracy⟩ := hw j hj
  rw [h.elsewhere.foreign h.sameSegment, h.elsewhere.agent, h.dataRacy]
  exact ⟨hforeign, hracy⟩

/-- A destination byte that is not left open holds its source's, where no copy touches what another reads or writes. -/
theorem CopiesDone.read_element (h : CopiesDone s u n e src dst isOpen x)
    (hsrc : ∀ i j, i < n → j < n → dst i + e ≤ src j ∨ src j + e ≤ dst i)
    (hdst : ∀ i j, i < n → j < n → i ≠ j → dst i + e ≤ dst j ∨ dst j + e ≤ dst i) {k j : Nat} (hk : k < n) (hj : j < e)
    (hw : dst k + j < w ∨ w + 4 ≤ dst k + j) (hopen : isOpen k (dst k + j) = false)
    (hfrom : s.orderLoaded.mayRace s.agent (src k + j) = false)
    (hto : s.orderLoaded.racy s.agent (dst k + j) = false) :
    (u.publishStep w v).mem.read (dst k + j) = s.mem.read (src k + j) := by
  rw [State.publishStep_read u w v _ hw]
  exact h.copied.2 hsrc hdst k j (Nat.zero_le k) hk hj hopen hfrom hto

end

/-- A buffer that does not overlap the port's segment has no element that does (R141, R146). -/
theorem bufferAddr_off_segment {s : State} {e off : Nat} (h : BufferApart s e off) (he : 0 < e) {k : Nat}
    (hk : k < s.here.larg1.toNat) : bufferAddr s.here e (off + k) + e ≤ s.here.base ∨
      s.here.base + s.here.segLen ≤ bufferAddr s.here e (off + k) := by
  obtain ⟨hstart, hlast⟩ := bufferAddr_between (q := s.here) (e := e) (off := off) hk
  have hapart := (rangesMeet_eq_false _ _ _ _).mp h
  have hlen : s.here.segLen = 8 + s.here.nslots * s.here.esize := rfl
  omega

/-! ## PUSH (R140, R141) -/

/-- `f` takes the micro-steps of a producer transfer of elements of `e` bytes from offset `off` of its buffer (R140). -/
abbrev PushSteps (f : State → State) (s : State) (e off : Nat) : Prop :=
  Transfer f s pushNext (pushCount s.loaded) e (fun k => bufferAddr s.here e (off + k)) (pushSlot s.loaded e)
    (fun _ => pushOpen e off s) s.here.base (advance s.here.nslots s.wrIndex.toNat (pushCount s.loaded))
    (fun q => { q with res0 := BitVec.ofNat 32 (pushCount q) })

section
variable {i : Instr} {s u : State} {e off k : Nat} {x : List Byte}

/-- A ring with no slot free is full (R130). -/
theorem pushNext_loaded (h : ValidIndices s) : pushNext { s.loaded with pos := .loadWr } =
    if s.canWrite = 0 then .finish else if pushCount s.loaded = 0 then .publish else .copyRead 0 := by
  have hfull : s.loaded.fullNow = true ↔ s.canWrite = 0 := isFull_iff_availWrite h.1 h.2
  by_cases hzero : s.canWrite = 0
  · rw [if_pos hzero]
    exact if_pos (hfull.mpr hzero)
  · rw [if_neg hzero]
    exact if_neg (mt hfull.mp hzero)

/-- Element `k` of a PUSH goes to the slot `k` places past write_index (R132, R140). -/
theorem pushSlot_loaded (e : Nat) (h : ValidIndices s) (hk : k < pushCount s.loaded) :
    pushSlot s.loaded e k = s.ringSlot e s.wrIndex.toNat k :=
  congrArg (slotAddr s.here.base e)
    (splitSlot_eq_mod s.here.nslots s.wrIndex.toNat _ k h.2 (pushCount_le s.loaded) hk)

/-- The state after the copies of a producer transfer. -/
abbrev PushCopies (s u : State) (e off : Nat) (x : List Byte) : Prop :=
  CopiesDone s u (pushCount s.loaded) e (fun k => bufferAddr s.here e (off + k)) (pushSlot s.loaded e)
    (fun _ => pushOpen e off s) x

/-- What a producer transfer has done to MEM once it has published (R140). -/
theorem pushedInto_published {t : State} (hu : PushCopies s u e off x) (hvalid : ValidIndices s)
    (he : s.here.esize = e) (hmem : t.mem =
      (u.publishStep s.here.base (advance s.here.nslots s.wrIndex.toNat (pushCount s.loaded))).mem) :
    PushedInto s e off (pushCount s.loaded) t := by
  have hslot {k : Nat} (hk : k < pushCount s.loaded) : s.here.base + 8 ≤ pushSlot s.loaded e k ∧
      pushSlot s.loaded e k + e ≤ s.here.base + s.here.segLen := by
    rw [Port.segLen, he]
    exact splitSlot_between s.here.base e hvalid.2 (pushCount_le s.loaded) hk
  rw [PushedInto, hmem]
  refine ⟨fun a ha => ?_, hu.readWord, ?_⟩
  · simp only [inStores, not_or, not_exists] at ha
    obtain ⟨hword, hslots⟩ := ha
    refine hu.read_outside (by omega) fun k hk hin => hslots k ?_
    rw [← pushSlot_loaded e hvalid hk]
    exact ⟨hk, hin⟩
  · intro hapart k j hk hj dst src hforeign hto hfrom
    have hdst : dst = pushSlot s.loaded e k + j := by rw [pushSlot_loaded e hvalid hk]
    have hlow := (hslot hk).1
    rw [hdst] at hforeign hto ⊢
    refine hu.read_element (fun a b ha hb => ?_) (fun a b => splitSlot_apart s.here.base e hvalid.2
      (pushCount_le s.loaded)) hk hj (by omega) (Bool.or_eq_false_iff.mpr ⟨hforeign, hapart⟩) hfrom hto
    have hoff := bufferAddr_off_segment hapart (Nat.zero_lt_of_lt hj) (hb.trans_le (pushCount_le_len s.loaded))
    have hbetween := hslot ha
    omega

/-- A full ring: nothing is pushed, and MEM stays as it was (R140). -/
theorem pushedInto_unchanged {t : State} (hvalid : ValidIndices s) (hmem : t.mem = s.mem) : PushedInto s e off 0 t := by
  refine ⟨fun a _ => by rw [hmem], fun _ => ?_, fun _ k j hk => absurd hk (Nat.not_lt_zero k)⟩
  rw [hmem, Nat.add_zero s.wrIndex.toNat, Nat.mod_eq_of_lt hvalid.2, BitVec.ofNat_toNat, BitVec.setWidth_eq]
  rfl

/-- A producer transfer completes with the registers of R140 and pushes what fits of what it was asked for. -/
theorem PushSteps.answers (T : PushSteps (micro i) s e off) (hs : Ready s) (hi : IndicesLoad s)
    (he : s.here.esize = e) (hbound : stepBound i s.here = transferSteps s.here) :
    let n := min s.canWrite s.here.larg1.toNat
    Answers i s ({ s.loaded with res0 := BitVec.ofNat 32 n } : Port).finished (fun t =>
      PushedInto s e off n t ∧ (s.canWrite = 0 → t.mem = s.mem) ∧
      t.order.trace.length = s.order.trace.length + (if s.canWrite = 0 then 2 else 3 + 2 * n)) := by
  intro n
  obtain ⟨fuel, hfuel⟩ := transferSteps_enough (q := s.here) (pushCount_le_len s.loaded) (pushCount_le s.loaded)
  refine T.answers_available hs hi (pushNext_loaded hi.1) (fun _ => rfl) (by omega) (fun hzero t hmem => ?_)
    fun u x t hu => pushedInto_published hu hi.1 he
  have hn : n = 0 := by omega
  rw [hn]
  exact pushedInto_unchanged hi.1 hmem

end

/-- Settles O46: PUSH takes the steps of a producer transfer of ESIZE bytes an element from offset LARG2. -/
theorem pushResult : Obligations.PushResult := fun _ hs hb hrole hgrant halign hbuffer hi =>
  PushSteps.answers (TransferReady.push ⟨hs, hb, halign, hbuffer, hi⟩ hrole hgrant) hs hi rfl rfl

/-! ## POP (R145, R146) -/

/-- `f` takes the micro-steps of a consumer transfer of elements of `e` bytes to offset `off` of its buffer (R145). -/
abbrev PopSteps (f : State → State) (s : State) (e off : Nat) : Prop :=
  Transfer f s popNext (popCount s.loaded) e (popSlot s.loaded e) (fun k => bufferAddr s.here e (off + k))
    (fun _ => popOpen e off s) (s.here.base + 4) (advance s.here.nslots s.rdIndex.toNat (popCount s.loaded))
    (fun q => { q with res0 := BitVec.ofNat 32 (popCount q) })

section
variable {i : Instr} {s u : State} {e off k : Nat} {x : List Byte}

/-- A ring with nothing to read is empty (R130). -/
theorem popNext_loaded (h : ValidIndices s) : popNext { s.loaded with pos := .loadWr } =
    if s.canRead = 0 then .finish else if popCount s.loaded = 0 then .publish else .copyRead 0 := by
  have hempty : s.loaded.emptyNow = true ↔ s.canRead = 0 := isEmpty_iff_availRead h.1 h.2
  by_cases hzero : s.canRead = 0
  · rw [if_pos hzero]
    exact if_pos (hempty.mpr hzero)
  · rw [if_neg hzero]
    exact if_neg (mt hempty.mp hzero)

/-- No consumer transfer takes more elements than the ring can hold (R130). -/
theorem popCount_loaded_le (h : ValidIndices s) : popCount s.loaded ≤ s.here.nslots - 1 :=
  popCount_le (q := s.loaded) (Nat.zero_lt_of_lt h.1)

/-- Element `k` of a POP comes from the slot `k` places past read_index (R132, R145). -/
theorem popSlot_loaded (e : Nat) (h : ValidIndices s) (hk : k < popCount s.loaded) :
    popSlot s.loaded e k = s.ringSlot e s.rdIndex.toNat k :=
  congrArg (slotAddr s.here.base e)
    (splitSlot_eq_mod s.here.nslots s.rdIndex.toNat _ k h.1 (popCount_loaded_le h) hk)

/-- The state after the copies of a consumer transfer. -/
abbrev PopCopies (s u : State) (e off : Nat) (x : List Byte) : Prop :=
  CopiesDone s u (popCount s.loaded) e (popSlot s.loaded e) (fun k => bufferAddr s.here e (off + k))
    (fun _ => popOpen e off s) x

/-- What a consumer transfer has done to MEM once it has published (R145). -/
theorem poppedFrom_published {t : State} (hu : PopCopies s u e off x) (hvalid : ValidIndices s)
    (he : s.here.esize = e) (hmem : t.mem =
      (u.publishStep (s.here.base + 4) (advance s.here.nslots s.rdIndex.toNat (popCount s.loaded))).mem) :
    PoppedFrom s e off (popCount s.loaded) t := by
  have hslot {k : Nat} (hk : k < popCount s.loaded) : s.here.base + 8 ≤ popSlot s.loaded e k ∧
      popSlot s.loaded e k + e ≤ s.here.base + s.here.segLen := by
    rw [Port.segLen, he]
    exact splitSlot_between s.here.base e hvalid.1 (popCount_loaded_le hvalid) hk
  rw [PoppedFrom, hmem]
  refine ⟨fun a hword hbuffer => ?_, hu.readWord, ?_⟩
  · refine hu.read_outside (by omega) fun k hk hin => hbuffer ?_
    have hlast := mul_add_le_mul k (popCount s.loaded) e hk
    simp only [bufferAddr, Nat.add_mul] at hin ⊢
    omega
  · intro hapart k j hk hj dst src hseg hto hfrom
    have hsrc : src = popSlot s.loaded e k + j := by rw [popSlot_loaded e hvalid hk]
    rw [hsrc] at hfrom ⊢
    have hoff {b : Nat} (hb : b < popCount s.loaded) := bufferAddr_off_segment hapart (Nat.zero_lt_of_lt hj)
      (hb.trans_le (popCount_le_len s.loaded))
    have hoffk := hoff hk
    have hlen : s.here.segLen = 8 + s.here.nslots * s.here.esize := rfl
    have hdst : dst = bufferAddr s.here e (off + k) + j := rfl
    refine hu.read_element (fun a b ha hb => ?_) (fun a b _ _ => bufferAddr_apart s.here e off) hk hj (by omega)
      (Bool.or_eq_false_iff.mpr ⟨hseg, hapart⟩) hfrom hto
    have hbetween := hslot hb
    have hoffa := hoff ha
    omega

/-- An empty ring: nothing is popped, and MEM stays as it was (R145). -/
theorem poppedFrom_unchanged {t : State} (hvalid : ValidIndices s) (hmem : t.mem = s.mem) : PoppedFrom s e off 0 t := by
  refine ⟨fun a _ _ => by rw [hmem], fun _ => ?_, fun _ k j hk => absurd hk (Nat.not_lt_zero k)⟩
  rw [hmem, Nat.add_zero s.rdIndex.toNat, Nat.mod_eq_of_lt hvalid.1, BitVec.ofNat_toNat, BitVec.setWidth_eq]
  rfl

/-- A consumer transfer completes with the registers of R145 and pops what there is of what it was asked for. -/
theorem PopSteps.answers (T : PopSteps (micro i) s e off) (hs : Ready s) (hi : IndicesLoad s)
    (he : s.here.esize = e) (hbound : stepBound i s.here = transferSteps s.here) :
    let n := min s.canRead s.here.larg1.toNat
    Answers i s ({ s.loaded with res0 := BitVec.ofNat 32 n } : Port).finished (fun t =>
      PoppedFrom s e off n t ∧ (s.canRead = 0 → t.mem = s.mem) ∧
      t.order.trace.length = s.order.trace.length + (if s.canRead = 0 then 2 else 3 + 2 * n)) := by
  intro n
  obtain ⟨fuel, hfuel⟩ := transferSteps_enough (q := s.here) (popCount_le_len s.loaded) (popCount_loaded_le hi.1)
  refine T.answers_available hs hi (popNext_loaded hi.1) (fun _ => rfl) (by omega) (fun hzero t hmem => ?_)
    fun u x t hu => poppedFrom_published hu hi.1 he
  have hn : n = 0 := by omega
  rw [hn]
  exact poppedFrom_unchanged hi.1 hmem

end

/-- Settles O47: POP takes the steps of a consumer transfer of ESIZE bytes an element to offset LARG2. -/
theorem popResult : Obligations.PopResult := fun _ hs hb hrole halign hbuffer hi =>
  PopSteps.answers (TransferReady.pop ⟨hs, hb, halign, hbuffer, hi⟩ hrole) hs hi rfl rfl

end Sys2Proof.Machine

/-! PROOFS. The ring queries (spec R160 to R165): what EMPTY, FULL, AVAIL.READ, AVAIL.WRITE and CAPACITY answer. -/

namespace Sys2Proof.Machine

/-- The one check of a query passes on a bound port (R160). -/
theorem checkQuery_none {q : Port} (h : q.bound = true) : checkQuery q = none :=
  firstError_tail (congrArg (!·) h)

/-- A truth value as RES0 shows it (R160). -/
theorem boolWord_decide (p : Prop) [Decidable p] : boolWord (decide p) = BitVec.ofNat 32 (if p then 1 else 0) := by
  by_cases h : p <;> simp [boolWord, h]

/-- A query of the indices goes from LoadIndices straight to its finish step, and answers its function of the
loaded indices (R131, R160). -/
theorem indexQuery_answers {i : Instr} {s : State} {answer : Port → Word} {v : Nat}
    (hmicro : micro i = microIndexQuery answer) (hload : loadsIndices i = true) (hnext : loadNext i = fun _ => .finish)
    (hs : Ready s) (hcheck : check i s.cfg s.here = none) (hi : IndicesLoad s)
    (hv : answer { s.loaded with pos := .finish } = BitVec.ofNat 32 v) :
    Answers i s ({ s.loaded with res0 := BitVec.ofNat 32 v } : Port).finished (OnlyReads 2 s) :=
  (loadPhase_of_check hload hs.2 hcheck).answers_finish
    (q := { s.loaded with res0 := BitVec.ofNat 32 v, pos := .finish }) hs hi (by rw [hnext])
    (fun u _ hu => by simp only [hmicro, microIndexQuery, hu, hv]) (four_le_stepBound hload s.here)

/-- Settles O44: each of the four answers its formula of R130 on the loaded indices. -/
theorem queryResults : Obligations.QueryResults := by
  intro s hs hb hi rd wr S with'
  have hcheck : checkQuery s.here = none := checkQuery_none hb
  exact
    ⟨indexQuery_answers (answer := fun q => boolWord q.emptyNow) rfl rfl rfl hs hcheck hi (boolWord_decide (wr = rd)),
    indexQuery_answers (answer := fun q => boolWord q.fullNow) rfl rfl rfl hs hcheck hi
      (boolWord_decide ((wr + 1) % S = rd)),
    indexQuery_answers (answer := fun q => BitVec.ofNat 32 q.readable) rfl rfl rfl hs hcheck hi rfl,
    indexQuery_answers (answer := fun q => BitVec.ofNat 32 q.writable) rfl rfl rfl hs hcheck hi rfl⟩

/-- Settles O45: a decode step whose check passes, then the finish step, with no load between them. -/
theorem capacityResult : Obligations.CapacityResult := by
  intro s hs hb hslots
  have hres : s.here.slots - 1 = BitVec.ofNat 32 (s.here.slots.toNat - 1) := by bv_omega
  refine answers_of_decode (q := { s.here with res0 := BitVec.ofNat 32 (s.here.slots.toNat - 1), pos := .finish }) hs ?_
    fun u hu => ?_
  · simp only [micro, microCapacity, hs.2, checkQuery_none hb, State.decodeStep_none]
  · simp only [micro, microCapacity, hu, hres]

end Sys2Proof.Machine

/-! PROOFS. The audio sample transfers (spec R170 to R172): AENQ and ADEQ take the steps of PUSH and POP, with samples of
4 bytes and offset 0. -/

namespace Sys2Proof.Machine

/-! ## The bodies of PUSH and POP, whatever the command (R140, R145) -/

section
variable {i : Instr} {s : State} {failed : State → Option (ErrCode × Word)} {e off : Nat}

/-- A command with the body of PUSH takes the steps of a producer transfer once its loads go through (R140). -/
theorem pushSteps_of_body (hbody : ∀ u, micro i u = microPushBody (failed u) e off u)
    (hload : LoadPhase (micro i) s pushNext) : PushSteps (micro i) s e off where
  toLoadPhase := hload
  read u k x _ hq _ := by
    simp only [hbody, microPushBody, hq, Port.copying]
    rfl
  write u k x hu hq _ := by
    have hsame : u.here.SameSegment s.here := by rw [hq]; exact ⟨rfl, rfl, rfl, rfl⟩
    have hopen : pushOpen e off u = pushOpen e off s := by
      funext m
      simp only [pushOpen, hu.foreign hsame, hu.meetsOwn hsame, hq]
      rfl
    simp only [hbody, microPushBody, hopen, hq, Port.copying]
    rfl
  publish u x _ hq := by
    simp only [hbody, microPushBody, hq, Port.copying]
    rfl
  finish u x _ hq := by simp only [hbody, microPushBody, hq, Port.copying]

/-- A command with the body of POP takes the steps of a consumer transfer once its loads go through (R145). -/
theorem popSteps_of_body (hbody : ∀ u, micro i u = microPopBody (failed u) e off u)
    (hload : LoadPhase (micro i) s popNext) : PopSteps (micro i) s e off where
  toLoadPhase := hload
  read u k x _ hq _ := by
    simp only [hbody, microPopBody, hq, Port.copying]
    rfl
  write u k x hu hq _ := by
    have hsame : u.here.SameSegment s.here := by rw [hq]; exact ⟨rfl, rfl, rfl, rfl⟩
    have hopen : popOpen e off u = popOpen e off s := by
      funext m
      simp only [popOpen, hu.inSegment hsame, hu.meetsOwn hsame, hq]
      rfl
    simp only [hbody, microPopBody, hopen, hq, Port.copying]
    rfl
  publish u x _ hq := by
    simp only [hbody, microPopBody, hq, Port.copying]
    rfl
  finish u x _ hq := by simp only [hbody, microPopBody, hq, Port.copying]

end

/-! ## AENQ and ADEQ (R171, R172) -/

section
variable {s : State} (hs : Ready s) (hb : s.here.bound = true) (hproto : s.here.proto = 1#2)
  (halign : s.here.larg0.toNat % 4 = 0) (hbuffer : BufferInMem s 4 0)
include hs hb hproto halign hbuffer

/-- AENQ is a producer transfer of samples of 4 bytes from offset 0 (R171). -/
theorem aenq_pushSteps (hrole : s.here.role = .producer) (hgrant : s.here.grant = false) :
    PushSteps (micro .aenq) s 4 0 := by
  have hcheck : check .aenq s.cfg s.here = none :=
    (check_transfer hb (.inr (.inr (.inl ⟨rfl, hrole, hproto, hgrant, rfl, rfl⟩)))).trans
      (check_transfer_none halign hbuffer)
  exact pushSteps_of_body (fun _ => rfl) (loadPhase_of_check rfl hs.2 hcheck)

/-- ADEQ is a consumer transfer of samples of 4 bytes to offset 0 (R172). -/
theorem adeq_popSteps (hrole : s.here.role = .consumer) : PopSteps (micro .adeq) s 4 0 := by
  have hcheck : check .adeq s.cfg s.here = none :=
    (check_transfer hb (.inr (.inr (.inr ⟨rfl, hrole, hproto, rfl, rfl⟩)))).trans
      (check_transfer_none halign hbuffer)
  exact popSteps_of_body (fun _ => rfl) (loadPhase_of_check rfl hs.2 hcheck)

end

/-- Settles O48: a producer and a consumer transfer of 4 bytes an element at offset 0 do to MEM what PUSH and POP do. -/
theorem audioTransferResults : Obligations.AudioTransferResults :=
  ⟨fun _ hs hb hrole hproto hesize hgrant halign hbuffer hi =>
    PushSteps.answers (aenq_pushSteps hs hb hproto halign hbuffer hrole hgrant) hs hi hesize rfl,
  fun _ hs hb hrole hproto hesize halign hbuffer hi =>
    PopSteps.answers (adeq_popSteps hs hb hproto halign hbuffer hrole) hs hi hesize rfl⟩

end Sys2Proof.Machine

/-! PROOFS. The parameter-change protocol (spec R180 to R182): the five bytes of a record, written by PENQ and read by
PDEQ one after another between LoadIndices and the store that publishes the index. -/

namespace Sys2Proof.Machine

/-! ## The data events of a port, and the store that follows them (R66, R74 edge 1, R77) -/

/-- From `o` to `o'` agent `a` has made `n` events and learned nothing: its accesses race where they raced before (R74
edge 1, R77). -/
structure Order.OwnEvents (a n : Nat) (o o' : Order) : Prop where
  length : o'.trace.length = o.trace.length + n
  racy : ∀ m, o'.racy a m = o.racy a m
  dataRacy : ∀ m, o'.dataRacy a m = o.dataRacy a m
  foreseen : o'.foreseen = o.foreseen

section
variable {a n : Nat} {o o' : Order}

theorem Order.OwnEvents.refl : Order.OwnEvents a 0 o o := ⟨rfl, fun _ => rfl, fun _ => rfl, rfl⟩

theorem Order.OwnEvents.record (h : Order.OwnEvents a n o o') (kind : EventKind) (x k : Nat) :
    Order.OwnEvents a (n + 1) o (o'.record a kind x k) where
  length := by rw [Order.record_trace, List.length_cons, h.length, Nat.add_assoc]
  racy m := (Order.racy_record_self ..).trans (h.racy m)
  dataRacy m := (Order.dataRacy_record_self ..).trans (h.dataRacy m)
  foreseen := h.foreseen

theorem Order.OwnEvents.overwrite (h : Order.OwnEvents a n o o') (x k : Nat) :
    Order.OwnEvents a n o (o'.overwrite x k) := ⟨h.length, h.racy, h.dataRacy, h.foreseen⟩

theorem Order.OwnEvents.mayRace (h : Order.OwnEvents a n o o') (m : Nat) : o'.mayRace a m = o.mayRace a m := by
  rw [Order.mayRace, Order.mayRace, h.racy, Order.lateAt, h.foreseen, ← Order.lateAt]

end

/-! ## After LoadIndices (R131) -/

/-- The state `u` comes after the loads of a command from `s` and `k` further events of its port, which stays bound as it
was. -/
structure PastLoads (s : State) (k : Nat) (u : State) : Prop where
  elsewhere : Elsewhere s u
  segment : u.here.SameSegment s.here
  events : Order.OwnEvents s.agent k s.orderLoaded u.order

section
variable {i : Instr} {s u : State} {q : Port} {k n w v : Nat}

/-- The published index stands in MEM where neither an overlap nor an unordered data write leaves it open (R71, R77). -/
theorem PastLoads.readWord (h : PastLoads s k u) (hw : IndexSettled s s.orderLoaded w) :
    (u.publishStep w v).mem.readWord w = BitVec.ofNat 32 v := by
  refine State.publishStep_readWord fun j hj => ?_
  rw [h.elsewhere.foreign h.segment, h.elsewhere.agent, h.events.dataRacy]
  exact hw j hj

/-- A loop of `n` micro-steps of a working engine keeps what each of them takes from `k` to `k + 1` (R93). -/
theorem runPort_loop {f : State → State} {P : Nat → State → Prop}
    (hstep : ∀ k u, k < n → P k u → u.here.pos ≠ .idle ∧ P (k + 1) (f u)) (hzero : P 0 u) (hk : k ≤ n) :
    P k (runPort f k u) := by
  induction k with
  | zero => exact hzero
  | succ k ih =>
    obtain ⟨hpos, hnext⟩ := hstep k _ hk (ih (Nat.le_of_succ_le hk))
    rwa [runPort_add, runPort_succ _ _ _ hpos]

/-- LoadIndices, and the loop that it leads to. -/
theorem LoadPhase.loop {f : State → State} {next : Port → EnginePos} {P : Nat → State → Prop} (L : LoadPhase f s next)
    (hs : Ready s) (hi : IndicesLoad s)
    (hzero : ∀ u, PastLoads s 0 u → u.here = { s.loaded with pos := next { s.loaded with pos := .loadWr } } →
      u.mem = s.mem → P 0 u)
    (hstep : ∀ k u, k < n → P k u → u.here.pos ≠ .idle ∧ P (k + 1) (f u)) : ∃ u, runPort f (n + 3) s = u ∧ P n u := by
  obtain ⟨u, hrun, hu, hhere, hmem, horder, -⟩ := L.after hs hi.2
  rw [State.indexPos_valid _ _ hi.1] at hhere
  have hsegment : u.here.SameSegment s.here := by
    rw [hhere]
    exact ⟨rfl, rfl, rfl, rfl⟩
  exact ⟨_, runPort_after hrun n, runPort_loop hstep (hzero u ⟨hu, hsegment, horder ▸ .refl⟩ hhere hmem) le_rfl⟩

/-- A command that comes to its publishing store in `u`, with `k` micro-steps and as many events after its loads, makes
the store and ends (R66, R94). -/
theorem PastLoads.answers_publish (h : PastLoads s k u) (hs : Ready s) (hrun : runPort (micro i) (k + 3) s = u)
    (hpos : u.here.pos = .publish) (hpublish : micro i u = u.publishStep w v)
    (hfinish : ∀ t : State, t.here = { u.here with pos := .finish } → micro i t = t.finishStep q)
    (hbound : k + 5 ≤ stepBound i s.here) :
    Answers i s q.finished (fun t => t.mem = (u.publishStep w v).mem ∧
      t.order.trace.length = s.order.trace.length + (k + 3)) := by
  have hhere := State.here_publishStep u w v (h.elsewhere.exists hs.1)
  have hloaded : s.orderLoaded.trace.length = s.order.trace.length + 2 := rfl
  refine (answers_of_finish (k := k + 4) hs (h.elsewhere.trans (elsewhere_publishStep u w v)) (by rw [hhere])
    (hfinish _ hhere) hbound fun fuel => ?_).imp fun t ⟨hmem, htrace⟩ => ⟨hmem, ?_⟩
  · rw [show fuel + (k + 4) = fuel + 1 + (k + 3) by omega, runPort_after hrun, runPort_succ _ _ _ (by rw [hpos]; simp),
      hpublish]
  · rw [htrace, State.publishStep_order, Order.publish_trace, Order.record_trace, List.length_cons, h.events.length]
    omega

end

/-! ## The bytes of a record and their slots (R63, R180) -/

/-- Where the engine stands with `k` bytes of a record behind it: at the next one, or at the publishing store. -/
def recordPos (byte : Nat → EnginePos) (k : Nat) : EnginePos := if k < Config.recordSize then byte k else .publish

theorem recordPos_lt {byte : Nat → EnginePos} {k : Nat} (hk : k < Config.recordSize) : recordPos byte k = byte k :=
  if_pos hk

/-- Byte `k` of a record lies in the slot `k` places past its index, in a ring with a place for each (R132, R180). -/
theorem recordSlot_eq {s : State} {q : Port} {x k : Nat} (hbase : q.base = s.here.base)
    (hslots : q.nslots = s.here.nslots) (hesize : q.esize = 1) (hx : x < s.here.nslots)
    (hroom : Config.recordSize ≤ s.here.nslots - 1) (hk : k < Config.recordSize) :
    recordSlot q x k = s.ringSlot 1 x k := by
  rw [recordSlot, hbase, hslots, hesize, splitSlot_eq_mod _ _ _ _ hx hroom hk, State.ringSlot]

theorem State.ringSlot_ge (s : State) (e x k : Nat) : s.here.base + 8 ≤ s.ringSlot e x k := Nat.le_add_right ..

/-- The bytes of a record lie in slots of their own (R132). -/
theorem State.ringSlot_ne {s : State} {x j k : Nat} (hx : x < s.here.nslots) (hj : j < s.here.nslots)
    (hk : k < s.here.nslots) (h : j ≠ k) : s.ringSlot 1 x j ≠ s.ringSlot 1 x k := by
  have hapart := slotAddr_apart s.here.base 1 _ _ (ring_place_ne _ _ _ _ hx hj hk h)
  simp only [State.ringSlot]
  omega

/-- The record of a PENQ: the index, then the value from its most significant byte (R63). -/
theorem recordBytes_getD (pidx : BitVec 8) (v : Word) {k : Nat} (hk : k < 5) :
    (recordBytes pidx v).getD k 0 = if k = 0 then pidx else BitVec.ofNat 8 (v.toNat / 2 ^ (8 * (4 - k))) := by
  have hbyte (b : Nat) : v.extractLsb' b 8 = BitVec.ofNat 8 (v.toNat / 2 ^ b) := by
    rw [BitVec.extractLsb', Nat.shiftRight_eq_div_pow]
  match k, hk with
  | 0, _ => rfl
  | 1, _ => exact hbyte 24
  | 2, _ => exact hbyte 16
  | 3, _ => exact hbyte 8
  | 4, _ => exact hbyte 0

/-- The index that a PDEQ takes from a record (R99, R182). -/
theorem recordIndex_eq (r : List Byte) : recordIndex r = BitVec.ofNat 32 (r.getD 0 0).toNat :=
  (BitVec.ofNat_toNat 32 _).symm

/-- The value that a PDEQ takes from a record: its four last bytes, the most significant first (R63, R182). -/
theorem recordValue_eq (r : List Byte) : recordValue r = BitVec.ofNat 32
    ((r.getD 1 0).toNat * 2 ^ 24 + (r.getD 2 0).toNat * 2 ^ 16 + (r.getD 3 0).toNat * 2 ^ 8 + (r.getD 4 0).toNat) := by
  apply BitVec.eq_of_toNat_eq
  simp only [recordValue, toNat_append_eq_add, BitVec.toNat_ofNat]
  omega

/-! ## PENQ (R181) -/

/-- The state `u` after the loads of a PENQ from `s` and the first `k` bytes of its record (R181). -/
structure RecordWritten (pidx : BitVec 8) (s : State) (k : Nat) (u : State) : Prop extends PastLoads s k u where
  here : u.here = { s.loaded with pos := recordPos .recordWrite k }
  outside : ∀ a, (∀ j, j < k → a ≠ s.ringSlot 1 s.wrIndex.toNat j) → u.mem.read a = s.mem.read a
  written : ∀ j, j < k → s.foreign (s.ringSlot 1 s.wrIndex.toNat j) = false →
    s.orderLoaded.racy s.agent (s.ringSlot 1 s.wrIndex.toNat j) = false →
    u.mem.read (s.ringSlot 1 s.wrIndex.toNat j) = (recordBytes pidx s.here.larg0).getD j 0

/-- A PENQ passes its checks on a bound PARAM producer without a grant (R134, R181). -/
theorem checkPenq_none {q : Port} (hb : q.bound = true) (hrole : q.role = .producer) (hproto : q.proto = 2#2)
    (hgrant : q.grant = false) : checkPenq q = none := by
  simp [checkPenq, firstError, needBound, needRole, needProto, needNoGrant, protoParam, hb, hrole, hproto, hgrant]

section
variable {pidx : BitVec 8} {s u : State} {k : Nat}

/-- A record does not fit where fewer than 5 bytes can be written (R181). -/
theorem penqFull_loaded (s : State) (pos : EnginePos) :
    penqFull { s.loaded with pos := pos } = decide (s.canWrite < 5) := rfl

/-- Where LoadIndices leads a PENQ, by what there is to write (R181). -/
theorem loadNext_penq (pidx : BitVec 8) (s : State) : loadNext (.penq pidx) { s.loaded with pos := .loadWr } =
    if s.canWrite < 5 then .finish else .recordWrite 0 := by
  have hfull := penqFull_loaded s .loadWr
  by_cases hlt : s.canWrite < 5
  · rw [if_pos hlt]
    exact if_pos (hfull.trans (decide_eq_true hlt))
  · rw [if_neg hlt]
    exact if_neg (by rw [hfull, decide_eq_false hlt]; simp)

/-- The finish step of a PENQ says whether it has written its record (R181). -/
theorem micro_penq_finish (hu : u.here = { s.loaded with pos := .finish }) : micro (.penq pidx) u =
    u.finishStep { s.loaded with pos := .finish, res0 := if s.canWrite < 5 then 0 else 1 } := by
  have hres : boolWord (!decide (s.canWrite < 5)) = if s.canWrite < 5 then 0 else 1 := by
    by_cases hlt : s.canWrite < 5 <;> simp [boolWord, hlt]
  simp only [micro, microPenq, hu, ← hres, ← penqFull_loaded s .finish]

variable (hesize : s.here.esize = 1) (hvalid : ValidIndices s) (hroom : 5 ≤ s.canWrite)
include hesize hvalid hroom

/-- The micro-step that writes byte `k` of the record to its slot (R181). -/
theorem RecordWritten.micro_eq (h : RecordWritten pidx s k u) (hk : k < 5) : micro (.penq pidx) u =
    (u.writeEvent s.agent (s.ringSlot 1 s.wrIndex.toNat k) u.foreign [(recordBytes pidx s.here.larg0).getD k 0]).goto
      (recordPos .recordWrite (k + 1)) := by
  have hslot : recordSlot u.here u.here.lwr.toNat k = s.ringSlot 1 s.wrIndex.toNat k := by
    rw [h.here]
    exact recordSlot_eq rfl rfl hesize hvalid.2 (hroom.trans (Nat.sub_le _ _)) hk
  have hpos : u.here.pos = .recordWrite k := by rw [h.here, recordPos_lt hk]
  have hlarg0 : u.here.larg0 = s.here.larg0 := by rw [h.here]; rfl
  simp only [micro, microPenq, hpos, hslot, hlarg0, h.elsewhere.agent]
  rfl

/-- The record byte stands in its slot, where neither an overlap nor a race leaves it open (R71, R77); every other byte is
as it was. -/
theorem RecordWritten.micro_read (h : RecordWritten pidx s k u) (hk : k < 5) (a : Nat) :
    (a ≠ s.ringSlot 1 s.wrIndex.toNat k → (micro (.penq pidx) u).mem.read a = u.mem.read a) ∧
    (a = s.ringSlot 1 s.wrIndex.toNat k → s.foreign a = false → s.orderLoaded.racy s.agent a = false →
      (micro (.penq pidx) u).mem.read a = (recordBytes pidx s.here.larg0).getD k 0) := by
  rw [h.micro_eq hesize hvalid hroom hk, State.goto_mem]
  refine ⟨fun hne => State.writeEvent_read _ _ _ _ _ _ (by rw [List.length_singleton]; omega), ?_⟩
  rintro rfl hforeign hracy
  rw [State.writeEvent_mem, State.landedBytes_quiet, Memory.read_writeBytes, List.length_singleton, if_pos (by omega),
    Nat.sub_self]
  · rfl
  · intro j hj
    rw [Nat.lt_one_iff.mp hj, Nat.add_zero, h.elsewhere.foreign h.segment, hforeign, h.events.racy, hracy]
    rfl

theorem RecordWritten.succ (h : RecordWritten pidx s k u) (hs : Ready s) (hk : k < 5) :
    RecordWritten pidx s (k + 1) (micro (.penq pidx) u) := by
  have hmicro := h.micro_eq hesize hvalid hroom hk
  have hread := h.micro_read hesize hvalid hroom hk
  have hhere : (micro (.penq pidx) u).here = { s.loaded with pos := recordPos .recordWrite (k + 1) } := by
    rw [hmicro, State.here_goto (u.writeEvent ..) _ (h.elsewhere.exists hs.1), State.here_writeEvent, h.here]
  constructor
  case here => exact hhere
  case toPastLoads =>
    refine ⟨?_, by rw [hhere]; exact ⟨rfl, rfl, rfl, rfl⟩, ?_⟩
    · rw [hmicro]
      exact h.elsewhere.trans ((elsewhere_writeEvent u _ _ _ _).trans (elsewhere_goto _ _))
    · rw [hmicro]
      exact (h.events.record .write _ _).overwrite _ _
  case outside =>
    intro a ha
    rw [(hread a).1 (ha k k.lt_succ_self)]
    exact h.outside a fun j hj => ha j (hj.trans k.lt_succ_self)
  case written =>
    intro j hj hforeign hracy
    rcases Nat.lt_succ_iff_lt_or_eq.mp hj with hlt | rfl
    · have hslots : 5 < s.here.nslots := by unfold State.canWrite at hroom; omega
      rw [(hread _).1 (State.ringSlot_ne hvalid.2 (by omega) (by omega) hlt.ne)]
      exact h.written j hlt hforeign hracy
    · exact (hread _).2 rfl hforeign hracy

end

/-- Settles O51: LoadIndices leads to the finish step where the record does not fit, and otherwise to its five bytes, the
store of write_index and the finish step. -/
theorem penqResult : Obligations.PenqResult := by
  intro pidx s hs hb hrole hproto hesize hgrant hi
  have L := loadPhase_of_check (i := .penq pidx) rfl hs.2 (checkPenq_none hb hrole hproto hgrant)
  have hnext := loadNext_penq pidx s
  refine ⟨fun hlt => ?_, fun hroom => ?_⟩
  · rw [if_pos hlt] at hnext
    exact L.answers_finish (q := { s.loaded with pos := .finish, res0 := 0 }) hs hi hnext
      (fun u _ hu => by rw [micro_penq_finish hu, if_pos hlt]) (four_le_stepBound rfl _)
  · have hge : ¬ s.canWrite < 5 := Nat.not_lt.mpr hroom
    rw [if_neg hge] at hnext
    obtain ⟨u, hrun, hu⟩ := L.loop (P := RecordWritten pidx s) (n := 5) hs hi
      (fun u hu hhere hmem => ⟨hu, hhere.trans (by rw [hnext]; rfl), fun a _ => by rw [hmem],
        fun j hj => absurd hj j.not_lt_zero⟩)
      (fun k u hk h => ⟨by rw [h.here, recordPos_lt hk]; simp, h.succ hesize hi.1 hroom hs hk⟩)
    have hhere : u.here = { s.loaded with pos := .publish } := hu.here
    have hpublish : micro (.penq pidx) u = u.publishStep s.here.base ((s.wrIndex.toNat + 5) % s.here.nslots) := by
      simp only [micro, microPenq, hhere]
      rfl
    refine (hu.answers_publish (q := { s.loaded with pos := .finish, res0 := 1 }) hs hrun (by rw [hhere]) hpublish
      (fun t ht => by rw [micro_penq_finish (s := s) (by rw [ht, hhere]), if_neg hge]) le_rfl).imp ?_
    rintro t ⟨hmem, hlen⟩
    rw [hmem]
    refine ⟨fun a ha => ?_, hu.readWord, fun k hk hforeign hracy => ?_, hlen⟩
    · simp only [inStores, not_or, not_exists] at ha
      obtain ⟨hword, hslots⟩ := ha
      rw [State.publishStep_read _ _ _ _ (by omega)]
      exact hu.outside a fun j hj heq => hslots j ⟨hj, by omega⟩
    · have hslot := State.ringSlot_ge s 1 s.wrIndex.toNat k
      rw [State.publishStep_read _ _ _ _ (by omega), hu.written k hk hforeign hracy, recordBytes_getD _ _ hk]

/-! ## PDEQ (R182) -/

/-- The first `k` bytes of the record at read_index, as MEM holds them (R180). -/
def State.recordAt (s : State) (k : Nat) : List Byte :=
  (List.range k).map fun j => s.mem.read (s.ringSlot 1 s.rdIndex.toNat j)

theorem State.recordAt_succ (s : State) (k : Nat) :
    s.recordAt (k + 1) = s.recordAt k ++ [s.mem.read (s.ringSlot 1 s.rdIndex.toNat k)] := by
  rw [State.recordAt, List.range_succ, List.map_append]
  rfl

/-- The state `u` after the loads of a PDEQ from `s` and the first `k` bytes of its record (R182). -/
structure RecordTaken (s : State) (k : Nat) (u : State) : Prop extends PastLoads s k u where
  here : u.here = { s.loaded with record := s.recordAt k, pos := recordPos .recordRead k }
  mem : u.mem = s.mem

/-- A PDEQ passes its checks on a bound PARAM consumer (R134, R182). -/
theorem checkPdeq_none {q : Port} (hb : q.bound = true) (hrole : q.role = .consumer) (hproto : q.proto = 2#2) :
    checkPdeq q = none := by
  simp [checkPdeq, firstError, needBound, needRole, needProto, protoParam, hb, hrole, hproto]

section
variable {s u : State} {k : Nat} (hvalid : ValidIndices s)
include hvalid

/-- The ring is empty where there is nothing to read (R130). -/
theorem emptyNow_iff {q : Port} (hlrd : q.lrd = s.rdIndex) (hlwr : q.lwr = s.wrIndex) :
    q.emptyNow = true ↔ s.canRead = 0 := by
  rw [Port.emptyNow, hlrd, hlwr]
  exact isEmpty_iff_availRead hvalid.1 hvalid.2

/-- Where LoadIndices leads a PDEQ, by what there is to read (R182). -/
theorem pdeqNext_loaded : pdeqNext { s.loaded with pos := .loadWr } =
    if s.canRead = 0 then .finish
    else if s.canRead < 5 then .raising .partialRecord (BitVec.ofNat 32 s.canRead) else .recordRead 0 := by
  have hempty := emptyNow_iff (q := { s.loaded with pos := .loadWr }) hvalid rfl rfl
  by_cases hzero : s.canRead = 0
  · rw [if_pos hzero]
    exact if_pos (hempty.mpr hzero)
  · rw [if_neg hzero]
    exact if_neg (mt hempty.mp hzero)

/-- The micro-step that reads byte `k` of the record, where no write to its slot races (R77, R182). -/
theorem RecordTaken.micro_eq (h : RecordTaken s k u) (hesize : s.here.esize = 1) (hroom : 5 ≤ s.canRead) (hk : k < 5)
    (hquiet : s.orderLoaded.mayRace s.agent (s.ringSlot 1 s.rdIndex.toNat k) = false) :
    micro .pdeq u = (u.readEvent s.agent .read (s.ringSlot 1 s.rdIndex.toNat k) 1).setHere
      { s.loaded with record := s.recordAt (k + 1), pos := recordPos .recordRead (k + 1) } := by
  have hslot : recordSlot u.here u.here.lrd.toNat k = s.ringSlot 1 s.rdIndex.toNat k := by
    have hlt : s.canRead < s.here.nslots := availRead_lt (Nat.zero_lt_of_lt hvalid.1)
    rw [h.here]
    exact recordSlot_eq rfl rfl hesize hvalid.1 (hroom.trans (Nat.le_sub_one_of_lt hlt)) hk
  have hpos : u.here.pos = .recordRead k := by rw [h.here, recordPos_lt hk]
  have hseen : u.seenBytes s.agent (s.ringSlot 1 s.rdIndex.toNat k) 1 =
      [s.mem.read (s.ringSlot 1 s.rdIndex.toNat k)] := by
    rw [State.seenBytes_quiet, h.mem]
    · rfl
    · intro j hj
      rw [Nat.lt_one_iff.mp hj, Nat.add_zero]
      exact Order.readOpen_of_mayRace _ _ _ ((h.events.mayRace _).trans hquiet)
  simp only [micro, microPdeq, hpos, hslot, h.elsewhere.agent, hseen]
  rw [h.here, State.recordAt_succ]
  rfl

theorem RecordTaken.succ (h : RecordTaken s k u) (hs : Ready s) (hesize : s.here.esize = 1) (hroom : 5 ≤ s.canRead)
    (hk : k < 5) (hquiet : s.orderLoaded.mayRace s.agent (s.ringSlot 1 s.rdIndex.toNat k) = false) :
    RecordTaken s (k + 1) (micro .pdeq u) := by
  have hhere : (micro .pdeq u).here =
      { s.loaded with record := s.recordAt (k + 1), pos := recordPos .recordRead (k + 1) } := by
    rw [h.micro_eq hvalid hesize hroom hk hquiet]
    exact State.here_setHere (u.readEvent ..) _ (h.elsewhere.exists hs.1)
  refine ⟨⟨?_, by rw [hhere]; exact ⟨rfl, rfl, rfl, rfl⟩, ?_⟩, hhere, ?_⟩
  all_goals rw [h.micro_eq hvalid hesize hroom hk hquiet]
  · exact h.elsewhere.trans ((elsewhere_readEvent u _ _ _ _).trans (elsewhere_setHere _ _))
  · exact h.events.record .read _ _
  · exact h.mem

end

/-- The registers of a PDEQ that has read its record (R182). -/
theorem pdeqResult_record {s : State} {q : Port} (h : ¬ q.emptyNow = true) (hrecord : q.record = s.recordAt 5) :
    let byte := fun k : Nat => (s.mem.read (s.ringSlot 1 s.rdIndex.toNat k)).toNat
    pdeqResult q = { q with
      res0 := 1
      res1 := BitVec.ofNat 32 (byte 0)
      res2 := BitVec.ofNat 32 (byte 1 * 2 ^ 24 + byte 2 * 2 ^ 16 + byte 3 * 2 ^ 8 + byte 4) } := by
  rw [pdeqResult, if_neg h, recordIndex_eq, recordValue_eq, hrecord]
  rfl

/-- Settles O52 (`pdeqResult` is the model's own name for the registers of R182): LoadIndices leads to the finish step on
an empty ring, to `raise` on a part of a record, and otherwise to the five reads, the store of read_index and the finish
step. -/
theorem pdeqResultHolds : Obligations.PdeqResult := by
  rintro s ⟨hs, -, hrecord⟩ hb hrole hproto hesize hi byte
  have L := loadPhase_of_check (i := .pdeq) rfl hs.2 (checkPdeq_none hb hrole hproto)
  have hnext : loadNext .pdeq { s.loaded with pos := .loadWr } = _ := pdeqNext_loaded hi.1
  refine ⟨fun hzero => ?_, fun hpos hlt => ?_, fun hroom hquiet => ?_⟩
  · rw [if_pos hzero] at hnext
    refine L.answers_finish (q := { s.loaded with pos := .finish, res0 := 0 }) hs hi hnext (fun u _ hu => ?_)
      (four_le_stepBound rfl _)
    have hempty : ({ s.loaded with pos := .finish } : Port).emptyNow = true := (emptyNow_iff hi.1 rfl rfl).mpr hzero
    simp only [micro, microPdeq, hu, pdeqResult, hempty, if_true]
  · rw [if_neg hpos.ne', if_pos hlt] at hnext
    exact L.answers_raise (e := .partialRecord) hs hi.2 ((State.indexPos_valid _ _ hi.1).trans hnext)
      (four_le_stepBound rfl _)
  · have hne : s.canRead ≠ 0 := by omega
    have hnone : s.loaded.record = s.recordAt 0 := hrecord
    rw [if_neg hne, if_neg (Nat.not_lt.mpr hroom)] at hnext
    obtain ⟨u, hrun, hu⟩ := L.loop (P := RecordTaken s) (n := 5) hs hi
      (fun u hu hhere hmem => ⟨hu, hhere.trans (by rw [hnext, ← hnone]; rfl), hmem⟩)
      (fun k u hk h => ⟨by rw [h.here, recordPos_lt hk]; simp, h.succ hi.1 hs hesize hroom hk (hquiet k hk)⟩)
    have hhere : u.here = { s.loaded with record := s.recordAt 5, pos := .publish } := hu.here
    have hpublish : micro .pdeq u = u.publishStep (s.here.base + 4) ((s.rdIndex.toNat + 5) % s.here.nslots) := by
      simp only [micro, microPdeq, hhere]
      rfl
    have hfinish (t : State) (ht : t.here = { u.here with pos := .finish }) : micro .pdeq t = t.finishStep
        { s.loaded with
          record := s.recordAt 5, pos := .finish, res0 := 1, res1 := BitVec.ofNat 32 (byte 0)
          res2 := BitVec.ofNat 32 (byte 1 * 2 ^ 24 + byte 2 * 2 ^ 16 + byte 3 * 2 ^ 8 + byte 4) } := by
      rw [hhere] at ht
      simp only [micro, microPdeq, ht, pdeqResult_record (s := s)
        (q := { s.loaded with record := s.recordAt 5, pos := .finish }) (mt (emptyNow_iff hi.1 rfl rfl).mp hne) rfl]
      rfl
    refine (hu.answers_publish hs hrun (by rw [hhere]) hpublish hfinish le_rfl).imp ?_
    rintro t ⟨hmem, hlen⟩
    rw [hmem]
    exact ⟨fun a ha => by rw [State.publishStep_read _ _ _ _ (by omega), hu.mem], hu.readWord, hlen⟩

end Sys2Proof.Machine

/-! PROOFS. The transpose engine up to its copies (spec R190, R191, R194): the checks of DEINT and INTER, and their
table reads, which a bad channel pointer ends. -/

namespace Sys2Proof.Machine

/-! ## The checks before the table reads (R191) -/

section
variable {i : Instr} (hi : i = .deint ∨ i = .inter)
include hi

theorem check_transpose (cfg : Config) (q : Port) : check i cfg q = checkXpose cfg q := by
  rcases hi with rfl | rfl <;> rfl

theorem stepBound_transpose (q : Port) : stepBound i q = 2 + q.channels + 256 * q.channels := by
  rcases hi with rfl | rfl <;> rfl

/-- The finish step of either transpose returns L (R192, R193). -/
theorem micro_transpose_finish {u : State} (hp : u.here.pos = .finish) :
    micro i u = u.finishStep { u.here with res0 := u.here.larg1 } := by
  rcases hi with rfl | rfl
  · simp only [micro, microDeint, hp]
  · simp only [micro, microInter, hp]

end

/-- A range that ends above MEM_SIZE fails its test (R191). -/
theorem not_fitsMem_of_lt {cfg : Config} {a n : Nat} (h : cfg.memSize < a + n) : (!fitsMem cfg a n) = true := by
  rw [fitsMem, decide_eq_false (Nat.not_le.mpr h), Bool.not_false]

theorem fitsMem_of_le {cfg : Config} {a n : Nat} (h : a + n ≤ cfg.memSize) : (!fitsMem cfg a n) = false := by
  rw [fitsMem, decide_eq_true h, Bool.not_true]

/-- Settles O39: check by check, each after the ones before it have passed. -/
theorem transposeErrors : Obligations.TransposeErrors := by
  intro i s hs hi ib l tb k
  have hrest : check i s.cfg s.here = firstError _ := check_transpose hi s.cfg s.here
  refine ⟨fun hengine => fails_of_head (e := .illegalCmd) hs hrest (congrArg (!·) hengine), fun hengine => ?_⟩
  replace hrest := hrest.trans (firstError_tail (congrArg (!·) hengine))
  refine ⟨fun hlen => fails_of_head (e := .sizeMismatch) hs hrest (bne_iff_ne.mpr hlen), fun hlen => ?_⟩
  replace hrest := hrest.trans (firstError_tail (bne_eq_false_iff_eq.mpr hlen))
  refine ⟨fun halign => fails_of_head (e := .align) hs hrest (bne_iff_ne.mpr halign), fun halign => ?_⟩
  replace hrest := hrest.trans (firstError_tail (bne_eq_false_iff_eq.mpr halign))
  refine ⟨fun hbus => fails_of_head (e := .bus) hs hrest (not_fitsMem_of_lt hbus), fun hbus => ?_⟩
  replace hrest := hrest.trans (firstError_tail (fitsMem_of_le hbus))
  refine ⟨fun htable => fails_of_head (e := .align) hs hrest (bne_iff_ne.mpr htable), fun htable hbus => ?_⟩
  replace hrest := hrest.trans (firstError_tail (bne_eq_false_iff_eq.mpr htable))
  exact fails_of_head (e := .bus) hs hrest (not_fitsMem_of_lt hbus)

/-- Operands as R191 asks for them pass the checks before the table reads. -/
theorem checkXpose_of_operands {s : State} (h : XposeOperands s) : checkXpose s.cfg s.here = none := by
  obtain ⟨hengine, hlen, hib, hibEnd, htb, htbEnd⟩ := h
  simp only [checkXpose, firstError_none, List.forall_mem_cons, List.not_mem_nil, false_imp_iff, implies_true, and_true,
    Bool.not_eq_false', bne_eq_false_iff_eq, fitsMem, decide_eq_true_eq]
  exact ⟨hengine, hlen, hib, hibEnd, htb, htbEnd⟩

/-! ## The table reads (R191) -/

/-- A transpose whose operands pass their checks goes on to its table reads. -/
theorem tablePhase_of_operands {i : Instr} {s : State} (hi : i = .deint ∨ i = .inter) (hs : Fresh s)
    (hx : XposeOperands s) : TablePhase (micro i) s := by
  have hcheck := checkXpose_of_operands hx
  rcases hi with rfl | rfl
  · refine ⟨?_, fun u c tb _ hu => ?_⟩
    · simp only [micro, microDeint, hs.1.2, hcheck, State.decodeStep_none]
    · simp only [micro, microDeint, hu]
  · refine ⟨?_, fun u c tb _ hu => ?_⟩
    · simp only [micro, microInter, hs.1.2, hcheck, State.decodeStep_none]
    · simp only [micro, microInter, hu]

theorem State.tablePos_raising {s : State} {c : Nat} {e : ErrCode} {info : Word}
    (h : checkPointer s.cfg (s.chan c) = some (e, info)) : s.tablePos c = .raising e info := by
  simp only [State.tablePos, h]

theorem State.tablePos_next {s : State} {c : Nat} (h : PointerOk s c) :
    s.tablePos c = if c + 1 < s.here.channels then .tableRead (c + 1) else .copyRead 0 := by
  simp only [State.tablePos, (checkPointer_none s.cfg (s.chan c)).mpr h]

/-- A transpose ends with the error of the first channel pointer that fails its checks, its table reads up to that one
its only memory events (R191, R203). -/
theorem answers_badPointer {i : Instr} {s : State} {c : Nat} {e : ErrCode} {info : Word}
    (hi : i = .deint ∨ i = .inter) (hs : Fresh s) (hx : XposeOperands s) (hq : TableQuiet s)
    (hc : c < s.here.larg3.toNat) (hok : ∀ d, d < c → PointerOk s d)
    (hbad : checkPointer s.cfg (s.chan c) = some (e, info)) :
    Answers i s (s.here.failed e.word info) (OnlyReads (c + 1) s) := by
  have L := tablePhase_of_operands hi hs hx
  have hcur := hs.1.1
  have hbound : 1 + 1 + (c + 1) ≤ stepBound i s.here := by
    have hc' : c < s.here.channels := hc
    rw [stepBound_transpose hi]
    omega
  obtain ⟨fuel, hfuel⟩ := Nat.exists_eq_add_of_le' hbound
  obtain ⟨t, hrun, ht, hthere, htmem, htraces, htlen⟩ := L.run hs hq c hc hok (fuel + 1 + 1)
  obtain ⟨hu, huhere, humem, -, hulen⟩ := L.one hcur hq t c ht hthere htmem htraces hc
  rw [State.tablePos_raising hbad] at huhere
  have hraise : (micro i t).here.pos = .raising e info := by rw [huhere]
  refine ⟨(micro i t).raise e info, ?_, ?_, hu.trans (elsewhere_raise _ e info), humem, ?_⟩
  · rw [exec_runPort, hfuel, show fuel + (1 + 1 + (c + 1)) = fuel + 1 + 1 + (c + 1) by omega, hrun,
      runPort_succ _ _ t (by rw [hthere]; simp),
      runPort_raise _ _ e info fuel (hu.exists hcur) hraise (micro_raising hraise)]
  · rw [State.here_raise_failed _ e info (hu.exists hcur), huhere]
    rfl
  · rw [State.raise_order, Order.finish_trace, hulen, htlen, Nat.add_assoc]

/-- Settles O40: the read of entry `c` leads to `raise`, by its first check or by its second. -/
theorem badChannelPointer : Obligations.BadChannelPointer := by
  intro i s c hs hi hx hq hc hok
  refine ⟨fun halign => answers_badPointer (e := .align) hi hs hx hq hc hok ?_,
    fun halign hbus => answers_badPointer (e := .bus) hi hs hx hq hc hok ?_⟩
  · exact firstError_head (bne_iff_ne.mpr halign)
  · refine (firstError_tail (bne_eq_false_iff_eq.mpr halign)).trans (firstError_head (not_fitsMem_of_lt hbus))

/-! ## All table reads (R191, R194) -/

/-- The state `u` after the decode step and all table reads of a transpose from `s`, before its copies if it has any. -/
structure TableDone (s u : State) : Prop where
  elsewhere : Elsewhere s u
  here : u.here = { s.here with
    pos := if s.here.channels = 0 then .finish else .copyRead 0
    table := s.chans s.here.channels }
  mem : u.mem = s.mem
  races : SameRaces s u

/-- The decode step and all table reads, every pointer passing its checks. -/
theorem TablePhase.done {f : State → State} {s : State} (L : TablePhase f s) (hs : Fresh s) (hq : TableQuiet s)
    (hok : ∀ c, c < s.here.larg3.toNat → PointerOk s c) :
    ∃ u, runPort f (s.here.channels + 1) s = u ∧ TableDone s u := by
  have ⟨⟨hcur, hpos⟩, htable, _⟩ := hs
  rcases hk : s.here.channels with _ | c
  · have hdecode : f s = s.goto .finish := by rw [L.decode, xposeStart, if_pos hk]
    refine ⟨s.goto .finish, ?_, elsewhere_goto s _, ?_, rfl, fun _ => rfl, rfl⟩
    · rw [runPort_succ f 0 s (by rw [hpos]; simp), runPort_zero, hdecode]
    · have hnone : s.here.table = s.chans 0 := htable
      rw [State.here_goto s _ hcur, if_pos hk, hk, ← hnone]
  · have hc : c < s.here.channels := by omega
    obtain ⟨t, hrun, ht, hthere, htmem, htraces, -⟩ := L.run hs hq c hc (fun d hd => hok d (hd.trans hc)) 1
    obtain ⟨hu, huhere, humem, huraces, -⟩ := L.one hcur hq t c ht hthere htmem htraces hc
    rw [State.tablePos_next (hok c hc), if_neg (by omega), ← hk] at huhere
    refine ⟨f t, ?_, hu, by rw [huhere, if_neg (by omega)], humem, huraces⟩
    rw [Nat.add_comm, hrun, runPort_succ f 0 t (by rw [hthere]; simp), runPort_zero]

section
variable {s u : State} (hu : TableDone s u)
include hu

/-- P[c] is the pointer that MEM held (R191). -/
theorem TableDone.pointer {c : Nat} (hc : c < s.here.larg3.toNat) : u.here.pointer c = (s.chan c).toNat := by
  rw [Port.pointer, hu.here]
  exact congrArg BitVec.toNat (s.chans_getD s.here.channels c hc)

theorem TableDone.planarAddr {c : Nat} (hc : c < s.here.larg3.toNat) (j : Nat) :
    planarAddr u.here j c = (s.chan c).toNat + 4 * j := by
  rw [Machine.planarAddr, hu.pointer hc]

theorem TableDone.interleavedAddr (j c : Nat) :
    interleavedAddr u.here j c = s.here.larg0.toNat + 4 * (j * s.here.larg3.toNat + c) := by
  rw [hu.here]
  rfl

/-- The interleaved buffer and the table are those of the operands. -/
theorem TableDone.ranges : u.here.larg0 = s.here.larg0 ∧ ibLen u.here = 4 * s.here.larg1.toNat ∧
    u.here.larg2 = s.here.larg2 ∧ tbLen u.here = 4 * s.here.larg3.toNat := by
  rw [hu.here]
  exact ⟨rfl, rfl, rfl, rfl⟩

theorem TableDone.meetsBound (a n : Nat) : u.meetsBound a n = s.meetsBound a n :=
  hu.elsewhere.meetsBound (by rw [hu.here]; exact ⟨rfl, rfl, rfl, rfl⟩) a n

/-- Only a pointer of another channel is left when one is taken out of P[] (R196). -/
theorem TableDone.mem_eraseIdx {c : Nat} {p : Word} (hp : p ∈ u.here.table.eraseIdx c) :
    ∃ d, d < s.here.larg3.toNat ∧ d ≠ c ∧ p = s.chan d := by
  rw [hu.here, List.mem_eraseIdx_iff_getElem] at hp
  obtain ⟨d, hd, hne, rfl⟩ := hp
  simp only [State.chans, List.length_map, List.length_range] at hd
  exact ⟨d, hd, hne, by simp [State.chans]⟩

theorem TableDone.mem_table {p : Word} (hp : p ∈ u.here.table) : ∃ d, d < s.here.larg3.toNat ∧ p = s.chan d := by
  rw [hu.here] at hp
  obtain ⟨d, hd, rfl⟩ := List.mem_map.mp hp
  exact ⟨d, List.mem_range.mp hd, rfl⟩

/-- No destination byte of a channel is left to any value where the buffers keep R196's duty. -/
theorem TableDone.deintOpen_eq_false (hfree : DeintFree s) (hapart : ChannelsApart s) {c : Nat}
    (hc : c < s.here.larg3.toNat) : deintOpen u c = false := by
  obtain ⟨hbound, hib, htb, -⟩ := hfree.2 c hc
  have hother : (u.here.table.eraseIdx c).any (fun p => rangesMeet (s.chan c).toNat 512 p.toNat 512) = false := by
    rw [List.any_eq_false]
    intro p hp
    obtain ⟨d, hd, hne, rfl⟩ := hu.mem_eraseIdx hp
    exact Bool.eq_false_iff.mp (hapart c hc d hd hne.symm)
  obtain ⟨hlarg0, hibLen, hlarg2, htbLen⟩ := hu.ranges
  simp only [deintOpen, hu.pointer hc, hu.meetsBound, hibLen, htbLen, hlarg0, hlarg2, planarLen, Config.blockFrames,
    Nat.reduceMul, hbound, hib, htb, hother, Bool.or_self]

/-- No byte of the interleaved buffer is left to any value where the buffers keep R196's duty. -/
theorem TableDone.interOpen_eq_false (hfree : InterFree s) : interOpen u = false := by
  obtain ⟨hbound, htb, -, hchannel⟩ := hfree
  have hother : u.here.table.any (fun p =>
      rangesMeet s.here.larg0.toNat (4 * s.here.larg1.toNat) p.toNat 512) = false := by
    rw [List.any_eq_false]
    intro p hp
    obtain ⟨d, hd, rfl⟩ := hu.mem_table hp
    exact Bool.eq_false_iff.mp (hchannel d hd).1
  obtain ⟨hlarg0, hibLen, hlarg2, htbLen⟩ := hu.ranges
  simp only [interOpen, hu.meetsBound, hibLen, htbLen, hlarg0, hlarg2, planarLen, Config.blockFrames, Nat.reduceMul,
    hbound, htb, hother, Bool.or_self]

end

end Sys2Proof.Machine

/-! PROOFS. The copies of the transpose engine (spec R192 to R196): what DEINT and INTER leave in MEM, and that one
undoes the other. -/

namespace Sys2Proof.Machine

/-! ## The copies (R192, R193) -/

theorem deintOpen_copying {u v : State} {pos : EnginePos} {x : List Byte} (hv : Elsewhere u v)
    (hq : v.here = u.here.copying pos x) (c : Nat) : deintOpen v c = deintOpen u c := by
  simp only [deintOpen, hv.meetsBound (by rw [hq]; exact ⟨rfl, rfl, rfl, rfl⟩)]
  rw [hq]
  rfl

theorem interOpen_copying {u v : State} {pos : EnginePos} {x : List Byte} (hv : Elsewhere u v)
    (hq : v.here = u.here.copying pos x) : interOpen v = interOpen u := by
  simp only [interOpen, hv.meetsBound (by rw [hq]; exact ⟨rfl, rfl, rfl, rfl⟩)]
  rw [hq]
  rfl

/-- The copies of a DEINT, channel by channel (R192). -/
theorem copyLoop_deint (u : State) : CopyLoop (micro .deint) u u.here (128 * u.here.channels) 4
    (fun k => interleavedAddr u.here (k % 128) (k / 128)) (fun k => planarAddr u.here (k % 128) (k / 128))
    (fun k _ => deintOpen u (k / 128)) .finish := by
  refine ⟨fun v k x _ hq _ => ?_, fun v k x hv hq _ => ?_⟩
  · simp only [micro, microDeint, hq, Port.copying]
    rfl
  · have hopen := deintOpen_copying hv hq (k / 128)
    simp only [micro, microDeint, hq, Port.copying, Config.blockFrames, hopen]
    rfl

/-- The copies of an INTER, frame by frame (R193). -/
theorem copyLoop_inter (u : State) : CopyLoop (micro .inter) u u.here (128 * u.here.channels) 4
    (fun k => planarAddr u.here (k / u.here.channels) (k % u.here.channels))
    (fun k => interleavedAddr u.here (k / u.here.channels) (k % u.here.channels)) (fun _ _ => interOpen u) .finish := by
  refine ⟨fun v k x _ hq _ => ?_, fun v k x hv hq _ => ?_⟩
  · simp only [micro, microInter, hq, Port.copying]
    rfl
  · have hopen := interOpen_copying hv hq
    simp only [micro, microInter, hq, Port.copying, hopen]
    rfl

/-- The copies of a transpose after its table reads, none where K = 0 (R194). -/
theorem TableDone.copies {f : State → State} {s u : State} {src dst : Nat → Nat} {isOpen : Nat → Nat → Bool}
    (hu : TableDone s u) (hs : Fresh s)
    (C : CopyLoop f u u.here (128 * s.here.channels) 4 src dst isOpen .finish) :
    ∃ v x, runPort f (2 * (128 * s.here.channels)) u = v ∧ Elsewhere u v ∧ v.here = u.here.copying .finish x ∧
      SameRaces u v ∧ Copied u u v 0 (128 * s.here.channels) 4 src dst isOpen := by
  have hpos : u.here.pos = if s.here.channels = 0 then .finish else .copyRead 0 := by rw [hu.here]
  rcases hk : 128 * s.here.channels with _ | m
  · rw [if_pos (by omega)] at hpos
    refine ⟨u, u.here.elem, rfl, Elsewhere.refl u, ?_, ⟨fun _ => rfl, rfl⟩, fun _ _ => rfl,
      fun _ _ k _ _ hk => absurd hk (Nat.not_lt_zero k)⟩
    rw [Port.copying, ← hpos]
  · rw [if_neg (by omega)] at hpos
    have hstart : u.here = u.here.copying (.copyRead 0) u.here.elem := by rw [Port.copying, ← hpos]
    rw [hk] at C
    obtain ⟨v, x, hrun, hv, hhere, hraces, -, hcopied⟩ :=
      C.run (hu.elsewhere.exists hs.1.1) m u 0 _ (Elsewhere.refl u) hstart (by omega) ⟨fun _ => rfl, rfl⟩ 0
    rw [Nat.zero_add, runPort_zero] at hrun
    exact ⟨v, x, hrun, hv, hhere, hraces, hcopied⟩

/-- What the copies after the table reads leave in MEM, said of the state before the command. -/
theorem TableDone.copied {s u t : State} {n e : Nat} {src dst src' dst' : Nat → Nat} {isOpen : Nat → Nat → Bool}
    (hu : TableDone s u) (h : Copied u u t 0 n e src dst isOpen) (hsrc : ∀ k, k < n → src k = src' k)
    (hdst : ∀ k, k < n → dst k = dst' k) : Copied s s t 0 n e src' dst' isOpen := by
  obtain ⟨houtside, hcopy⟩ := h
  refine ⟨fun a ha => ?_, fun hfrom hto k j hzero hk hj => ?_⟩
  · rw [houtside a fun k hzero hk => hdst k hk ▸ ha k hzero hk, hu.mem]
  · have hkey := hcopy (fun k l hk hl => by rw [hdst k hk, hsrc l hl]; exact hfrom k l hk hl)
      (fun k l hk hl => by rw [hdst k hk, hdst l hl]; exact hto k l hk hl) k j hzero hk hj
    rwa [hdst k hk, hsrc k hk, hu.mem, hu.elsewhere.agent, hu.races.mayRace, hu.races.1] at hkey

/-- A transpose whose operands and pointers pass their checks completes with RES0 = L (R94, R192, R193): after its table
reads in `u`, its copies leave MEM as they do, and the port's own events bring no race. -/
theorem answers_transpose {i : Instr} {s : State} {src dst : State → Nat → Nat} {isOpen : State → Nat → Nat → Bool}
    (hi : i = .deint ∨ i = .inter) (hs : Fresh s) (hx : XposeOk s) (hq : TableQuiet s)
    (C : ∀ u, CopyLoop (micro i) u u.here (128 * u.here.channels) 4 (src u) (dst u) (isOpen u) .finish) :
    ∃ u, TableDone s u ∧ Answers i s ({ s.here with res0 := s.here.larg1 } : Port).finished (fun t =>
      SameRaces s t ∧ Copied u u t 0 (128 * s.here.larg3.toNat) 4 (src u) (dst u) (isOpen u)) := by
  obtain ⟨u, hrun, hu⟩ := (tablePhase_of_operands hi hs hx.1).done hs hq hx.2
  have hchannels : u.here.channels = s.here.channels := by rw [hu.here]; rfl
  obtain ⟨v, x, hrun', hv, hhere, hraces, hcopied⟩ := hu.copies hs (hchannels ▸ C u)
  have hsv := hu.elsewhere.trans hv
  have hfinish : v.here.pos = .finish := by rw [hhere]; rfl
  refine ⟨u, hu, v.finishStep { v.here with res0 := v.here.larg1 }, ?_, ?_, hsv.trans (elsewhere_finishStep v _),
    ⟨fun m => ?_, hraces.2.trans hu.races.2⟩, hcopied⟩
  · rw [exec_runPort, stepBound_transpose hi, show 2 + s.here.channels + 256 * s.here.channels =
      0 + 1 + 2 * (128 * s.here.channels) + (s.here.channels + 1) by omega, runPort_after hrun, runPort_after hrun',
      runPort_finish _ v _ 0 (hsv.exists hs.1.1) hfinish (micro_transpose_finish hi hfinish)]
  · rw [State.here_finish_eq v _ (hsv.exists hs.1.1), hhere, hu.here]
    rfl
  · rw [State.finishStep_order, Order.finish_racy, ← hu.elsewhere.agent, hraces.1, hu.elsewhere.agent, hu.races.1]

/-! ## What DEINT and INTER leave in MEM (R192, R193) -/

/-- MEM after a DEINT (R192): only bytes of the channel buffers differ, and where the buffers keep R196's duty and no
access races, each channel buffer holds its samples. -/
def Deinterleaved (s t : State) : Prop :=
  (∀ a, (∀ c, c < s.here.larg3.toNat → ¬ ((s.chan c).toNat ≤ a ∧ a < (s.chan c).toNat + 512)) →
    t.mem.read a = s.mem.read a) ∧
  (DeintFree s → ChannelsApart s → ∀ c j b, c < s.here.larg3.toNat → j < 128 → b < 4 →
    t.mem.read ((s.chan c).toNat + 4 * j + b) =
      s.mem.read (s.here.larg0.toNat + 4 * (j * s.here.larg3.toNat + c) + b))

/-- MEM after an INTER (R193): only bytes of the interleaved buffer differ, and where the buffers keep R196's duty and
no access races, it holds the samples of every channel. -/
def Interleaved (s t : State) : Prop :=
  (∀ a, ¬ (s.here.larg0.toNat ≤ a ∧ a < s.here.larg0.toNat + 4 * s.here.larg1.toNat) →
    t.mem.read a = s.mem.read a) ∧
  (InterFree s → ∀ c j b, c < s.here.larg3.toNat → j < 128 → b < 4 →
    t.mem.read (s.here.larg0.toNat + 4 * (j * s.here.larg3.toNat + c) + b) =
      s.mem.read ((s.chan c).toNat + 4 * j + b))

/-- Sample `j` of channel `c` is one of the 128·K of the interleaved buffer (R191). -/
theorem interleaved_sample_lt {j c K : Nat} (hj : j < 128) (hc : c < K) : j * K + c < K * 128 := by
  have hrow := mul_add_le_mul j 128 K hj
  omega

section
variable {s u t : State} (hu : TableDone s u) (hlen : s.here.larg1.toNat = s.here.larg3.toNat * 128)
include hu hlen

/-- Copy `k` of a DEINT writes sample `k % 128` of channel `k / 128` (R192). -/
theorem TableDone.deinterleaved (h : Copied u u t 0 (128 * s.here.larg3.toNat) 4
      (fun k => Machine.interleavedAddr u.here (k % 128) (k / 128))
      (fun k => Machine.planarAddr u.here (k % 128) (k / 128)) (fun k _ => deintOpen u (k / 128))) :
    Deinterleaved s t := by
  have hcopied := hu.copied h (fun k _ => hu.interleavedAddr (k % 128) (k / 128))
    fun k hk => hu.planarAddr (c := k / 128) (by omega) (k % 128)
  simp only [Copied] at hcopied
  obtain ⟨houtside, hcopy⟩ := hcopied
  refine ⟨fun a ha => houtside a fun k _ hk hin => ha (k / 128) (by omega) (by omega),
    fun hfree hapart c j b hc hj hb => ?_⟩
  have hopen := hu.deintOpen_eq_false hfree hapart hc
  obtain ⟨hib, hchannel⟩ := hfree
  have hquiet := (hchannel c hc).2.2.2 (4 * j + b) (by omega)
  have hsample := interleaved_sample_lt hj hc
  have hsource := hib (4 * (j * s.here.larg3.toNat + c) + b) (by omega)
  have hkey := hcopy (fun k l hk hl => ?_) (fun k l hk hl hne => ?_) (c * 128 + j) b (Nat.zero_le _) (by omega) hb
  · simp only [show (c * 128 + j) % 128 = j by omega, show (c * 128 + j) / 128 = c by omega, Nat.add_assoc] at hkey ⊢
    exact hkey hopen hsource ((Order.mayRace_eq_false _ _ _).mp hquiet).1
  · obtain ⟨-, hoff, -, -⟩ := hchannel (k / 128) (by omega)
    rw [rangesMeet_eq_false] at hoff
    have hlast := interleaved_sample_lt (j := l % 128) (c := l / 128) (K := s.here.larg3.toNat) (by omega) (by omega)
    omega
  · by_cases hsame : k / 128 = l / 128
    · rw [hsame]
      omega
    · have hoff := hapart (k / 128) (by omega) (l / 128) (by omega) hsame
      rw [rangesMeet_eq_false] at hoff
      omega

/-- Copy `k` of an INTER writes sample `k` of the interleaved buffer (R193). -/
theorem TableDone.interleaved (h : Copied u u t 0 (128 * s.here.larg3.toNat) 4
      (fun k => Machine.planarAddr u.here (k / u.here.channels) (k % u.here.channels))
      (fun k => Machine.interleavedAddr u.here (k / u.here.channels) (k % u.here.channels))
      (fun _ _ => interOpen u)) : Interleaved s t := by
  have hchannels : u.here.channels = s.here.larg3.toNat := by rw [hu.here]; rfl
  rw [hchannels] at h
  have hmod {k : Nat} (hk : k < 128 * s.here.larg3.toNat) : k % s.here.larg3.toNat < s.here.larg3.toNat :=
    Nat.mod_lt k (by omega)
  have hdiv {k : Nat} (hk : k < 128 * s.here.larg3.toNat) : k / s.here.larg3.toNat < 128 :=
    Nat.div_lt_of_lt_mul (by rwa [Nat.mul_comm])
  have hcopied := hu.copied h (dst' := fun k => s.here.larg0.toNat + 4 * k)
    (fun k hk => hu.planarAddr (hmod hk) (k / s.here.larg3.toNat))
    fun k _ => (hu.interleavedAddr _ _).trans (by rw [Nat.div_add_mod'])
  simp only [Copied] at hcopied
  obtain ⟨houtside, hcopy⟩ := hcopied
  refine ⟨fun a ha => houtside a fun k _ hk hin => ha (by omega), fun hfree c j b hc hj hb => ?_⟩
  have hopen := hu.interOpen_eq_false hfree
  obtain ⟨-, -, hib, hchannel⟩ := hfree
  have hsource := (hchannel c hc).2 (4 * j + b) (by omega)
  have hsample := interleaved_sample_lt hj hc
  have hquiet := hib (4 * (j * s.here.larg3.toNat + c) + b) (by omega)
  have hkey := hcopy (fun k l hk hl => ?_) (fun k l hk hl hne => by omega) (j * s.here.larg3.toNat + c) b
    (Nat.zero_le _) (by omega) hb
  · have hrow : (j * s.here.larg3.toNat + c) / s.here.larg3.toNat = j := by
      rw [Nat.mul_comm, Nat.mul_add_div (by omega), Nat.div_eq_of_lt hc, Nat.add_zero]
    have hcolumn : (j * s.here.larg3.toNat + c) % s.here.larg3.toNat = c := by
      rw [Nat.mul_comm, Nat.mul_add_mod, Nat.mod_eq_of_lt hc]
    simp only [hrow, hcolumn, Nat.add_assoc] at hkey ⊢
    exact hkey hopen hsource ((Order.mayRace_eq_false _ _ _).mp hquiet).1
  · obtain ⟨hoff, -⟩ := hchannel (l % s.here.larg3.toNat) (hmod hl)
    rw [rangesMeet_eq_false] at hoff
    have hlast := hdiv hl
    omega

end

section
variable {s : State} (hs : Fresh s) (hx : XposeOk s) (hq : TableQuiet s)
include hs hx hq

theorem answers_deint :
    Answers .deint s ({ s.here with res0 := s.here.larg1 } : Port).finished (Deinterleaved s) := by
  obtain ⟨u, hu, hanswers⟩ := answers_transpose (.inl rfl) hs hx hq copyLoop_deint
  exact hanswers.imp fun t ⟨_, hcopied⟩ => hu.deinterleaved hx.1.2.1 hcopied

theorem answers_inter : Answers .inter s ({ s.here with res0 := s.here.larg1 } : Port).finished
    (fun t => SameRaces s t ∧ Interleaved s t) := by
  obtain ⟨u, hu, hanswers⟩ := answers_transpose (.inr rfl) hs hx hq copyLoop_inter
  exact hanswers.imp fun t ⟨hraces, hcopied⟩ => ⟨hraces, hu.interleaved hx.1.2.1 hcopied⟩

end

/-- Settles O53: the table reads, then the copies of `copyLoop_deint`. -/
theorem deintResult : Obligations.DeintResult := fun _ => answers_deint

/-- Settles O54: the table reads, then the copies of `copyLoop_inter`. -/
theorem interResult : Obligations.InterResult := fun _ hs hx hq =>
  (answers_inter hs hx hq).imp fun _ ⟨_, hmem⟩ => hmem

/-! ## INTER, then DEINT (R195) -/

/-- What a transpose is given in `u` is what it is given in `s`: operands, channel pointers, bound segments, and where
the executing port races. -/
structure SameTranspose (s u : State) : Prop where
  cfg : u.cfg = s.cfg
  agent : u.agent = s.agent
  ib : u.here.larg0 = s.here.larg0
  len : u.here.larg1 = s.here.larg1
  tb : u.here.larg2 = s.here.larg2
  channels : u.here.larg3 = s.here.larg3
  chan : ∀ c, c < s.here.larg3.toNat → u.chan c = s.chan c
  mayRace : ∀ m, u.order.mayRace s.agent m = s.order.mayRace s.agent m
  meetsBound : ∀ a n, u.meetsBound a n = s.meetsBound a n

section
variable {s u : State} (h : SameTranspose s u)
include h

theorem SameTranspose.xposeOk (hx : XposeOk s) : XposeOk u := by
  obtain ⟨hoperands, hpointers⟩ := hx
  simp only [XposeOk, XposeOperands, PointerOk, h.cfg, h.ib, h.len, h.tb, h.channels]
  exact ⟨hoperands, fun c hc => by rw [h.chan c hc]; exact hpointers c hc⟩

theorem SameTranspose.tableQuiet (hq : TableQuiet s) : TableQuiet u := by
  simpa only [TableQuiet, Quiet, h.agent, h.tb, h.channels, h.mayRace] using hq

theorem SameTranspose.deintFree (hfree : DeintFree s) : DeintFree u := by
  obtain ⟨hib, hchannel⟩ := hfree
  simp only [DeintFree, Quiet, h.agent, h.ib, h.len, h.tb, h.channels, h.mayRace, h.meetsBound]
  exact ⟨hib, fun c hc => by rw [h.chan c hc]; exact hchannel c hc⟩

theorem SameTranspose.channelsApart (hapart : ChannelsApart s) : ChannelsApart u := by
  intro c hc d hd
  rw [h.channels] at hc hd
  rw [h.chan c hc, h.chan d hd]
  exact hapart c hc d hd

end

/-- After an INTER the port, put to its decode step with another table that lies off the interleaved buffer, is given
what it would have been given before: the INTER wrote only the interleaved buffer, and raced with nothing of its own. -/
theorem sameTranspose_after_inter {s t : State} {tb : Word} (hs : Fresh s) (ht : Elsewhere s t)
    (hhere : t.here = ({ s.here with res0 := s.here.larg1 } : Port).finished) (hraces : SameRaces s t)
    (hmem : Interleaved s t) (hapart : TableApart (s.setHere { s.here with larg2 := tb })) :
    SameTranspose (s.setHere { s.here with larg2 := tb })
      (t.setHere { t.here with larg2 := tb, pos := .decode }) := by
  have hcur := hs.1.1
  have hs2 := State.here_setHere s { s.here with larg2 := tb } hcur
  have ht2 := State.here_setHere t { t.here with larg2 := tb, pos := .decode } (ht.exists hcur)
  have hbound : t.here.bound = s.here.bound := by
    rw [hhere]
    exact Port.flag_finished _ (by decide) (by decide)
  obtain ⟨hib, hlen, hchannels⟩ : t.here.larg0 = s.here.larg0 ∧ t.here.larg1 = s.here.larg1 ∧
      t.here.larg3 = s.here.larg3 := by
    rw [hhere]
    exact ⟨rfl, rfl, rfl⟩
  refine ⟨ht.1, ht.agent, by rwa [ht2, hs2], by rwa [ht2, hs2], by rw [ht2, hs2], by rwa [ht2, hs2], fun c hc => ?_,
    hraces.mayRace, fun a n => ?_⟩
  · simp only [TableApart, rangesMeet_eq_false, hs2] at hapart hc
    simp only [State.chan, ht2, hs2]
    exact Memory.readWord_congr _ _ _ fun x hlow hhigh => hmem.1 x (by omega)
  · rw [(ht.trans (elsewhere_setHere t _)).meetsBound, (elsewhere_setHere s _).meetsBound]
    · rw [hs2]
      exact ⟨rfl, rfl, rfl, rfl⟩
    · rw [ht2]
      refine ⟨hbound, ?_, ?_, ?_⟩
      all_goals
        rw [hhere]
        rfl

/-- Settles O55: the DEINT finds what it would have found before the INTER, but for the interleaved buffer, which now
holds the samples of the first table's channels. -/
theorem transposeRoundTrip : Obligations.TransposeRoundTrip := by
  intro s tb hs hx hq hfree s2 hx2 hq2 hapart hfree2 hchannels2
  obtain ⟨t, hinter, hhere, ht, hraces, hmem⟩ := answers_inter hs hx hq
  have hsame := sameTranspose_after_inter hs ht hhere hraces hmem hapart
  have hcur := ht.exists hs.1.1
  have ht2 := State.here_setHere t { t.here with larg2 := tb, pos := .decode } hcur
  have hfresh : Fresh (t.setHere { t.here with larg2 := tb, pos := .decode }) := by
    refine ⟨⟨(elsewhere_setHere t _).exists hcur, by rw [ht2]⟩, ?_, ?_⟩
    all_goals
      rw [ht2, hhere]
      rfl
  obtain ⟨u, hdeint, -, -, hmem2⟩ := answers_deint hfresh (hsame.xposeOk hx2) (hsame.tableQuiet hq2)
  refine ⟨t, u, hinter, hdeint, fun c j hc hj => ?_⟩
  have hs2 : s2.here = _ := State.here_setHere s { s.here with larg2 := tb } hs.1.1
  have hc2 : c < s2.here.larg3.toNat := by rwa [hs2]
  have hsample := hmem2.2 (hsame.deintFree hfree2) (hsame.channelsApart hchannels2) c (j / 4) (j % 4)
    (by rwa [hsame.channels]) (by omega) (by omega)
  have hinterleaved := hmem.2 hfree c (j / 4) (j % 4) hc (by omega) (by omega)
  rw [hsame.chan c hc2, hsame.ib, hsame.channels, hs2] at hsample
  have hkey := hsample.trans hinterleaved
  rwa [Nat.add_assoc, Nat.add_assoc, Nat.div_add_mod] at hkey

end Sys2Proof.Machine

/-! PROOFS. What a command leaves alone (spec R43, R217), the `raise` step (R203), and that an error comes before the
command has changed anything (R204). -/

namespace Sys2Proof.Machine

/-! ## The other ports, and the `raise` step (R203, R217) -/

/-- Settles O28: every micro-step of the command leaves everything else alone, and so does running them. -/
theorem commandsTouchOnlyTheirPort : Obligations.CommandsTouchOnlyTheirPort := by
  intro i s t hexec
  rw [exec_runPort] at hexec
  cases hexec
  exact runPort_induct (micro i) (Elsewhere s) (fun u hu => hu.trans (moved_micro i u).1) _ s (Elsewhere.refl s)

/-- A failed check is followed by `raise`, in a command and in a word that is none (R93, R96, R203). -/
theorem portMicro_raising {s : State} {e : ErrCode} {info : Word} (hp : s.here.pos = .raising e info) :
    portMicro s = s.raise e info := by
  unfold portMicro
  split
  next i _ => exact micro_raising hp
  next => simp only [microIllegal, hp]

/-- Settles O29: the step is `raise`, whose registers are those of R203, code by code. -/
theorem raiseEndsTheCommand : Obligations.RaiseEndsTheCommand := by
  intro s e info hc hp
  rw [portMicro_raising hp]
  refine ⟨(State.here_raise_failed s e info hc).trans ?_, elsewhere_raise s e info, rfl, rfl⟩
  cases e <;> rfl

/-! ## The steps up to a command's last check (R93, R131, R191) -/

/-- Where a command goes on from a decode step whose checks pass (R93). -/
def firstPos (i : Instr) (q : Port) : EnginePos :=
  match i with
  | .bind _ _ _ init => if init then .initWr else .finish
  | .wspanCommit _ => .publish
  | .deint | .inter => xposeStart q
  | .nop | .size _ | .capacity => .finish
  | .empty | .full | .availRead | .availWrite | .push | .pop | .wspanAcq | .aenq | .adeq | .penq _ | .pdeq => .loadRd

section
variable {i : Instr} {s : State}

theorem micro_decode (hp : s.here.pos = .decode) :
    micro i s = s.decodeStep (check i s.cfg s.here) (firstPos i s.here) := by
  cases i
  all_goals
    simp only [micro, microNop, microBind, microSize, microEmpty, microFull, microCapacity, microAvailRead,
      microAvailWrite, microIndexQuery, microPush, microPop, microAenq, microAdeq, microPushBody, microPopBody,
      microWspanAcq, microWspanCommit, microPenq, microPdeq, microDeint, microInter, hp, check, firstPos]

theorem micro_loadRd (hi : loadsIndices i = true) (hp : s.here.pos = .loadRd) : micro i s = s.loadRdStep := by
  cases i
  case capacity | wspanCommit | nop | bind | size | deint | inter => cases hi
  all_goals
    simp only [micro, microEmpty, microFull, microAvailRead, microAvailWrite, microIndexQuery, microPush, microPop,
      microAenq, microAdeq, microPushBody, microPopBody, microWspanAcq, microPenq, microPdeq, hp]

theorem micro_loadWr (hi : loadsIndices i = true) (hp : s.here.pos = .loadWr) :
    micro i s = s.loadWrStep (loadNext i) := by
  cases i
  case capacity | wspanCommit | nop | bind | size | deint | inter => cases hi
  all_goals
    simp only [micro, microEmpty, microFull, microAvailRead, microAvailWrite, microIndexQuery, microPush, microPop,
      microAenq, microAdeq, microPushBody, microPopBody, microWspanAcq, microPenq, microPdeq, loadNext, hp]

theorem micro_tableRead {c : Nat} (hi : i = .deint ∨ i = .inter) (hp : s.here.pos = .tableRead c) :
    micro i s = xposeTableStep s c := by
  rcases hi with rfl | rfl
  · simp only [micro, microDeint, hp]
  · simp only [micro, microInter, hp]

end

/-! ## Past the last check no error comes (R204) -/

/-- The engine has no check left to make, and none has failed: it writes, publishes, reads what it copies, or has
ended. -/
def EnginePos.pastChecks (pos : EnginePos) : Bool :=
  match pos with
  | .decode | .loadRd | .loadWr | .tableRead _ | .raising _ _ => false
  | .idle | .initWr | .initRd | .copyRead _ | .copyWrite _ | .recordWrite _ | .recordRead _ | .publish | .finish => true

/-- The engine stands where command `i` has a check before it, or where one has failed: at the decode step (R93), at an
index load (R131), at a table entry (R191) or at `raise` (R203). -/
inductive ChecksAt (i : Instr) (q : Port) : Prop
  | decode (hp : q.pos = .decode)
  | loadRd (hi : loadsIndices i = true) (hp : q.pos = .loadRd)
  | loadWr (hi : loadsIndices i = true) (hp : q.pos = .loadWr)
  | tableRead (c : Nat) (hi : i = .deint ∨ i = .inter) (hc : c < q.channels) (hp : q.pos = .tableRead c)
  | raising (e : ErrCode) (info : Word) (hp : q.pos = .raising e info)

/-- A step that leaves its port at `pos` is past its checks where `pos` is. -/
theorem pastChecks_of_ports {s t : State} {q : Port} (hc : s.cur < s.ports.length) (hcur : t.cur = s.cur)
    (hports : t.ports = s.ports.set s.cur q) (hq : q.pos.pastChecks = true) : t.here.pos.pastChecks = true := by
  have hhere : t.here = q := by
    rw [State.here, State.port, hcur, hports]
    exact State.port_set_same s s.cur q hc
  rwa [hhere]

theorem pastChecks_ite {p : Prop} [Decidable p] {a b : EnginePos} (ha : a.pastChecks = true)
    (hb : b.pastChecks = true) : (if p then a else b).pastChecks = true := by
  split
  · exact ha
  · exact hb

/-- Past its last check a command comes to no check again, and to no `raise`: each of its micro-steps is one at a check,
which is not taken here, or does nothing, or leaves the engine past the checks. -/
theorem micro_pastChecks (i : Instr) {s : State} (hc : s.cur < s.ports.length) (h : s.here.pos.pastChecks = true) :
    (micro i s).here.pos.pastChecks = true := by
  cases i
  all_goals
    simp only [micro, microNop, microBind, microSize, microEmpty, microFull, microCapacity, microAvailRead,
      microAvailWrite, microIndexQuery, microPush, microPop, microAenq, microAdeq, microPushBody, microPopBody,
      microWspanAcq, microWspanCommit, microPenq, microPdeq, microDeint, microInter, xposeAfter]
    split
  all_goals
    next hp =>
      first
        | exact absurd h (ne_of_eq_of_ne (congrArg EnginePos.pastChecks hp) Bool.false_ne_true)
        | exact h
        | exact pastChecks_of_ports hc rfl rfl rfl
        | exact pastChecks_of_ports hc rfl rfl (pastChecks_ite rfl rfl)

/-- Only `raise` sets ERR (R30, R203). -/
theorem PortMicro.err_kept {cfg : Config} {c : Option Instr} {q r : Port} (h : PortMicro cfg c q r)
    (hq : ∀ e info, q.pos ≠ .raising e info) : r.flag .err = q.flag .err := by
  have hend : ∀ a : Port, a.ending.atRest.flag .err = a.flag .err := fun a => Port.flag_ending a .err
  cases h with
  | checked | failed | loadedRd | loadedWr | worked => rfl
  | raised e info hp => exact absurd hp (hq e info)
  | answered a b d hp => exact hend _
  | rebound kind proto role init hc hp => exact (hend _).trans (Port.flag_setFlag _ .bound .err true)
  | acquired hc hp => exact (hend _).trans (Port.flag_setFlag _ .grant .err true)
  | committed dflt hc hp => exact (hend _).trans (Port.flag_setFlag _ .grant .err false)

theorem micro_err_kept {i : Instr} {s : State} (hp : ∀ e info, s.here.pos ≠ .raising e info) :
    (micro i s).here.flag .err = s.here.flag .err := by
  rcases (Relation.reflGen_iff _ _ _).mp (moved_micro i s).2 with heq | hstep
  · rw [heq]
  · exact hstep.err_kept hp

/-! ## A command that has only checked (R93, R204) -/

/-- A memory event that may come before an error of command `i`, started in `s`: an index load, or a read inside the
channel-pointer table (R131, R191, R204). -/
def CheckEvent (i : Instr) (s : State) (ev : MemEvent) : Prop :=
  ev.agent = s.agent ∧
    ((ev.kind = .load ∧ loadsIndices i = true ∧ (ev.addr = s.here.base ∨ ev.addr = s.here.base + 4)) ∨
     (ev.kind = .table ∧ (i = .deint ∨ i = .inter) ∧ s.here.larg2.toNat ≤ ev.addr ∧
      ev.addr + ev.len ≤ s.here.larg2.toNat + 4 * s.here.larg3.toNat))

/-- From `s` to `t` command `i` has written no byte and published no index, and made no memory event but those that its
checks need; its port still names the same segment and the same table. -/
structure OnlyChecked (i : Instr) (s t : State) : Prop where
  elsewhere : Elsewhere s t
  base : t.here.base = s.here.base
  tb : t.here.larg2 = s.here.larg2
  channels : t.here.larg3 = s.here.larg3
  mem : t.mem = s.mem
  released : t.order.released = s.order.released
  trace : ∃ es, t.order.trace = es ++ s.order.trace ∧ ∀ ev ∈ es, CheckEvent i s ev

section
variable {i : Instr} {s t u : State}

theorem OnlyChecked.refl : OnlyChecked i s s := ⟨Elsewhere.refl s, rfl, rfl, rfl, rfl, rfl, [], rfl, by simp⟩

theorem OnlyChecked.checkEvent (h : OnlyChecked i s t) {ev : MemEvent} (hev : CheckEvent i t ev) :
    CheckEvent i s ev := by
  simpa only [CheckEvent, h.elsewhere.agent, h.base, h.tb, h.channels] using hev

theorem OnlyChecked.trans (h : OnlyChecked i s t) (k : OnlyChecked i t u) : OnlyChecked i s u := by
  obtain ⟨es, hes, hchecked⟩ := h.trace
  obtain ⟨fs, hfs, hchecked'⟩ := k.trace
  refine ⟨h.elsewhere.trans k.elsewhere, k.base.trans h.base, k.tb.trans h.tb, k.channels.trans h.channels,
    k.mem.trans h.mem, k.released.trans h.released, fs ++ es, by rw [hfs, hes, List.append_assoc], fun ev hev => ?_⟩
  rcases List.mem_append.mp hev with hev | hev
  · exact h.checkEvent (hchecked' ev hev)
  · exact hchecked ev hev

/-- Before its finish step a command leaves the binding and the operands as they are (R111). -/
theorem PortMicro.operands_kept {cfg : Config} {c : Option Instr} {q r : Port} (h : PortMicro cfg c q r)
    (hp : q.pos ≠ .finish) : r.base = q.base ∧ r.larg2 = q.larg2 ∧ r.larg3 = q.larg3 := by
  cases h with
  | checked | failed | loadedRd | loadedWr | worked | raised => exact ⟨rfl, rfl, rfl⟩
  | answered _ _ _ hf | rebound _ _ _ _ _ hf | acquired _ hf | committed _ _ hf => exact absurd hf hp

/-- A micro-step before the finish step that leaves MEM and the published words as they are, and makes no event but of
checks. -/
theorem onlyChecked_micro (hp : s.here.pos ≠ .finish) (hmem : (micro i s).mem = s.mem)
    (hreleased : (micro i s).order.released = s.order.released)
    (htrace : ∃ es, (micro i s).order.trace = es ++ s.order.trace ∧ ∀ ev ∈ es, CheckEvent i s ev) :
    OnlyChecked i s (micro i s) := by
  obtain ⟨helse, hmoves⟩ := moved_micro i s
  obtain ⟨hbase, htb, hchannels⟩ : (micro i s).here.base = s.here.base ∧ (micro i s).here.larg2 = s.here.larg2 ∧
      (micro i s).here.larg3 = s.here.larg3 := by
    rcases (Relation.reflGen_iff _ _ _).mp hmoves with heq | hstep
    · rw [heq]; exact ⟨rfl, rfl, rfl⟩
    · exact hstep.operands_kept hp
  exact ⟨helse, hbase, htb, hchannels, hmem, hreleased, htrace⟩

/-- A micro-step before the finish step that makes the one memory event of its check, a read. -/
theorem onlyChecked_event {kind : EventKind} {x n : Nat} (hp : s.here.pos ≠ .finish) (hmem : (micro i s).mem = s.mem)
    (hreleased : (micro i s).order.released = s.order.released)
    (htrace : (micro i s).order.trace = (s.order.record s.agent kind x n).trace)
    (hev : (kind = .load ∧ loadsIndices i = true ∧ (x = s.here.base ∨ x = s.here.base + 4)) ∨
      (kind = .table ∧ (i = .deint ∨ i = .inter) ∧ s.here.larg2.toNat ≤ x ∧
        x + n ≤ s.here.larg2.toNat + 4 * s.here.larg3.toNat)) : OnlyChecked i s (micro i s) := by
  rw [Order.record_trace] at htrace
  exact onlyChecked_micro hp hmem hreleased ⟨[_], htrace, List.forall_mem_singleton.mpr ⟨rfl, hev⟩⟩

/-- One micro-step at a check: it writes nothing and publishes nothing, and its only event is the load or the table read
that it checks (R93, R131, R191, R203). -/
theorem ChecksAt.onlyChecked (h : ChecksAt i s.here) : OnlyChecked i s (micro i s) := by
  cases h with
  | decode hp =>
    have horder : (micro i s).order = s.order := by rw [micro_decode hp, State.decodeStep_order]
    refine onlyChecked_micro (by rw [hp]; simp) ?_ (by rw [horder]) ⟨[], by rw [horder]; rfl, by simp⟩
    rw [micro_decode hp, State.decodeStep_mem]
  | loadRd hi hp =>
    refine onlyChecked_event (x := s.here.riAddr) (n := 4) (by rw [hp]; simp) ?_ ?_ ?_ (.inl ⟨rfl, hi, .inr rfl⟩)
    all_goals rw [micro_loadRd hi hp]
    · rw [State.loadRdStep_mem]
    · rw [State.loadRdStep_order, Order.loaded_released]
    · rw [State.loadRdStep_order, Order.loaded_trace]
  | loadWr hi hp =>
    refine onlyChecked_event (x := s.here.wiAddr) (n := 4) (by rw [hp]; simp) ?_ ?_ ?_ (.inl ⟨rfl, hi, .inl rfl⟩)
    all_goals rw [micro_loadWr hi hp]
    · rw [State.loadWrStep_mem]
    · rw [State.loadWrStep_order, Order.loaded_released]
    · rw [State.loadWrStep_order, Order.loaded_trace]
  | tableRead c hi hc hp =>
    have hend : tableAddr s.here c + 4 ≤ s.here.larg2.toNat + 4 * s.here.larg3.toNat := by
      simp only [Port.channels] at hc
      simp only [tableAddr]
      omega
    refine onlyChecked_event (x := tableAddr s.here c) (by rw [hp]; simp) ?_ ?_ ?_
      (.inr ⟨rfl, hi, Nat.le_add_right _ _, hend⟩)
    all_goals
      rw [micro_tableRead hi hp]
      rfl
  | raising e info hp =>
    refine onlyChecked_micro (by rw [hp]; simp) ?_ ?_ ⟨[], ?_, by simp⟩
    all_goals
      rw [micro_raising hp]
      rfl

/-! ## From check to check (R93, R131, R191) -/

/-- LoadIndices leads past the last check, or to PARTIAL_RECORD (R182). -/
theorem loadNext_pastChecks (i : Instr) (q : Port) :
    (loadNext i q).pastChecks = true ∨ ∃ e info, loadNext i q = .raising e info := by
  cases i with
  | push | aenq => exact .inl (pastChecks_ite rfl (pastChecks_ite rfl rfl))
  | pop | adeq => exact .inl (pastChecks_ite rfl (pastChecks_ite rfl rfl))
  | penq => exact .inl (pastChecks_ite rfl rfl)
  | pdeq =>
    simp only [loadNext, pdeqNext]
    split
    · exact .inl rfl
    · split
      · exact .inr ⟨_, _, rfl⟩
      · exact .inl rfl
  | _ => exact .inl rfl

/-- A decode step whose checks pass leads to the first load or the first table read, or past the last check. -/
theorem firstPos_checksAt (i : Instr) (q : Port) :
    ChecksAt i { q with pos := firstPos i q } ∨ (firstPos i q).pastChecks = true := by
  cases i with
  | bind => exact .inr (pastChecks_ite rfl rfl)
  | nop | size | capacity | wspanCommit => exact .inr rfl
  | deint | inter =>
    by_cases hk : q.channels = 0
    · exact .inr (by rw [firstPos, xposeStart, if_pos hk]; rfl)
    · exact .inl (.tableRead 0 (by simp) (Nat.pos_of_ne_zero hk) (if_neg hk))
  | _ => exact .inl (.loadRd rfl rfl)

/-- A check that passes leads to the next one or past the last, and one that fails to `raise`. -/
theorem ChecksAt.next (h : ChecksAt i s.here) (hc : s.cur < s.ports.length)
    (hr : ∀ e info, s.here.pos ≠ .raising e info) :
    ChecksAt i (micro i s).here ∨ (micro i s).here.pos.pastChecks = true := by
  cases h with
  | decode hp =>
    rw [micro_decode hp]
    cases check i s.cfg s.here with
    | some r =>
      rw [State.decodeStep, State.here_goto _ _ hc]
      exact .inl (.raising r.1 r.2 rfl)
    | none =>
      rw [State.decodeStep_none, State.here_goto _ _ hc]
      exact firstPos_checksAt i s.here
  | loadRd hi hp =>
    rw [micro_loadRd hi hp, State.here_loadRdStep s hc]
    exact .inl (.loadWr hi rfl)
  | loadWr hi hp =>
    rw [micro_loadWr hi hp, State.here_loadWrStep s _ hc]
    simp only [State.afterLoads]
    split
    next e info _ => exact .inl (.raising e info rfl)
    next =>
      rcases loadNext_pastChecks i s.loadedWr with hpast | ⟨e, info, hraise⟩
      · exact .inr hpast
      · exact .inl (.raising e info hraise)
  | tableRead c hi hk hp =>
    rw [micro_tableRead hi hp, xposeTableStep, State.here_setHere _ _ (by exact hc)]
    dsimp only
    split
    next e info _ => exact .inl (.raising e info rfl)
    next =>
      split
      next hk' => exact .inl (.tableRead (c + 1) hi hk' rfl)
      next => exact .inr rfl
  | raising e info hp => exact absurd hp (hr e info)

end

/-! ## Running to the error (R204) -/

/-- Where a command that started in `s` with ERR = 0 stands: at its checks, having only checked; past them, with no
error; or ended by an error, having only checked. -/
inductive Precise (i : Instr) (s u : State) : Prop
  | checking (hat : ChecksAt i u.here) (herr : u.here.flag .err = false) (honly : OnlyChecked i s u)
  | passed (hpast : u.here.pos.pastChecks = true) (herr : u.here.flag .err = false) (helse : Elsewhere s u)
  | failed (hidle : u.here.pos = .idle) (hbusy : u.here.flag .busy = false) (honly : OnlyChecked i s u)

section
variable {i : Instr} {s u : State}

/-- A command at its checks goes on to the next one, past the last, or ends by its error (R93, R203, R204). -/
theorem Precise.micro_checking (hc : u.cur < u.ports.length) (hat : ChecksAt i u.here)
    (herr : u.here.flag .err = false) (honly : OnlyChecked i s u) : Precise i s (micro i u) := by
  have honly' := honly.trans hat.onlyChecked
  by_cases hraise : ∃ e info, u.here.pos = .raising e info
  · obtain ⟨e, info, hp⟩ := hraise
    have hhere : (micro i u).here = (u.here.raised e info).atRest := by
      rw [micro_raising hp, State.here_raise u e info hc]; rfl
    refine .failed (by rw [hhere]; rfl) ?_ honly'
    rw [hhere]
    exact Port.flag_raised u.here e info .busy
  · have hr : ∀ e info, u.here.pos ≠ .raising e info := fun e info hp => hraise ⟨e, info, hp⟩
    have herr' : (micro i u).here.flag .err = false := (micro_err_kept hr).trans herr
    rcases hat.next hc hr with hnext | hpast
    · exact .checking hnext herr' honly'
    · exact .passed hpast herr' honly'.elsewhere

/-- Past its checks a command goes on without an error (R204). -/
theorem Precise.micro_passed (hc : u.cur < u.ports.length) (hpast : u.here.pos.pastChecks = true)
    (herr : u.here.flag .err = false) (helse : Elsewhere s u) : Precise i s (micro i u) := by
  refine .passed (micro_pastChecks i hc hpast) ((micro_err_kept fun e info hp => ?_).trans herr)
    (helse.trans (moved_micro i u).1)
  rw [hp] at hpast
  cases hpast

/-- An idle port stays as it is however long it runs, and each micro-step of a working one keeps `Precise`. -/
theorem precise_runPort (hc : s.cur < s.ports.length) (k : Nat) (h : Precise i s u) :
    Precise i s (runPort (micro i) k u) := by
  induction k generalizing u with
  | zero => exact h
  | succ k ih =>
    by_cases hi : u.here.pos = .idle
    · rwa [runPort_idle _ _ u hi]
    · rw [runPort_succ _ k u hi]
      refine ih ?_
      cases h with
      | checking hat herr honly => exact .micro_checking (honly.elsewhere.exists hc) hat herr honly
      | passed hpast herr helse => exact .micro_passed (helse.exists hc) hpast herr helse
      | failed hidle => exact absurd hidle hi

/-- A command that ends with an error has only checked, and has left its port idle (R204). -/
theorem Precise.of_err (h : Precise i s u) (herr : u.here.flag .err = true) :
    u.here.pos = .idle ∧ u.here.flag .busy = false ∧ OnlyChecked i s u := by
  cases h with
  | checking _ hno => cases hno.symm.trans herr
  | passed _ hno => cases hno.symm.trans herr
  | failed hidle hbusy honly => exact ⟨hidle, hbusy, honly⟩

end

/-- Settles O31: an error comes only from a check, and up to its last check a command has only checked. -/
theorem errorsArePrecise : Obligations.ErrorsArePrecise := by
  intro i s t hs herr hexec herr'
  obtain ⟨hc, hp⟩ := hs
  rw [exec_runPort] at hexec
  cases hexec
  have hrun := precise_runPort hc (stepBound i s.here) (.checking (.decode hp) herr (OnlyChecked.refl (i := i)))
  obtain ⟨hidle, hbusy, honly⟩ := hrun.of_err herr'
  exact ⟨honly.mem, honly.released, hidle, hbusy, honly.trace⟩

end Sys2Proof.Machine

/-! PROOFS. What RST leaves (spec R230 to R233), and that the machine at power-on is sound (R230 to R232). -/

namespace Sys2Proof.Machine

/-- Every register of a port reads 0 after reset, and so does every reserved offset (R28, R230). -/
theorem Port.readReg_reset : Port.reset.readReg = fun _ => 0 := by
  funext off
  unfold Port.readReg
  split <;> rfl

/-- A record that has seen no event holds no race (R77). -/
theorem Order.racy_start (nports a m : Nat) : (Order.start nports).racy a m = false := rfl

/-- Settles O16: every port is `Port.reset`, and the record starts anew. -/
theorem resetLeaves : Obligations.ResetLeaves := by
  intro s
  refine ⟨s.rst, rfl, rfl, rfl, rfl, rfl, Order.racy_start _, List.length_map .., fun p => ?_⟩
  rw [State.irq, State.port_rst]
  exact ⟨Port.readReg_reset, rfl, rfl, rfl, rfl, rfl, rfl, rfl, rfl, rfl, rfl, rfl, rfl, rfl, rfl⟩

theorem State.port_powerOn (cfg : Config) (p : Nat) : (State.powerOn cfg).port p = Port.reset := by
  simp only [State.powerOn, State.port, List.getD_eq_getElem?_getD, List.getElem?_replicate]
  split <;> rfl

theorem portsOk_powerOn (cfg : Config) : portsOk (State.powerOn cfg) = true :=
  (portsOk_iff _).mpr ⟨List.length_replicate, fun p => (State.port_powerOn cfg p).symm ▸ Port.sound_reset _⟩

/-- Engines at power-on are idle and hold nothing (R231). -/
theorem enginesInside_powerOn (cfg : Config) : enginesInside (State.powerOn cfg) = true :=
  List.all_eq_true.mpr fun _ hq => (List.eq_of_mem_replicate hq).symm ▸ rfl

theorem orderOk_powerOn (cfg : Config) : orderOk (State.powerOn cfg) = true := by
  rw [orderOk_iff, show (State.powerOn cfg).ports.length = cfg.nports from List.length_replicate]
  exact Order.sound_start cfg.nports

/-- Settles O17: MEM lists no byte, every port is `Port.reset`, and the record has seen no event. -/
theorem powerOnIsSound : Obligations.PowerOnIsSound :=
  ⟨fun cfg => ⟨rfl, portsOk_powerOn cfg, enginesInside_powerOn cfg, orderOk_powerOn cfg⟩, rfl⟩

end Sys2Proof.Machine

/-! PROOFS. Every command ends (spec R82, R94, R251): how many micro-steps it may still need from each position of its
engine, from the finish step back to the decode step. -/

namespace Sys2Proof.Machine

/-! ## What is left to do from the engine's position (R93, R251) -/

/-- The command of the port has ended: it is idle, with BUSY = 0 and DONE = 1 (R94). -/
def Port.Ended (q : Port) : Prop := q.pos = .idle ∧ q.flag .busy = false ∧ q.flag .done = true

/-- From the port `q`, wherever it stands in a machine and whatever MEM holds, command `i` ends in at most `n`
micro-steps. -/
def EndsWithin (i : Instr) (n : Nat) (q : Port) : Prop :=
  ∀ u : State, u.cur < u.ports.length → u.here = q → (runPort (micro i) n u).here.Ended

section
variable {i : Instr} {n : Nat} {q : Port}

/-- An ended command stays ended. -/
theorem EndsWithin.mono (h : EndsWithin i n q) {m : Nat} (hm : n ≤ m) : EndsWithin i m q := by
  intro u hc hq
  obtain ⟨k, rfl⟩ := Nat.exists_eq_add_of_le hm
  have hend := h u hc hq
  rwa [runPort_add, runPort_idle _ k _ hend.1]

/-- One micro-step, and what is left after it. -/
theorem EndsWithin.step (hp : q.pos ≠ .idle)
    (h : ∀ u : State, u.cur < u.ports.length → u.here = q → EndsWithin i n (micro i u).here) :
    EndsWithin i (n + 1) q := by
  intro u hc hq
  rw [runPort_succ _ n u (hq ▸ hp)]
  exact h u hc hq _ ((moved_micro i u).1.exists hc) rfl

/-! ## The last steps of a command (R94, R203) -/

theorem micro_finish {u : State} (hp : u.here.pos = .finish) : ∃ r, micro i u = u.finishStep r := by
  cases i
  all_goals
    simp only [micro, microNop, microBind, microSize, microEmpty, microFull, microCapacity, microAvailRead,
      microAvailWrite, microIndexQuery, microPush, microPop, microAenq, microAdeq, microPushBody, microPopBody,
      microWspanAcq, microWspanCommit, microPenq, microPdeq, microDeint, microInter, hp]
    exact ⟨_, rfl⟩

theorem endsWithin_finish (hp : q.pos = .finish) : EndsWithin i (n + 1) q := by
  intro u hc hq
  obtain ⟨r, hr⟩ := micro_finish (i := i) (u := u) (hq ▸ hp)
  rw [runPort_finish _ u r n hc (hq ▸ hp) hr, State.here_finish_eq u r hc]
  exact ⟨rfl, Port.flag_ending r .busy, Port.flag_ending r .done⟩

theorem endsWithin_raising {e : ErrCode} {info : Word} (hp : q.pos = .raising e info) : EndsWithin i (n + 1) q := by
  intro u hc hq
  have hpos : u.here.pos = .raising e info := hq ▸ hp
  rw [runPort_raise _ u e info n hc hpos (micro_raising hpos), State.here_raise u e info hc]
  exact ⟨rfl, Port.flag_raised _ e info .busy, Port.flag_raised _ e info .done⟩

/-- The command has a store that publishes an index (R66). -/
def publishes (i : Instr) : Bool :=
  match i with
  | .push | .pop | .wspanCommit _ | .aenq | .adeq | .penq _ | .pdeq => true
  | .nop | .bind _ _ _ _ | .size _ | .empty | .full | .capacity | .availRead | .availWrite | .wspanAcq | .deint
  | .inter => false

theorem micro_publish (hi : publishes i = true) {u : State} (hp : u.here.pos = .publish) :
    ∃ x v, micro i u = u.publishStep x v := by
  cases i
  case nop | bind | size | empty | full | capacity | availRead | availWrite | wspanAcq | deint | inter => cases hi
  all_goals
    simp only [micro, microPush, microPop, microAenq, microAdeq, microPushBody, microPopBody, microWspanCommit,
      microPenq, microPdeq, hp]
    exact ⟨_, _, rfl⟩

theorem endsWithin_publish (hi : publishes i = true) (hp : q.pos = .publish) : EndsWithin i (n + 2) q := by
  refine .step (by simp [hp]) fun u hc hq => ?_
  obtain ⟨x, v, hpub⟩ := micro_publish hi (u := u) (hq ▸ hp)
  rw [hpub, State.here_publishStep u x v hc]
  exact endsWithin_finish rfl

/-! ## The first steps of a command (R93, R131) -/

/-- A decode step ends in a failed check, or goes on. -/
theorem endsWithin_decode (hp : q.pos = .decode) (h : EndsWithin i (n + 1) { q with pos := firstPos i q }) :
    EndsWithin i (n + 2) q := by
  refine .step (by simp [hp]) fun u hc hq => ?_
  subst hq
  rw [micro_decode hp]
  cases check i u.cfg u.here with
  | some r =>
    rw [State.decodeStep, State.here_goto u _ hc]
    exact endsWithin_raising rfl
  | none =>
    rw [State.decodeStep_none, State.here_goto u _ hc]
    exact h

/-- The second event of LoadIndices ends in an index out of range, or goes on from indices in range (R131). -/
theorem endsWithin_loadWr (hi : loadsIndices i = true) (hp : q.pos = .loadWr)
    (h : ∀ r : Port, r.larg1 = q.larg1 → r.slots = q.slots → r.lrd.toNat < r.nslots →
      EndsWithin i (n + 1) { r with pos := loadNext i r }) : EndsWithin i (n + 2) q := by
  refine .step (by simp [hp]) fun u hc hq => ?_
  subst hq
  rw [micro_loadWr hi hp, State.here_loadWrStep u _ hc, State.afterLoads]
  split
  · exact endsWithin_raising rfl
  next hvalid => exact h u.loadedWr rfl rfl ((Port.indexError_none _).mp hvalid).1

/-- LoadIndices takes two micro-steps, after a decode step. -/
theorem endsWithin_loads (hi : loadsIndices i = true) (hp : q.pos = .decode)
    (h : ∀ r : Port, r.larg1 = q.larg1 → r.slots = q.slots → r.lrd.toNat < r.nslots →
      EndsWithin i (n + 1) { r with pos := loadNext i r }) : EndsWithin i (n + 4) q := by
  have hfirst : firstPos i q = .loadRd := by
    cases i
    case capacity | wspanCommit | nop | bind | size | deint | inter => cases hi
    all_goals rfl
  refine endsWithin_decode hp (hfirst ▸ .step (by simp) fun u hc hq => ?_)
  have hpos : u.here.pos = .loadRd := hq ▸ rfl
  rw [micro_loadRd hi hpos, State.here_loadRdStep u hc, hq]
  exact endsWithin_loadWr hi rfl h

/-! ## The copies (R9, R140, R145, R192, R193) -/

/-- The commands that copy elements. -/
def copies (i : Instr) : Bool :=
  match i with
  | .push | .pop | .aenq | .adeq | .deint | .inter => true
  | .nop | .bind _ _ _ _ | .size _ | .empty | .full | .capacity | .availRead | .availWrite | .wspanAcq
  | .wspanCommit _ | .penq _ | .pdeq => false

/-- Where a command goes on after its last copy: the transposes publish nothing (R140, R192). -/
def copyLast (i : Instr) : EnginePos := if publishes i then .publish else .finish

theorem micro_copyRead (hi : copies i = true) {u : State} {k : Nat} (hp : u.here.pos = .copyRead k) :
    ∃ x e, micro i u = u.copyReadStep x e (.copyWrite k) := by
  cases i
  case nop | bind | size | empty | full | capacity | availRead | availWrite | wspanAcq | wspanCommit | penq | pdeq =>
    cases hi
  all_goals
    simp only [micro, microPush, microPop, microAenq, microAdeq, microPushBody, microPopBody, microDeint, microInter,
      hp]
    exact ⟨_, _, rfl⟩

theorem micro_copyWrite (hi : copies i = true) {u : State} {k : Nat} (hp : u.here.pos = .copyWrite k) :
    ∃ x f, micro i u =
      u.copyWriteStep x f (if k + 1 < copyCount i u.here then .copyRead (k + 1) else copyLast i) := by
  cases i
  case nop | bind | size | empty | full | capacity | availRead | availWrite | wspanAcq | wspanCommit | penq | pdeq =>
    cases hi
  all_goals
    simp only [micro, microPush, microPop, microAenq, microAdeq, microPushBody, microPopBody, microDeint, microInter,
      hp]
    exact ⟨_, _, rfl⟩

/-- The copies a command makes are counted without its engine. -/
theorem copyCount_engine (i : Instr) (q : Port) (pos : EnginePos) (x : List Byte) :
    copyCount i { q with pos := pos, elem := x } = copyCount i q := by
  cases i <;> rfl

/-- One copy is two micro-steps. -/
theorem endsWithin_copy (hi : copies i = true) {k : Nat} (hp : q.pos = .copyRead k)
    (h : ∀ x, EndsWithin i n
      { q with pos := if k + 1 < copyCount i q then .copyRead (k + 1) else copyLast i, elem := x }) :
    EndsWithin i (n + 2) q := by
  refine .step (by simp [hp]) fun u hc hq => ?_
  obtain ⟨x, e, hread⟩ := micro_copyRead hi (u := u) (hq ▸ hp)
  rw [hread, State.here_copyReadStep u x e _ hc, hq]
  refine .step (by simp) fun v hd hr => ?_
  obtain ⟨y, f, hwrite⟩ := micro_copyWrite hi (u := v) (k := k) (hr ▸ rfl)
  rw [hwrite, State.here_copyWriteStep v y f _ hd, hr, copyCount_engine]
  exact h _

/-- The copies that are left, two micro-steps each, and what follows them. -/
theorem endsWithin_copies (hi : copies i = true)
    (hlast : ∀ r : Port, r.pos = copyLast i → EndsWithin i n r) (m : Nat) :
    ∀ (q : Port) (k : Nat), q.pos = .copyRead k → k + (m + 1) = copyCount i q →
      EndsWithin i (n + 2 * (m + 1)) q := by
  induction m with
  | zero =>
    refine fun q k hp hk => endsWithin_copy hi hp fun x => ?_
    rw [if_neg (by omega)]
    exact hlast _ rfl
  | succ m ih =>
    refine fun q k hp hk => endsWithin_copy hi hp fun x => ?_
    rw [if_pos (by omega)]
    exact ih _ (k + 1) rfl (by rw [copyCount_engine]; omega)

/-- All copies of a command, if it makes any. -/
theorem endsWithin_allCopies (hi : copies i = true) (hlast : ∀ r : Port, r.pos = copyLast i → EndsWithin i n r)
    (hp : q.pos = .copyRead 0) (hn : 0 < copyCount i q) : EndsWithin i (n + 2 * copyCount i q) q := by
  obtain ⟨m, hm⟩ : ∃ m, copyCount i q = m + 1 := ⟨copyCount i q - 1, by omega⟩
  rw [hm]
  exact endsWithin_copies hi hlast m q 0 hp (by omega)

/-! ## The records and the channel-pointer table (R181, R182, R191) -/

/-- A loop of `m + 1` micro-steps more, each of which goes on to the next or leaves the command at most `n` steps from
its end. -/
theorem endsWithin_loop {P : Nat → Port → Prop} {N : Nat} (hidle : ∀ k r, P k r → r.pos ≠ .idle)
    (h : ∀ (u : State) (k : Nat), u.cur < u.ports.length → P k u.here →
      (k + 1 < N ∧ P (k + 1) (micro i u).here) ∨ EndsWithin i n (micro i u).here) (m : Nat) :
    ∀ (q : Port) (k : Nat), P k q → k + (m + 1) = N → EndsWithin i (n + (m + 1)) q := by
  induction m with
  | zero =>
    refine fun q k hP hk => .step (hidle k q hP) fun u hc hq => ?_
    rcases h u k hc (hq ▸ hP) with ⟨hlt, -⟩ | hend
    · omega
    · exact hend
  | succ m ih =>
    refine fun q k hP hk => .step (hidle k q hP) fun u hc hq => ?_
    rcases h u k hc (hq ▸ hP) with ⟨-, hnext⟩ | hend
    · exact ih _ (k + 1) hnext (by omega)
    · exact hend.mono (Nat.le_add_right n _)

/-- The five bytes of a record one after another, then the publishing store and the finish step (R181, R182). -/
theorem endsWithin_record {pos : Nat → EnginePos} (hi : publishes i = true) (hidle : ∀ k, pos k ≠ .idle)
    (h : ∀ (u : State) (k : Nat), u.cur < u.ports.length → u.here.pos = pos k →
      (micro i u).here.pos = if k + 1 < Config.recordSize then pos (k + 1) else .publish)
    (hp : q.pos = pos 0) : EndsWithin i 7 q := by
  refine endsWithin_loop (P := fun k r => r.pos = pos k) (N := Config.recordSize) (n := 2)
    (fun k r hr => hr ▸ hidle k) (fun u k hc hk => ?_) 4 q 0 hp rfl
  have hnext := h u k hc hk
  split at hnext
  next hlt => exact .inl ⟨hlt, hnext⟩
  next => exact .inr (endsWithin_publish hi hnext)

theorem endsWithin_recordWrite {pidx : BitVec 8} (hp : q.pos = .recordWrite 0) : EndsWithin (.penq pidx) 7 q := by
  refine endsWithin_record rfl (pos := .recordWrite) (by simp) (fun u k hc hk => ?_) hp
  simp only [micro, microPenq, hk]
  rw [State.here_goto _ _ (by exact hc)]

theorem endsWithin_recordRead (hp : q.pos = .recordRead 0) : EndsWithin .pdeq 7 q := by
  refine endsWithin_record rfl (pos := .recordRead) (by simp) (fun u k hc hk => ?_) hp
  simp only [micro, microPdeq, hk]
  rw [State.here_setHere _ _ (by exact hc)]

/-- The copies of a transpose, 128 for each channel, and its finish step (R192, R193). -/
theorem endsWithin_transposeCopies (hi : i = .deint ∨ i = .inter) (hp : q.pos = .copyRead 0) (hk : 0 < q.channels) :
    EndsWithin i (1 + 256 * q.channels) q := by
  have hcopies : copies i = true := by rcases hi with rfl | rfl <;> rfl
  have hlast : copyLast i = .finish := by rcases hi with rfl | rfl <;> rfl
  have hcount : copyCount i q = 128 * q.channels := by rcases hi with rfl | rfl <;> rfl
  exact (endsWithin_allCopies (n := 1) hcopies (fun r hr => endsWithin_finish (hr.trans hlast)) hp (by omega)).mono
    (by omega)

/-- The table reads, one for each channel, end in a bad pointer or lead to the copies (R191). -/
theorem endsWithin_tableRead (hi : i = .deint ∨ i = .inter) (hp : q.pos = .tableRead 0) (hk : 0 < q.channels) :
    EndsWithin i (1 + 256 * q.channels + q.channels) q := by
  obtain ⟨m, hm⟩ : ∃ m, q.channels = m + 1 := ⟨q.channels - 1, by omega⟩
  have hloop := endsWithin_loop (i := i) (P := fun k r => r.pos = .tableRead k ∧ r.channels = q.channels)
    (N := q.channels) (n := 1 + 256 * q.channels) (fun k r hr => by simp [hr.1]) ?_ m q 0 ⟨hp, rfl⟩ (by omega)
  · rwa [← hm] at hloop
  rintro u k hc ⟨hpos, hch⟩
  rw [micro_tableRead hi hpos, xposeTableStep, State.here_setHere _ _ (by exact hc)]
  dsimp only
  split
  next => exact .inr ((endsWithin_raising (n := 0) rfl).mono (by omega))
  next =>
    split
    next hlt => exact .inl ⟨hch ▸ hlt, rfl, hch⟩
    next => exact .inr (hch ▸ endsWithin_transposeCopies hi rfl (hch ▸ hk : 0 < u.here.channels))

/-! ## Every command, from its decode step (R251) -/

/-- The commands without an index load, a table or a copy. -/
theorem endsWithin_control (hp : q.pos = .decode)
    (hi : i = .nop ∨ i = .capacity ∨ ∃ kind, i = .size kind) : EndsWithin i 2 q := by
  have hfirst : firstPos i q = .finish := by rcases hi with rfl | rfl | ⟨kind, rfl⟩ <;> rfl
  exact endsWithin_decode hp (endsWithin_finish hfirst)

/-- BIND makes two stores where INIT = 1, and none where it is 0 (R113). -/
theorem endsWithin_bind {kind : BitVec 4} {proto : BitVec 2} {role : Role} {init : Bool} (hp : q.pos = .decode) :
    EndsWithin (.bind kind proto role init) (bindSteps init) q := by
  cases init with
  | false => exact endsWithin_decode hp (endsWithin_finish rfl)
  | true =>
    refine endsWithin_decode hp (.step (by simp [firstPos]) fun u hc hq => ?_)
    have hpos : u.here.pos = .initWr := hq ▸ rfl
    simp only [micro, microBind, hpos]
    rw [State.here_goto _ _ (by exact hc)]
    refine .step (by simp) fun v hd hr => ?_
    have hpos : v.here.pos = .initRd := hr ▸ rfl
    simp only [micro, microBind, hpos]
    rw [State.here_goto _ _ (by exact hd)]
    exact endsWithin_finish rfl

/-- A ring transfer makes at most min(len, S − 1) copies, and publishes (R140, R145, R251). -/
theorem endsWithin_transfer (hp : q.pos = .decode) (hi : i = .push ∨ i = .pop ∨ i = .aenq ∨ i = .adeq) :
    EndsWithin i (transferSteps q) q := by
  have hcopies : copies i = true := by rcases hi with rfl | rfl | rfl | rfl <;> rfl
  have hpublishes : publishes i = true := by rcases hi with rfl | rfl | rfl | rfl <;> rfl
  have hloads : loadsIndices i = true := by rcases hi with rfl | rfl | rfl | rfl <;> rfl
  have hlast : copyLast i = .publish := if_pos hpublishes
  have hsteps : transferSteps q = 1 + 2 * min q.larg1.toNat (q.nslots - 1) + 4 := by
    simp only [transferSteps]; omega
  rw [hsteps]
  refine endsWithin_loads hloads hp fun r hlarg1 hslots hvalid => ?_
  have hcount : copyCount i r ≤ min q.larg1.toNat (q.nslots - 1) := by
    rw [← hlarg1, show q.nslots = r.nslots from congrArg BitVec.toNat hslots.symm]
    have hpos := Nat.zero_lt_of_lt hvalid
    rcases hi with rfl | rfl | rfl | rfl
    · exact le_min (pushCount_le_len r) (pushCount_le r)
    · exact le_min (popCount_le_len r) (popCount_le hpos)
    · exact le_min (pushCount_le_len r) (pushCount_le r)
    · exact le_min (popCount_le_len r) (popCount_le hpos)
  obtain ⟨stop, hnext⟩ : ∃ stop : Bool, loadNext i r =
      if stop then .finish else if copyCount i r = 0 then .publish else .copyRead 0 := by
    rcases hi with rfl | rfl | rfl | rfl <;> exact ⟨_, rfl⟩
  rw [hnext]
  split
  · exact endsWithin_finish rfl
  · split
    · exact (endsWithin_publish (n := 0) hpublishes rfl).mono (by omega)
    next hne =>
      have hrun := endsWithin_allCopies (n := 2) (q := { r with pos := .copyRead 0 }) hcopies
        (fun a ha => endsWithin_publish hpublishes (ha.trans hlast)) rfl
        ((copyCount_engine i r _ r.elem).symm ▸ Nat.pos_of_ne_zero hne)
      exact hrun.mono (by rw [copyCount_engine i r _ r.elem]; omega)

/-- A transpose reads its table, copies, and finishes; with K = 0 it finishes at once (R194, R251). -/
theorem endsWithin_transpose (hp : q.pos = .decode) (hi : i = .deint ∨ i = .inter) :
    EndsWithin i (xposeSteps q) q := by
  have hfirst : firstPos i q = xposeStart q := by rcases hi with rfl | rfl <;> rfl
  have hsteps : xposeSteps q = 256 * q.channels + q.channels + 2 := by simp only [xposeSteps]; omega
  rw [hsteps]
  refine endsWithin_decode hp ?_
  rw [hfirst, xposeStart]
  split
  · exact endsWithin_finish rfl
  next hk =>
    exact (endsWithin_tableRead (q := { q with pos := .tableRead 0 }) hi rfl (Nat.pos_of_ne_zero hk)).mono
      (by show 1 + 256 * q.channels + q.channels ≤ _; omega)

/-- Every command ends within the bound of R251, from its decode step on. -/
theorem endsWithin_stepBound (hp : q.pos = .decode) : EndsWithin i (stepBound i q) q := by
  cases i with
  | nop | capacity | size => exact endsWithin_control hp (by simp)
  | bind kind proto role init => exact endsWithin_bind hp
  | empty | full | availRead | availWrite | wspanAcq =>
    exact endsWithin_loads rfl hp fun _ _ _ _ => endsWithin_finish rfl
  | push | pop | aenq | adeq => exact endsWithin_transfer hp (by simp)
  | wspanCommit dflt => exact endsWithin_decode hp (endsWithin_publish rfl rfl)
  | penq pidx =>
    refine endsWithin_loads (n := 6) rfl hp fun r _ _ _ => ?_
    simp only [loadNext]
    split
    · exact endsWithin_finish rfl
    · exact endsWithin_recordWrite rfl
  | pdeq =>
    refine endsWithin_loads (n := 6) rfl hp fun r _ _ _ => ?_
    simp only [loadNext, pdeqNext]
    split
    · exact endsWithin_finish rfl
    · split
      · exact endsWithin_raising rfl
      · exact endsWithin_recordRead rfl
  | deint | inter => exact endsWithin_transpose hp (by simp)

end

/-- Settles O27: the run of `exec` ends within the bound, whose value is the table's, row by row. -/
theorem everyCommandEnds : Obligations.EveryCommandEnds := by
  rintro i s ⟨hc, hp⟩
  obtain ⟨hidle, hbusy, hdone⟩ := endsWithin_stepBound (i := i) hp s hc rfl
  refine ⟨⟨_, exec_runPort i s, rfl, hidle, hbusy, hdone⟩, ?_⟩
  cases i <;> rfl

end Sys2Proof.Machine

/-! PROOFS. The ARG registers are latched (spec R241): a port's micro-steps neither read nor write them, so a host write
to one of them and a micro-step give the same state in either order. -/

namespace Sys2Proof.Machine

/-! ## A machine with its ARG registers hidden -/

/-- The port with its ARG registers hidden. -/
def Port.hideArgs (q : Port) : Port := { q with arg0 := 0, arg1 := 0, arg2 := 0, arg3 := 0 }

/-- The machine with every ARG register hidden. -/
def State.hideArgs (s : State) : State := { s with ports := s.ports.map Port.hideArgs }

@[simp] theorem Port.hideArgs_pos (q : Port) : q.hideArgs.pos = q.pos := rfl

/-- The two ports agree in their ARG registers. -/
def Port.SameArgs (q r : Port) : Prop := q.arg0 = r.arg0 ∧ q.arg1 = r.arg1 ∧ q.arg2 = r.arg2 ∧ q.arg3 = r.arg3

theorem Port.SameArgs.symm {q r : Port} : q.SameArgs r → r.SameArgs q
  | ⟨h0, h1, h2, h3⟩ => ⟨h0.symm, h1.symm, h2.symm, h3.symm⟩

theorem Port.SameArgs.trans {q r t : Port} : q.SameArgs r → r.SameArgs t → q.SameArgs t
  | ⟨h0, h1, h2, h3⟩, ⟨k0, k1, k2, k3⟩ => ⟨h0.trans k0, h1.trans k1, h2.trans k2, h3.trans k3⟩

theorem Port.eq_of_hideArgs {q r : Port} (h : q.hideArgs = r.hideArgs) (hargs : q.SameArgs r) : q = r := by
  obtain ⟨h0, h1, h2, h3⟩ := hargs
  calc q = { q.hideArgs with arg0 := q.arg0, arg1 := q.arg1, arg2 := q.arg2, arg3 := q.arg3 } := rfl
    _ = { r.hideArgs with arg0 := r.arg0, arg1 := r.arg1, arg2 := r.arg2, arg3 := r.arg3 } := by rw [h, h0, h1, h2, h3]
    _ = r := rfl

theorem State.port_hideArgs (s : State) (p : Nat) : s.hideArgs.port p = (s.port p).hideArgs :=
  List.getD_map (l := s.ports) (d := Port.reset) Port.hideArgs

theorem State.here_hideArgs (s : State) : s.hideArgs.here = s.here.hideArgs := s.port_hideArgs s.cur

/-- Two machines that differ at most in their ARG registers, and not in these, are the same. -/
theorem State.eq_of_hideArgs {s t : State} (h : s.hideArgs = t.hideArgs)
    (hargs : ∀ p, (s.port p).SameArgs (t.port p)) : s = t := by
  have hports : s.ports = t.ports := by
    have hmap : s.ports.map Port.hideArgs = t.ports.map Port.hideArgs := congrArg State.ports h
    refine List.ext_getElem (by simpa using congrArg List.length hmap) fun p hs ht => ?_
    have hport : s.port p = t.port p :=
      Port.eq_of_hideArgs (by rw [← s.port_hideArgs, ← t.port_hideArgs, h]) (hargs p)
    simpa [State.port, List.getD_eq_getElem?_getD, hs, ht] using hport
  calc s = { s.hideArgs with ports := s.ports } := rfl
    _ = { t.hideArgs with ports := t.ports } := by rw [h, hports]
    _ = t := rfl

theorem State.setPort_hideArgs (s : State) (p : Nat) (q : Port) :
    (s.setPort p q).hideArgs = s.hideArgs.setPort p q.hideArgs := by
  simp only [State.hideArgs, State.setPort, List.map_set]

/-! ## The shared micro-steps do not read them (R93, R94, R131, R203) -/

section
variable (s : State)

theorem State.setHere_hideArgs (q : Port) : (s.setHere q).hideArgs = s.hideArgs.setHere q.hideArgs :=
  s.setPort_hideArgs s.cur q

theorem State.goto_hideArgs (pos : EnginePos) : s.hideArgs.goto pos = (s.goto pos).hideArgs := by
  rw [State.goto, State.goto, State.setHere_hideArgs, State.here_hideArgs]
  rfl

theorem State.decodeStep_hideArgs (r : Option (ErrCode × Word)) (pos : EnginePos) :
    s.hideArgs.decodeStep r pos = (s.decodeStep r pos).hideArgs := by
  cases r with
  | none => exact s.goto_hideArgs pos
  | some c => exact s.goto_hideArgs (.raising c.1 c.2)

theorem State.finishStep_hideArgs (q : Port) : s.hideArgs.finishStep q.hideArgs = (s.finishStep q).hideArgs :=
  congrArg (fun t : State => { t with order := s.order.finish s.cur }) (s.setHere_hideArgs q.ending.atRest).symm

theorem State.raise_hideArgs (e : ErrCode) (info : Word) : s.hideArgs.raise e info = (s.raise e info).hideArgs := by
  rw [State.raise, State.here_hideArgs]
  exact congrArg (fun t : State => { t with order := s.order.finish s.cur })
    (s.setHere_hideArgs (s.here.raised e info).atRest).symm

theorem State.loadRdStep_hideArgs : s.hideArgs.loadRdStep = s.loadRdStep.hideArgs := by
  rw [State.loadRdStep, State.loadRdStep, State.setHere_hideArgs, State.here_hideArgs]
  rfl

theorem State.loadWrStep_hideArgs {next : Port → EnginePos} (hn : ∀ q : Port, next q.hideArgs = next q) :
    s.hideArgs.loadWrStep next = (s.loadWrStep next).hideArgs := by
  have hloaded : s.hideArgs.loadedWr = s.loadedWr.hideArgs := by
    rw [State.loadedWr, State.here_hideArgs]
    rfl
  have hpos : s.hideArgs.afterLoads next = s.afterLoads next := by
    rw [State.afterLoads, State.afterLoads, hloaded, hn]
    rfl
  rw [State.loadWrStep_eq, State.loadWrStep_eq, State.setHere_hideArgs, hloaded, hpos, State.here_hideArgs]
  rfl

theorem State.copyReadStep_hideArgs (x n : Nat) (pos : EnginePos) :
    s.hideArgs.copyReadStep x n pos = (s.copyReadStep x n pos).hideArgs := by
  rw [State.copyReadStep, State.copyReadStep, State.setHere_hideArgs, State.here_hideArgs]
  rfl

theorem State.copyWriteStep_hideArgs (x : Nat) (f : Nat → Bool) (pos : EnginePos) :
    s.hideArgs.copyWriteStep x f pos = (s.copyWriteStep x f pos).hideArgs := by
  rw [State.copyWriteStep, State.copyWriteStep, ← State.goto_hideArgs, State.here_hideArgs]
  rfl

theorem xposeTableStep_hideArgs (c : Nat) : xposeTableStep s.hideArgs c = (xposeTableStep s c).hideArgs := by
  rw [xposeTableStep, xposeTableStep, State.setHere_hideArgs, State.here_hideArgs]
  rfl

/-! The overlaps of R71, R141, R146 and R196 are judged by the bindings alone. -/

theorem State.meetsBound_hideArgs (a n : Nat) : s.hideArgs.meetsBound a n = s.meetsBound a n := List.any_map

theorem State.inSegment_hideArgs (m : Nat) : s.hideArgs.inSegment m = s.inSegment m := List.any_map

theorem State.foreignTo_hideArgs (b n e : Nat) : s.hideArgs.foreignTo b n e = s.foreignTo b n e := by
  funext m
  have hothers : s.hideArgs.others = s.others.map Port.hideArgs := List.eraseIdx_map ..
  rw [State.foreignTo, hothers]
  exact List.any_map

theorem State.foreign_hideArgs : s.hideArgs.foreign = s.foreign := by
  funext m
  rw [State.foreign, State.here_hideArgs, State.foreignTo_hideArgs]
  rfl

theorem State.meetsOwn_hideArgs (a n : Nat) : s.hideArgs.meetsOwn a n = s.meetsOwn a n := by
  rw [State.meetsOwn, State.here_hideArgs]
  rfl

theorem pushOpen_hideArgs (e off : Nat) : pushOpen e off s.hideArgs = pushOpen e off s := by
  funext m
  rw [pushOpen, State.foreign_hideArgs, State.meetsOwn_hideArgs, State.here_hideArgs]
  rfl

theorem popOpen_hideArgs (e off : Nat) : popOpen e off s.hideArgs = popOpen e off s := by
  funext m
  rw [popOpen, State.inSegment_hideArgs, State.meetsOwn_hideArgs, State.here_hideArgs]
  rfl

theorem bindForeign_hideArgs (kind : BitVec 4) : bindForeign kind s.hideArgs = bindForeign kind s := by
  funext m
  rw [bindForeign, State.foreignTo_hideArgs, State.here_hideArgs]
  rfl

theorem deintOpen_hideArgs (c : Nat) : deintOpen s.hideArgs c = deintOpen s c := by
  simp only [deintOpen, State.meetsBound_hideArgs, State.here_hideArgs]
  rfl

theorem interOpen_hideArgs : interOpen s.hideArgs = interOpen s := by
  simp only [interOpen, State.meetsBound_hideArgs, State.here_hideArgs]
  rfl

theorem State.publishStep_hideArgs (x v : Nat) : s.hideArgs.publishStep x v = (s.publishStep x v).hideArgs := by
  rw [State.publishStep, State.publishStep, ← State.goto_hideArgs, State.foreign_hideArgs]
  rfl

/-! ## No command reads them (R100, R241) -/

/-- The commands without a memory event. -/
theorem eventless_hideArgs {i : Instr} (hi : i = .nop ∨ i = .capacity ∨ ∃ kind, i = .size kind) :
    micro i s.hideArgs = (micro i s).hideArgs := by
  rcases hi with rfl | rfl | ⟨kind, rfl⟩
  all_goals
    simp only [micro, microNop, microCapacity, microSize, State.here_hideArgs, Port.hideArgs_pos]
    split
    next => exact s.decodeStep_hideArgs _ _
    next => exact s.finishStep_hideArgs { s.here with res0 := _ }
    next => exact s.raise_hideArgs _ _
    all_goals rfl

theorem microBind_hideArgs (kind : BitVec 4) (proto : BitVec 2) (role : Role) (init : Bool) :
    microBind kind proto role init s.hideArgs = (microBind kind proto role init s).hideArgs := by
  simp only [microBind, State.here_hideArgs, Port.hideArgs_pos, bindForeign_hideArgs]
  split
  next => exact s.decodeStep_hideArgs _ _
  next => exact State.goto_hideArgs (s.storeEvent _ _ _ _ _) _
  next => exact State.goto_hideArgs (s.storeEvent _ _ _ _ _) _
  next => exact s.finishStep_hideArgs (bindResult kind proto role s.here)
  next => exact s.raise_hideArgs _ _
  all_goals rfl

theorem microIndexQuery_hideArgs {answer : Port → Word} (ha : ∀ q : Port, answer q.hideArgs = answer q) :
    microIndexQuery answer s.hideArgs = (microIndexQuery answer s).hideArgs := by
  simp only [microIndexQuery, State.here_hideArgs, Port.hideArgs_pos, ha]
  split
  next => exact s.decodeStep_hideArgs _ _
  next => exact s.loadRdStep_hideArgs
  next => exact s.loadWrStep_hideArgs fun _ => rfl
  next => exact s.finishStep_hideArgs { s.here with res0 := answer s.here }
  next => exact s.raise_hideArgs _ _
  all_goals rfl

theorem microWspanAcq_hideArgs : microWspanAcq s.hideArgs = (microWspanAcq s).hideArgs := by
  simp only [microWspanAcq, State.here_hideArgs, Port.hideArgs_pos]
  split
  next => exact s.decodeStep_hideArgs _ _
  next => exact s.loadRdStep_hideArgs
  next => exact s.loadWrStep_hideArgs fun _ => rfl
  next => exact s.finishStep_hideArgs (acqResult s.here)
  next => exact s.raise_hideArgs _ _
  all_goals rfl

theorem microWspanCommit_hideArgs (dflt : Bool) :
    microWspanCommit dflt s.hideArgs = (microWspanCommit dflt s).hideArgs := by
  simp only [microWspanCommit, State.here_hideArgs, Port.hideArgs_pos]
  split
  next => exact s.decodeStep_hideArgs _ _
  next => exact s.publishStep_hideArgs _ _
  next => exact s.finishStep_hideArgs (({ s.here with res0 := commitCount dflt s.here } : Port).setFlag .grant false)
  next => exact s.raise_hideArgs _ _
  all_goals rfl

/-- The ring transfers (R140, R145, R171, R172). -/
theorem transfer_hideArgs {i : Instr} (hi : i = .push ∨ i = .pop ∨ i = .aenq ∨ i = .adeq) :
    micro i s.hideArgs = (micro i s).hideArgs := by
  rcases hi with rfl | rfl | rfl | rfl
  all_goals
    simp only [micro, microPush, microPop, microAenq, microAdeq, microPushBody, microPopBody, State.here_hideArgs,
      Port.hideArgs_pos, pushOpen_hideArgs, popOpen_hideArgs]
    split
    next => exact s.decodeStep_hideArgs _ _
    next => exact s.loadRdStep_hideArgs
    next => exact s.loadWrStep_hideArgs fun _ => rfl
    next => exact s.copyReadStep_hideArgs _ _ _
    next => exact s.copyWriteStep_hideArgs _ _ _
    next => exact s.publishStep_hideArgs _ _
    next => exact s.finishStep_hideArgs { s.here with res0 := _ }
    next => exact s.raise_hideArgs _ _
    all_goals rfl

theorem microPenq_hideArgs (pidx : BitVec 8) : microPenq pidx s.hideArgs = (microPenq pidx s).hideArgs := by
  simp only [microPenq, State.here_hideArgs, Port.hideArgs_pos, State.foreign_hideArgs]
  split
  next => exact s.decodeStep_hideArgs _ _
  next => exact s.loadRdStep_hideArgs
  next => exact s.loadWrStep_hideArgs fun _ => rfl
  next => rw [← State.goto_hideArgs]; rfl
  next => exact s.publishStep_hideArgs _ _
  next => exact s.finishStep_hideArgs { s.here with res0 := _ }
  next => exact s.raise_hideArgs _ _
  all_goals rfl

theorem pdeqResult_hideArgs (q : Port) : pdeqResult q.hideArgs = (pdeqResult q).hideArgs := by
  rw [pdeqResult, pdeqResult, apply_ite Port.hideArgs]
  rfl

theorem microPdeq_hideArgs : microPdeq s.hideArgs = (microPdeq s).hideArgs := by
  simp only [microPdeq, State.here_hideArgs, Port.hideArgs_pos, pdeqResult_hideArgs]
  split
  next => exact s.decodeStep_hideArgs _ _
  next => exact s.loadRdStep_hideArgs
  next => exact s.loadWrStep_hideArgs fun _ => rfl
  next => rw [State.setHere_hideArgs]; rfl
  next => exact s.publishStep_hideArgs _ _
  next => exact s.finishStep_hideArgs (pdeqResult s.here)
  next => exact s.raise_hideArgs _ _
  all_goals rfl

/-- The transposes (R192, R193). -/
theorem transpose_hideArgs {i : Instr} (hi : i = .deint ∨ i = .inter) :
    micro i s.hideArgs = (micro i s).hideArgs := by
  rcases hi with rfl | rfl
  all_goals
    simp only [micro, microDeint, microInter, State.here_hideArgs, Port.hideArgs_pos, deintOpen_hideArgs,
      interOpen_hideArgs]
    split
    next => exact s.decodeStep_hideArgs _ _
    next => exact xposeTableStep_hideArgs s _
    next => exact s.copyReadStep_hideArgs _ _ _
    next => exact s.copyWriteStep_hideArgs _ _ _
    next => exact s.finishStep_hideArgs { s.here with res0 := s.here.larg1 }
    next => exact s.raise_hideArgs _ _
    all_goals rfl

theorem micro_hideArgs (i : Instr) : micro i s.hideArgs = (micro i s).hideArgs := by
  cases i with
  | nop | capacity | size => exact eventless_hideArgs s (by simp)
  | bind kind proto role init => exact microBind_hideArgs s kind proto role init
  | empty | full | availRead | availWrite =>
    simp only [micro, microEmpty, microFull, microAvailRead, microAvailWrite]
    exact microIndexQuery_hideArgs s fun _ => rfl
  | wspanAcq => exact microWspanAcq_hideArgs s
  | wspanCommit dflt => exact microWspanCommit_hideArgs s dflt
  | push | pop | aenq | adeq => exact transfer_hideArgs s (by simp)
  | penq pidx => exact microPenq_hideArgs s pidx
  | pdeq => exact microPdeq_hideArgs s
  | deint | inter => exact transpose_hideArgs s (by simp)

/-- A port's micro-step does not depend on any ARG register (R241). -/
theorem portMicro_hideArgs : portMicro s.hideArgs = (portMicro s).hideArgs := by
  have hcommand : s.hideArgs.here.command? = s.here.command? := by
    rw [State.here_hideArgs]
    rfl
  rw [portMicro, portMicro, hcommand]
  split
  next i _ => exact micro_hideArgs s i
  next =>
    simp only [microIllegal, State.here_hideArgs, Port.hideArgs_pos]
    split
    next => exact s.decodeStep_hideArgs _ _
    next => exact s.raise_hideArgs _ _
    all_goals rfl

end

/-! ## No micro-step writes them, and a host write does (R35, R241) -/

theorem PortMicro.sameArgs {cfg : Config} {c : Option Instr} {q r : Port} (h : PortMicro cfg c q r) :
    r.SameArgs q := by
  cases h <;> exact ⟨rfl, rfl, rfl, rfl⟩

/-- RBC never writes an ARG register (R241). -/
theorem portMicro_sameArgs (s : State) (p : Nat) : ((portMicro s).port p).SameArgs (s.port p) := by
  have hrun := portRun_portMicro s p
  generalize (portMicro s).port p = q at hrun ⊢
  induction hrun with
  | refl => exact ⟨rfl, rfl, rfl, rfl⟩
  | tail _ hstep ih => exact hstep.sameArgs.trans ih

theorem portMicro_length (s : State) : (portMicro s).ports.length = s.ports.length := by
  obtain ⟨⟨-, -, -, -, -, hlen, -⟩, -⟩ := moved_portMicro s
  exact hlen

/-- The same host write to two ports with the same ARG registers leaves them the same (R27). -/
theorem Port.SameArgs.writeReg {q r : Port} (h : q.SameArgs r) (off : Nat) (v : Word) :
    (q.writeReg off v).SameArgs (r.writeReg off v) := by
  obtain ⟨h0, h1, h2, h3⟩ := h
  unfold Port.writeReg
  split
  case h_3 => exact ⟨rfl, h1, h2, h3⟩
  case h_4 => exact ⟨h0, rfl, h2, h3⟩
  case h_5 => exact ⟨h0, h1, rfl, h3⟩
  case h_6 => exact ⟨h0, h1, h2, rfl⟩
  all_goals exact ⟨h0, h1, h2, h3⟩

/-- What a host write to an ARG register does: it is hidden with them, and it gives the one it names the value (R35). -/
theorem Port.writeReg_arg {off : Nat} (h : off ∈ [0x14, 0x18, 0x1C, 0x20]) (q : Port) (v : Word) :
    (q.writeReg off v).hideArgs = q.hideArgs ∧ (q.writeReg off v).busy = q.busy ∧
      (q.writeReg off v).arg0 = (if off = 0x14 then v else q.arg0) ∧
      (q.writeReg off v).arg1 = (if off = 0x18 then v else q.arg1) ∧
      (q.writeReg off v).arg2 = (if off = 0x1C then v else q.arg2) ∧
      (q.writeReg off v).arg3 = (if off = 0x20 then v else q.arg3) := by
  simp only [List.mem_cons, List.not_mem_nil, or_false] at h
  rcases h with rfl | rfl | rfl | rfl
  all_goals exact ⟨rfl, rfl, rfl, rfl, rfl, rfl⟩

/-- A host write to an ARG register and a micro-step, in either order: with the ARG registers hidden the write does
nothing, and the micro-step leaves them as the write did. -/
theorem portMicro_writeArg {p off : Nat} (h : off ∈ [0x14, 0x18, 0x1C, 0x20]) (s : State) (v : Word) :
    portMicro (s.setPort p ((s.port p).writeReg off v)) =
      (portMicro s).setPort p (((portMicro s).port p).writeReg off v) := by
  have hhidden : ∀ u : State, (u.setPort p ((u.port p).writeReg off v)).hideArgs = u.hideArgs := fun u => by
    rw [State.setPort_hideArgs, (Port.writeReg_arg h _ v).1, ← State.port_hideArgs, State.setPort_port]
  refine State.eq_of_hideArgs ?_ fun r => (portMicro_sameArgs _ r).trans ?_
  · rw [← portMicro_hideArgs, hhidden, hhidden, portMicro_hideArgs]
  · rw [State.port_setPort, State.port_setPort, portMicro_length]
    split
    · exact (portMicro_sameArgs s p).symm.writeReg off v
    · exact (portMicro_sameArgs s r).symm

/-- Settles O14: the two orders, the ARG registers along a micro-step, and what the next accepted command copies. -/
theorem argumentsAreLatched : Obligations.ArgumentsAreLatched := by
  intro s p off v hp hoff write
  have hrange : ∀ o ∈ [0x14, 0x18, 0x1C, 0x20], o < 0x80 ∧ o ≠ 0 := by decide
  obtain ⟨hlt, hne⟩ := hrange off hoff
  have hwrite : ∀ u : State, p < u.ports.length → write u = u.setPort p ((u.port p).writeReg off v) :=
    fun u hu => u.writeReg_reg v hu hlt hne
  refine ⟨?_, portMicro_sameArgs s, fun w hbusy => ?_⟩
  · rw [hwrite s hp, hwrite _ (by rwa [portMicro_length])]
    exact portMicro_writeArg hoff s v
  · obtain ⟨-, hkept, hargs⟩ := Port.writeReg_arg hoff (s.port p) v
    have hport : (write s).port p = (s.port p).writeReg off v := by
      rw [hwrite s hp, State.port_setPort, if_pos ⟨rfl, hp⟩]
    have haccepted : ((write s).writeCmd p w).port p = ((s.port p).writeReg off v).accepted w := by
      rw [State.port_writeCmd _ p w (by rw [hwrite s hp]; simpa using hp), hport, hkept, hbusy]
      rfl
    rw [haccepted]
    exact hargs

end Sys2Proof.Machine
